-- ==== Sys2Proof/Word.lean ====
section
/-! DEFINITION. The word types of the Rilsel instruction set and their plainest arithmetic (spec 00 R6, 01 R25). -/

namespace Sys2Proof

/-- A byte of memory. -/
abbrev Byte := BitVec 8

/-- A scalar register's content: 64 bits (R25). -/
abbrev Word := BitVec 64

/-- An instruction word: 32 bits (R204). -/
abbrev Code := BitVec 32

/-- The number of a scalar register, `s0`-`s127` (R207). -/
abbrev SReg := BitVec 7

/-- The number of a run register, `v0`-`v15` (R207). -/
abbrev VReg := BitVec 4

/-- The number of a predicate, `p0`-`p7` (R207). -/
abbrev PReg := BitVec 3

/-- The signed reading of the low `w` bits of `n`. -/
def signedOf (w n : Nat) : Int :=
  let m := n % 2 ^ w
  if m < 2 ^ (w - 1) then (m : Int) else (m : Int) - (2 ^ w : Nat)

/-- The `w`-bit two's complement code of `x`, as a natural number below `2^w`. -/
def codeOf (w : Nat) (x : Int) : Nat := (x % ((2 ^ w : Nat) : Int)).toNat

/-- Bits `hi` down to `lo` of `n`, as a natural number. -/
def bitsOf (hi lo n : Nat) : Nat := n / 2 ^ lo % 2 ^ (hi + 1 - lo)

/-- Bit `i` of `n`. -/
def bitOf (i n : Nat) : Bool := n / 2 ^ i % 2 == 1

/-- `n` with bits `hi` down to `lo` replaced by the low bits of `v`. -/
def setBits (hi lo v n : Nat) : Nat :=
  n / 2 ^ (hi + 1) * 2 ^ (hi + 1) + v % 2 ^ (hi + 1 - lo) * 2 ^ lo + n % 2 ^ lo

/-- The value of a byte sequence, least significant byte first (R6). -/
def ofBytesLE : List Byte → Nat
  | [] => 0
  | b :: bs => b.toNat + 256 * ofBytesLE bs

/-- The `k` bytes of `n`, least significant byte first (R6). -/
def toBytesLE : Nat → Nat → List Byte
  | 0, _ => []
  | k + 1, n => BitVec.ofNat 8 n :: toBytesLE k (n / 256)

/-- The number of one bits among the low `w` bits of `n`. -/
def popCount : Nat → Nat → Nat
  | 0, _ => 0
  | w + 1, n => n % 2 + popCount w (n / 2)

/-- The number of leading zero bits of the low `w` bits of `n`; `w` when they are all zero. -/
def leadingZeros : Nat → Nat → Nat
  | 0, _ => 0
  | w + 1, n => if bitOf w n then 0 else 1 + leadingZeros w n

/-- The number of trailing zero bits of the low `w` bits of `n`; `w` when they are all zero. -/
def trailingZeros : Nat → Nat → Nat
  | 0, _ => 0
  | w + 1, n => if n % 2 == 1 then 0 else 1 + trailingZeros w (n / 2)

/-- A Boolean as the natural number 0 or 1. -/
def bitNat (b : Bool) : Nat := if b then 1 else 0

end Sys2Proof
end

