-- ==== Sys2Proof/Syntax.lean ====
section
/-! DEFINITION. The instruction set: every word of the Rilsel map (spec 08 R209, R212) and every step of the device and
the host that spec/95 lists, one constructor per row of the opcode table. -/

namespace Sys2Proof

/-- The conditions of `CMP` and `CMPI` (R235). -/
inductive Cond where
  | eq | ne | lt | ge | ltu | geu | tst | tstn
  deriving DecidableEq, Repr

/-- The kinds of `SHFI` (R233). -/
inductive ShiftKind where
  | shl | shr | sra | rot
  deriving DecidableEq, Repr

/-- The widths and extensions of `LDX` (R238). -/
inductive LoadWidth where
  | b | h | w | d | bu | hu | wu | q
  deriving DecidableEq, Repr

/-- The widths of `STX` (R238). -/
inductive StoreWidth where
  | b | h | w | d | q
  deriving DecidableEq, Repr

/-- The functions of `AMO.C` and `AMO.G` (R244). -/
inductive AmoOp where
  | add | and | or | xor | min | max | minu | swp
  deriving DecidableEq, Repr

/-- Scopes, from the narrowest to the widest (R248). -/
inductive FenceScope where
  | core | cluster | die | package | pod | system
  deriving DecidableEq, Repr

/-- Fence kinds (R248). -/
inductive FenceKind where
  | full | acq | rel
  deriving DecidableEq, Repr

/-- The conversions of `FCVT`, destination first (R255). -/
inductive FConv where
  | f64i64 | i64f64 | i64f64rtz | f64f32 | f32f64 | f32i64 | i64f32 | i64f32rtz
  deriving DecidableEq, Repr

/-- The conditions of `FCMP` (R256). -/
inductive FCond where
  | eq | lt | le | un
  deriving DecidableEq, Repr

/-- Element types of run registers (R177); code 15 is no type. -/
inductive ElemType where
  | i8 | i16 | i32 | i64 | u8 | u16 | u32 | u64 | f16 | g16 | f32 | f64 | f8 | f4 | b1
  deriving DecidableEq, Repr

/-- The conditions of `VCMP` (R278). -/
inductive VCond where
  | eq | ne | lt | le | gt | ge | un
  deriving DecidableEq, Repr

/-- The reductions of `VRED` (R282). -/
inductive RedOp where
  | add | min | max | and | or | xor | cnt | first
  deriving DecidableEq, Repr

/-- The rounding field of `VCVT` (R280). -/
inductive RoundSel where
  | rne | rtz | rup | rdn | cround
  deriving DecidableEq, Repr

/-- The code of a condition (R235). -/
def Cond.code : Cond → Nat
  | .eq => 0 | .ne => 1 | .lt => 2 | .ge => 3 | .ltu => 4 | .geu => 5 | .tst => 6 | .tstn => 7

/-- The condition of a three-bit code. -/
def Cond.ofCode : Nat → Cond
  | 0 => .eq | 1 => .ne | 2 => .lt | 3 => .ge | 4 => .ltu | 5 => .geu | 6 => .tst | _ => .tstn

/-- The code of a shift kind (R233). -/
def ShiftKind.code : ShiftKind → Nat
  | .shl => 0 | .shr => 1 | .sra => 2 | .rot => 3

/-- The shift kind of a two-bit code. -/
def ShiftKind.ofCode : Nat → ShiftKind
  | 0 => .shl | 1 => .shr | 2 => .sra | _ => .rot

/-- The code of a load width (R209). -/
def LoadWidth.code : LoadWidth → Nat
  | .b => 0 | .h => 1 | .w => 2 | .d => 3 | .bu => 4 | .hu => 5 | .wu => 6 | .q => 7

/-- The load width of a three-bit code. -/
def LoadWidth.ofCode : Nat → LoadWidth
  | 0 => .b | 1 => .h | 2 => .w | 3 => .d | 4 => .bu | 5 => .hu | 6 => .wu | _ => .q

/-- The code of a store width (R209). -/
def StoreWidth.code : StoreWidth → Nat
  | .b => 0 | .h => 1 | .w => 2 | .d => 3 | .q => 4

/-- The store width of a three-bit code; 5 to 7 are unassigned. -/
def StoreWidth.ofCode : Nat → Option StoreWidth
  | 0 => some .b | 1 => some .h | 2 => some .w | 3 => some .d | 4 => some .q | _ => none

/-- The code of an atomic function (R244). -/
def AmoOp.code : AmoOp → Nat
  | .add => 0 | .and => 1 | .or => 2 | .xor => 3 | .min => 4 | .max => 5 | .minu => 6 | .swp => 7

/-- The atomic function of a three-bit code. -/
def AmoOp.ofCode : Nat → AmoOp
  | 0 => .add | 1 => .and | 2 => .or | 3 => .xor | 4 => .min | 5 => .max | 6 => .minu | _ => .swp

/-- The code of a scope (R248). -/
def FenceScope.code : FenceScope → Nat
  | .core => 0 | .cluster => 1 | .die => 2 | .package => 3 | .pod => 4 | .system => 5

/-- The scope of a three-bit code; 6 and 7 are unassigned. -/
def FenceScope.ofCode : Nat → Option FenceScope
  | 0 => some .core | 1 => some .cluster | 2 => some .die | 3 => some .package | 4 => some .pod | 5 => some .system
  | _ => none

/-- The code of a fence kind (R248). -/
def FenceKind.code : FenceKind → Nat
  | .full => 0 | .acq => 1 | .rel => 2

/-- The fence kind of a two-bit code; 3 is unassigned. -/
def FenceKind.ofCode : Nat → Option FenceKind
  | 0 => some .full | 1 => some .acq | 2 => some .rel | _ => none

/-- The code of a scalar conversion (R255). -/
def FConv.code : FConv → Nat
  | .f64i64 => 0 | .i64f64 => 1 | .i64f64rtz => 2 | .f64f32 => 3 | .f32f64 => 4 | .f32i64 => 5 | .i64f32 => 6
  | .i64f32rtz => 7

/-- The scalar conversion of a three-bit code. -/
def FConv.ofCode : Nat → FConv
  | 0 => .f64i64 | 1 => .i64f64 | 2 => .i64f64rtz | 3 => .f64f32 | 4 => .f32f64 | 5 => .f32i64 | 6 => .i64f32
  | _ => .i64f32rtz

/-- The code of a floating-point condition (R256). -/
def FCond.code : FCond → Nat
  | .eq => 0 | .lt => 1 | .le => 2 | .un => 3

/-- The floating-point condition of a two-bit code. -/
def FCond.ofCode : Nat → FCond
  | 0 => .eq | 1 => .lt | 2 => .le | _ => .un

/-- The code of an element type (R177). -/
def ElemType.code : ElemType → Nat
  | .i8 => 0 | .i16 => 1 | .i32 => 2 | .i64 => 3 | .u8 => 4 | .u16 => 5 | .u32 => 6 | .u64 => 7
  | .f16 => 8 | .g16 => 9 | .f32 => 10 | .f64 => 11 | .f8 => 12 | .f4 => 13 | .b1 => 14

/-- The element type of a four-bit code; 15 is illegal. -/
def ElemType.ofCode : Nat → Option ElemType
  | 0 => some .i8 | 1 => some .i16 | 2 => some .i32 | 3 => some .i64 | 4 => some .u8 | 5 => some .u16
  | 6 => some .u32 | 7 => some .u64 | 8 => some .f16 | 9 => some .g16 | 10 => some .f32 | 11 => some .f64
  | 12 => some .f8 | 13 => some .f4 | 14 => some .b1 | _ => none

/-- The code of a vector condition (R278). -/
def VCond.code : VCond → Nat
  | .eq => 0 | .ne => 1 | .lt => 2 | .le => 3 | .gt => 4 | .ge => 5 | .un => 6

/-- The vector condition of a code; 7 to 15 are unassigned. -/
def VCond.ofCode : Nat → Option VCond
  | 0 => some .eq | 1 => some .ne | 2 => some .lt | 3 => some .le | 4 => some .gt | 5 => some .ge | 6 => some .un
  | _ => none

/-- The code of a reduction (R282). -/
def RedOp.code : RedOp → Nat
  | .add => 0 | .min => 1 | .max => 2 | .and => 3 | .or => 4 | .xor => 5 | .cnt => 6 | .first => 7

/-- The reduction of a code; 8 to 15 are unassigned. -/
def RedOp.ofCode : Nat → Option RedOp
  | 0 => some .add | 1 => some .min | 2 => some .max | 3 => some .and | 4 => some .or | 5 => some .xor
  | 6 => some .cnt | 7 => some .first | _ => none

/-- The code of a rounding field (R280). -/
def RoundSel.code : RoundSel → Nat
  | .rne => 0 | .rtz => 1 | .rup => 2 | .rdn => 3 | .cround => 4

/-- The rounding field of a code; 5 to 15 are unassigned. -/
def RoundSel.ofCode : Nat → Option RoundSel
  | 0 => some .rne | 1 => some .rtz | 2 => some .rup | 3 => some .rdn | 4 => some .cround | _ => none

/-- One constructor per row of the opcode table. The first 211 are instruction words; the others are steps of the device
and the host, whose operands name the pending thing that the step concerns. -/
inductive Instr where
  /-- `ADD` (R228): ALU.A function 0. -/
  | add (d : SReg) (a : SReg) (b : SReg)
  /-- `SUB` (R228): ALU.A function 1. -/
  | sub (d : SReg) (a : SReg) (b : SReg)
  /-- `AND` (R228): ALU.A function 2. -/
  | and (d : SReg) (a : SReg) (b : SReg)
  /-- `OR` (R228): ALU.A function 3. -/
  | or (d : SReg) (a : SReg) (b : SReg)
  /-- `XOR` (R228): ALU.A function 4. -/
  | xor (d : SReg) (a : SReg) (b : SReg)
  /-- `ANDN` (R228): ALU.A function 5. -/
  | andn (d : SReg) (a : SReg) (b : SReg)
  /-- `SHL` (R228): ALU.A function 6. -/
  | shl (d : SReg) (a : SReg) (b : SReg)
  /-- `SHR` (R228): ALU.A function 7. -/
  | shr (d : SReg) (a : SReg) (b : SReg)
  /-- `SRA` (R228): ALU.B function 0. -/
  | sra (d : SReg) (a : SReg) (b : SReg)
  /-- `ROT` (R228): ALU.B function 1. -/
  | rot (d : SReg) (a : SReg) (b : SReg)
  /-- `MIN` (R228): ALU.B function 2. -/
  | min (d : SReg) (a : SReg) (b : SReg)
  /-- `MAX` (R228): ALU.B function 3. -/
  | max (d : SReg) (a : SReg) (b : SReg)
  /-- `MINU` (R228): ALU.B function 4. -/
  | minu (d : SReg) (a : SReg) (b : SReg)
  /-- `MAXU` (R228): ALU.B function 5. -/
  | maxu (d : SReg) (a : SReg) (b : SReg)
  /-- `MUL` (R228): ALU.B function 6. -/
  | mul (d : SReg) (a : SReg) (b : SReg)
  /-- `MULH` (R228): ALU.B function 7. -/
  | mulh (d : SReg) (a : SReg) (b : SReg)
  /-- `MULHU` (R228, R229): ALU.C function 0. -/
  | mulhu (d : SReg) (a : SReg) (b : SReg)
  /-- `DIV` (R228, R229): ALU.C function 1. -/
  | div (d : SReg) (a : SReg) (b : SReg)
  /-- `DIVU` (R228, R229): ALU.C function 2. -/
  | divu (d : SReg) (a : SReg) (b : SReg)
  /-- `REM` (R228, R229): ALU.C function 3. -/
  | rem (d : SReg) (a : SReg) (b : SReg)
  /-- `REMU` (R228, R229): ALU.C function 4. -/
  | remu (d : SReg) (a : SReg) (b : SReg)
  /-- `CLZ` (R228): ALU.C function 5. -/
  | clz (d : SReg) (a : SReg)
  /-- `CTZ` (R228): ALU.C function 6. -/
  | ctz (d : SReg) (a : SReg)
  /-- `POPC` (R228): ALU.C function 7. -/
  | popc (d : SReg) (a : SReg)
  /-- `SXB` (R228): ALU.D function 0. -/
  | sxb (d : SReg) (a : SReg)
  /-- `SXH` (R228): ALU.D function 1. -/
  | sxh (d : SReg) (a : SReg)
  /-- `SXW` (R228): ALU.D function 2. -/
  | sxw (d : SReg) (a : SReg)
  /-- `ZXB` (R228): ALU.D function 3. -/
  | zxb (d : SReg) (a : SReg)
  /-- `ZXH` (R228): ALU.D function 4. -/
  | zxh (d : SReg) (a : SReg)
  /-- `ZXW` (R228): ALU.D function 5. -/
  | zxw (d : SReg) (a : SReg)
  /-- `BEXT` (R230): bit-field extract. -/
  | bext (d : SReg) (a : SReg) (b : SReg)
  /-- `BINS` (R230): bit-field insert. -/
  | bins (d : SReg) (a : SReg) (b : SReg)
  /-- `LEA` (R231): scaled add. -/
  | lea (d : SReg) (a : SReg) (b : SReg) (f : BitVec 3)
  /-- `CMP` (R235): compare. -/
  | cmp (pd : PReg) (c : Cond) (a : SReg) (b : SReg)
  /-- `CMPI` (R235): compare with immediate. -/
  | cmpi (pd : PReg) (c : Cond) (a : SReg) (imm : BitVec 10)
  /-- `SEL` (R237): select by predicate. -/
  | sel (d : SReg) (p : PReg) (a : SReg) (b : SReg)
  /-- `ADDI` (R232): immediate arithmetic. -/
  | addi (d : SReg) (a : SReg) (imm : BitVec 10)
  /-- `ANDI` (R232): immediate arithmetic. -/
  | andi (d : SReg) (a : SReg) (imm : BitVec 10)
  /-- `ORI` (R232): immediate arithmetic. -/
  | ori (d : SReg) (a : SReg) (imm : BitVec 10)
  /-- `XORI` (R232): immediate arithmetic. -/
  | xori (d : SReg) (a : SReg) (imm : BitVec 10)
  /-- `SHFI` (R233): shift by immediate. -/
  | shfi (k : ShiftKind) (d : SReg) (a : SReg) (n : BitVec 6)
  /-- `MOVI` (R234): load immediate. -/
  | movi (d : SReg) (imm : BitVec 17)
  /-- `LUI` (R234): load upper immediate. -/
  | lui (d : SReg) (imm : BitVec 17)
  /-- `PAND` (R236): predicate logic. -/
  | pand (pd : PReg) (pa : PReg) (pb : PReg)
  /-- `POR` (R236): predicate logic. -/
  | por (pd : PReg) (pa : PReg) (pb : PReg)
  /-- `PXOR` (R236): predicate logic. -/
  | pxor (pd : PReg) (pa : PReg) (pb : PReg)
  /-- `PANDN` (R236): predicate logic. -/
  | pandn (pd : PReg) (pa : PReg) (pb : PReg)
  /-- `PNOT` (R236): predicate complement. -/
  | pnot (pd : PReg) (pa : PReg)
  /-- `PSET` (R236): predicate set. -/
  | pset (pd : PReg)
  /-- `PCLR` (R236): predicate clear. -/
  | pclr (pd : PReg)
  /-- `LDB` (R238, R239): load. -/
  | ldb (d : SReg) (a : SReg) (off : BitVec 10)
  /-- `LDH` (R238, R239): load. -/
  | ldh (d : SReg) (a : SReg) (off : BitVec 10)
  /-- `LDW` (R238, R239): load. -/
  | ldw (d : SReg) (a : SReg) (off : BitVec 10)
  /-- `LDD` (R238, R239): load. -/
  | ldd (d : SReg) (a : SReg) (off : BitVec 10)
  /-- `LDBU` (R238, R239): load. -/
  | ldbu (d : SReg) (a : SReg) (off : BitVec 10)
  /-- `LDHU` (R238, R239): load. -/
  | ldhu (d : SReg) (a : SReg) (off : BitVec 10)
  /-- `LDWU` (R238, R239): load. -/
  | ldwu (d : SReg) (a : SReg) (off : BitVec 10)
  /-- `LDQ` (R238, R239): load. -/
  | ldq (d : SReg) (a : SReg) (off : BitVec 10)
  /-- `STB` (R238, R239): store. -/
  | stb (s : SReg) (a : SReg) (off : BitVec 10)
  /-- `STH` (R238, R239): store. -/
  | sth (s : SReg) (a : SReg) (off : BitVec 10)
  /-- `STW` (R238, R239): store. -/
  | stw (s : SReg) (a : SReg) (off : BitVec 10)
  /-- `STD` (R238, R239): store. -/
  | std (s : SReg) (a : SReg) (off : BitVec 10)
  /-- `STQ` (R238, R239): store. -/
  | stq (s : SReg) (a : SReg) (off : BitVec 10)
  /-- `LDX` (R238): indexed load. -/
  | ldx (wd : LoadWidth) (d : SReg) (a : SReg) (b : SReg)
  /-- `STX` (R238): indexed store. -/
  | stx (wd : StoreWidth) (s : SReg) (a : SReg) (b : SReg)
  /-- `AMO_C` (R244): atomic, cluster scope. -/
  | amoC (op : AmoOp) (d : SReg) (a : SReg) (b : SReg)
  /-- `AMO_G` (R244): atomic, global scope. -/
  | amoG (op : AmoOp) (d : SReg) (a : SReg) (b : SReg)
  /-- `CAS` (R245): compare and swap: g global scope, q 128-bit. -/
  | cas (g : Bool) (q : Bool) (d : SReg) (a : SReg) (b : SReg)
  /-- `FAADD` (R247): floating-point add at the home: dbl f64, ord ordered. -/
  | faadd (dbl : Bool) (ord : Bool) (d : SReg) (a : SReg) (b : SReg)
  /-- `FENCE` (R248): fence. -/
  | fence (scope : FenceScope) (kind : FenceKind) (e : Bool)
  /-- `BR` (R249): branch. -/
  | br (p : PReg) (n : Bool) (disp : BitVec 20)
  /-- `CALL` (R250): call. -/
  | call (disp : BitVec 24)
  /-- `JMPR` (R251): jump to register. -/
  | jmpr (d : SReg) (a : SReg)
  /-- `FADD_D` (R253): scalar f64 function 0. -/
  | faddD (d : SReg) (a : SReg) (b : SReg)
  /-- `FSUB_D` (R253): scalar f64 function 1. -/
  | fsubD (d : SReg) (a : SReg) (b : SReg)
  /-- `FMUL_D` (R253): scalar f64 function 2. -/
  | fmulD (d : SReg) (a : SReg) (b : SReg)
  /-- `FDIV_D` (R253): scalar f64 function 3. -/
  | fdivD (d : SReg) (a : SReg) (b : SReg)
  /-- `FMIN_D` (R253): scalar f64 function 4. -/
  | fminD (d : SReg) (a : SReg) (b : SReg)
  /-- `FMAX_D` (R253): scalar f64 function 5. -/
  | fmaxD (d : SReg) (a : SReg) (b : SReg)
  /-- `FSQRT_D` (R253): scalar f64 function 6. -/
  | fsqrtD (d : SReg) (a : SReg)
  /-- `FSGN_D` (R253): scalar f64 function 7. -/
  | fsgnD (d : SReg) (a : SReg) (b : SReg)
  /-- `FADD_S` (R253): scalar f32 function 0. -/
  | faddS (d : SReg) (a : SReg) (b : SReg)
  /-- `FSUB_S` (R253): scalar f32 function 1. -/
  | fsubS (d : SReg) (a : SReg) (b : SReg)
  /-- `FMUL_S` (R253): scalar f32 function 2. -/
  | fmulS (d : SReg) (a : SReg) (b : SReg)
  /-- `FDIV_S` (R253): scalar f32 function 3. -/
  | fdivS (d : SReg) (a : SReg) (b : SReg)
  /-- `FMIN_S` (R253): scalar f32 function 4. -/
  | fminS (d : SReg) (a : SReg) (b : SReg)
  /-- `FMAX_S` (R253): scalar f32 function 5. -/
  | fmaxS (d : SReg) (a : SReg) (b : SReg)
  /-- `FSQRT_S` (R253): scalar f32 function 6. -/
  | fsqrtS (d : SReg) (a : SReg)
  /-- `FSGN_S` (R253): scalar f32 function 7. -/
  | fsgnS (d : SReg) (a : SReg) (b : SReg)
  /-- `FFMA` (R254): fused multiply-add: sgl f32, neg subtracting form. -/
  | ffma (sgl : Bool) (neg : Bool) (d : SReg) (a : SReg) (b : SReg)
  /-- `FCVT` (R255): scalar conversion. -/
  | fcvt (c : FConv) (d : SReg) (a : SReg)
  /-- `FCMP` (R256): scalar floating-point compare. -/
  | fcmp (pd : PReg) (c : FCond) (sgl : Bool) (a : SReg) (b : SReg)
  /-- `SPAWN` (R295): spawn a group at once. -/
  | spawn (d : SReg) (a : SReg)
  /-- `SPAWN_Q` (R295): spawn a group through the task queue. -/
  | spawnQ (d : SReg) (a : SReg)
  /-- `RSS` (R305): remote scalar store. -/
  | rss (d : SReg) (a : SReg) (b : SReg)
  /-- `RSS_T` (R305): remote scalar store with translation. -/
  | rssT (d : SReg) (a : SReg) (b : SReg)
  /-- `RSV` (R305): remote run store. -/
  | rsv (vs : VReg) (a : SReg) (b : SReg)
  /-- `RSV_T` (R305): remote run store. -/
  | rsvT (vs : VReg) (a : SReg) (b : SReg)
  /-- `SELF` (R297): group identity. -/
  | self (d : SReg)
  /-- `PARENT` (R297): group identity. -/
  | parent (d : SReg)
  /-- `LANE` (R297): group identity. -/
  | lane (d : SReg)
  /-- `EXIT` (R298): end the thread. -/
  | exit (a : SReg)
  /-- `JOIN` (R86): wait for a group. -/
  | join (d : SReg) (a : SReg)
  /-- `CANCEL` (R300): cancel a group. -/
  | cancel (a : SReg)
  /-- `BARG` (R87): group barrier. -/
  | barg
  /-- `YIELD` (R301): offer the core. -/
  | yield
  /-- `TAKE` (R76): take a register. -/
  | take (d : SReg) (a : SReg)
  /-- `HOLD` (R302): empty a register. -/
  | hold (a : SReg)
  /-- `TEST` (R302): test presence. -/
  | test (pd : PReg) (a : SReg)
  /-- `VTAKE` (R302): take a run register. -/
  | vtake (vd : VReg) (va : VReg)
  /-- `VHOLD` (R302): empty a run register. -/
  | vhold (va : VReg)
  /-- `WLD` (R137): world load. -/
  | wld (vd : VReg) (w : BitVec 2) (key : SReg) (inst : SReg) (pd : PReg)
  /-- `WLD_N` (R137): world load, no wait. -/
  | wldN (vd : VReg) (w : BitVec 2) (key : SReg) (inst : SReg) (pd : PReg)
  /-- `WST` (R133): world store. -/
  | wst (vs : VReg) (w : BitVec 2) (key : SReg) (inst : SReg)
  /-- `WBIND` (R130): bind a world slot. -/
  | wbind (w : BitVec 2) (a : SReg)
  /-- `WCOMMIT` (R134): commit an instant. -/
  | wcommit (w : BitVec 2) (a : SReg)
  /-- `WHOR` (R144): set a horizon. -/
  | whor (w : BitVec 2) (a : SReg)
  /-- `WSTAT` (R309): region status. -/
  | wstat (d : SReg) (w : BitVec 2) (a : SReg)
  /-- `WCLOCK` (R309): region clock. -/
  | wclock (d : SReg) (w : BitVec 2)
  /-- `FORK` (R311): fork a branch of memory. -/
  | fork (d : SReg) (a : SReg) (b : SReg)
  /-- `BRSET` (R313): set the group's branch. -/
  | brset (a : SReg)
  /-- `BRDROP` (R314): drop a branch. -/
  | brdrop (a : SReg)
  /-- `SWAIT` (R257): semaphore. -/
  | swait (s : SReg) (sem : BitVec 8)
  /-- `SADD` (R257): semaphore. -/
  | sadd (s : SReg) (sem : BitVec 8)
  /-- `SSET` (R257): semaphore. -/
  | sset (s : SReg) (sem : BitVec 8)
  /-- `SREAD` (R257): semaphore. -/
  | sread (s : SReg) (sem : BitVec 8)
  /-- `ENQ` (R260): issue a tile command. -/
  | enq (q : BitVec 3) (a : SReg)
  /-- `CSRR` (R262): read a control register. -/
  | csrr (d : SReg) (csr : BitVec 10)
  /-- `CSRW` (R262): write a control register. -/
  | csrw (a : SReg) (csr : BitVec 10)
  /-- `NOP` (R264): nothing. -/
  | nop
  /-- `TRAP` (R264): software trap. -/
  | trap (a : SReg)
  /-- `ERET` (R363): return from a trap handler. -/
  | eret
  /-- `HALT` (R264): stop the thread. -/
  | halt
  /-- `TIME` (R264): read the cycle count. -/
  | time (d : SReg)
  /-- `BREAK` (R264): breakpoint. -/
  | brk
  /-- `VSETL` (R264): set c.vlen. -/
  | vsetl (a : SReg)
  /-- `KIDX` (R264): set c.kidx. -/
  | kidx (a : SReg)
  /-- `VADD` (R275): VOP function 0. -/
  | vadd (vd : VReg) (va : VReg) (vb : VReg) (vm : VReg) (t : ElemType)
  /-- `VSUB` (R275): VOP function 1. -/
  | vsub (vd : VReg) (va : VReg) (vb : VReg) (vm : VReg) (t : ElemType)
  /-- `VMUL` (R275): VOP function 2. -/
  | vmul (vd : VReg) (va : VReg) (vb : VReg) (vm : VReg) (t : ElemType)
  /-- `VDIV` (R275): VOP function 3. -/
  | vdiv (vd : VReg) (va : VReg) (vb : VReg) (vm : VReg) (t : ElemType)
  /-- `VMIN` (R275): VOP function 4. -/
  | vmin (vd : VReg) (va : VReg) (vb : VReg) (vm : VReg) (t : ElemType)
  /-- `VMAX` (R275): VOP function 5. -/
  | vmax (vd : VReg) (va : VReg) (vb : VReg) (vm : VReg) (t : ElemType)
  /-- `VAND` (R275): VOP function 6. -/
  | vand (vd : VReg) (va : VReg) (vb : VReg) (vm : VReg) (t : ElemType)
  /-- `VOR` (R275): VOP function 7. -/
  | vor (vd : VReg) (va : VReg) (vb : VReg) (vm : VReg) (t : ElemType)
  /-- `VXOR` (R275): VOP function 8. -/
  | vxor (vd : VReg) (va : VReg) (vb : VReg) (vm : VReg) (t : ElemType)
  /-- `VANDN` (R275): VOP function 9. -/
  | vandn (vd : VReg) (va : VReg) (vb : VReg) (vm : VReg) (t : ElemType)
  /-- `VSHL` (R275): VOP function 10. -/
  | vshl (vd : VReg) (va : VReg) (vb : VReg) (vm : VReg) (t : ElemType)
  /-- `VSHR` (R275): VOP function 11. -/
  | vshr (vd : VReg) (va : VReg) (vb : VReg) (vm : VReg) (t : ElemType)
  /-- `VSRA` (R275): VOP function 12. -/
  | vsra (vd : VReg) (va : VReg) (vb : VReg) (vm : VReg) (t : ElemType)
  /-- `VABSD` (R275): VOP function 13. -/
  | vabsd (vd : VReg) (va : VReg) (vb : VReg) (vm : VReg) (t : ElemType)
  /-- `VCPSGN` (R275): VOP function 14. -/
  | vcpsgn (vd : VReg) (va : VReg) (vb : VReg) (vm : VReg) (t : ElemType)
  /-- `VADD_SCALAR` (R275): VOPS function 0. -/
  | vaddS (vd : VReg) (va : VReg) (s : SReg) (t : ElemType) (rev : Bool)
  /-- `VSUB_SCALAR` (R275): VOPS function 1. -/
  | vsubS (vd : VReg) (va : VReg) (s : SReg) (t : ElemType) (rev : Bool)
  /-- `VMUL_SCALAR` (R275): VOPS function 2. -/
  | vmulS (vd : VReg) (va : VReg) (s : SReg) (t : ElemType) (rev : Bool)
  /-- `VDIV_SCALAR` (R275): VOPS function 3. -/
  | vdivS (vd : VReg) (va : VReg) (s : SReg) (t : ElemType) (rev : Bool)
  /-- `VMIN_SCALAR` (R275): VOPS function 4. -/
  | vminS (vd : VReg) (va : VReg) (s : SReg) (t : ElemType) (rev : Bool)
  /-- `VMAX_SCALAR` (R275): VOPS function 5. -/
  | vmaxS (vd : VReg) (va : VReg) (s : SReg) (t : ElemType) (rev : Bool)
  /-- `VAND_SCALAR` (R275): VOPS function 6. -/
  | vandS (vd : VReg) (va : VReg) (s : SReg) (t : ElemType) (rev : Bool)
  /-- `VOR_SCALAR` (R275): VOPS function 7. -/
  | vorS (vd : VReg) (va : VReg) (s : SReg) (t : ElemType) (rev : Bool)
  /-- `VXOR_SCALAR` (R275): VOPS function 8. -/
  | vxorS (vd : VReg) (va : VReg) (s : SReg) (t : ElemType) (rev : Bool)
  /-- `VANDN_SCALAR` (R275): VOPS function 9. -/
  | vandnS (vd : VReg) (va : VReg) (s : SReg) (t : ElemType) (rev : Bool)
  /-- `VSHL_SCALAR` (R275): VOPS function 10. -/
  | vshlS (vd : VReg) (va : VReg) (s : SReg) (t : ElemType) (rev : Bool)
  /-- `VSHR_SCALAR` (R275): VOPS function 11. -/
  | vshrS (vd : VReg) (va : VReg) (s : SReg) (t : ElemType) (rev : Bool)
  /-- `VSRA_SCALAR` (R275): VOPS function 12. -/
  | vsraS (vd : VReg) (va : VReg) (s : SReg) (t : ElemType) (rev : Bool)
  /-- `VABSD_SCALAR` (R275): VOPS function 13. -/
  | vabsdS (vd : VReg) (va : VReg) (s : SReg) (t : ElemType) (rev : Bool)
  /-- `VCPSGN_SCALAR` (R275): VOPS function 14. -/
  | vcpsgnS (vd : VReg) (va : VReg) (s : SReg) (t : ElemType) (rev : Bool)
  /-- `VFMA` (R276): fused multiply-add. -/
  | vfma (vd : VReg) (va : VReg) (vb : VReg) (vm : VReg) (t : ElemType)
  /-- `VFMA_N` (R276): fused multiply-add. -/
  | vfmaN (vd : VReg) (va : VReg) (vb : VReg) (vm : VReg) (t : ElemType)
  /-- `VFMA_E` (R276): fused multiply-add. -/
  | vfmaE (vd : VReg) (va : VReg) (vb : VReg) (vm : VReg) (t : ElemType)
  /-- `VNEG` (R277): VUN function 0. -/
  | vneg (vd : VReg) (va : VReg) (vm : VReg) (t : ElemType)
  /-- `VABS` (R277): VUN function 1. -/
  | vabs (vd : VReg) (va : VReg) (vm : VReg) (t : ElemType)
  /-- `VNOT` (R277): VUN function 2. -/
  | vnot (vd : VReg) (va : VReg) (vm : VReg) (t : ElemType)
  /-- `VSQRT` (R277): VUN function 3. -/
  | vsqrt (vd : VReg) (va : VReg) (vm : VReg) (t : ElemType)
  /-- `VRSQ` (R277): VUN function 4. -/
  | vrsq (vd : VReg) (va : VReg) (vm : VReg) (t : ElemType)
  /-- `VRCP` (R277): VUN function 5. -/
  | vrcp (vd : VReg) (va : VReg) (vm : VReg) (t : ElemType)
  /-- `VEXP2` (R277): VUN function 6. -/
  | vexp2 (vd : VReg) (va : VReg) (vm : VReg) (t : ElemType)
  /-- `VLOG2` (R277): VUN function 7. -/
  | vlog2 (vd : VReg) (va : VReg) (vm : VReg) (t : ElemType)
  /-- `VFLOOR` (R277): VUN function 8. -/
  | vfloor (vd : VReg) (va : VReg) (vm : VReg) (t : ElemType)
  /-- `VROUND` (R277): VUN function 9. -/
  | vround (vd : VReg) (va : VReg) (vm : VReg) (t : ElemType)
  /-- `VCLZ` (R277): VUN function 10. -/
  | vclz (vd : VReg) (va : VReg) (vm : VReg) (t : ElemType)
  /-- `VPOPC` (R277): VUN function 11. -/
  | vpopc (vd : VReg) (va : VReg) (vm : VReg) (t : ElemType)
  /-- `VCMP` (R278): vector compare. -/
  | vcmp (c : VCond) (vd : VReg) (va : VReg) (vb : VReg) (vm : VReg) (t : ElemType)
  /-- `VSEL` (R279): vector select. -/
  | vsel (vd : VReg) (va : VReg) (vb : VReg) (vm : VReg) (t : ElemType)
  /-- `VCVT` (R280): vector conversion. -/
  | vcvt (vd : VReg) (va : VReg) (src : ElemType) (vm : VReg) (t : ElemType) (r : RoundSel)
  /-- `VSPL` (R281): splat a scalar. -/
  | vspl (vd : VReg) (s : SReg) (t : ElemType)
  /-- `VIOTA` (R281): ascending indices. -/
  | viota (vd : VReg) (t : ElemType)
  /-- `VCLR` (R281): all-zero elements. -/
  | vclr (vd : VReg) (t : ElemType)
  /-- `VMASK` (R281): prefix mask. -/
  | vmask (vd : VReg) (s : SReg)
  /-- `VRED` (R282): reduction. -/
  | vred (op : RedOp) (s : SReg) (va : VReg) (t : ElemType)
  /-- `VCOAL` (R283): coalesce runs. -/
  | vcoal (vd : VReg) (va : VReg) (t : ElemType)
  /-- `VLEN` (R283): logical length. -/
  | vlen (s : SReg) (va : VReg) (t : ElemType)
  /-- `VNRUN` (R283): slots used. -/
  | vnrun (s : SReg) (va : VReg) (t : ElemType)
  /-- `VEXTR` (R283): extract an element. -/
  | vextr (s : SReg) (va : VReg) (t : ElemType)
  /-- `VEXPAND` (R283): expand runs. -/
  | vexpand (vd : VReg) (va : VReg) (t : ElemType)
  /-- `VSLDU` (R284): slide up. -/
  | vsldu (vd : VReg) (va : VReg) (s : SReg) (t : ElemType)
  /-- `VSLDD` (R284): slide down. -/
  | vsldd (vd : VReg) (va : VReg) (s : SReg) (t : ElemType)
  /-- `VSLICE` (R284): slice. -/
  | vslice (vd : VReg) (va : VReg) (s : SReg) (t : ElemType)
  /-- `VCAT` (R284): concatenate. -/
  | vcat (vd : VReg) (va : VReg) (vb : VReg) (t : ElemType)
  /-- `VMOV` (R284): copy. -/
  | vmov (vd : VReg) (va : VReg) (t : ElemType)
  /-- `VREV` (R284): reverse. -/
  | vrev (vd : VReg) (va : VReg) (t : ElemType)
  /-- `VLD_DENSE` (R286): dense load. -/
  | vldDense (vd : VReg) (b : SReg) (t : ElemType)
  /-- `VLD_STR` (R286): strided load. -/
  | vldStr (vd : VReg) (b : SReg) (s : SReg) (t : ElemType)
  /-- `VLD_RUNS` (R287): run-stream load. -/
  | vldRuns (vd : VReg) (b : SReg) (t : ElemType)
  /-- `VLD_BANK` (R288): bank-decoded load. -/
  | vldBank (vd : VReg) (b : SReg) (e : SReg) (t : ElemType)
  /-- `VST_DENSE` (R286): dense store. -/
  | vstDense (vs : VReg) (b : SReg) (t : ElemType)
  /-- `VST_STR` (R286): strided store. -/
  | vstStr (vs : VReg) (b : SReg) (s : SReg) (t : ElemType)
  /-- `VST_RUNS` (R287): run-stream store. -/
  | vstRuns (vs : VReg) (b : SReg) (t : ElemType)
  /-- `VST_BANK` (R289): bank-decoded store. -/
  | vstBank (vs : VReg) (b : SReg) (e : SReg) (t : ElemType)
  /-- `VGTH` (R286): gather. -/
  | vgth (vd : VReg) (b : SReg) (vi : VReg) (t : ElemType) (elem : Bool)
  /-- `VSCT` (R286): scatter. -/
  | vsct (vs : VReg) (b : SReg) (vi : VReg) (t : ElemType) (elem : Bool)
  /-- `UNASSIGNED_ENCODING` (R213): the word w is not assigned. -/
  | unassignedEncoding (w : Code)
  /-- `POSTED_TRAP_TAKEN` (R135, R364): thread t of group g takes the posted trap that comes first. -/
  | postedTrapTaken (g : Nat) (t : Nat)
  /-- `LOAD_DATA_RETURN` (R224): a piece of the data of access id arrives. p is the piece, and how many changes of memory ago memory
  stood as the piece shows it, where no rule has the thread see a later one (R155). -/
  | loadDataReturn (id : Nat) (p : Nat × Nat)
  /-- `STORE_PERFORM` (R240, R165): piece p of store id is performed: for its own cluster, or for all. -/
  | storePerform (id : Nat) (p : Nat) (all : Bool)
  /-- `ATOMIC_PERFORM` (R170): atomic id is performed. -/
  | atomicPerform (id : Nat)
  /-- `FAADD_APPLY` (R173): addition id reaches its home slice. -/
  | faaddApply (id : Nat)
  /-- `FAADD_RETRY` (R175): addition id found no room and is retried. -/
  | faaddRetry (id : Nat)
  /-- `PAGE_WALK_COMPLETE` (R241): walk id ends. -/
  | pageWalkComplete (id : Nat)
  /-- `COW_COPY_COMPLETE` (R89): granule copy id ends. -/
  | cowCopyComplete (id : Nat)
  /-- `REMOTE_STORE_ARRIVAL` (R78, R79): remote store id arrives. -/
  | remoteStoreArrival (id : Nat)
  /-- `BOUNCE_RETURN` (R80): bounce id returns to its sender. -/
  | bounceReturn (id : Nat)
  /-- `WLD_CLASSIFY` (R137): world load id is classified. -/
  | wldClassify (id : Nat)
  /-- `WLD_COMPLETE` (R139): the result of world load id reaches its thread. -/
  | wldComplete (id : Nat)
  /-- `WLD_CYCLE` (R146): world load id completes with status CYCLE. -/
  | wldCycle (id : Nat)
  /-- `WLD_TIMEOUT` (R147): world load id completes with status TIMEOUT. -/
  | wldTimeout (id : Nat)
  /-- `WST_STAGE` (R133): world store id is staged, refused or waits. -/
  | wstStage (id : Nat)
  /-- `WST_RING_WAIT_END` (R145): world store id that waited at a full ring is staged. -/
  | wstRingWaitEnd (id : Nat)
  /-- `WCOMMIT_PERFORM` (R134): commit id is performed or refused. -/
  | wcommitPerform (id : Nat)
  /-- `WHOR_PERFORM` (R144): horizon id is set or refused. -/
  | whorPerform (id : Nat)
  /-- `GROUP_EXIT` (R85): the entry of group g becomes exited. -/
  | groupExit (g : Nat)
  /-- `CANCEL_MARKED` (R91): the subtree of cancel id is marked. -/
  | cancelMarked (id : Nat)
  /-- `CANCEL_HANDLER_LIMIT` (R92): thread t of group g is forced out of its cancel handler. -/
  | cancelHandlerLimit (g : Nat) (t : Nat)
  /-- `CANCEL_RECLAIM_COMPLETE` (R91): group g is reclaimed. -/
  | cancelReclaimComplete (g : Nat)
  /-- `TASK_QUEUE_PUSH` (R355): the first push that waits at partition part enters its queue. -/
  | taskQueuePush (part : Nat)
  /-- `TASK_AGING` (R355): the task of name g moves up a level. -/
  | taskAging (part : Nat) (g : Nat)
  /-- `TASK_DISPATCH` (R356): a dispatcher takes a task. -/
  | taskDispatch (cluster : Nat)
  /-- `THREAD_SWAP` (R373): the thread in slot of core is swapped out. -/
  | threadSwap (core : Nat) (slot : Nat)
  /-- `THREAD_SWAP_RESTORE` (R373): thread t of group g returns to its core. -/
  | threadSwapRestore (g : Nat) (t : Nat)
  /-- `GROUP_EVICT` (R374): group g is saved. -/
  | groupEvict (g : Nat)
  /-- `GROUP_RESTORE` (R376): saved group g is placed on a cluster. -/
  | groupRestore (cluster : Nat) (g : Nat)
  /-- `FAULT_RECORD_POST` (R368): the next fault record of a die is posted. -/
  | faultRecordPost (die : Nat)
  /-- `FAULT_ANSWER` (R369): a server answers the record in a slot. -/
  | faultAnswer (die : Nat) (slot : Nat)
  /-- `COMMAND_START` (R119): the head of queue q of core starts. -/
  | commandStart (core : Nat) (q : Nat)
  /-- `COMMAND_COMPLETE` (R126): the head of queue q of core completes. -/
  | commandComplete (core : Nat) (q : Nat)
  /-- `HALL_PASS_GRANT` (R406): the first waiting request of a die is granted. -/
  | hallPassGrant (die : Nat)
  /-- `HALL_PASS_TIMEOUT` (R318): the head of queue q of core starts at half rate. -/
  | hallPassTimeout (core : Nat) (q : Nat)
  /-- `NOPC` (R217): the started head of queue q of core: no access. -/
  | nopc (core : Nat) (q : Nat)
  /-- `MX_LEASE` (R320): the started head of queue q of core: obtain the array. -/
  | mxLease (core : Nat) (q : Nat)
  /-- `MX_FREE` (R320): the started head of queue q of core: end the lease. -/
  | mxFree (core : Nat) (q : Nat)
  /-- `MX_ZERO` (R321): the started head of queue q of core: clear the accumulators. -/
  | mxZero (core : Nat) (q : Nat)
  /-- `MX_MUL` (R323): the started head of queue q of core: multiply and emit. -/
  | mxMul (core : Nat) (q : Nat)
  /-- `MX_ACC` (R323): the started head of queue q of core: multiply and accumulate. -/
  | mxAcc (core : Nat) (q : Nat)
  /-- `MX_STORE` (R324): the started head of queue q of core: write the accumulators. -/
  | mxStore (core : Nat) (q : Nat)
  /-- `MX_RES` (R324): the started head of queue q of core: write residue words. -/
  | mxRes (core : Nat) (q : Nat)
  /-- `CP_COPY` (R333): the next unit of the started head of queue q of core: copy. -/
  | cpCopy (core : Nat) (q : Nat)
  /-- `CP_CONV` (R333): the next unit of the started head of queue q of core: convert. -/
  | cpConv (core : Nat) (q : Nat)
  /-- `CP_FILL` (R333): the next unit of the started head of queue q of core: fill. -/
  | cpFill (core : Nat) (q : Nat)
  /-- `CP_PACK` (R333): the next unit of the started head of queue q of core: pack. -/
  | cpPack (core : Nat) (q : Nat)
  /-- `CP_UNPACK` (R333): the next unit of the started head of queue q of core: unpack. -/
  | cpUnpack (core : Nat) (q : Nat)
  /-- `CP_GATH` (R333): the next unit of the started head of queue q of core: gather. -/
  | cpGath (core : Nat) (q : Nat)
  /-- `CP_SCAT` (R333): the next unit of the started head of queue q of core: scatter. -/
  | cpScat (core : Nat) (q : Nat)
  /-- `CP_SIG` (R333): the started head of queue q of core: no access. -/
  | cpSig (core : Nat) (q : Nat)
  /-- `WS_SAMPLE` (R336): the started head of q5 of core samples its keys. -/
  | wsSample (core : Nat)
  /-- `WS_SNAP` (R337): the started head of q5 of core stages its next key, or commits. -/
  | wsSnap (core : Nat)
  /-- `REMOTE_COPY_ACCESS` (R167, R403): module m reads or writes at va, within one block of 32; data is how many bytes,
  and what it writes. -/
  | remoteCopyAccess (m : Nat) (va : Nat) (write : Bool) (data : Nat × Nat)
  /-- `QERR_CLEAR` (R219): a write of 0 to c.qerr of core. -/
  | qerrClear (core : Nat)
  /-- `VLEN_WRITE` (R221): the issuing thread writes c.vlen. -/
  | vlenWrite (v : Word)
  /-- `POOL_BOUNDARY_WRITE` (R107): the issuing thread writes a pool boundary, a bank format or c.mode. -/
  | poolBoundaryWrite (csr : BitVec 10) (v : Word)
  /-- `TRAP_REGISTER_WRITE` (R361): the issuing thread writes a trap register. -/
  | trapRegisterWrite (csr : BitVec 10) (v : Word)
  /-- `REGISTER_WRITE` (R220, R348, R365): the host writes eight bytes at offset off of the register block. -/
  | registerWrite (off : Nat) (v : Word)
  /-- `LQ_TAIL_WRITE` (R349): the host writes LQ.TAIL of queue q. -/
  | lqTailWrite (q : Nat) (v : BitVec 32)
  /-- `LQ_ENABLE` (R348): the host writes LQ.CTL of queue q with EN = 1. -/
  | lqEnable (q : Nat) (v : Word)
  /-- `LQ_DESTROY` (R359): the host writes LQ.CTL of queue q with EN = 0, CANCEL = 0. -/
  | lqDestroy (q : Nat)
  /-- `LQ_DESTROY_CANCEL` (R359): the host writes LQ.CTL of queue q with EN = 0, CANCEL = 1. -/
  | lqDestroyCancel (q : Nat)
  /-- `LQ_STAT_CLEAR` (R348): the host writes LQ.STAT of queue q. -/
  | lqStatClear (q : Nat) (v : BitVec 4)
  /-- `TQ_ENABLE` (R348, R359): the host writes TQ.CTL of partition part. -/
  | tqEnable (part : Nat) (v : Word)
  /-- `LAUNCH_SLOT_READ` (R350): the device reads the next slot of queue q. -/
  | launchSlotRead (q : Nat)
  /-- `LAUNCH_START` (R352): launch id, whose dependences are met, starts. -/
  | launchStart (id : Nat)
  /-- `LAUNCH_COMPLETE` (R354): launch id completes. -/
  | launchComplete (id : Nat)
  /-- `PR_SHOOT` (R366): the host writes PR.SHOOT of partition part. -/
  | prShoot (part : Nat) (v : Word)
  /-- `SHOOTDOWN_COMPLETE` (R366): BUSY of partition part clears. -/
  | shootdownComplete (part : Nat)
  /-- `GANG_STOP` (R380): the host writes STOP = 1, DUMP = 0. -/
  | gangStop (part : Nat)
  /-- `GANG_STOP_DUMP` (R382): the host writes STOP = 1, DUMP = 1. -/
  | gangStopDump (part : Nat)
  /-- `GANG_STOP_COMPLETE` (R380): every record of partition part is written. -/
  | gangStopComplete (part : Nat)
  /-- `GANG_RESUME` (R380): the host writes STOP = 0. -/
  | gangResume (part : Nat)
  /-- `PR_RESUME` (R381): the host writes PR.RESUME of partition part. -/
  | prResume (part : Nat) (v : Word)
  /-- `PARTITION_MOVE_REQUEST` (R404): the host writes PT.MAP of a cluster. -/
  | partitionMoveRequest (cluster : Nat) (v : BitVec 9)
  /-- `PARTITION_MOVE_COMPLETE` (R404): an emptied cluster joins its new partition. -/
  | partitionMoveComplete (cluster : Nat)
  /-- `MANAGEMENT_POLL` (R395): firmware reads the command slot. -/
  | managementPoll
  /-- `UPDATE` (R396): firmware runs the UPDATE command in the slot. -/
  | updateFw
  /-- `RECORD` (R396): firmware runs the RECORD command in the slot. -/
  | recordFw
  /-- `ATTEST` (R398): firmware runs the ATTEST command in the slot. -/
  | attest
  /-- `IDKEY` (R396): firmware runs the IDKEY command in the slot. -/
  | idkey
  /-- `SETKEY` (R394): firmware runs the SETKEY command in the slot. -/
  | setkey
  /-- `CLRKEY` (R396): firmware runs the CLRKEY command in the slot. -/
  | clrkey
  /-- `COLD_RESET` (R33): cold reset. -/
  | coldReset
  /-- `SERIAL_MARK_ADVANCE` (R34): firmware advances the serial mark. -/
  | serialMarkAdvance
  /-- `HOST_WINDOW_READ` (R385): the host reads n bytes at window offset off. -/
  | hostWindowRead (off : Nat) (n : Nat)
  /-- `HOST_WINDOW_WRITE` (R385): the host writes the n low bytes of data at window offset off. -/
  | hostWindowWrite (off : Nat) (n : Nat) (data : Nat)
  /-- `HOST_SNOOP` (R389): the host snoops a 64-byte half line of host memory. -/
  | hostSnoop (half : Nat)
  /-- `HOST_INVALIDATION` (R387): a host agent writes the n low bytes of data at host address a. -/
  | hostInvalidation (a : Nat) (n : Nat) (data : Nat)
  /-- `ATOMICOP_COMPLETION` (R392): the completion of PCIe AtomicOp id returns. -/
  | atomicopCompletion (id : Nat) (ok : Bool)
  /-- `ATOMICOP_TIMEOUT` (R391): PCIe AtomicOp id times out. -/
  | atomicopTimeout (id : Nat)
  /-- `LINK_TRAINING` (R388): the host port trains. -/
  | linkTraining (cxl : Bool)
  /-- `FLIT_RECEIVE` (R400): a flit of 2,048 bits reaches a port. -/
  | flitReceive (port : Nat) (flit : Nat)
  /-- `FLIT_NAK` (R400): a NAK reaches a port. -/
  | flitNak (port : Nat) (ack : BitVec 12)
  /-- `RESEND_TIMEOUT` (R400): ACK did not advance for 4,800 cycles. -/
  | resendTimeout (port : Nat)
  /-- `PORT_RETRAIN` (R400): a port retrains. -/
  | portRetrain (port : Nat)
  /-- `DIRECTORY_FORWARD` (R115): the next queued request for a line is served. -/
  | directoryForward (line : Nat)
  /-- `HBM_REFRESH` (R408): refresh management in period 15. -/
  | hbmRefresh
  /-- `SCRUB` (R409): a scrub period of a slice finds corrected errors, and the uncorrectable lines bad, each by its unit and its
  place there (R379). -/
  | scrub (die : Nat) (slice : Nat) (corrected : Nat) (bad : List (Nat × Nat))
  /-- `DIRECTORY_SWEEP` (R116): a slice probes a listed sharer of a line. -/
  | directorySweep (line : Nat) (agent : Nat)
  /-- `RETENTION_SWEEP` (R408): the retention sweep in period 15. -/
  | retentionSweep
  /-- `TELEMETRY` (R411): a die copies its counters; die is its number, and what its sensor reads. -/
  | telemetry (die : Nat × BitVec 16)
  /-- `THERMAL_LIMIT` (R412): TJ of a die reaches 100 C. -/
  | thermalLimit (die : Nat) (tj : BitVec 16)
  /-- `THERMAL_RECOVER` (R412): TJ of a die falls below 95 C. -/
  | thermalRecover (die : Nat) (tj : BitVec 16)
  /-- `THERMAL_SHUTDOWN` (R412): TJ of a die reaches 110 C. -/
  | thermalShutdown (die : Nat) (tj : BitVec 16)
  /-- `PORT_TRAINING_COMPLETE` (R400): a retraining port comes back up. -/
  | portTrainingComplete (port : Nat)
  deriving DecidableEq, Repr

end Sys2Proof
end

