-- ==== Sys2Proof/WellFormed.lean ====
section
/-! DEFINITION. The conditions that an instruction's fields must meet beyond the bits of its word; a word that breaks one traps
`ILLEGAL` (spec 08 R207, R209-R213, R220; 10 R274). -/

namespace Sys2Proof

/-- Why an instruction is ill formed. -/
inductive IllFormed where
  /-- A register pair whose first member is odd (R207). -/
  | oddPair
  /-- `ENQ` to queue 6 or 7 (R210). -/
  | noQueue
  /-- A control register number that R220 does not list. -/
  | noCsr
  /-- `VSEL` without a mask (R212). -/
  | noMask
  /-- An element type that the function does not accept (R274). -/
  | badType
  /-- A sequence word on an unordered `FAADD` (R209: the field is zero). -/
  | unusedField
  deriving DecidableEq, Repr

/-- The i and u types (R274, class I). -/
def ElemType.isInt : ElemType → Bool
  | .i8 | .i16 | .i32 | .i64 | .u8 | .u16 | .u32 | .u64 => true
  | _ => false

/-- The types of class F of R274. -/
def ElemType.isFloat : ElemType → Bool
  | .f16 | .g16 | .f32 | .f64 => true
  | _ => false

/-- The types of class N of R274. -/
def ElemType.isNarrow : ElemType → Bool
  | .f8 | .f4 => true
  | _ => false

/-- The control register numbers of R220. -/
def csrListed (n : Nat) : Bool :=
  n ≤ 0x00C || (0x010 ≤ n && n ≤ 0x014) || (0x020 ≤ n && n ≤ 0x02F) || (0x030 ≤ n && n ≤ 0x032)
    || (0x040 ≤ n && n ≤ 0x043) || (0x050 ≤ n && n ≤ 0x054) || n == 0x060

/-- `none` when `ok`, else the reason. -/
def need (ok : Bool) (r : IllFormed) : Option IllFormed := if ok then none else some r

/-- Whether a scalar register number is even. -/
def evenReg (r : SReg) : Bool := r.toNat % 2 == 0

/-- The types that a reduction accepts (R274). -/
def RedOp.accepts (op : RedOp) (t : ElemType) : Bool :=
  match op with
  | .add => true
  | .min | .max => t != .b1
  | .and | .or | .xor => t.isInt || t == .b1
  | .cnt | .first => true

/-- The types that a vector comparison accepts (R274). -/
def VCond.accepts (c : VCond) (t : ElemType) : Bool :=
  match c with
  | .eq | .ne => true
  | .lt | .le | .gt | .ge => t != .b1
  | .un => t.isFloat || t.isNarrow

/-- The types of strided memory forms, gathers and scatters (R274). -/
def ElemType.byteSized (t : ElemType) : Bool := t.isInt || t.isFloat || t == .f8

/-- The first condition that an instruction's fields break, if any. -/
def Instr.illFormed : Instr → Option IllFormed
  | .ldq d _ _ => need (evenReg d) .oddPair
  | .stq s _ _ => need (evenReg s) .oddPair
  | .ldx wd d _ _ => need (wd != .q || evenReg d) .oddPair
  | .stx wd s _ _ => need (wd != .q || evenReg s) .oddPair
  | .cas _ q d _ b => need (!q || (evenReg d && evenReg b)) .oddPair
  | .faadd _ ord d _ _ => need (ord || d == 0#7) .unusedField
  | .enq q _ => need (q.toNat < 6) .noQueue
  | .csrr _ c => need (csrListed c.toNat) .noCsr
  | .csrw _ c => need (csrListed c.toNat) .noCsr
  | .vadd _ _ _ _ t | .vsub _ _ _ _ t | .vmul _ _ _ _ t | .vdiv _ _ _ _ t | .vmin _ _ _ _ t | .vmax _ _ _ _ t
  | .vabsd _ _ _ _ t | .vaddS _ _ _ t _ | .vsubS _ _ _ t _ | .vmulS _ _ _ t _ | .vdivS _ _ _ t _
  | .vminS _ _ _ t _ | .vmaxS _ _ _ t _ | .vabsdS _ _ _ t _
  | .vfma _ _ _ _ t | .vfmaN _ _ _ _ t | .vfmaE _ _ _ _ t | .vneg _ _ _ t | .vabs _ _ _ t =>
    need (t.isInt || t.isFloat) .badType
  | .vand _ _ _ _ t | .vor _ _ _ _ t | .vxor _ _ _ _ t | .vandn _ _ _ _ t | .vandS _ _ _ t _ | .vorS _ _ _ t _
  | .vxorS _ _ _ t _ | .vandnS _ _ _ t _ | .vnot _ _ _ t => need (t.isInt || t == .b1) .badType
  | .vshl _ _ _ _ t | .vshr _ _ _ _ t | .vsra _ _ _ _ t | .vshlS _ _ _ t _ | .vshrS _ _ _ t _ | .vsraS _ _ _ t _
  | .vclz _ _ _ t | .vpopc _ _ _ t => need t.isInt .badType
  | .vcpsgn _ _ _ _ t | .vcpsgnS _ _ _ t _ | .vsqrt _ _ _ t | .vrsq _ _ _ t | .vrcp _ _ _ t | .vexp2 _ _ _ t
  | .vlog2 _ _ _ t | .vfloor _ _ _ t | .vround _ _ _ t => need t.isFloat .badType
  | .vcmp c _ _ _ _ t => need (c.accepts t) .badType
  | .vsel _ _ _ vm _ => need (vm != 0#4) .noMask
  | .viota _ t => need (t.isInt || t == .f32 || t == .f64) .badType
  | .vred op _ _ t => need (op.accepts t) .badType
  | .vldStr _ _ _ t | .vstStr _ _ _ t | .vgth _ _ _ t _ | .vsct _ _ _ t _ => need t.byteSized .badType
  | .vldBank _ _ _ t | .vstBank _ _ _ t => need (t != .b1) .badType
  | _ => none

/-- An instruction whose fields break no condition. -/
def Instr.wellFormed (i : Instr) : Bool := i.illFormed.isNone

end Sys2Proof
end

