-- ==== Sys2Proof/Decode.lean ====
section
/-! DEFINITION. Decoding and encoding of instruction words (spec 08 R204-R213). The decoder is total: a word that R209 and
R212 do not assign gives `none`, and the step traps it as `UNASSIGNED_ENCODING`. -/

namespace Sys2Proof

/-- The 2-bit field of `o` whose lowest bit is `lo`. -/
def f2 (lo o : Nat) : BitVec 2 := .ofNat 2 (o / 2 ^ lo)

/-- The 3-bit field of `o` whose lowest bit is `lo`. -/
def f3 (lo o : Nat) : BitVec 3 := .ofNat 3 (o / 2 ^ lo)

/-- The 4-bit field of `o` whose lowest bit is `lo`. -/
def f4 (lo o : Nat) : BitVec 4 := .ofNat 4 (o / 2 ^ lo)

/-- The 7-bit field of `o` whose lowest bit is `lo`. -/
def f7 (lo o : Nat) : BitVec 7 := .ofNat 7 (o / 2 ^ lo)

/-- The 8-bit field of `o` whose lowest bit is `lo`. -/
def f8 (lo o : Nat) : BitVec 8 := .ofNat 8 (o / 2 ^ lo)

/-- `i` when the reserved bits `r` are all zero (R213). -/
def zero (r : Nat) (i : Instr) : Option Instr := if r = 0 then some i else none

/-- A 7-bit field at bit 3. -/
def e3 (x : BitVec 7) : Nat := x.toNat * 2 ^ 3

/-- A 7-bit field at bit 4. -/
def e4 (x : BitVec 7) : Nat := x.toNat * 2 ^ 4

/-- A 7-bit field at bit 6. -/
def e6 (x : BitVec 7) : Nat := x.toNat * 2 ^ 6

/-- A 7-bit field at bit 9. -/
def e9s (x : BitVec 7) : Nat := x.toNat * 2 ^ 9

/-- A 7-bit field at bit 10. -/
def e10 (x : BitVec 7) : Nat := x.toNat * 2 ^ 10

/-- A 7-bit field at bit 11. -/
def e11 (x : BitVec 7) : Nat := x.toNat * 2 ^ 11

/-- A 7-bit field at bit 13. -/
def e13 (x : BitVec 7) : Nat := x.toNat * 2 ^ 13

/-- A 7-bit field at bit 17. -/
def e17 (x : BitVec 7) : Nat := x.toNat * 2 ^ 17

/-- A 8-bit field at bit 9. -/
def e9 (x : BitVec 8) : Nat := x.toNat * 2 ^ 9

/-- A 3-bit field at bit 15. -/
def e15 (x : BitVec 3) : Nat := x.toNat * 2 ^ 15

/-- A 3-bit field at bit 17. -/
def e17p (x : BitVec 3) : Nat := x.toNat * 2 ^ 17

/-- A 3-bit field at bit 18. -/
def e18 (x : BitVec 3) : Nat := x.toNat * 2 ^ 18

/-- A 3-bit field at bit 21. -/
def e21 (x : BitVec 3) : Nat := x.toNat * 2 ^ 21

/-- A 2-bit field at bit 8. -/
def e8 (x : BitVec 2) : Nat := x.toNat * 2 ^ 8

/-- A 2-bit field at bit 18. -/
def e18w (x : BitVec 2) : Nat := x.toNat * 2 ^ 18

/-- A 4-bit field at bit 6. -/
def e6v (x : BitVec 4) : Nat := x.toNat * 2 ^ 6

/-- A 4-bit field at bit 8. -/
def e8v (x : BitVec 4) : Nat := x.toNat * 2 ^ 8

/-- A 4-bit field at bit 9. -/
def e9v (x : BitVec 4) : Nat := x.toNat * 2 ^ 9

/-- A 4-bit field at bit 10. -/
def e10v (x : BitVec 4) : Nat := x.toNat * 2 ^ 10

/-- A 4-bit field at bit 12. -/
def e12 (x : BitVec 4) : Nat := x.toNat * 2 ^ 12

/-- A 4-bit field at bit 16. -/
def e16 (x : BitVec 4) : Nat := x.toNat * 2 ^ 16

/-- A 4-bit field at bit 17. -/
def e17v (x : BitVec 4) : Nat := x.toNat * 2 ^ 17

/-- A 4-bit field at bit 20. -/
def e20 (x : BitVec 4) : Nat := x.toNat * 2 ^ 20

/-! The majors, one decoder each; `o` holds bits [23:0]. -/

/-- S-class major 0x00: ADD, SUB, AND, OR, XOR, ANDN, SHL, SHR. -/
def decS00 (o : Nat) : Option Instr :=
  match bitsOf 2 0 o with
  | 0 => some (.add (f7 17 o) (f7 10 o) (f7 3 o))
  | 1 => some (.sub (f7 17 o) (f7 10 o) (f7 3 o))
  | 2 => some (.and (f7 17 o) (f7 10 o) (f7 3 o))
  | 3 => some (.or (f7 17 o) (f7 10 o) (f7 3 o))
  | 4 => some (.xor (f7 17 o) (f7 10 o) (f7 3 o))
  | 5 => some (.andn (f7 17 o) (f7 10 o) (f7 3 o))
  | 6 => some (.shl (f7 17 o) (f7 10 o) (f7 3 o))
  | 7 => some (.shr (f7 17 o) (f7 10 o) (f7 3 o))
  | _ => none

/-- S-class major 0x01: SRA, ROT, MIN, MAX, MINU, MAXU, MUL, MULH. -/
def decS01 (o : Nat) : Option Instr :=
  match bitsOf 2 0 o with
  | 0 => some (.sra (f7 17 o) (f7 10 o) (f7 3 o))
  | 1 => some (.rot (f7 17 o) (f7 10 o) (f7 3 o))
  | 2 => some (.min (f7 17 o) (f7 10 o) (f7 3 o))
  | 3 => some (.max (f7 17 o) (f7 10 o) (f7 3 o))
  | 4 => some (.minu (f7 17 o) (f7 10 o) (f7 3 o))
  | 5 => some (.maxu (f7 17 o) (f7 10 o) (f7 3 o))
  | 6 => some (.mul (f7 17 o) (f7 10 o) (f7 3 o))
  | 7 => some (.mulh (f7 17 o) (f7 10 o) (f7 3 o))
  | _ => none

/-- S-class major 0x02: MULHU, DIV, DIVU, REM, REMU, CLZ, CTZ, POPC. -/
def decS02 (o : Nat) : Option Instr :=
  match bitsOf 2 0 o with
  | 0 => some (.mulhu (f7 17 o) (f7 10 o) (f7 3 o))
  | 1 => some (.div (f7 17 o) (f7 10 o) (f7 3 o))
  | 2 => some (.divu (f7 17 o) (f7 10 o) (f7 3 o))
  | 3 => some (.rem (f7 17 o) (f7 10 o) (f7 3 o))
  | 4 => some (.remu (f7 17 o) (f7 10 o) (f7 3 o))
  | 5 => zero (bitsOf 9 3 o) (.clz (f7 17 o) (f7 10 o))
  | 6 => zero (bitsOf 9 3 o) (.ctz (f7 17 o) (f7 10 o))
  | 7 => zero (bitsOf 9 3 o) (.popc (f7 17 o) (f7 10 o))
  | _ => none

/-- S-class major 0x03: SXB, SXH, SXW, ZXB, ZXH, ZXW, BEXT, BINS. -/
def decS03 (o : Nat) : Option Instr :=
  match bitsOf 2 0 o with
  | 0 => zero (bitsOf 9 3 o) (.sxb (f7 17 o) (f7 10 o))
  | 1 => zero (bitsOf 9 3 o) (.sxh (f7 17 o) (f7 10 o))
  | 2 => zero (bitsOf 9 3 o) (.sxw (f7 17 o) (f7 10 o))
  | 3 => zero (bitsOf 9 3 o) (.zxb (f7 17 o) (f7 10 o))
  | 4 => zero (bitsOf 9 3 o) (.zxh (f7 17 o) (f7 10 o))
  | 5 => zero (bitsOf 9 3 o) (.zxw (f7 17 o) (f7 10 o))
  | 6 => some (.bext (f7 17 o) (f7 10 o) (f7 3 o))
  | 7 => some (.bins (f7 17 o) (f7 10 o) (f7 3 o))
  | _ => none

/-- S-class major 0x04: LEA. -/
def decS04 (o : Nat) : Option Instr :=
  some (.lea (f7 17 o) (f7 10 o) (f7 3 o) (.ofNat 3 o))

/-- S-class major 0x05: CMP. -/
def decS05 (o : Nat) : Option Instr :=
  zero (bitsOf 20 17 o) (.cmp (f3 21 o) (.ofCode (bitsOf 2 0 o)) (f7 10 o) (f7 3 o))

/-- S-class major 0x06: CMPI. -/
def decS06 (o : Nat) : Option Instr :=
  zero (bitsOf 17 17 o) (.cmpi (f3 21 o) (.ofCode (bitsOf 20 18 o)) (f7 10 o) (.ofNat 10 o))

/-- S-class major 0x07: SEL. -/
def decS07 (o : Nat) : Option Instr :=
  some (.sel (f7 17 o) (.ofNat 3 o) (f7 10 o) (f7 3 o))

/-- S-class major 0x08: ADDI. -/
def decS08 (o : Nat) : Option Instr :=
  some (.addi (f7 17 o) (f7 10 o) (.ofNat 10 o))

/-- S-class major 0x09: ANDI. -/
def decS09 (o : Nat) : Option Instr :=
  some (.andi (f7 17 o) (f7 10 o) (.ofNat 10 o))

/-- S-class major 0x0A: ORI. -/
def decS10 (o : Nat) : Option Instr :=
  some (.ori (f7 17 o) (f7 10 o) (.ofNat 10 o))

/-- S-class major 0x0B: XORI. -/
def decS11 (o : Nat) : Option Instr :=
  some (.xori (f7 17 o) (f7 10 o) (.ofNat 10 o))

/-- S-class major 0x0C: SHFI. -/
def decS12 (o : Nat) : Option Instr :=
  zero (bitsOf 7 6 o) (.shfi (.ofCode (bitsOf 9 8 o)) (f7 17 o) (f7 10 o) (.ofNat 6 o))

/-- S-class major 0x0D: MOVI. -/
def decS13 (o : Nat) : Option Instr :=
  some (.movi (f7 17 o) (.ofNat 17 o))

/-- S-class major 0x0E: LUI. -/
def decS14 (o : Nat) : Option Instr :=
  some (.lui (f7 17 o) (.ofNat 17 o))

/-- S-class major 0x0F: PAND, POR, PXOR, PANDN, PNOT, PSET, PCLR. -/
def decS15 (o : Nat) : Option Instr :=
  match bitsOf 2 0 o with
  | 0 => zero (bitsOf 14 3 o) (.pand (f3 21 o) (f3 18 o) (f3 15 o))
  | 1 => zero (bitsOf 14 3 o) (.por (f3 21 o) (f3 18 o) (f3 15 o))
  | 2 => zero (bitsOf 14 3 o) (.pxor (f3 21 o) (f3 18 o) (f3 15 o))
  | 3 => zero (bitsOf 14 3 o) (.pandn (f3 21 o) (f3 18 o) (f3 15 o))
  | 4 => zero (bitsOf 17 3 o) (.pnot (f3 21 o) (f3 18 o))
  | 5 => zero (bitsOf 20 3 o) (.pset (f3 21 o))
  | 6 => zero (bitsOf 20 3 o) (.pclr (f3 21 o))
  | _ => none

/-- S-class major 0x10: LDB. -/
def decS16 (o : Nat) : Option Instr :=
  some (.ldb (f7 17 o) (f7 10 o) (.ofNat 10 o))

/-- S-class major 0x11: LDH. -/
def decS17 (o : Nat) : Option Instr :=
  some (.ldh (f7 17 o) (f7 10 o) (.ofNat 10 o))

/-- S-class major 0x12: LDW. -/
def decS18 (o : Nat) : Option Instr :=
  some (.ldw (f7 17 o) (f7 10 o) (.ofNat 10 o))

/-- S-class major 0x13: LDD. -/
def decS19 (o : Nat) : Option Instr :=
  some (.ldd (f7 17 o) (f7 10 o) (.ofNat 10 o))

/-- S-class major 0x14: LDBU. -/
def decS20 (o : Nat) : Option Instr :=
  some (.ldbu (f7 17 o) (f7 10 o) (.ofNat 10 o))

/-- S-class major 0x15: LDHU. -/
def decS21 (o : Nat) : Option Instr :=
  some (.ldhu (f7 17 o) (f7 10 o) (.ofNat 10 o))

/-- S-class major 0x16: LDWU. -/
def decS22 (o : Nat) : Option Instr :=
  some (.ldwu (f7 17 o) (f7 10 o) (.ofNat 10 o))

/-- S-class major 0x17: LDQ. -/
def decS23 (o : Nat) : Option Instr :=
  some (.ldq (f7 17 o) (f7 10 o) (.ofNat 10 o))

/-- S-class major 0x18: STB. -/
def decS24 (o : Nat) : Option Instr :=
  some (.stb (f7 17 o) (f7 10 o) (.ofNat 10 o))

/-- S-class major 0x19: STH. -/
def decS25 (o : Nat) : Option Instr :=
  some (.sth (f7 17 o) (f7 10 o) (.ofNat 10 o))

/-- S-class major 0x1A: STW. -/
def decS26 (o : Nat) : Option Instr :=
  some (.stw (f7 17 o) (f7 10 o) (.ofNat 10 o))

/-- S-class major 0x1B: STD. -/
def decS27 (o : Nat) : Option Instr :=
  some (.std (f7 17 o) (f7 10 o) (.ofNat 10 o))

/-- S-class major 0x1C: STQ. -/
def decS28 (o : Nat) : Option Instr :=
  some (.stq (f7 17 o) (f7 10 o) (.ofNat 10 o))

/-- S-class major 0x1D: LDX. -/
def decS29 (o : Nat) : Option Instr :=
  some (.ldx (.ofCode (bitsOf 2 0 o)) (f7 17 o) (f7 10 o) (f7 3 o))

/-- S-class major 0x1E: STX. -/
def decS30 (o : Nat) : Option Instr :=
  (StoreWidth.ofCode (bitsOf 2 0 o)).map fun wd => .stx wd (f7 17 o) (f7 10 o) (f7 3 o)

/-- S-class major 0x1F: AMO_C. -/
def decS31 (o : Nat) : Option Instr :=
  some (.amoC (.ofCode (bitsOf 2 0 o)) (f7 17 o) (f7 10 o) (f7 3 o))

/-- S-class major 0x20: AMO_G. -/
def decS32 (o : Nat) : Option Instr :=
  some (.amoG (.ofCode (bitsOf 2 0 o)) (f7 17 o) (f7 10 o) (f7 3 o))

/-- S-class major 0x21: CAS. -/
def decS33 (o : Nat) : Option Instr :=
  zero (bitsOf 2 2 o) (.cas (bitOf 0 o) (bitOf 1 o) (f7 17 o) (f7 10 o) (f7 3 o))

/-- S-class major 0x22: FAADD. -/
def decS34 (o : Nat) : Option Instr :=
  zero (bitsOf 2 2 o) (.faadd (bitOf 0 o) (bitOf 1 o) (f7 17 o) (f7 10 o) (f7 3 o))

/-- S-class major 0x23: FENCE. -/
def decS35 (o : Nat) : Option Instr :=
  (FenceScope.ofCode (bitsOf 23 21 o)).bind fun sc => (FenceKind.ofCode (bitsOf 20 19 o)).bind fun k => zero (bitsOf 17 0 o) (.fence sc k (bitOf 18 o))

/-- S-class major 0x24: BR. -/
def decS36 (o : Nat) : Option Instr :=
  some (.br (f3 21 o) (bitOf 20 o) (.ofNat 20 o))

/-- S-class major 0x25: CALL. -/
def decS37 (o : Nat) : Option Instr :=
  some (.call (.ofNat 24 o))

/-- S-class major 0x26: JMPR. -/
def decS38 (o : Nat) : Option Instr :=
  zero (bitsOf 9 0 o) (.jmpr (f7 17 o) (f7 10 o))

/-- S-class major 0x27: FADD_D, FSUB_D, FMUL_D, FDIV_D, FMIN_D, FMAX_D, FSQRT_D, FSGN_D. -/
def decS39 (o : Nat) : Option Instr :=
  match bitsOf 2 0 o with
  | 0 => some (.faddD (f7 17 o) (f7 10 o) (f7 3 o))
  | 1 => some (.fsubD (f7 17 o) (f7 10 o) (f7 3 o))
  | 2 => some (.fmulD (f7 17 o) (f7 10 o) (f7 3 o))
  | 3 => some (.fdivD (f7 17 o) (f7 10 o) (f7 3 o))
  | 4 => some (.fminD (f7 17 o) (f7 10 o) (f7 3 o))
  | 5 => some (.fmaxD (f7 17 o) (f7 10 o) (f7 3 o))
  | 6 => zero (bitsOf 9 3 o) (.fsqrtD (f7 17 o) (f7 10 o))
  | 7 => some (.fsgnD (f7 17 o) (f7 10 o) (f7 3 o))
  | _ => none

/-- S-class major 0x28: FADD_S, FSUB_S, FMUL_S, FDIV_S, FMIN_S, FMAX_S, FSQRT_S, FSGN_S. -/
def decS40 (o : Nat) : Option Instr :=
  match bitsOf 2 0 o with
  | 0 => some (.faddS (f7 17 o) (f7 10 o) (f7 3 o))
  | 1 => some (.fsubS (f7 17 o) (f7 10 o) (f7 3 o))
  | 2 => some (.fmulS (f7 17 o) (f7 10 o) (f7 3 o))
  | 3 => some (.fdivS (f7 17 o) (f7 10 o) (f7 3 o))
  | 4 => some (.fminS (f7 17 o) (f7 10 o) (f7 3 o))
  | 5 => some (.fmaxS (f7 17 o) (f7 10 o) (f7 3 o))
  | 6 => zero (bitsOf 9 3 o) (.fsqrtS (f7 17 o) (f7 10 o))
  | 7 => some (.fsgnS (f7 17 o) (f7 10 o) (f7 3 o))
  | _ => none

/-- S-class major 0x29: FFMA. -/
def decS41 (o : Nat) : Option Instr :=
  zero (bitsOf 2 2 o) (.ffma (bitOf 0 o) (bitOf 1 o) (f7 17 o) (f7 10 o) (f7 3 o))

/-- S-class major 0x2A: FCVT. -/
def decS42 (o : Nat) : Option Instr :=
  zero (bitsOf 9 3 o) (.fcvt (.ofCode (bitsOf 2 0 o)) (f7 17 o) (f7 10 o))

/-- S-class major 0x2B: FCMP. -/
def decS43 (o : Nat) : Option Instr :=
  zero (bitsOf 20 17 o) (.fcmp (f3 21 o) (.ofCode (bitsOf 1 0 o)) (bitOf 2 o) (f7 10 o) (f7 3 o))

/-- S-class major 0x2C: SPAWN, SPAWN_Q. -/
def decS44 (o : Nat) : Option Instr :=
  match bitsOf 2 0 o with
  | 0 => zero (bitsOf 9 3 o) (.spawn (f7 17 o) (f7 10 o))
  | 1 => zero (bitsOf 9 3 o) (.spawnQ (f7 17 o) (f7 10 o))
  | _ => none

/-- S-class major 0x2D: RSS, RSS_T. -/
def decS45 (o : Nat) : Option Instr :=
  match bitsOf 2 0 o with
  | 0 => some (.rss (f7 17 o) (f7 10 o) (f7 3 o))
  | 1 => some (.rssT (f7 17 o) (f7 10 o) (f7 3 o))
  | _ => none

/-- S-class major 0x2E: RSV, RSV_T. -/
def decS46 (o : Nat) : Option Instr :=
  match bitsOf 2 0 o with
  | 0 => zero (bitsOf 19 17 o) (.rsv (f4 20 o) (f7 10 o) (f7 3 o))
  | 1 => zero (bitsOf 19 17 o) (.rsvT (f4 20 o) (f7 10 o) (f7 3 o))
  | _ => none

/-- S-class major 0x2F: SELF, PARENT, LANE, EXIT, JOIN, CANCEL, BARG, YIELD. -/
def decS47 (o : Nat) : Option Instr :=
  match bitsOf 2 0 o with
  | 0 => zero (bitsOf 16 3 o) (.self (f7 17 o))
  | 1 => zero (bitsOf 16 3 o) (.parent (f7 17 o))
  | 2 => zero (bitsOf 16 3 o) (.lane (f7 17 o))
  | 3 => zero (bitsOf 23 17 o + bitsOf 9 3 o) (.exit (f7 10 o))
  | 4 => zero (bitsOf 9 3 o) (.join (f7 17 o) (f7 10 o))
  | 5 => zero (bitsOf 23 17 o + bitsOf 9 3 o) (.cancel (f7 10 o))
  | 6 => zero (bitsOf 23 3 o) .barg
  | 7 => zero (bitsOf 23 3 o) .yield
  | _ => none

/-- S-class major 0x30: TAKE, HOLD, TEST, VTAKE, VHOLD. -/
def decS48 (o : Nat) : Option Instr :=
  match bitsOf 2 0 o with
  | 0 => zero (bitsOf 9 3 o) (.take (f7 17 o) (f7 10 o))
  | 1 => zero (bitsOf 23 17 o + bitsOf 9 3 o) (.hold (f7 10 o))
  | 2 => zero (bitsOf 23 20 o + bitsOf 9 3 o) (.test (f3 17 o) (f7 10 o))
  | 3 => zero (bitsOf 23 21 o + bitsOf 16 14 o + bitsOf 9 3 o) (.vtake (f4 17 o) (f4 10 o))
  | 4 => zero (bitsOf 23 14 o + bitsOf 9 3 o) (.vhold (f4 10 o))
  | _ => none

/-- S-class major 0x31: WLD, WLD_N. -/
def decS49 (o : Nat) : Option Instr :=
  match bitsOf 3 3 o with
  | 0 => some (.wld (f4 20 o) (f2 18 o) (f7 11 o) (f7 4 o) (.ofNat 3 o))
  | 1 => some (.wldN (f4 20 o) (f2 18 o) (f7 11 o) (f7 4 o) (.ofNat 3 o))
  | _ => none

/-- S-class major 0x32: WST. -/
def decS50 (o : Nat) : Option Instr :=
  zero (bitsOf 3 0 o) (.wst (f4 20 o) (f2 18 o) (f7 11 o) (f7 4 o))

/-- S-class major 0x33: WBIND, WCOMMIT, WHOR, WSTAT, WCLOCK. -/
def decS51 (o : Nat) : Option Instr :=
  match bitsOf 2 0 o with
  | 0 => zero (bitsOf 23 17 o + bitsOf 7 3 o) (.wbind (f2 8 o) (f7 10 o))
  | 1 => zero (bitsOf 23 17 o + bitsOf 7 3 o) (.wcommit (f2 8 o) (f7 10 o))
  | 2 => zero (bitsOf 23 17 o + bitsOf 7 3 o) (.whor (f2 8 o) (f7 10 o))
  | 3 => zero (bitsOf 7 3 o) (.wstat (f7 17 o) (f2 8 o) (f7 10 o))
  | 4 => zero (bitsOf 16 10 o + bitsOf 7 3 o) (.wclock (f7 17 o) (f2 8 o))
  | _ => none

/-- S-class major 0x34: FORK, BRSET, BRDROP. -/
def decS52 (o : Nat) : Option Instr :=
  match bitsOf 2 0 o with
  | 0 => some (.fork (f7 17 o) (f7 10 o) (f7 3 o))
  | 1 => zero (bitsOf 23 17 o + bitsOf 9 3 o) (.brset (f7 10 o))
  | 2 => zero (bitsOf 23 17 o + bitsOf 9 3 o) (.brdrop (f7 10 o))
  | _ => none

/-- S-class major 0x35: SWAIT, SADD, SSET, SREAD. -/
def decS53 (o : Nat) : Option Instr :=
  match bitsOf 1 0 o with
  | 0 => zero (bitsOf 8 2 o) (.swait (f7 17 o) (f8 9 o))
  | 1 => zero (bitsOf 8 2 o) (.sadd (f7 17 o) (f8 9 o))
  | 2 => zero (bitsOf 8 2 o) (.sset (f7 17 o) (f8 9 o))
  | 3 => zero (bitsOf 8 2 o) (.sread (f7 17 o) (f8 9 o))
  | _ => none

/-- S-class major 0x36: ENQ. -/
def decS54 (o : Nat) : Option Instr :=
  zero (bitsOf 20 17 o + bitsOf 9 0 o) (.enq (f3 21 o) (f7 10 o))

/-- S-class major 0x37: CSRR. -/
def decS55 (o : Nat) : Option Instr :=
  zero (bitsOf 16 10 o) (.csrr (f7 17 o) (.ofNat 10 o))

/-- S-class major 0x38: CSRW. -/
def decS56 (o : Nat) : Option Instr :=
  zero (bitsOf 23 17 o) (.csrw (f7 10 o) (.ofNat 10 o))

/-- S-class major 0x39: NOP, TRAP, ERET, HALT, TIME, BREAK, VSETL, KIDX. -/
def decS57 (o : Nat) : Option Instr :=
  match bitsOf 2 0 o with
  | 0 => zero (bitsOf 23 3 o) .nop
  | 1 => zero (bitsOf 23 17 o + bitsOf 9 3 o) (.trap (f7 10 o))
  | 2 => zero (bitsOf 23 3 o) .eret
  | 3 => zero (bitsOf 23 3 o) .halt
  | 4 => zero (bitsOf 16 3 o) (.time (f7 17 o))
  | 5 => zero (bitsOf 23 3 o) .brk
  | 6 => zero (bitsOf 23 17 o + bitsOf 9 3 o) (.vsetl (f7 10 o))
  | 7 => zero (bitsOf 23 17 o + bitsOf 9 3 o) (.kidx (f7 10 o))
  | _ => none

/-- V-class major 0x00: VADD, VSUB, VMUL, VDIV, VMIN, VMAX, VAND, VOR, VXOR, VANDN, VSHL, VSHR, VSRA, VABSD, VCPSGN. -/
def decV00 (o : Nat) : Option Instr :=
  match bitsOf 3 0 o with
  | 0 => (ElemType.ofCode (bitsOf 7 4 o)).map fun t => .vadd (f4 20 o) (f4 16 o) (f4 12 o) (f4 8 o) t
  | 1 => (ElemType.ofCode (bitsOf 7 4 o)).map fun t => .vsub (f4 20 o) (f4 16 o) (f4 12 o) (f4 8 o) t
  | 2 => (ElemType.ofCode (bitsOf 7 4 o)).map fun t => .vmul (f4 20 o) (f4 16 o) (f4 12 o) (f4 8 o) t
  | 3 => (ElemType.ofCode (bitsOf 7 4 o)).map fun t => .vdiv (f4 20 o) (f4 16 o) (f4 12 o) (f4 8 o) t
  | 4 => (ElemType.ofCode (bitsOf 7 4 o)).map fun t => .vmin (f4 20 o) (f4 16 o) (f4 12 o) (f4 8 o) t
  | 5 => (ElemType.ofCode (bitsOf 7 4 o)).map fun t => .vmax (f4 20 o) (f4 16 o) (f4 12 o) (f4 8 o) t
  | 6 => (ElemType.ofCode (bitsOf 7 4 o)).map fun t => .vand (f4 20 o) (f4 16 o) (f4 12 o) (f4 8 o) t
  | 7 => (ElemType.ofCode (bitsOf 7 4 o)).map fun t => .vor (f4 20 o) (f4 16 o) (f4 12 o) (f4 8 o) t
  | 8 => (ElemType.ofCode (bitsOf 7 4 o)).map fun t => .vxor (f4 20 o) (f4 16 o) (f4 12 o) (f4 8 o) t
  | 9 => (ElemType.ofCode (bitsOf 7 4 o)).map fun t => .vandn (f4 20 o) (f4 16 o) (f4 12 o) (f4 8 o) t
  | 10 => (ElemType.ofCode (bitsOf 7 4 o)).map fun t => .vshl (f4 20 o) (f4 16 o) (f4 12 o) (f4 8 o) t
  | 11 => (ElemType.ofCode (bitsOf 7 4 o)).map fun t => .vshr (f4 20 o) (f4 16 o) (f4 12 o) (f4 8 o) t
  | 12 => (ElemType.ofCode (bitsOf 7 4 o)).map fun t => .vsra (f4 20 o) (f4 16 o) (f4 12 o) (f4 8 o) t
  | 13 => (ElemType.ofCode (bitsOf 7 4 o)).map fun t => .vabsd (f4 20 o) (f4 16 o) (f4 12 o) (f4 8 o) t
  | 14 => (ElemType.ofCode (bitsOf 7 4 o)).map fun t => .vcpsgn (f4 20 o) (f4 16 o) (f4 12 o) (f4 8 o) t
  | _ => none

/-- V-class major 0x01: VADD_SCALAR, VSUB_SCALAR, VMUL_SCALAR, VDIV_SCALAR, VMIN_SCALAR, VMAX_SCALAR, VAND_SCALAR, VOR_SCALAR,
VXOR_SCALAR, VANDN_SCALAR, VSHL_SCALAR, VSHR_SCALAR, VSRA_SCALAR, VABSD_SCALAR, VCPSGN_SCALAR. -/
def decV01 (o : Nat) : Option Instr :=
  match bitsOf 4 1 o with
  | 0 => (ElemType.ofCode (bitsOf 8 5 o)).map fun t => .vaddS (f4 20 o) (f4 16 o) (f7 9 o) t (bitOf 0 o)
  | 1 => (ElemType.ofCode (bitsOf 8 5 o)).map fun t => .vsubS (f4 20 o) (f4 16 o) (f7 9 o) t (bitOf 0 o)
  | 2 => (ElemType.ofCode (bitsOf 8 5 o)).map fun t => .vmulS (f4 20 o) (f4 16 o) (f7 9 o) t (bitOf 0 o)
  | 3 => (ElemType.ofCode (bitsOf 8 5 o)).map fun t => .vdivS (f4 20 o) (f4 16 o) (f7 9 o) t (bitOf 0 o)
  | 4 => (ElemType.ofCode (bitsOf 8 5 o)).map fun t => .vminS (f4 20 o) (f4 16 o) (f7 9 o) t (bitOf 0 o)
  | 5 => (ElemType.ofCode (bitsOf 8 5 o)).map fun t => .vmaxS (f4 20 o) (f4 16 o) (f7 9 o) t (bitOf 0 o)
  | 6 => (ElemType.ofCode (bitsOf 8 5 o)).map fun t => .vandS (f4 20 o) (f4 16 o) (f7 9 o) t (bitOf 0 o)
  | 7 => (ElemType.ofCode (bitsOf 8 5 o)).map fun t => .vorS (f4 20 o) (f4 16 o) (f7 9 o) t (bitOf 0 o)
  | 8 => (ElemType.ofCode (bitsOf 8 5 o)).map fun t => .vxorS (f4 20 o) (f4 16 o) (f7 9 o) t (bitOf 0 o)
  | 9 => (ElemType.ofCode (bitsOf 8 5 o)).map fun t => .vandnS (f4 20 o) (f4 16 o) (f7 9 o) t (bitOf 0 o)
  | 10 => (ElemType.ofCode (bitsOf 8 5 o)).map fun t => .vshlS (f4 20 o) (f4 16 o) (f7 9 o) t (bitOf 0 o)
  | 11 => (ElemType.ofCode (bitsOf 8 5 o)).map fun t => .vshrS (f4 20 o) (f4 16 o) (f7 9 o) t (bitOf 0 o)
  | 12 => (ElemType.ofCode (bitsOf 8 5 o)).map fun t => .vsraS (f4 20 o) (f4 16 o) (f7 9 o) t (bitOf 0 o)
  | 13 => (ElemType.ofCode (bitsOf 8 5 o)).map fun t => .vabsdS (f4 20 o) (f4 16 o) (f7 9 o) t (bitOf 0 o)
  | 14 => (ElemType.ofCode (bitsOf 8 5 o)).map fun t => .vcpsgnS (f4 20 o) (f4 16 o) (f7 9 o) t (bitOf 0 o)
  | _ => none

/-- V-class major 0x02: VFMA, VFMA_N, VFMA_E. -/
def decV02 (o : Nat) : Option Instr :=
  match bitsOf 3 0 o with
  | 0 => (ElemType.ofCode (bitsOf 7 4 o)).map fun t => .vfma (f4 20 o) (f4 16 o) (f4 12 o) (f4 8 o) t
  | 1 => (ElemType.ofCode (bitsOf 7 4 o)).map fun t => .vfmaN (f4 20 o) (f4 16 o) (f4 12 o) (f4 8 o) t
  | 2 => (ElemType.ofCode (bitsOf 7 4 o)).map fun t => .vfmaE (f4 20 o) (f4 16 o) (f4 12 o) (f4 8 o) t
  | _ => none

/-- V-class major 0x03: VNEG, VABS, VNOT, VSQRT, VRSQ, VRCP, VEXP2, VLOG2, VFLOOR, VROUND, VCLZ, VPOPC. -/
def decV03 (o : Nat) : Option Instr :=
  match bitsOf 3 0 o with
  | 0 => (ElemType.ofCode (bitsOf 7 4 o)).bind fun t => zero (bitsOf 15 12 o) (.vneg (f4 20 o) (f4 16 o) (f4 8 o) t)
  | 1 => (ElemType.ofCode (bitsOf 7 4 o)).bind fun t => zero (bitsOf 15 12 o) (.vabs (f4 20 o) (f4 16 o) (f4 8 o) t)
  | 2 => (ElemType.ofCode (bitsOf 7 4 o)).bind fun t => zero (bitsOf 15 12 o) (.vnot (f4 20 o) (f4 16 o) (f4 8 o) t)
  | 3 => (ElemType.ofCode (bitsOf 7 4 o)).bind fun t => zero (bitsOf 15 12 o) (.vsqrt (f4 20 o) (f4 16 o) (f4 8 o) t)
  | 4 => (ElemType.ofCode (bitsOf 7 4 o)).bind fun t => zero (bitsOf 15 12 o) (.vrsq (f4 20 o) (f4 16 o) (f4 8 o) t)
  | 5 => (ElemType.ofCode (bitsOf 7 4 o)).bind fun t => zero (bitsOf 15 12 o) (.vrcp (f4 20 o) (f4 16 o) (f4 8 o) t)
  | 6 => (ElemType.ofCode (bitsOf 7 4 o)).bind fun t => zero (bitsOf 15 12 o) (.vexp2 (f4 20 o) (f4 16 o) (f4 8 o) t)
  | 7 => (ElemType.ofCode (bitsOf 7 4 o)).bind fun t => zero (bitsOf 15 12 o) (.vlog2 (f4 20 o) (f4 16 o) (f4 8 o) t)
  | 8 => (ElemType.ofCode (bitsOf 7 4 o)).bind fun t => zero (bitsOf 15 12 o) (.vfloor (f4 20 o) (f4 16 o) (f4 8 o) t)
  | 9 => (ElemType.ofCode (bitsOf 7 4 o)).bind fun t => zero (bitsOf 15 12 o) (.vround (f4 20 o) (f4 16 o) (f4 8 o) t)
  | 10 => (ElemType.ofCode (bitsOf 7 4 o)).bind fun t => zero (bitsOf 15 12 o) (.vclz (f4 20 o) (f4 16 o) (f4 8 o) t)
  | 11 => (ElemType.ofCode (bitsOf 7 4 o)).bind fun t => zero (bitsOf 15 12 o) (.vpopc (f4 20 o) (f4 16 o) (f4 8 o) t)
  | _ => none

/-- V-class major 0x04: VCMP. -/
def decV04 (o : Nat) : Option Instr :=
  (ElemType.ofCode (bitsOf 7 4 o)).bind fun t => (VCond.ofCode (bitsOf 3 0 o)).map fun c => .vcmp c (f4 20 o) (f4 16 o) (f4 12 o) (f4 8 o) t

/-- V-class major 0x05: VSEL. -/
def decV05 (o : Nat) : Option Instr :=
  match bitsOf 3 0 o with
  | 0 => (ElemType.ofCode (bitsOf 7 4 o)).map fun t => .vsel (f4 20 o) (f4 16 o) (f4 12 o) (f4 8 o) t
  | _ => none

/-- V-class major 0x06: VCVT. -/
def decV06 (o : Nat) : Option Instr :=
  (ElemType.ofCode (bitsOf 7 4 o)).bind fun t => (ElemType.ofCode (bitsOf 15 12 o)).bind fun src => (RoundSel.ofCode (bitsOf 3 0 o)).map fun r => .vcvt (f4 20 o) (f4 16 o) src (f4 8 o) t r

/-- V-class major 0x07: VSPL, VIOTA, VCLR, VMASK. -/
def decV07 (o : Nat) : Option Instr :=
  match bitsOf 4 1 o with
  | 0 => (ElemType.ofCode (bitsOf 8 5 o)).bind fun t => zero (bitsOf 19 16 o + bitsOf 0 0 o) (.vspl (f4 20 o) (f7 9 o) t)
  | 1 => (ElemType.ofCode (bitsOf 8 5 o)).bind fun t => zero (bitsOf 19 16 o + bitsOf 15 9 o + bitsOf 0 0 o) (.viota (f4 20 o) t)
  | 2 => (ElemType.ofCode (bitsOf 8 5 o)).bind fun t => zero (bitsOf 19 16 o + bitsOf 15 9 o + bitsOf 0 0 o) (.vclr (f4 20 o) t)
  | 3 => if bitsOf 8 5 o = 14 then zero (bitsOf 19 16 o + bitsOf 0 0 o) (.vmask (f4 20 o) (f7 9 o)) else none
  | _ => none

/-- V-class major 0x08: VRED. -/
def decV08 (o : Nat) : Option Instr :=
  (ElemType.ofCode (bitsOf 8 5 o)).bind fun t => (RedOp.ofCode (bitsOf 4 1 o)).bind fun op => zero (bitsOf 23 20 o + bitsOf 0 0 o) (.vred op (f7 9 o) (f4 16 o) t)

/-- V-class major 0x09: VCOAL, VLEN, VNRUN, VEXTR, VEXPAND. -/
def decV09 (o : Nat) : Option Instr :=
  match bitsOf 4 1 o with
  | 0 => (ElemType.ofCode (bitsOf 8 5 o)).bind fun t => zero (bitsOf 15 9 o + bitsOf 0 0 o) (.vcoal (f4 20 o) (f4 16 o) t)
  | 1 => (ElemType.ofCode (bitsOf 8 5 o)).bind fun t => zero (bitsOf 23 20 o + bitsOf 0 0 o) (.vlen (f7 9 o) (f4 16 o) t)
  | 2 => (ElemType.ofCode (bitsOf 8 5 o)).bind fun t => zero (bitsOf 23 20 o + bitsOf 0 0 o) (.vnrun (f7 9 o) (f4 16 o) t)
  | 3 => (ElemType.ofCode (bitsOf 8 5 o)).bind fun t => zero (bitsOf 23 20 o + bitsOf 0 0 o) (.vextr (f7 9 o) (f4 16 o) t)
  | 4 => (ElemType.ofCode (bitsOf 8 5 o)).bind fun t => zero (bitsOf 15 9 o + bitsOf 0 0 o) (.vexpand (f4 20 o) (f4 16 o) t)
  | _ => none

/-- V-class major 0x0A: VSLDU, VSLDD, VSLICE, VCAT, VMOV, VREV. -/
def decV10 (o : Nat) : Option Instr :=
  match bitsOf 4 1 o with
  | 0 => (ElemType.ofCode (bitsOf 8 5 o)).bind fun t => zero (bitsOf 0 0 o) (.vsldu (f4 20 o) (f4 16 o) (f7 9 o) t)
  | 1 => (ElemType.ofCode (bitsOf 8 5 o)).bind fun t => zero (bitsOf 0 0 o) (.vsldd (f4 20 o) (f4 16 o) (f7 9 o) t)
  | 2 => (ElemType.ofCode (bitsOf 8 5 o)).bind fun t => zero (bitsOf 0 0 o) (.vslice (f4 20 o) (f4 16 o) (f7 9 o) t)
  | 3 => (ElemType.ofCode (bitsOf 8 5 o)).bind fun t => zero (bitsOf 15 13 o + bitsOf 0 0 o) (.vcat (f4 20 o) (f4 16 o) (f4 9 o) t)
  | 4 => (ElemType.ofCode (bitsOf 8 5 o)).bind fun t => zero (bitsOf 15 9 o + bitsOf 0 0 o) (.vmov (f4 20 o) (f4 16 o) t)
  | 5 => (ElemType.ofCode (bitsOf 8 5 o)).bind fun t => zero (bitsOf 15 9 o + bitsOf 0 0 o) (.vrev (f4 20 o) (f4 16 o) t)
  | _ => none

/-- V-class major 0x0B: VLD_DENSE, VLD_STR, VLD_RUNS, VLD_BANK. -/
def decV11 (o : Nat) : Option Instr :=
  match bitsOf 1 0 o with
  | 0 => (ElemType.ofCode (bitsOf 5 2 o)).bind fun t => zero (bitsOf 12 6 o) (.vldDense (f4 20 o) (f7 13 o) t)
  | 1 => (ElemType.ofCode (bitsOf 5 2 o)).map fun t => .vldStr (f4 20 o) (f7 13 o) (f7 6 o) t
  | 2 => (ElemType.ofCode (bitsOf 5 2 o)).bind fun t => zero (bitsOf 12 6 o) (.vldRuns (f4 20 o) (f7 13 o) t)
  | 3 => (ElemType.ofCode (bitsOf 5 2 o)).map fun t => .vldBank (f4 20 o) (f7 13 o) (f7 6 o) t
  | _ => none

/-- V-class major 0x0C: VST_DENSE, VST_STR, VST_RUNS, VST_BANK. -/
def decV12 (o : Nat) : Option Instr :=
  match bitsOf 1 0 o with
  | 0 => (ElemType.ofCode (bitsOf 5 2 o)).bind fun t => zero (bitsOf 12 6 o) (.vstDense (f4 20 o) (f7 13 o) t)
  | 1 => (ElemType.ofCode (bitsOf 5 2 o)).map fun t => .vstStr (f4 20 o) (f7 13 o) (f7 6 o) t
  | 2 => (ElemType.ofCode (bitsOf 5 2 o)).bind fun t => zero (bitsOf 12 6 o) (.vstRuns (f4 20 o) (f7 13 o) t)
  | 3 => (ElemType.ofCode (bitsOf 5 2 o)).map fun t => .vstBank (f4 20 o) (f7 13 o) (f7 6 o) t
  | _ => none

/-- V-class major 0x0D: VGTH. -/
def decV13 (o : Nat) : Option Instr :=
  (ElemType.ofCode (bitsOf 5 2 o)).bind fun t => zero (bitsOf 12 10 o + bitsOf 1 1 o) (.vgth (f4 20 o) (f7 13 o) (f4 6 o) t (bitOf 0 o))

/-- V-class major 0x0E: VSCT. -/
def decV14 (o : Nat) : Option Instr :=
  (ElemType.ofCode (bitsOf 5 2 o)).bind fun t => zero (bitsOf 12 10 o + bitsOf 1 1 o) (.vsct (f4 20 o) (f7 13 o) (f4 6 o) t (bitOf 0 o))

/-- The S-class opcode map (R209). -/
def decodeS (major o : Nat) : Option Instr :=
  match major with
  | 0 => decS00 o
  | 1 => decS01 o
  | 2 => decS02 o
  | 3 => decS03 o
  | 4 => decS04 o
  | 5 => decS05 o
  | 6 => decS06 o
  | 7 => decS07 o
  | 8 => decS08 o
  | 9 => decS09 o
  | 10 => decS10 o
  | 11 => decS11 o
  | 12 => decS12 o
  | 13 => decS13 o
  | 14 => decS14 o
  | 15 => decS15 o
  | 16 => decS16 o
  | 17 => decS17 o
  | 18 => decS18 o
  | 19 => decS19 o
  | 20 => decS20 o
  | 21 => decS21 o
  | 22 => decS22 o
  | 23 => decS23 o
  | 24 => decS24 o
  | 25 => decS25 o
  | 26 => decS26 o
  | 27 => decS27 o
  | 28 => decS28 o
  | 29 => decS29 o
  | 30 => decS30 o
  | 31 => decS31 o
  | 32 => decS32 o
  | 33 => decS33 o
  | 34 => decS34 o
  | 35 => decS35 o
  | 36 => decS36 o
  | 37 => decS37 o
  | 38 => decS38 o
  | 39 => decS39 o
  | 40 => decS40 o
  | 41 => decS41 o
  | 42 => decS42 o
  | 43 => decS43 o
  | 44 => decS44 o
  | 45 => decS45 o
  | 46 => decS46 o
  | 47 => decS47 o
  | 48 => decS48 o
  | 49 => decS49 o
  | 50 => decS50 o
  | 51 => decS51 o
  | 52 => decS52 o
  | 53 => decS53 o
  | 54 => decS54 o
  | 55 => decS55 o
  | 56 => decS56 o
  | 57 => decS57 o
  | _ => none

/-- The V-class opcode map (R212). -/
def decodeV (major o : Nat) : Option Instr :=
  match major with
  | 0 => decV00 o
  | 1 => decV01 o
  | 2 => decV02 o
  | 3 => decV03 o
  | 4 => decV04 o
  | 5 => decV05 o
  | 6 => decV06 o
  | 7 => decV07 o
  | 8 => decV08 o
  | 9 => decV09 o
  | 10 => decV10 o
  | 11 => decV11 o
  | 12 => decV12 o
  | 13 => decV13 o
  | 14 => decV14 o
  | _ => none

/-- The instruction that a word's bits stand for. Bit [31] of an S-class word is P and belongs to the bundle (R205);
a V-class word with bit [31] set is never decoded. -/
def decodeNat (n : Nat) : Option Instr :=
  if bitOf 30 n then (if bitOf 31 n then none else decodeV (bitsOf 29 24 n) (bitsOf 23 0 n))
  else decodeS (bitsOf 29 24 n) (bitsOf 23 0 n)

/-- The decoder on a word. -/
def decodeWord (w : Code) : Option Instr := decodeNat w.toNat

/-- The decoder on memory bytes, little-endian (R204), with the bytes that follow the word. -/
def decodeBytes : List Byte → Option (Instr × List Byte)
  | a :: b :: c :: d :: rest => (decodeNat (ofBytesLE [a, b, c, d])).map fun i => (i, rest)
  | _ => none

/-- The decoder on an opcode-table word: the bits laid out as the hardware stores them. -/
def decodeTableWord (nbits w : Nat) : Option Instr :=
  (decodeBytes (toBytesLE (max 4 (nbits / 8)) (w % 2 ^ nbits))).map Prod.fst

/-- An S-class word with P = 0. -/
def sWord (major ops : Nat) : Option Nat := some (major * 2 ^ 24 + ops)

/-- A V-class word. -/
def vWord (major ops : Nat) : Option Nat := some (2 ^ 30 + major * 2 ^ 24 + ops)

/-- The word of an instruction, with P = 0, as a natural number; `none` for a step of the device or the host. -/
def encodeNat : Instr → Option Nat
  | .add d a b => sWord 0x00 (e17 d + e10 a + e3 b + 0)
  | .sub d a b => sWord 0x00 (e17 d + e10 a + e3 b + 1)
  | .and d a b => sWord 0x00 (e17 d + e10 a + e3 b + 2)
  | .or d a b => sWord 0x00 (e17 d + e10 a + e3 b + 3)
  | .xor d a b => sWord 0x00 (e17 d + e10 a + e3 b + 4)
  | .andn d a b => sWord 0x00 (e17 d + e10 a + e3 b + 5)
  | .shl d a b => sWord 0x00 (e17 d + e10 a + e3 b + 6)
  | .shr d a b => sWord 0x00 (e17 d + e10 a + e3 b + 7)
  | .sra d a b => sWord 0x01 (e17 d + e10 a + e3 b + 0)
  | .rot d a b => sWord 0x01 (e17 d + e10 a + e3 b + 1)
  | .min d a b => sWord 0x01 (e17 d + e10 a + e3 b + 2)
  | .max d a b => sWord 0x01 (e17 d + e10 a + e3 b + 3)
  | .minu d a b => sWord 0x01 (e17 d + e10 a + e3 b + 4)
  | .maxu d a b => sWord 0x01 (e17 d + e10 a + e3 b + 5)
  | .mul d a b => sWord 0x01 (e17 d + e10 a + e3 b + 6)
  | .mulh d a b => sWord 0x01 (e17 d + e10 a + e3 b + 7)
  | .mulhu d a b => sWord 0x02 (e17 d + e10 a + e3 b + 0)
  | .div d a b => sWord 0x02 (e17 d + e10 a + e3 b + 1)
  | .divu d a b => sWord 0x02 (e17 d + e10 a + e3 b + 2)
  | .rem d a b => sWord 0x02 (e17 d + e10 a + e3 b + 3)
  | .remu d a b => sWord 0x02 (e17 d + e10 a + e3 b + 4)
  | .clz d a => sWord 0x02 (e17 d + e10 a + 5)
  | .ctz d a => sWord 0x02 (e17 d + e10 a + 6)
  | .popc d a => sWord 0x02 (e17 d + e10 a + 7)
  | .sxb d a => sWord 0x03 (e17 d + e10 a + 0)
  | .sxh d a => sWord 0x03 (e17 d + e10 a + 1)
  | .sxw d a => sWord 0x03 (e17 d + e10 a + 2)
  | .zxb d a => sWord 0x03 (e17 d + e10 a + 3)
  | .zxh d a => sWord 0x03 (e17 d + e10 a + 4)
  | .zxw d a => sWord 0x03 (e17 d + e10 a + 5)
  | .bext d a b => sWord 0x03 (e17 d + e10 a + e3 b + 6)
  | .bins d a b => sWord 0x03 (e17 d + e10 a + e3 b + 7)
  | .lea d a b f => sWord 0x04 (e17 d + e10 a + e3 b + f.toNat)
  | .cmp pd c a b => sWord 0x05 (e21 pd + e10 a + e3 b + c.code)
  | .cmpi pd c a imm => sWord 0x06 (e21 pd + c.code * 2 ^ 18 + e10 a + imm.toNat)
  | .sel d p a b => sWord 0x07 (e17 d + e10 a + e3 b + p.toNat)
  | .addi d a imm => sWord 0x08 (e17 d + e10 a + imm.toNat)
  | .andi d a imm => sWord 0x09 (e17 d + e10 a + imm.toNat)
  | .ori d a imm => sWord 0x0A (e17 d + e10 a + imm.toNat)
  | .xori d a imm => sWord 0x0B (e17 d + e10 a + imm.toNat)
  | .shfi k d a n => sWord 0x0C (e17 d + e10 a + k.code * 2 ^ 8 + n.toNat)
  | .movi d imm => sWord 0x0D (e17 d + imm.toNat)
  | .lui d imm => sWord 0x0E (e17 d + imm.toNat)
  | .pand pd pa pb => sWord 0x0F (e21 pd + e18 pa + e15 pb + 0)
  | .por pd pa pb => sWord 0x0F (e21 pd + e18 pa + e15 pb + 1)
  | .pxor pd pa pb => sWord 0x0F (e21 pd + e18 pa + e15 pb + 2)
  | .pandn pd pa pb => sWord 0x0F (e21 pd + e18 pa + e15 pb + 3)
  | .pnot pd pa => sWord 0x0F (e21 pd + e18 pa + 4)
  | .pset pd => sWord 0x0F (e21 pd + 5)
  | .pclr pd => sWord 0x0F (e21 pd + 6)
  | .ldb d a off => sWord 0x10 (e17 d + e10 a + off.toNat)
  | .ldh d a off => sWord 0x11 (e17 d + e10 a + off.toNat)
  | .ldw d a off => sWord 0x12 (e17 d + e10 a + off.toNat)
  | .ldd d a off => sWord 0x13 (e17 d + e10 a + off.toNat)
  | .ldbu d a off => sWord 0x14 (e17 d + e10 a + off.toNat)
  | .ldhu d a off => sWord 0x15 (e17 d + e10 a + off.toNat)
  | .ldwu d a off => sWord 0x16 (e17 d + e10 a + off.toNat)
  | .ldq d a off => sWord 0x17 (e17 d + e10 a + off.toNat)
  | .stb s a off => sWord 0x18 (e17 s + e10 a + off.toNat)
  | .sth s a off => sWord 0x19 (e17 s + e10 a + off.toNat)
  | .stw s a off => sWord 0x1A (e17 s + e10 a + off.toNat)
  | .std s a off => sWord 0x1B (e17 s + e10 a + off.toNat)
  | .stq s a off => sWord 0x1C (e17 s + e10 a + off.toNat)
  | .ldx wd d a b => sWord 0x1D (e17 d + e10 a + e3 b + wd.code)
  | .stx wd s a b => sWord 0x1E (e17 s + e10 a + e3 b + wd.code)
  | .amoC op d a b => sWord 0x1F (e17 d + e10 a + e3 b + op.code)
  | .amoG op d a b => sWord 0x20 (e17 d + e10 a + e3 b + op.code)
  | .cas g q d a b => sWord 0x21 (e17 d + e10 a + e3 b + bitNat q * 2 + bitNat g)
  | .faadd dbl ord d a b => sWord 0x22 (e17 d + e10 a + e3 b + bitNat ord * 2 + bitNat dbl)
  | .fence scope kind e => sWord 0x23 (scope.code * 2 ^ 21 + kind.code * 2 ^ 19 + bitNat e * 2 ^ 18)
  | .br p n disp => sWord 0x24 (e21 p + bitNat n * 2 ^ 20 + disp.toNat)
  | .call disp => sWord 0x25 (disp.toNat)
  | .jmpr d a => sWord 0x26 (e17 d + e10 a)
  | .faddD d a b => sWord 0x27 (e17 d + e10 a + e3 b + 0)
  | .fsubD d a b => sWord 0x27 (e17 d + e10 a + e3 b + 1)
  | .fmulD d a b => sWord 0x27 (e17 d + e10 a + e3 b + 2)
  | .fdivD d a b => sWord 0x27 (e17 d + e10 a + e3 b + 3)
  | .fminD d a b => sWord 0x27 (e17 d + e10 a + e3 b + 4)
  | .fmaxD d a b => sWord 0x27 (e17 d + e10 a + e3 b + 5)
  | .fsqrtD d a => sWord 0x27 (e17 d + e10 a + 6)
  | .fsgnD d a b => sWord 0x27 (e17 d + e10 a + e3 b + 7)
  | .faddS d a b => sWord 0x28 (e17 d + e10 a + e3 b + 0)
  | .fsubS d a b => sWord 0x28 (e17 d + e10 a + e3 b + 1)
  | .fmulS d a b => sWord 0x28 (e17 d + e10 a + e3 b + 2)
  | .fdivS d a b => sWord 0x28 (e17 d + e10 a + e3 b + 3)
  | .fminS d a b => sWord 0x28 (e17 d + e10 a + e3 b + 4)
  | .fmaxS d a b => sWord 0x28 (e17 d + e10 a + e3 b + 5)
  | .fsqrtS d a => sWord 0x28 (e17 d + e10 a + 6)
  | .fsgnS d a b => sWord 0x28 (e17 d + e10 a + e3 b + 7)
  | .ffma sgl neg d a b => sWord 0x29 (e17 d + e10 a + e3 b + bitNat neg * 2 + bitNat sgl)
  | .fcvt c d a => sWord 0x2A (e17 d + e10 a + c.code)
  | .fcmp pd c sgl a b => sWord 0x2B (e21 pd + e10 a + e3 b + bitNat sgl * 4 + c.code)
  | .spawn d a => sWord 0x2C (e17 d + e10 a + 0)
  | .spawnQ d a => sWord 0x2C (e17 d + e10 a + 1)
  | .rss d a b => sWord 0x2D (e17 d + e10 a + e3 b + 0)
  | .rssT d a b => sWord 0x2D (e17 d + e10 a + e3 b + 1)
  | .rsv vs a b => sWord 0x2E (e20 vs + e10 a + e3 b + 0)
  | .rsvT vs a b => sWord 0x2E (e20 vs + e10 a + e3 b + 1)
  | .self d => sWord 0x2F (e17 d + 0)
  | .parent d => sWord 0x2F (e17 d + 1)
  | .lane d => sWord 0x2F (e17 d + 2)
  | .exit a => sWord 0x2F (e10 a + 3)
  | .join d a => sWord 0x2F (e17 d + e10 a + 4)
  | .cancel a => sWord 0x2F (e10 a + 5)
  | .barg => sWord 0x2F (6)
  | .yield => sWord 0x2F (7)
  | .take d a => sWord 0x30 (e17 d + e10 a + 0)
  | .hold a => sWord 0x30 (e10 a + 1)
  | .test pd a => sWord 0x30 (e17p pd + e10 a + 2)
  | .vtake vd va => sWord 0x30 (e17v vd + e10v va + 3)
  | .vhold va => sWord 0x30 (e10v va + 4)
  | .wld vd w key inst pd => sWord 0x31 (e20 vd + e18w w + e11 key + e4 inst + 0 + pd.toNat)
  | .wldN vd w key inst pd => sWord 0x31 (e20 vd + e18w w + e11 key + e4 inst + 8 + pd.toNat)
  | .wst vs w key inst => sWord 0x32 (e20 vs + e18w w + e11 key + e4 inst)
  | .wbind w a => sWord 0x33 (e10 a + e8 w + 0)
  | .wcommit w a => sWord 0x33 (e10 a + e8 w + 1)
  | .whor w a => sWord 0x33 (e10 a + e8 w + 2)
  | .wstat d w a => sWord 0x33 (e17 d + e10 a + e8 w + 3)
  | .wclock d w => sWord 0x33 (e17 d + e8 w + 4)
  | .fork d a b => sWord 0x34 (e17 d + e10 a + e3 b + 0)
  | .brset a => sWord 0x34 (e10 a + 1)
  | .brdrop a => sWord 0x34 (e10 a + 2)
  | .swait s sem => sWord 0x35 (e17 s + e9 sem + 0)
  | .sadd s sem => sWord 0x35 (e17 s + e9 sem + 1)
  | .sset s sem => sWord 0x35 (e17 s + e9 sem + 2)
  | .sread s sem => sWord 0x35 (e17 s + e9 sem + 3)
  | .enq q a => sWord 0x36 (e21 q + e10 a)
  | .csrr d csr => sWord 0x37 (e17 d + csr.toNat)
  | .csrw a csr => sWord 0x38 (e10 a + csr.toNat)
  | .nop => sWord 0x39 (0)
  | .trap a => sWord 0x39 (e10 a + 1)
  | .eret => sWord 0x39 (2)
  | .halt => sWord 0x39 (3)
  | .time d => sWord 0x39 (e17 d + 4)
  | .brk => sWord 0x39 (5)
  | .vsetl a => sWord 0x39 (e10 a + 6)
  | .kidx a => sWord 0x39 (e10 a + 7)
  | .vadd vd va vb vm t => vWord 0x00 (e20 vd + e16 va + e12 vb + e8v vm + t.code * 16 + 0)
  | .vsub vd va vb vm t => vWord 0x00 (e20 vd + e16 va + e12 vb + e8v vm + t.code * 16 + 1)
  | .vmul vd va vb vm t => vWord 0x00 (e20 vd + e16 va + e12 vb + e8v vm + t.code * 16 + 2)
  | .vdiv vd va vb vm t => vWord 0x00 (e20 vd + e16 va + e12 vb + e8v vm + t.code * 16 + 3)
  | .vmin vd va vb vm t => vWord 0x00 (e20 vd + e16 va + e12 vb + e8v vm + t.code * 16 + 4)
  | .vmax vd va vb vm t => vWord 0x00 (e20 vd + e16 va + e12 vb + e8v vm + t.code * 16 + 5)
  | .vand vd va vb vm t => vWord 0x00 (e20 vd + e16 va + e12 vb + e8v vm + t.code * 16 + 6)
  | .vor vd va vb vm t => vWord 0x00 (e20 vd + e16 va + e12 vb + e8v vm + t.code * 16 + 7)
  | .vxor vd va vb vm t => vWord 0x00 (e20 vd + e16 va + e12 vb + e8v vm + t.code * 16 + 8)
  | .vandn vd va vb vm t => vWord 0x00 (e20 vd + e16 va + e12 vb + e8v vm + t.code * 16 + 9)
  | .vshl vd va vb vm t => vWord 0x00 (e20 vd + e16 va + e12 vb + e8v vm + t.code * 16 + 10)
  | .vshr vd va vb vm t => vWord 0x00 (e20 vd + e16 va + e12 vb + e8v vm + t.code * 16 + 11)
  | .vsra vd va vb vm t => vWord 0x00 (e20 vd + e16 va + e12 vb + e8v vm + t.code * 16 + 12)
  | .vabsd vd va vb vm t => vWord 0x00 (e20 vd + e16 va + e12 vb + e8v vm + t.code * 16 + 13)
  | .vcpsgn vd va vb vm t => vWord 0x00 (e20 vd + e16 va + e12 vb + e8v vm + t.code * 16 + 14)
  | .vaddS vd va s t rev => vWord 0x01 (e20 vd + e16 va + e9s s + t.code * 32 + 0 + bitNat rev)
  | .vsubS vd va s t rev => vWord 0x01 (e20 vd + e16 va + e9s s + t.code * 32 + 2 + bitNat rev)
  | .vmulS vd va s t rev => vWord 0x01 (e20 vd + e16 va + e9s s + t.code * 32 + 4 + bitNat rev)
  | .vdivS vd va s t rev => vWord 0x01 (e20 vd + e16 va + e9s s + t.code * 32 + 6 + bitNat rev)
  | .vminS vd va s t rev => vWord 0x01 (e20 vd + e16 va + e9s s + t.code * 32 + 8 + bitNat rev)
  | .vmaxS vd va s t rev => vWord 0x01 (e20 vd + e16 va + e9s s + t.code * 32 + 10 + bitNat rev)
  | .vandS vd va s t rev => vWord 0x01 (e20 vd + e16 va + e9s s + t.code * 32 + 12 + bitNat rev)
  | .vorS vd va s t rev => vWord 0x01 (e20 vd + e16 va + e9s s + t.code * 32 + 14 + bitNat rev)
  | .vxorS vd va s t rev => vWord 0x01 (e20 vd + e16 va + e9s s + t.code * 32 + 16 + bitNat rev)
  | .vandnS vd va s t rev => vWord 0x01 (e20 vd + e16 va + e9s s + t.code * 32 + 18 + bitNat rev)
  | .vshlS vd va s t rev => vWord 0x01 (e20 vd + e16 va + e9s s + t.code * 32 + 20 + bitNat rev)
  | .vshrS vd va s t rev => vWord 0x01 (e20 vd + e16 va + e9s s + t.code * 32 + 22 + bitNat rev)
  | .vsraS vd va s t rev => vWord 0x01 (e20 vd + e16 va + e9s s + t.code * 32 + 24 + bitNat rev)
  | .vabsdS vd va s t rev => vWord 0x01 (e20 vd + e16 va + e9s s + t.code * 32 + 26 + bitNat rev)
  | .vcpsgnS vd va s t rev => vWord 0x01 (e20 vd + e16 va + e9s s + t.code * 32 + 28 + bitNat rev)
  | .vfma vd va vb vm t => vWord 0x02 (e20 vd + e16 va + e12 vb + e8v vm + t.code * 16 + 0)
  | .vfmaN vd va vb vm t => vWord 0x02 (e20 vd + e16 va + e12 vb + e8v vm + t.code * 16 + 1)
  | .vfmaE vd va vb vm t => vWord 0x02 (e20 vd + e16 va + e12 vb + e8v vm + t.code * 16 + 2)
  | .vneg vd va vm t => vWord 0x03 (e20 vd + e16 va + e8v vm + t.code * 16 + 0)
  | .vabs vd va vm t => vWord 0x03 (e20 vd + e16 va + e8v vm + t.code * 16 + 1)
  | .vnot vd va vm t => vWord 0x03 (e20 vd + e16 va + e8v vm + t.code * 16 + 2)
  | .vsqrt vd va vm t => vWord 0x03 (e20 vd + e16 va + e8v vm + t.code * 16 + 3)
  | .vrsq vd va vm t => vWord 0x03 (e20 vd + e16 va + e8v vm + t.code * 16 + 4)
  | .vrcp vd va vm t => vWord 0x03 (e20 vd + e16 va + e8v vm + t.code * 16 + 5)
  | .vexp2 vd va vm t => vWord 0x03 (e20 vd + e16 va + e8v vm + t.code * 16 + 6)
  | .vlog2 vd va vm t => vWord 0x03 (e20 vd + e16 va + e8v vm + t.code * 16 + 7)
  | .vfloor vd va vm t => vWord 0x03 (e20 vd + e16 va + e8v vm + t.code * 16 + 8)
  | .vround vd va vm t => vWord 0x03 (e20 vd + e16 va + e8v vm + t.code * 16 + 9)
  | .vclz vd va vm t => vWord 0x03 (e20 vd + e16 va + e8v vm + t.code * 16 + 10)
  | .vpopc vd va vm t => vWord 0x03 (e20 vd + e16 va + e8v vm + t.code * 16 + 11)
  | .vcmp c vd va vb vm t => vWord 0x04 (e20 vd + e16 va + e12 vb + e8v vm + t.code * 16 + c.code)
  | .vsel vd va vb vm t => vWord 0x05 (e20 vd + e16 va + e12 vb + e8v vm + t.code * 16 + 0)
  | .vcvt vd va src vm t r => vWord 0x06 (e20 vd + e16 va + src.code * 2 ^ 12 + e8v vm + t.code * 16 + r.code)
  | .vspl vd s t => vWord 0x07 (e20 vd + e9s s + t.code * 32 + 0)
  | .viota vd t => vWord 0x07 (e20 vd + t.code * 32 + 2)
  | .vclr vd t => vWord 0x07 (e20 vd + t.code * 32 + 4)
  | .vmask vd s => vWord 0x07 (e20 vd + e9s s + 14 * 32 + 6)
  | .vred op s va t => vWord 0x08 (e16 va + e9s s + t.code * 32 + op.code * 2)
  | .vcoal vd va t => vWord 0x09 (e20 vd + e16 va + t.code * 32 + 0)
  | .vlen s va t => vWord 0x09 (e9s s + e16 va + t.code * 32 + 2)
  | .vnrun s va t => vWord 0x09 (e9s s + e16 va + t.code * 32 + 4)
  | .vextr s va t => vWord 0x09 (e9s s + e16 va + t.code * 32 + 6)
  | .vexpand vd va t => vWord 0x09 (e20 vd + e16 va + t.code * 32 + 8)
  | .vsldu vd va s t => vWord 0x0A (e20 vd + e16 va + e9s s + t.code * 32 + 0)
  | .vsldd vd va s t => vWord 0x0A (e20 vd + e16 va + e9s s + t.code * 32 + 2)
  | .vslice vd va s t => vWord 0x0A (e20 vd + e16 va + e9s s + t.code * 32 + 4)
  | .vcat vd va vb t => vWord 0x0A (e20 vd + e16 va + e9v vb + t.code * 32 + 6)
  | .vmov vd va t => vWord 0x0A (e20 vd + e16 va + t.code * 32 + 8)
  | .vrev vd va t => vWord 0x0A (e20 vd + e16 va + t.code * 32 + 10)
  | .vldDense vd b t => vWord 0x0B (e20 vd + e13 b + t.code * 4 + 0)
  | .vldStr vd b s t => vWord 0x0B (e20 vd + e13 b + e6 s + t.code * 4 + 1)
  | .vldRuns vd b t => vWord 0x0B (e20 vd + e13 b + t.code * 4 + 2)
  | .vldBank vd b e t => vWord 0x0B (e20 vd + e13 b + e6 e + t.code * 4 + 3)
  | .vstDense vs b t => vWord 0x0C (e20 vs + e13 b + t.code * 4 + 0)
  | .vstStr vs b s t => vWord 0x0C (e20 vs + e13 b + e6 s + t.code * 4 + 1)
  | .vstRuns vs b t => vWord 0x0C (e20 vs + e13 b + t.code * 4 + 2)
  | .vstBank vs b e t => vWord 0x0C (e20 vs + e13 b + e6 e + t.code * 4 + 3)
  | .vgth vd b vi t elem => vWord 0x0D (e20 vd + e13 b + e6v vi + t.code * 4 + bitNat elem)
  | .vsct vs b vi t elem => vWord 0x0E (e20 vs + e13 b + e6v vi + t.code * 4 + bitNat elem)
  | .unassignedEncoding _ => none
  | .postedTrapTaken _ _ => none
  | .loadDataReturn _ _ => none
  | .storePerform _ _ _ => none
  | .atomicPerform _ => none
  | .faaddApply _ => none
  | .faaddRetry _ => none
  | .pageWalkComplete _ => none
  | .cowCopyComplete _ => none
  | .remoteStoreArrival _ => none
  | .bounceReturn _ => none
  | .wldClassify _ => none
  | .wldComplete _ => none
  | .wldCycle _ => none
  | .wldTimeout _ => none
  | .wstStage _ => none
  | .wstRingWaitEnd _ => none
  | .wcommitPerform _ => none
  | .whorPerform _ => none
  | .groupExit _ => none
  | .cancelMarked _ => none
  | .cancelHandlerLimit _ _ => none
  | .cancelReclaimComplete _ => none
  | .taskQueuePush _ => none
  | .taskAging _ _ => none
  | .taskDispatch _ => none
  | .threadSwap _ _ => none
  | .threadSwapRestore _ _ => none
  | .groupEvict _ => none
  | .groupRestore _ _ => none
  | .faultRecordPost _ => none
  | .faultAnswer _ _ => none
  | .commandStart _ _ => none
  | .commandComplete _ _ => none
  | .hallPassGrant _ => none
  | .hallPassTimeout _ _ => none
  | .nopc _ _ => none
  | .mxLease _ _ => none
  | .mxFree _ _ => none
  | .mxZero _ _ => none
  | .mxMul _ _ => none
  | .mxAcc _ _ => none
  | .mxStore _ _ => none
  | .mxRes _ _ => none
  | .cpCopy _ _ => none
  | .cpConv _ _ => none
  | .cpFill _ _ => none
  | .cpPack _ _ => none
  | .cpUnpack _ _ => none
  | .cpGath _ _ => none
  | .cpScat _ _ => none
  | .cpSig _ _ => none
  | .wsSample _ => none
  | .wsSnap _ => none
  | .remoteCopyAccess _ _ _ _ => none
  | .qerrClear _ => none
  | .vlenWrite _ => none
  | .poolBoundaryWrite _ _ => none
  | .trapRegisterWrite _ _ => none
  | .registerWrite _ _ => none
  | .lqTailWrite _ _ => none
  | .lqEnable _ _ => none
  | .lqDestroy _ => none
  | .lqDestroyCancel _ => none
  | .lqStatClear _ _ => none
  | .tqEnable _ _ => none
  | .launchSlotRead _ => none
  | .launchStart _ => none
  | .launchComplete _ => none
  | .prShoot _ _ => none
  | .shootdownComplete _ => none
  | .gangStop _ => none
  | .gangStopDump _ => none
  | .gangStopComplete _ => none
  | .gangResume _ => none
  | .prResume _ _ => none
  | .partitionMoveRequest _ _ => none
  | .partitionMoveComplete _ => none
  | .managementPoll => none
  | .updateFw => none
  | .recordFw => none
  | .attest => none
  | .idkey => none
  | .setkey => none
  | .clrkey => none
  | .coldReset => none
  | .serialMarkAdvance => none
  | .hostWindowRead _ _ => none
  | .hostWindowWrite _ _ _ => none
  | .hostSnoop _ => none
  | .hostInvalidation _ _ _ => none
  | .atomicopCompletion _ _ => none
  | .atomicopTimeout _ => none
  | .linkTraining _ => none
  | .flitReceive _ _ => none
  | .flitNak _ _ => none
  | .resendTimeout _ => none
  | .portRetrain _ => none
  | .directoryForward _ => none
  | .hbmRefresh => none
  | .scrub _ _ _ _ => none
  | .directorySweep _ _ => none
  | .retentionSweep => none
  | .telemetry _ => none
  | .thermalLimit _ _ => none
  | .thermalRecover _ _ => none
  | .thermalShutdown _ _ => none
  | .portTrainingComplete _ => none

/-- The word of an instruction (R204, R208-R212), with P = 0. -/
def encode (i : Instr) : Option Code := (encodeNat i).map (BitVec.ofNat 32)

end Sys2Proof
end

