-- ==== Sys2Proof/Machine/Float.lean ====
section
/-! DEFINITION. Floating-point numbers to the bit (spec 07 R179-R194): formats, one rounding for every operation, the NaN
rules, and the correctly rounded functions of R253-R256 and R277. Every finite value is an exact dyadic `m * 2^e`. -/

namespace Sys2Proof.Machine

/-- The four rounding modes (R183). -/
inductive Mode where
  | rne | rtz | rup | rdn
  deriving DecidableEq, Repr

/-- The mode of a two-bit code (R183). -/
def Mode.ofCode : Nat → Mode
  | 0 => .rne | 1 => .rtz | 2 => .rup | _ => .rdn

/-- An IEEE-like format: exponent and fraction widths (R179). -/
structure FFmt where
  ew : Nat
  fw : Nat
  deriving DecidableEq, Repr

/-- binary64. -/
def FFmt.f64 : FFmt := ⟨11, 52⟩
/-- binary32. -/
def FFmt.f32 : FFmt := ⟨8, 23⟩
/-- binary16. -/
def FFmt.f16 : FFmt := ⟨5, 10⟩
/-- The Brixrid 16-bit float (R180). -/
def FFmt.g16 : FFmt := ⟨8, 7⟩
/-- The Brixrid 8-bit float, whose top exponent is ordinary but for one NaN code (R181). -/
def FFmt.f8 : FFmt := ⟨4, 3⟩
/-- The Brixrid 4-bit float (R182). -/
def FFmt.f4 : FFmt := ⟨2, 1⟩

/-- The exponent bias. -/
def FFmt.bias (f : FFmt) : Nat := 2 ^ (f.ew - 1) - 1

/-- The place of the sign bit. -/
def FFmt.signBit (f : FFmt) : Nat := f.ew + f.fw

/-- The code of infinity, sign aside. -/
def FFmt.infCode (f : FFmt) : Nat := (2 ^ f.ew - 1) * 2 ^ f.fw

/-- A decoded value. A NaN's fraction is aligned at the top of 52 bits (R194). -/
inductive FVal where
  | nan (sign : Bool) (frac : Nat)
  | inf (sign : Bool)
  | fin (sign : Bool) (m : Nat) (e : Int)
  deriving DecidableEq, Repr

/-- The value of a code of one of the four formats of R180. -/
def FFmt.decode (f : FFmt) (bits : Nat) : FVal :=
  let s := bitOf f.signBit bits
  let ex := bits / 2 ^ f.fw % 2 ^ f.ew
  let fr := bits % 2 ^ f.fw
  if ex = 2 ^ f.ew - 1 then (if fr = 0 then .inf s else .nan s (fr * 2 ^ (52 - f.fw)))
  else if ex = 0 then .fin s fr (1 - (f.bias : Int) - f.fw)
  else .fin s (2 ^ f.fw + fr) ((ex : Int) - f.bias - f.fw)

/-- Flags: NV 16, DZ 8, OF 4, UF 2, NX 1 (R185). -/
abbrev Flags := BitVec 5

/-- The invalid-operation flag. -/
def nv : Flags := 16#5
/-- The division-by-zero flag. -/
def dz : Flags := 8#5

/-- A result's code with the flags of its rounding. -/
structure FRes where
  bits : Nat
  flags : Flags := 0#5
  deriving DecidableEq, Repr

/-- Whether a magnitude with integer part `m`, remainder `rest` of `2^k` and a trailing nonzero part `sticky` rounds up. -/
def roundsUp (mode : Mode) (s : Bool) (m rest k : Nat) (sticky : Bool) : Bool :=
  match mode with
  | .rne => decide (2 ^ k < 2 * rest) || (decide (2 * rest = 2 ^ k) && k != 0 && (sticky || m % 2 == 1))
  | .rtz => false
  | .rup => !s && (rest != 0 || sticky)
  | .rdn => s && (rest != 0 || sticky)

/-- Rounds `m * 2^e` (and a little more when `sticky`) to a multiple of `2^q`: the multiple, and whether it is inexact. -/
def roundAt (mode : Mode) (s : Bool) (m : Nat) (e q : Int) (sticky : Bool) : Nat × Bool :=
  if q ≤ e then (m * 2 ^ (e - q).toNat, sticky)
  else
    let k := (q - e).toNat
    let hi := m / 2 ^ k
    let rest := m % 2 ^ k
    (hi + bitNat (roundsUp mode s hi rest k sticky), rest != 0 || sticky)

/-- The number of bits of `m`. -/
def bitLen (m : Nat) : Nat := if m = 0 then 0 else Nat.log2 m + 1

/-- The code of the rounded magnitude as if the exponent range were unbounded above, whether it is inexact, and whether it
is tiny after rounding (R183). -/
def roundCode (f : FFmt) (mode : Mode) (s : Bool) (m : Nat) (e : Int) (sticky : Bool) : Nat × Bool × Bool :=
  let top : Int := (bitLen m : Int) - 1 + e
  let emin : Int := 1 - (f.bias : Int)
  let q := max (top - f.fw) (emin - f.fw)
  let r := roundAt mode s m e q sticky
  let free := (roundAt mode s m e (top - f.fw) sticky).1
  let tiny := decide (top < emin) && !(decide (top = emin - 1) && free == 2 ^ (f.fw + 1))
  (((q + f.fw + f.bias - 1).toNat) * 2 ^ f.fw + r.1, r.2, tiny)

/-- One rounding to a format of R180, with its flags. `m` must carry at least two bits below the result's last place when
`sticky` is set. -/
def roundTo (f : FFmt) (mode : Mode) (s : Bool) (m : Nat) (e : Int) (sticky : Bool := false) : FRes :=
  let sb := bitNat s * 2 ^ f.signBit
  if m = 0 && !sticky then ⟨sb, 0#5⟩
  else
    let (code, inexact, tiny) := roundCode f mode s m e sticky
    if f.infCode ≤ code then
      let big := match mode with | .rne => true | .rtz => false | .rup => !s | .rdn => s
      ⟨sb + (if big then f.infCode else f.infCode - 1), 5#5⟩
    else ⟨sb + code, (if inexact then 1#5 else 0#5) ||| (if inexact && tiny then 2#5 else 0#5)⟩

/-! ## NaNs (R191-R194) -/

/-- The core and tag that a newly generated NaN carries (R193). -/
structure NanTag where
  core : Nat
  kidx : Nat
  deriving DecidableEq, Repr

/-- The code of the quiet NaN with a sign and a fraction aligned at the top of 52 bits (R194). -/
def FFmt.quietNan (f : FFmt) (s : Bool) (frac : Nat) : Nat :=
  let fr := frac / 2 ^ (52 - f.fw)
  let quiet := 2 ^ (f.fw - 1)
  bitNat s * 2 ^ f.signBit + f.infCode + (quiet + fr % quiet)

/-- A newly generated NaN (R193). -/
def FFmt.newNan (f : FFmt) (t : NanTag) : Nat :=
  if f.fw = 52 then f.quietNan false (t.core % 2 ^ 13 * 2 ^ 38 + t.kidx % 2 ^ 38)
  else f.quietNan false ((t.core % 2 ^ 13 * 2 ^ 9 + t.kidx % 2 ^ 9) * 2 ^ 29)

/-- The payload of a NaN's aligned fraction: the fraction without the quiet bit (R191). -/
def payload (frac : Nat) : Nat := frac % 2 ^ 51

/-- Whether a value is a NaN. -/
def FVal.isNan : FVal → Bool
  | .nan _ _ => true
  | _ => false

/-- Whether a value is a signalling NaN. -/
def FVal.isSignalling : FVal → Bool
  | .nan _ fr => !bitOf 51 fr
  | _ => false

/-- The NaN that R192 builds from NaN operands: the smallest payload, negative only when every operand that carries it is. -/
def mergeNans : List FVal → Option (Bool × Nat)
  | [] => none
  | .nan s fr :: vs =>
    match mergeNans vs with
    | none => some (s, payload fr)
    | some (s', p) => if payload fr < p then some (s, payload fr) else if p < payload fr then some (s', p) else some (s && s', p)
  | _ :: vs => mergeNans vs

/-- NV when some operand is signalling. -/
def signalFlag (vs : List FVal) : Flags := if vs.any FVal.isSignalling then nv else 0#5

/-- The result of an operation with operands `vs`: the merged NaN when some operand is one, else `k`. -/
def withNans (f : FFmt) (vs : List FVal) (k : FRes) : FRes :=
  match mergeNans vs with
  | some (s, p) => ⟨f.quietNan s p, signalFlag vs⟩
  | none => k

/-- The result of an invalid operation (R192). -/
def invalid (f : FFmt) (t : NanTag) : FRes := ⟨f.newNan t, nv⟩

/-- A signed infinity's code. -/
def FFmt.inf (f : FFmt) (s : Bool) : Nat := bitNat s * 2 ^ f.signBit + f.infCode

/-- A signed zero's code. -/
def FFmt.zero (f : FFmt) (s : Bool) : Nat := bitNat s * 2 ^ f.signBit

/-! ## Arithmetic (R253, R254) -/

/-- The signed integer of a magnitude. -/
def signedMag (s : Bool) (m : Nat) : Int := if s then -(m : Int) else m

/-- Rounds an exact sum `x * 2^e`; `zs` is the sign of an exact zero. -/
def roundSum (f : FFmt) (mode : Mode) (x : Int) (e : Int) (zs : Bool) : FRes :=
  if x = 0 then ⟨f.zero zs, 0#5⟩ else roundTo f mode (decide (x < 0)) x.natAbs e

/-- The exact sum of two dyadics, at the lower exponent. -/
def addDyadic (s1 : Bool) (m1 : Nat) (e1 : Int) (s2 : Bool) (m2 : Nat) (e2 : Int) : Int × Int :=
  let e := min e1 e2
  (signedMag s1 m1 * 2 ^ (e1 - e).toNat + signedMag s2 m2 * 2 ^ (e2 - e).toNat, e)

/-- The sum of two decoded values, neither a NaN. -/
def addVals (f : FFmt) (mode : Mode) (t : NanTag) : FVal → FVal → FRes
  | .inf s, .inf s' => if s = s' then ⟨f.inf s, 0#5⟩ else invalid f t
  | .inf s, _ => ⟨f.inf s, 0#5⟩
  | _, .inf s => ⟨f.inf s, 0#5⟩
  | .fin s1 m1 e1, .fin s2 m2 e2 =>
    let r := addDyadic s1 m1 e1 s2 m2 e2
    roundSum f mode r.1 r.2 (if m1 = 0 ∧ m2 = 0 ∧ s1 = s2 then s1 else decide (mode = .rdn))
  | _, _ => invalid f t

/-- The value with its sign flipped. -/
def FVal.neg : FVal → FVal
  | .nan s fr => .nan (!s) fr
  | .inf s => .inf (!s)
  | .fin s m e => .fin (!s) m e

/-- a + b. -/
def fAdd (f : FFmt) (mode : Mode) (t : NanTag) (a b : Nat) : FRes :=
  let x := f.decode a; let y := f.decode b
  withNans f [x, y] (addVals f mode t x y)

/-- a - b. -/
def fSub (f : FFmt) (mode : Mode) (t : NanTag) (a b : Nat) : FRes :=
  let x := f.decode a; let y := f.decode b
  withNans f [x, y] (addVals f mode t x y.neg)

/-- a × b. -/
def fMul (f : FFmt) (mode : Mode) (t : NanTag) (a b : Nat) : FRes :=
  let x := f.decode a; let y := f.decode b
  withNans f [x, y] (match x, y with
    | .inf s, .inf s' => ⟨f.inf (s != s'), 0#5⟩
    | .inf s, .fin s' m _ => if m = 0 then invalid f t else ⟨f.inf (s != s'), 0#5⟩
    | .fin s m _, .inf s' => if m = 0 then invalid f t else ⟨f.inf (s != s'), 0#5⟩
    | .fin s1 m1 e1, .fin s2 m2 e2 => roundTo f mode (s1 != s2) (m1 * m2) (e1 + e2)
    | _, _ => invalid f t)

/-- Rounds the quotient of two dyadics, the second nonzero. -/
def divDyadic (f : FFmt) (mode : Mode) (s : Bool) (m1 : Nat) (e1 : Int) (m2 : Nat) (e2 : Int) : FRes :=
  let k := f.fw + 5 + bitLen m2
  let n := m1 * 2 ^ k
  roundTo f mode s (n / m2) (e1 - e2 - k) (n % m2 != 0)

/-- a / b; a finite nonzero a over zero sets DZ. -/
def fDiv (f : FFmt) (mode : Mode) (t : NanTag) (a b : Nat) : FRes :=
  let x := f.decode a; let y := f.decode b
  withNans f [x, y] (match x, y with
    | .inf _, .inf _ => invalid f t
    | .inf s, .fin s' _ _ => ⟨f.inf (s != s'), 0#5⟩
    | .fin s _ _, .inf s' => ⟨f.zero (s != s'), 0#5⟩
    | .fin s1 m1 e1, .fin s2 m2 e2 =>
      if m2 = 0 then (if m1 = 0 then invalid f t else ⟨f.inf (s1 != s2), dz⟩)
      else if m1 = 0 then ⟨f.zero (s1 != s2), 0#5⟩
      else divDyadic f mode (s1 != s2) m1 e1 m2 e2
    | _, _ => invalid f t)

/-- One Newton descent to the integer square root, with fuel. -/
def isqrtGo : Nat → Nat → Nat → Nat
  | 0, _, r => r
  | fuel + 1, n, r => let r' := (r + n / r) / 2; if r' < r then isqrtGo fuel n r' else r

/-- The integer square root, rounded down. -/
def isqrt (n : Nat) : Nat := if n = 0 then 0 else isqrtGo (bitLen n + 2) n (2 ^ ((bitLen n + 1) / 2))

/-- Rounds the square root of a positive dyadic. -/
def sqrtDyadic (f : FFmt) (mode : Mode) (m : Nat) (e : Int) : FRes :=
  let k := 2 * (f.fw + 4)
  let k := if (e - k) % 2 = 0 then k else k + 1
  let n := m * 2 ^ k
  let r := isqrt n
  roundTo f mode false r ((e - k) / 2) (r * r != n)

/-- √a. -/
def fSqrt (f : FFmt) (mode : Mode) (t : NanTag) (a : Nat) : FRes :=
  let x := f.decode a
  withNans f [x] (match x with
    | .inf s => if s then invalid f t else ⟨f.inf false, 0#5⟩
    | .fin s m e => if m = 0 then ⟨f.zero s, 0#5⟩ else if s then invalid f t else sqrtDyadic f mode m e
    | .nan _ _ => invalid f t)

/-- c ± a × b with one rounding: `neg` subtracts the product. -/
def fFma (f : FFmt) (mode : Mode) (t : NanTag) (neg : Bool) (a b c : Nat) : FRes :=
  let x := f.decode a; let y := f.decode b; let z := f.decode c
  let bad := match x, y with
    | .inf _, .fin _ m _ => m == 0
    | .fin _ m _, .inf _ => m == 0
    | _, _ => false
  match mergeNans [x, y, z] with
  | some (s, p) => ⟨f.quietNan s p, signalFlag [x, y, z] ||| (if bad then nv else 0#5)⟩
  | none =>
    if bad then invalid f t
    else
      let prod : FVal := match x, y with
        | .inf s, .inf s' => .inf ((s != s') != neg)
        | .inf s, .fin s' _ _ => .inf ((s != s') != neg)
        | .fin s _ _, .inf s' => .inf ((s != s') != neg)
        | .fin s1 m1 e1, .fin s2 m2 e2 => .fin ((s1 != s2) != neg) (m1 * m2) (e1 + e2)
        | v, _ => v
      addVals f mode t z prod

/-- The order of two values that are not NaNs, both zeros equal: -1, 0 or 1. -/
def FVal.cmp : FVal → FVal → Int
  | .inf s, .inf s' => if s = s' then 0 else if s then -1 else 1
  | .inf s, _ => if s then -1 else 1
  | _, .inf s => if s then 1 else -1
  | .fin s1 m1 e1, .fin s2 m2 e2 => (addDyadic s1 m1 e1 (!s2) m2 e2).1.sign
  | _, _ => 0

/-- The sign of a value. -/
def FVal.sign : FVal → Bool
  | .nan s _ => s
  | .inf s => s
  | .fin s _ _ => s

/-- Whether a is the smaller, with -0 below +0. -/
def FVal.below (x y : FVal) : Bool := x.cmp y < 0 || (x.cmp y == 0 && x.sign && !y.sign)

/-- The smaller of a and b, with -0 < +0 (R253). -/
def fMin (f : FFmt) (a b : Nat) : FRes :=
  let x := f.decode a; let y := f.decode b
  withNans f [x, y] ⟨if y.below x then b else a, 0#5⟩

/-- The larger of a and b, with -0 < +0 (R253). -/
def fMax (f : FFmt) (a b : Nat) : FRes :=
  let x := f.decode a; let y := f.decode b
  withNans f [x, y] ⟨if x.below y then b else a, 0#5⟩

/-- a with the sign of b; no flag and no quieting (R253). -/
def fSgn (f : FFmt) (a b : Nat) : Nat := a % 2 ^ f.signBit + bitNat (bitOf f.signBit b) * 2 ^ f.signBit

/-! ## Conversions (R187) -/

/-- Rounds a dyadic to an integer: the magnitude and whether it is inexact. -/
def toIntegral (mode : Mode) (s : Bool) (m : Nat) (e : Int) : Nat × Bool := roundAt mode s m e 0 false

/-- Float to integer of width `w`: the code and flags. A NaN gives 0; out of range gives the nearer bound; both set NV. -/
def floatToInt (mode : Mode) (w : Nat) (sgn : Bool) (v : FVal) : FRes :=
  let lo : Int := if sgn then -(2 ^ (w - 1) : Nat) else 0
  let hi : Int := if sgn then (2 ^ (w - 1) : Nat) - 1 else (2 ^ w : Nat) - 1
  match v with
  | .nan _ _ => ⟨0, nv⟩
  | .inf s => ⟨codeOf w (if s then lo else hi), nv⟩
  | .fin s m e =>
    let r := toIntegral mode s m e
    let x := signedMag s r.1
    if x < lo then ⟨codeOf w lo, nv⟩ else if hi < x then ⟨codeOf w hi, nv⟩
    else ⟨codeOf w x, if r.2 then 1#5 else 0#5⟩

/-- A decoded value to a format of R180: a NaN keeps its sign and its top fraction bits and is quieted (R194). -/
def toFloat (f : FFmt) (mode : Mode) (v : FVal) : FRes :=
  match v with
  | .nan s fr => ⟨f.quietNan s fr, if bitOf 51 fr then 0#5 else nv⟩
  | .inf s => ⟨f.inf s, 0#5⟩
  | .fin s m e => roundTo f mode s m e

/-- A decoded value to f8 (R187): saturating at 448. -/
def toF8 (v : FVal) : FRes :=
  match v with
  | .nan s fr => ⟨bitNat s * 128 + 0x7F, if bitOf 51 fr then 0#5 else nv⟩
  | .inf s => ⟨bitNat s * 128 + 0x7E, 5#5⟩
  | .fin s m e =>
    if m = 0 then ⟨bitNat s * 128, 0#5⟩
    else
      let (code, inexact, tiny) := roundCode .f8 .rne s m e false
      if 0x7E < code then ⟨bitNat s * 128 + 0x7E, 5#5⟩
      else ⟨bitNat s * 128 + code, (if inexact then 1#5 else 0#5) ||| (if inexact && tiny then 2#5 else 0#5)⟩

/-- A decoded value to f4 (R187): saturating at 6, a NaN to +0, every zero to code 0000. -/
def toF4 (v : FVal) : FRes :=
  match v with
  | .nan _ _ => ⟨0, nv⟩
  | .inf s => ⟨bitNat s * 8 + 7, 5#5⟩
  | .fin s m e =>
    if m = 0 then ⟨0, 0#5⟩
    else
      let (code, inexact, tiny) := roundCode .f4 .rne s m e false
      if 7 < code then ⟨bitNat s * 8 + 7, 5#5⟩
      else ⟨if code = 0 then 0 else bitNat s * 8 + code,
        (if inexact then 1#5 else 0#5) ||| (if inexact && tiny then 2#5 else 0#5)⟩

/-- The value of an f8 code (R181); its NaN is quiet with payload 0. -/
def decodeF8 (b : Nat) : FVal :=
  let s := bitOf 7 b
  let ex := b / 8 % 16
  let fr := b % 8
  if ex = 15 ∧ fr = 7 then .nan s (2 ^ 51)
  else if ex = 0 then .fin s fr (-9) else .fin s (8 + fr) ((ex : Int) - 10)

/-- The value of an f4 code (R182); code 1000 is +0. -/
def decodeF4 (b : Nat) : FVal :=
  let s := bitOf 3 b
  let ex := b / 2 % 4
  let fr := b % 2
  if ex = 0 then (if fr = 0 then .fin false 0 0 else .fin s fr (-1)) else .fin s (2 + fr) ((ex : Int) - 2)

/-! ## The correctly rounded functions of R277 -/

/-- 1/√a. -/
def fRsq (f : FFmt) (mode : Mode) (t : NanTag) (a : Nat) : FRes :=
  let x := f.decode a
  withNans f [x] (match x with
    | .inf s => if s then invalid f t else ⟨f.zero false, 0#5⟩
    | .fin s m e =>
      if m = 0 then ⟨f.inf s, dz⟩
      else if s then invalid f t
      else
        let m := if e % 2 = 0 then m else 2 * m
        let h := e / 2
        let k := f.fw + 6 + bitLen m
        let n := 2 ^ (2 * k)
        let r := isqrt (n / m)
        roundTo f mode false r (-h - k) (r * r * m != n)
    | .nan _ _ => invalid f t)

/-- 1/a. -/
def fRcp (f : FFmt) (mode : Mode) (t : NanTag) (a : Nat) : FRes := fDiv f mode t (f.bias * 2 ^ f.fw) a

/-- The fixed-point precision of the power function (assumption 7). -/
def expBits : Nat := 320

/-- The product of `2^(2^-j)` over the set bits of a fraction: `frac` holds the `n` bits still to use, the highest first;
`root` is the next root of two and `acc` the product so far, both in units of `2^-expBits`. -/
def exp2Go : Nat → Nat → Nat → Nat → Nat
  | 0, _, _, acc => acc
  | n + 1, frac, root, acc =>
    let root := isqrt (root * 2 ^ expBits)
    exp2Go n (frac % 2 ^ n) root (if bitOf n frac then acc * root / 2 ^ expBits else acc)

/-- 2^a, correctly rounded (R277). -/
def fExp2 (f : FFmt) (mode : Mode) (t : NanTag) (a : Nat) : FRes :=
  let x := f.decode a
  withNans f [x] (match x with
    | .inf s => if s then ⟨f.zero false, 0#5⟩ else ⟨f.inf false, 0#5⟩
    | .fin s m e =>
      if m = 0 then roundTo f mode false 1 0
      else
        let top : Int := (bitLen m : Int) - 1 + e
        if (f.ew : Int) < top then
          (if s then roundTo f mode false 1 (-(2 : Int) ^ (f.ew + 1)) true else roundTo f mode false 1 (2 ^ f.ew))
        else if top < -((f.fw : Int) + 3) then
          (if s then roundTo f mode false (2 ^ (f.fw + 8) - 1) (-((f.fw : Int) + 8)) true
            else roundTo f mode false (2 ^ (f.fw + 8)) (-((f.fw : Int) + 8)) true)
        else if 0 ≤ e then roundTo f mode false 1 (signedMag s (m * 2 ^ e.toNat))
        else
          let k := (-e).toNat
          let v := signedMag s m
          let i := v / (2 ^ k : Nat)
          let fr := (v % (2 ^ k : Nat)).toNat
          if fr = 0 then roundTo f mode false 1 i
          else roundTo f mode false (exp2Go k fr (2 * 2 ^ expBits) (2 ^ expBits)) (i - expBits) true
    | .nan _ _ => invalid f t)

/-- The fixed-point precision of the logarithm and the number of its fraction bits (assumption 7). -/
def logBits : Nat := 440
/-- Fraction bits of the logarithm. -/
def logFrac : Nat := 200

/-- The next `n` fraction bits of the logarithm of `y` in [1, 2), in units of `2^-logBits`, after the bits `acc`. -/
def log2Go : Nat → Nat → Nat → Nat
  | 0, _, acc => acc
  | n + 1, y, acc =>
    let y2 := y * y / 2 ^ logBits
    if 2 * 2 ^ logBits ≤ y2 then log2Go n (y2 / 2) (2 * acc + 1) else log2Go n y2 (2 * acc)

/-- log2 a, correctly rounded (R277). -/
def fLog2 (f : FFmt) (mode : Mode) (t : NanTag) (a : Nat) : FRes :=
  let x := f.decode a
  withNans f [x] (match x with
    | .inf s => if s then invalid f t else ⟨f.inf false, 0#5⟩
    | .fin s m e =>
      if m = 0 then ⟨f.inf true, dz⟩
      else if s then invalid f t
      else
        let b := bitLen m - 1
        let top : Int := (b : Int) + e
        if m = 2 ^ b then roundTo f mode (decide (top < 0)) top.natAbs 0
        else
          let v : Int := top * (2 ^ logFrac : Nat) + log2Go logFrac (m * 2 ^ (logBits - b)) 0
          if 0 ≤ v then roundTo f mode false v.toNat (-(logFrac : Int)) true
          else roundTo f mode true ((-v).toNat - 1) (-(logFrac : Int)) true
    | .nan _ _ => invalid f t)

/-- The integral value of a in mode `mode`; `exact` sets no NX (R277). -/
def fIntegral (f : FFmt) (mode : Mode) (quietNX : Bool) (a : Nat) : FRes :=
  let x := f.decode a
  match x with
  | .nan s fr => ⟨f.quietNan s fr, if bitOf 51 fr then 0#5 else nv⟩
  | .inf _ => ⟨a, 0#5⟩
  | .fin s m e =>
    let r := toIntegral mode s m e
    ⟨(roundTo f .rne s r.1 0).bits, if r.2 && !quietNX then 1#5 else 0#5⟩

/-! ## Element types -/

/-- The format of a class F type; f64 for the others, which no caller asks for. -/
def fmtOf : ElemType → FFmt
  | .f16 => .f16 | .g16 => .g16 | .f32 => .f32 | _ => .f64

/-- The mode in which a result of type `t` rounds (R184). -/
def modeFor (t : ElemType) (m : Mode) : Mode := if t = .g16 then .rne else m

/-- The value of a float element (classes F and N). -/
def decodeElem (t : ElemType) (b : Nat) : FVal :=
  match t with
  | .f8 => decodeF8 b
  | .f4 => decodeF4 b
  | t => (fmtOf t).decode b

/-- Rounds a value to a float type (classes F and N), under R184. -/
def encodeElem (t : ElemType) (mode : Mode) (v : FVal) : FRes :=
  match t with
  | .f8 => toF8 v
  | .f4 => toF4 v
  | t => toFloat (fmtOf t) (modeFor t mode) v

end Sys2Proof.Machine
end

