-- ==== Sys2Proof/Machine/Tab.lean ====
section
/-! DEFINITION. Sparse tables as plain data: lists of key and value with rising keys. -/

namespace Sys2Proof.Machine

/-- A sparse table with natural keys. -/
abbrev Tab (α : Type) := List (Nat × α)

variable {α : Type}

/-- The value listed under `k`. -/
def Tab.find (k : Nat) : Tab α → Option α
  | [] => none
  | (j, v) :: t => if j = k then some v else if k < j then none else Tab.find k t

/-- The value under `k`, or `d` when none is listed. -/
def Tab.get (d : α) (k : Nat) (t : Tab α) : α := (Tab.find k t).getD d

/-- The table with `v` under `k`; keys keep rising. -/
def Tab.put (k : Nat) (v : α) : Tab α → Tab α
  | [] => [(k, v)]
  | (j, w) :: t => if j < k then (j, w) :: Tab.put k v t else if j = k then (k, v) :: t else (k, v) :: (j, w) :: t

/-- The table without an entry under `k`. -/
def Tab.drop (k : Nat) : Tab α → Tab α
  | [] => []
  | (j, w) :: t => if j = k then t else if k < j then (j, w) :: t else (j, w) :: Tab.drop k t

/-- The table with `v` under `k`, where an unlisted key reads `d`: a value equal to `d` is not listed. -/
def Tab.set [DecidableEq α] (d : α) (k : Nat) (v : α) (t : Tab α) : Tab α := if v = d then Tab.drop k t else Tab.put k v t

/-- The table with `f` applied to the value under `k`, read as `d` when unlisted. -/
def Tab.alter (d : α) (k : Nat) (f : α → α) (t : Tab α) : Tab α := Tab.put k (f (Tab.get d k t)) t

/-- The keys of a table rise strictly and are all above `lo`. -/
def Tab.risingFrom (lo : Option Nat) : Tab α → Bool
  | [] => true
  | (j, _) :: t => (match lo with | none => true | some l => decide (l < j)) && Tab.risingFrom (some j) t

/-- The canonical form of a memory: addresses strictly rising, and no entry equal to `d`, what an unlisted address reads. -/
def Tab.canonical [DecidableEq α] (d : α) (t : Tab α) : Bool := Tab.risingFrom none t && t.all fun e => decide (e.2 ≠ d)

/-- The list with its `n`-th member replaced by `f` of it. -/
def modifyNth (n : Nat) (f : α → α) : List α → List α
  | [] => []
  | x :: xs => match n with
    | 0 => f x :: xs
    | m + 1 => x :: modifyNth m f xs

end Sys2Proof.Machine
end

