-- ==== Sys2Proof/Config.lean ====
section
/-! DEFINITION. What an implementation of the Brixrid fixes, and the values its manual leaves open. A constant without a
body is a free value: no proof can see what it is. -/

namespace Sys2Proof.Config

/-- Dies of a module (R13). -/
def dies : Nat := 24

/-- Clusters of a die (R15). -/
def clustersPerDie : Nat := 12

/-- Cores of a cluster (R18). -/
def coresPerCluster : Nat := 16

/-- Clusters of a module (R20). -/
def clusters : Nat := dies * clustersPerDie

/-- Cores of a module (R20). -/
def cores : Nat := clusters * coresPerCluster

/-- Thread slots of a core (R19). -/
def slots : Nat := 64

/-- Semaphores of a core (R19). -/
def semaphores : Nat := 256

/-- Bytes of HBM behind one die: 96 GiB (R101). -/
def dieBytes : Nat := 96 * 2 ^ 30

/-- Bytes of HBM of a module: 2,304 GiB (R21). -/
def hbmBytes : Nat := dies * dieBytes

/-- Bytes of a line (R111). -/
def line : Nat := 128

/-- Bytes of a branch granule (R88). -/
def granule : Nat := 65536

/-- Live branches that a partition holds at most (R88). -/
def branches : Nat := 65536

/-- Launches of a pending set (R351). -/
def pendingLaunches : Nat := 1024

/-- Entries of a range-lock table (R122). -/
def locks : Nat := 64

/-- Entries of an arrival buffer, of a core or of an image, and arrivals held per migrating name (R78, R79). -/
def arrivals : Nat := 64

/-- Cycles after which a hall-pass request starts at half rate (R318). -/
def passWait : Nat := 4800

/-- Cycles after which a queued task moves up a level (R355). -/
def aging : Nat := 2 ^ 20

/-- Walkers of a die (R366). -/
def walkers : Nat := 128

/-- The `n`-th free word: a value that the manual does not state (assumption 6). -/
opaque freeWord : Nat → BitVec 64

/-- The key of slot 0, which firmware generates at each cold reset and never exports (R393). -/
opaque bootKey : BitVec 512

/-- The bits that a field of a world record decodes to under a layout other than its writer's (R131). -/
opaque foreignField (base key stamp field : Nat) : BitVec 64

/-- The stamps that a key block of a region decodes to where another layout has written its bytes: by the region, the block's offset and
the number of records there (R131). -/
opaque foreignStamps (base offset records : Nat) : List Nat

/-- The committed instant that a region's home decrypts to under another key than that of the commit (R393). -/
opaque foreignClock (base instant written read : Nat) : Option Nat

/-- The byte that module `m` answers to access `n` for its address `a` (R403): that module is no part of this machine. -/
opaque foreignByte (m n a : Nat) : Byte

/-- Whether a signed image or record verifies against the Knaholt key and its digest (R397). -/
opaque verifies (image : List Byte) : Bool

/-- Byte `i` of the device's Falcon-1024 identity public key (R396). -/
opaque identityKey (i : Nat) : Byte

/-- Byte `i` of the device's Falcon-1024 signature over a digest (R398). -/
opaque sign (digest : List Byte) (i : Nat) : Byte

/-- The length of the signature of the report of image `image` over nonce `nonce`, taken as 1,280 where it would pass it (R398). -/
opaque signLength (image nonce : List Byte) : BitVec 16

/-- The security version of an image; the manual gives no layout of an image (R397). -/
opaque imageVersion (image : List Byte) : BitVec 32

/-- The fields of the signed module record (R28). DESIGN CHOICE (assumption 4): the manual gives no module's record; the defaults, which the
machine holds at `State.reset`, are module id 0 with everything in service. -/
structure ModuleRecord where
  modid : BitVec 12 := 0#12
  regRows : Machine.Tab Nat := []
  spareRows : Machine.Tab (List Nat) := []
  noMatrix : List Nat := []
  noWorld : List Nat := []
  lanes : Machine.Tab (List Nat) := []
  deriving DecidableEq, Repr, Inhabited

/-- The fields that a signed record carries; the manual gives no layout of its bytes (R28). -/
opaque recordOf (bytes : List Byte) : ModuleRecord

/-- The die at which a Skelpimir port ends: no rule attaches the ports to dies (R24, R411). -/
opaque portDie : Nat → Nat

/-- The Skelpimir port over which what goes to a module leaves by preference, and the others over which it may (R24, R400). -/
opaque route (module : Nat) : Fin 32
opaque otherRoutes (module : Nat) : List (Fin 32)

/-- A remote store as it travels (R81, R305). -/
structure PodStore where
  sender : Nat
  thread : Nat
  target : Nat
  selector : BitVec 64
  value : BitVec 64
  /-- A run register: its header and its slots, payload and slot header. -/
  run : Option (BitVec 64 × List (BitVec 64 × BitVec 16))
  trap : Bool
  deriving DecidableEq, Repr, Inhabited

/-- What modules send each other about names (R61). -/
inductive PodMessage where
  | store (x : PodStore)
  /-- A store that bounced, with its reason (R80). -/
  | bounce (x : PodStore) (reason : Nat)
  /-- A store has reached its group: a bounce that its sender raises for the pair comes after it (R81, R305). -/
  | taken (x : PodStore)
  /-- A `JOIN` of a name by a group, under a token that the answer repeats. -/
  | join (by_ token name : Nat)
  | status (token : Nat) (value : BitVec 64)
  /-- A `CANCEL` of a name by a group, of a partition. -/
  | cancel (by_ part name : Nat)
  deriving DecidableEq, Repr, Inhabited

/-- The virtual channel of a message (R399). -/
opaque channel : PodMessage → BitVec 3

/-- The units that carry a message: the manual gives the layout of a flit, not that of a message. -/
opaque messageUnits : PodMessage → List (BitVec 256)

/-- The messages that units received in order make up, and the units left over. -/
opaque podMessages : List (BitVec 256) → List PodMessage × List (BitVec 256)

/-- The credits that a sender puts into a flit for each virtual channel (R399). -/
opaque credits (port : Nat) (seq : BitVec 12) : BitVec 32

end Sys2Proof.Config
end

