-- ==== Sys2Proof/Machine/State.lean ====
section
/-! DEFINITION. Everything the manual gives the machine, as plain data, and the machine after a cold reset (spec 01 R25, R33).
Names, counts and addresses are natural numbers; register contents are bit vectors. -/

namespace Sys2Proof.Machine

/-! ## Writes and what comes before them (R157) -/

/-- Who made a write of memory: its id; its core, and whether an engine of that core's cluster made it for a command; its thread and its
place in the thread's program order, of a command the place of its `ENQ`. A write from outside the cores has no thread. -/
structure Writer where
  id : Nat
  core : Nat
  engine : Bool := false
  thread : Option Nat := none
  seq : Nat := 0
  deriving DecidableEq, Repr

/-- A set of writes (R157): of each thread those below a place in its program order, of each thread those of the commands enqueued below
one, and single ones by id. -/
structure View where
  upTo : Tab Nat := []
  cmdsTo : Tab Nat := []
  ids : List Nat := []
  deriving DecidableEq, Repr

/-- A release (R157): its scope, the core of its thread, and the writes that it covers. -/
structure Rel where
  scope : FenceScope
  core : Nat
  view : View
  deriving DecidableEq, Repr

/-! ## Registers of a thread -/

/-- A scalar register with its presence bit, pending-load mark and poison mark, which names the poisoned line as DETAIL of its
machine-check record does (R74, R242, R379). -/
structure Reg where
  val : Word := 0#64
  full : Bool := true
  mark : Bool := false
  poison : Option Nat := none
  /-- What the release of the arrival that filled it covers, until its first read, which is an acquire (R81). -/
  acq : View := {}
  deriving DecidableEq, Repr

/-- A run slot: payload and slot header (R196). -/
structure VSlot where
  payload : BitVec 64 := 0#64
  hdr : BitVec 16 := 0#16
  deriving DecidableEq, Repr

/-- The image of a run register: header and 64 slots (R195). -/
structure RunReg where
  hdr : BitVec 64 := 0#64
  slots : List VSlot := List.replicate 64 {}
  deriving DecidableEq, Repr

/-- A run register with its presence bit and marks. -/
structure VCell where
  run : RunReg := {}
  full : Bool := true
  mark : Bool := false
  poison : Option Nat := none
  /-- What the release of the arrival that filled it covers, until its first read, which is an acquire (R81). -/
  acq : View := {}
  deriving DecidableEq, Repr

/-- A copy of a region descriptor in a world slot (R128, R130). -/
structure Binding where
  base : Nat
  keys : Nat
  fields : Nat
  nf : Nat
  depth : Nat
  faultPolicy : Bool
  lambda : Nat
  omega : Nat
  writer : Nat
  timeout : Nat
  deriving DecidableEq, Repr

/-- What holds a thread from issuing (R70, R241, R100, R377). -/
inductive Wait where
  /-- Until scalar register `r` becomes full. -/
  | scalar (r : SReg)
  /-- Until run register `r` becomes full. -/
  | run (r : VReg)
  /-- Until a register of another thread, named by a mapped access, carries no pending-load mark (R104). -/
  | mapped (t : Nat) (r : Nat) (isRun : Bool)
  /-- Until the semaphore reaches the threshold. -/
  | sem (i thr : Nat)
  /-- Until the named group has exited or been cancelled. -/
  | join (name : Nat) (d : SReg)
  /-- Until every thread of the group has reached the barrier; the last to arrive, which releases the others (R164). -/
  | barrier (last : Bool)
  /-- Until the thread's world loads complete (R141). -/
  | world
  /-- Until the thread's fences let a `WBIND` read its descriptor (R159, R309). -/
  | order
  /-- Until the thread's own accesses to the pool are performed and its fences let a store read the scale bytes that it needs (R289). -/
  | pool
  /-- Until the range-lock table has a free entry. -/
  | lockTable
  /-- Until a page walk ends. -/
  | walk (id : Nat)
  /-- Until a granule copy ends. -/
  | cow (id : Nat)
  /-- Until the fault record is answered. -/
  | fault (id : Nat)
  /-- Until serials are available (R34) or a cluster's creation interval has passed (R295). -/
  | creation
  /-- Until an eviction for UNAVAIL is made (R377): of the matrix array, or else of the instant units. -/
  | unavail (matrix : Bool)
  /-- Until the machine-check record of its POISON is posted, when the trap is delivered (R367, R379). -/
  | post (id : Nat)
  deriving DecidableEq, Repr

/-- The kind of an access for the check of R100 and the ACC field of R368. -/
structure AccessType where
  load : Bool := false
  store : Bool := false
  fetch : Bool := false
  atomic : Bool := false
  world : Bool := false
  user : Bool := true
  deriving DecidableEq, Repr

/-- A posted trap that waits for the thread's turn (R135, R364). -/
structure Posted where
  cause : Nat
  tval : Word
  /-- The address at which an access of the thread failed, and the access (R368). -/
  access : Option (Nat × AccessType) := none
  deriving DecidableEq, Repr

/-- A fence in force: accesses above `seq` keep behind those below it (R159-R161). -/
structure FenceRec where
  seq : Nat
  scope : FenceScope
  kind : FenceKind
  e : Bool
  /-- Once what it orders before later accesses is complete: what it covers as a release, with the accesses that follow it (R157). -/
  view : Option View := none
  deriving DecidableEq, Repr

/-- Where a thread's registers stand (R373, R374). -/
inductive Place where
  | inSlot | swapped | inImage
  deriving DecidableEq, Repr

/-- One thread: the state that R25 gives it, and what it waits on. -/
structure Thread where
  slot : Nat := 0
  pc : Word := 0#64
  regs : List Reg := []
  vregs : List VCell := []
  preds : BitVec 8 := 1#8
  vlen : BitVec 13 := 0#13
  flags : BitVec 5 := 0#5
  round : BitVec 2 := 0#2
  bounce : BitVec 32 := 0#32
  wstat : BitVec 3 := 0#3
  seqbase : BitVec 32 := 0#32
  kidx : Word := 0#64
  tvec : Word := 0#64
  tcause : Word := 0#64
  epc : Word := 0#64
  tval : Word := 0#64
  monitor : Bool := false
  wslots : List (Option Binding) := [none, none, none, none]
  posted : List Posted := []
  cancelDue : Bool := false
  inCancel : Bool := false
  cancelBundles : Nat := 0
  wait : Option Wait := none
  halted : Bool := false
  exited : Bool := false
  place : Place := .inSlot
  seq : Nat := 0
  fences : List FenceRec := []
  /-- What happens before the thread's accesses, each part from a place in its program order on (R157). -/
  knows : List (Nat × View) := []
  /-- The writes that the thread's loads have read, each with the place of the earliest such load (R156, R157). -/
  reads : Tab Nat := []
  loads : List Nat := []
  /-- The changes of memory that the thread must see whether or not they happen before its accesses, by how far the writer lies: another
  core of its cluster, another cluster of its die, another die, an engine for its own core (R120, R165, R351). -/
  floor : List Nat := []
  /-- For blocks of 8 bytes that the thread has read: the change of memory whose outcome it read (R153). -/
  seenAt : Tab Nat := []
  /-- The thread's place in its program order at its last barrier (R164). -/
  barSeq : Nat := 0
  /-- What barriers with release fences before them have passed on, for the acquire fence of the scope after them: place, scope, and what
  the fences cover (R164). -/
  barGot : List (Nat × FenceScope × View) := []
  /-- A `JOIN` of a name of another module: the name, the token of the request, and the status when it has come (R61, R299). -/
  far : Option (Nat × Nat × Option Word) := none
  /-- The thread offers its slot: its latest bundle was a `YIELD` (R301, R372). -/
  yielded : Bool := false
  /-- The cycle until whose end a bundle's change of `c.tcause`.IN has not taken effect, and IN as it stands until then (R222). -/
  inTill : Nat := 0
  inWas : Bool := false
  /-- A write of `c.bounce` on its way: the cycle at whose end it takes effect, and the value (R222). -/
  bounceQ : Option (Nat × BitVec 32) := none
  /-- The `BARG` bundle whose barrier has been released (R71, R87). -/
  barPass : Option Word := none
  oldRegs : List (Nat × Nat × Reg) := []
  oldRuns : List (Nat × Nat × VCell) := []
  deriving DecidableEq, Repr

/-! ## Commands and their shapes (spec 12) -/

/-- A shape record (R330). -/
structure Shape where
  pad0 : Nat
  blk : Nat
  exts : List Nat
  sstr : List Int
  dstr : List Int
  saux : Nat
  daux : Nat
  idxlim : Nat
  deriving DecidableEq, Repr

/-- A locked range of lines: of the virtual space, or of a core's pool (R122, R317). -/
structure Range where
  pool : Option Nat
  lo : Nat
  hi : Nat
  deriving DecidableEq, Repr

/-- A range-lock entry; `ord` is its age (R122). -/
structure LockEntry where
  ord : Nat
  /-- The lowest byte of a dense destination, in the pool of a core or virtual, whose lock narrows as WP rises (R123). -/
  dense : Option (Option Nat × Nat) := none
  reads : List Range
  writes : List Range
  deriving DecidableEq, Repr

/-- The state of a command's hall pass (R318, R406). -/
inductive Pass where
  | none | waiting (since : Nat) | held | half
  deriving DecidableEq, Repr

/-- An accepted tile command (R215, R260). -/
structure Cmd where
  id : Nat
  w0 : Word
  w1 : Word
  w2 : Word
  w3 : Word
  group : Nat
  thread : Nat
  seq : Nat
  branch : Nat
  /-- What its wait has observed (R157, R163). -/
  knows : View := {}
  shape : Option Shape := Option.none
  bind : Option Binding := Option.none
  kidx : Word := 0#64
  /-- Issued by a thread in user mode. -/
  user : Bool := true
  lock : Option LockEntry := Option.none
  started : Bool := false
  waitMet : Bool := false
  pass : Pass := .none
  wp : Nat := 0
  units : Nat := 0
  done : Bool := false
  stopped : Option Nat := Option.none
  haltCause : Option Nat := Option.none
  toImage : Bool := false
  /-- The format registers of the banks of source and destination, of a copy between banks of different formats (R110). -/
  banks : Option (Nat × Nat) := Option.none
  /-- The committed instant that a bulk sample has read (R336). -/
  instant : Option Nat := Option.none
  /-- The cycle since which a bulk sample has been waiting with a wait edge; the edge closed a cycle; the status that ended the wait. -/
  edge : Option Nat := Option.none
  closed : Bool := false
  ended : Option Nat := Option.none
  deriving DecidableEq, Repr

/-- The pool boundaries, bank formats and mode of a core, or of a launch (R106, R109). -/
structure PoolCfg where
  run : Nat := 0x4000
  scr : Nat := 0x14000
  l1 : Nat := 0x24000
  bankfmt : List (BitVec 12) := List.replicate 16 0#12
  det : Bool := false
  deriving DecidableEq, Repr

/-! ## Groups, the roll and tasks -/

/-- A task record's fields (R292), with counts decoded. -/
structure TaskRec where
  entry : Word := 0#64
  args : List Word := []
  parent : Word := 0#64
  threads : Nat := 1
  sregs : Nat := 8
  vregs : Nat := 0
  scratch : Nat := 0
  sems : Nat := 0
  prio : Nat := 0
  needM : Bool := false
  needW : Bool := false
  det : Bool := false
  doneSig : Bool := false
  dsem : Nat := 0
  branch : Nat := 0
  deriving DecidableEq, Repr

/-- A remote store on its way, or waiting at its target (R78, R305). -/
structure RStore where
  id : Nat
  sender : Nat
  sthread : Nat
  seq : Nat
  target : Nat
  selector : Word
  run : Option RunReg
  val : Word
  trap : Bool
  kind : Bool
  /-- It has met its register: it was not held back when it arrived, or has been released since (R82, R84). -/
  tried : Bool := false
  /-- The releases that it stands for: its own, and the fences before it (R81, R156). -/
  carry : List Rel := []
  deriving DecidableEq, Repr

/-- One cell of the matrix array: its residues (R200). -/
structure MatCell where
  x1 : Nat := 0
  x2 : Nat := 0
  x3 : Nat := 0
  xc : Nat := 0
  deriving DecidableEq, Repr

/-- Matrix state in a group image (R327). -/
structure MatrixImage where
  acc : Tab MatCell
  kc : Nat
  left : Nat
  deriving DecidableEq, Repr

/-- A thread's semaphore update on its way: it takes effect at the end of cycle `due` (R257). -/
structure SemUpd where
  due : Nat
  idx : Nat
  set : Bool
  val : Nat
  thread : Nat
  seq : Nat
  deriving DecidableEq, Repr

/-- A group's own state; the image of a saved group is the same data (R374). -/
structure Group where
  name : Word := 0#64
  parent : Word := 0#64
  prio : Nat := 0
  branch : Nat := 0
  part : Nat := 0
  task : TaskRec := {}
  pool : PoolCfg := {}
  launch : Option Nat := none
  core : Nat := 0
  sbase : List Nat := []
  scrBase : Nat := 0
  semBase : Nat := 0
  placedAt : Nat := 0
  threads : List Thread := []
  sems : List (BitVec 32) := []
  /-- Semaphore updates under way. -/
  semQ : List SemUpd := []
  /-- What the releases that each semaphore's count includes cover (R156, R157). -/
  semView : Tab View := []
  /-- Changes of the group's branch under way: the cycle at whose end each takes effect (R313). -/
  brQ : List (Nat × Nat) := []
  scratch : Tab Byte := []
  /-- Poisoned lines of the scratchpad, each with the DETAIL of its machine check (R379, R410). -/
  bad : Tab Nat := []
  arr : List RStore := []
  status0 : BitVec 32 := 0#32
  cancelled0 : BitVec 32 := 0#32
  imgCmds : List (Nat × Cmd) := []
  imgMatrix : Option MatrixImage := none
  deriving DecidableEq, Repr

/-- The states of a roll entry that are held (R63); absent is no entry. -/
inductive RollState where
  | migrating (source : Bool) | resident | saved | exited | cancelled
  deriving DecidableEq, Repr

/-- A roll entry (R63). -/
structure RollEntry where
  state : RollState
  /-- The core that a migrating group comes from. -/
  source : Option Nat := none
  /-- The address of a saved group's image in its locker. -/
  image : Option Nat := none
  parent : Nat
  part : Nat
  launch : Option Nat
  status : BitVec 32 := 0#32
  /-- What its exit, a release, covers (R156). -/
  view : View := {}
  marked : Bool := false
  /-- The groups that have cancelled it (R93, R300), and the groups whose subtrees have been marked with it in them. -/
  cancellers : List Nat := []
  roots : List Nat := []
  forced : BitVec 32 := 0#32
  /-- The group has been placed on a core. -/
  ran : Bool := false
  held : List RStore := []
  deriving DecidableEq, Repr

/-- A task in a partition's queue, or a push that waits for room (R355). -/
structure Task where
  name : Nat
  level : Nat
  since : Nat
  task : TaskRec
  launch : Option Nat
  pref : Option Nat
  /-- The values of its launch (R356). -/
  pool : PoolCfg
  saved : Bool
  deriving DecidableEq, Repr

/-! ## Translation, accesses and faults -/

/-- A leaf of the page table (R99): where its page lies, and its rights. -/
structure Leaf where
  key : Nat
  host : Bool
  base : Nat
  cc : Nat
  world : Bool
  cow : Bool
  user : Bool
  exec : Bool
  store : Bool
  load : Bool
  deriving DecidableEq, Repr

/-- A leaf translation held in a TLB (R366). -/
structure TlbEntry where
  va : Nat
  size : Nat
  leaf : Leaf
  deriving DecidableEq, Repr

/-- How far a piece of an access has come (R165). -/
inductive Stage where
  | pending | visible | performed
  deriving DecidableEq, Repr

/-- A piece of an access (R167): a physical range and, for a store, its bytes. -/
structure Piece where
  host : Bool
  /-- The address is an offset in the window of the access's group. -/
  pool : Bool := false
  addr : Nat
  key : Nat
  cc : Nat
  off : Nat
  len : Nat
  /-- The virtual address that was translated, and the page of the leaf that translated it, with its size (R366). -/
  va : Nat := 0
  page : Nat := 0
  pageSize : Nat := 0
  stage : Stage := .pending
  /-- When the piece became visible to its cluster, in the order of such changes. -/
  ord : Nat := 0
  data : List Byte := []
  deriving DecidableEq, Repr

/-- What comes before write `id`: what happens before it, and what each release fence before it in its thread covers (R156, R157). For a
write to the pool, its group, window offset and length. -/
structure WriteRec where
  id : Nat
  core : Nat
  pool : Option (Nat × Nat × Nat) := none
  before : View
  rels : List Rel
  deriving DecidableEq, Repr

/-- What an access does at its location. -/
inductive AccKind where
  | load
  | store
  /-- An atomic: function, operand, global scope (R244). -/
  | amo (op : AmoOp) (x : Word) (g : Bool)
  /-- A compare and swap: comparand, new value, global scope (R245). -/
  | cas (cmp new : Nat) (g : Bool)
  /-- A floating-point addition: double, addend, ordered number and LAST, core and tag of its thread (R247, R172). -/
  | faadd (dbl : Bool) (x : Word) (num : Option (Nat × Bool)) (core : Nat) (kidx : Word)
  /-- No memory: a value on its way to a register (a name, a world reply, a branch id). -/
  | value (v : Word)
  /-- The latest committed stamp of a key of the region at a physical base, as a binding lays it out (R131, R309). -/
  | wstat (base : Nat) (bind : Binding) (key : Nat)
  /-- The committed instant of the region at a physical base (R309). -/
  | wclock (base : Nat)
  /-- `FORK` by a branch of a range (R312). -/
  | fork (branch lo len : Nat)
  /-- A creation on its way: by `SPAWN.q`?, the record, the issuing group's launch, partition and pool values (R295). -/
  | spawn (queued : Bool) (task : TaskRec) (launch : Option Nat) (part : Nat) (pool : PoolCfg)
  /-- A name whose task waits to enter the task queue (R295, R355). -/
  | pushed (name : Nat)
  deriving DecidableEq, Repr

/-- Where an access's data goes. -/
inductive Dest where
  | none
  | scalar (d : SReg) (signed : Bool)
  | pair (d : SReg)
  /-- A run register: the runs of the data (repeat?, elements) in order (R286). -/
  | run (vd : VReg) (t : ElemType) (plan : List (Bool × Nat))
  /-- A run stream: base, slot pieces already asked for (R287). -/
  | stream (vd : VReg) (t : ElemType) (base : Nat) (slots : Bool)
  /-- A bank-decoded run register: format and rounding codes, elements, their first index and block (R288). -/
  | bank (vd : VReg) (t : ElemType) (fmt mode n e0 blk : Nat)
  deriving DecidableEq, Repr

/-- An access issued and not yet complete. -/
structure Access where
  id : Nat
  kind : AccKind
  group : Nat
  thread : Nat
  core : Nat
  seq : Nat
  va : Nat
  pieces : List Piece
  dest : Dest
  /-- Issued in user mode. -/
  user : Bool := true
  /-- The bundle that issued it, and the branch that held then (R313, R368). -/
  pc : Nat := 0
  branch : Nat := 0
  poison : Option Nat := none
  retried : Bool := false
  /-- The change of memory that the fill of a load comes after, where its directory has made it wait (R114). -/
  fill : Nat := 0
  /-- The cycle at which an AtomicOp was sent (R391). -/
  sent : Option Nat := none
  deriving DecidableEq, Repr

/-- A page walk that a thread waits for (R241). -/
structure Walk where
  id : Nat
  group : Nat
  thread : Nat
  core : Nat
  va : Nat
  type : AccessType
  deriving DecidableEq, Repr

/-- A granule copy in progress (R89). -/
structure CowCopy where
  id : Nat
  part : Nat
  branch : Nat
  granule : Nat
  core : Nat
  leaf : Leaf
  deriving DecidableEq, Repr

/-- What the answer to a fault record acts on (R369, R371). -/
inductive FaultTarget where
  | nothing
  /-- A trap that waits for its record to be posted: cause, value and the access (R379). -/
  | trap (g t cause : Nat) (val : Word) (access : Option (Nat × AccessType))
  | thread (g t : Nat)
  | command (core q : Nat)
  | stream (id : Nat)
  deriving DecidableEq, Repr

/-- A fault record (R368). -/
structure FaultRec where
  id : Nat
  kind : Nat
  cause : Nat
  type : AccessType
  addr : Nat
  name : Nat
  part : Nat
  core : Nat
  slot : Nat
  thread : Nat
  queue : Nat
  pc : Nat
  detail : Nat
  token : Nat := 0
  target : FaultTarget := .nothing
  /-- OUTCOME of the store that set DONE (R369). -/
  answer : Option Nat := none
  deriving DecidableEq, Repr

/-! ## World regions (spec 05) -/

/-- The layout fields that every binding of a base must share (R131). -/
structure Layout where
  keys : Nat
  nf : Nat
  fields : Nat
  depth : Nat
  deriving DecidableEq, Repr

/-- An entry of a key's ring. -/
structure RingEntry where
  stamp : Nat
  committed : Bool
  lay : Layout
  vals : List Word
  group : Nat
  /-- Its place in the order of the writes to the region, and the key under which its bytes are encrypted (R131, R393). -/
  ord : Nat := 0
  key : Nat := 0
  /-- The write that staged it, and the releases of the commit that published it (R149, R156). -/
  src : Nat := 0
  rels : List Rel := []
  deriving DecidableEq, Repr

/-- A region: its committed instant, with the releases of the commit that set it (R149) and the key under which it is encrypted (R393), its
keys' rings, by the offset of their blocks (R129, R131), and its horizon table (R134, R144). -/
structure Region where
  committed : Option Nat := none
  rels : List Rel := []
  key : Nat := 0
  keys : Tab (List RingEntry) := []
  horizons : Tab Nat := []
  deriving DecidableEq, Repr

/-- How a world load ended (R139). -/
inductive WldResult where
  | done (status : Nat) (vals : List Word)
  | fault (cause : Nat)
  deriving DecidableEq, Repr

/-- What a world operation asks. -/
inductive WorldKind where
  | wld (noWait : Bool) (vd : VReg) (pd : PReg)
  | wst (vals : List Word)
  | wcommit
  | whor
  deriving DecidableEq, Repr

/-- A world operation sent and not complete. -/
structure WorldOp where
  id : Nat
  kind : WorldKind
  group : Nat
  thread : Nat
  core : Nat
  kidx : Word
  seq : Nat
  region : Nat
  bind : Binding
  key : Nat
  inst : Nat
  issued : Nat
  blocked : Bool := false
  /-- Where the bytes of its key's block lie (R413). -/
  spots : List Piece := []
  /-- Its wait edge closed a cycle (R146). -/
  closed : Bool := false
  ringWait : Bool := false
  result : Option WldResult := none
  deriving DecidableEq, Repr

/-- What ends the wait of a bulk sample (R336): its region, the key under which it reads its home, its binding, instant and keys, each
with the key under which it reads its block. -/
structure WaitEnd where
  region : Nat
  key : Nat
  bind : Binding
  inst : Nat
  keys : List (Nat × Nat)
  deriving DecidableEq, Repr

/-- A wait edge in the clock tables, from a loading group to a writer (R146); `id` names the load or command. -/
structure Edge where
  id : Nat
  src : Nat
  dst : Nat
  /-- What ends the wait of a bulk sample whose edge closed no cycle. -/
  till : Option WaitEnd := none
  deriving DecidableEq, Repr

/-! ## Units -/

/-- A core (R19). -/
structure Core where
  pool : PoolCfg := {}
  qerr : Word := 0#64
  /-- Writes of 0 to `c.qerr` on their way: the cycles at whose ends they take effect (R222). -/
  qerrDue : List Nat := []
  /-- One more than the cycle in which an arrival last reached the core (R224). -/
  arrived : Nat := 0
  /-- The cycle of the latest turn of each slot (R72). -/
  turns : Tab Nat := []
  queues : List (List Cmd) := [[], [], [], [], [], []]
  heads : List (BitVec 16) := [0#16, 0#16, 0#16, 0#16]
  hallCount : BitVec 32 := 0#32
  hallState : BitVec 2 := 0#2
  /-- The latest heavy command enqueued, by id. -/
  hallCmd : Option Nat := none
  last : Option Nat := none
  high : Nat := 0
  tlb : List TlbEntry := []
  rsent : Word := 0#64
  rrecv : Word := 0#64
  tcmd : Word := 0#64
  deriving DecidableEq, Repr

/-- The lease of a matrix array (R320). -/
structure Lease where
  group : Nat
  core : Nat
  left : Nat
  deriving DecidableEq, Repr

/-- A line in a cluster's L2 (R111): of HBM or of host memory, the key slot that it is tagged with, and the cores whose L1s hold it. -/
structure L2Line where
  host : Bool
  line : Nat
  key : Nat
  cores : List Nat := []
  deriving DecidableEq, Repr

/-- A cluster (R18). -/
structure Cluster where
  /-- The lines of the L2, the latest first. -/
  l2 : List L2Line := []
  acc : Tab MatCell := []
  kc : Nat := 0
  lease : Option Lease := none
  lastLease : Nat := 0
  engines : List Nat := [0, 0, 0, 0]
  tlb : List TlbEntry := []
  part : Nat := 0
  moving : Option Nat := none
  lastCreate : Option Nat := none
  deriving DecidableEq, Repr

/-- A die's telemetry (R411). -/
structure Telemetry where
  est : Nat := 290
  cap : Nat := 645
  tj : BitVec 16 := 0#16
  grant : Word := 0#64
  half : Word := 0#64
  ce : Word := 0#64
  ue : Word := 0#64
  retry : Word := 0#64
  scrub : Word := 0#64
  deriving DecidableEq, Repr

/-- A die (R15). -/
structure Die where
  fqBase : Word := 0#64
  fqHead : BitVec 32 := 0#32
  fqEn : Bool := false
  fqSize : Nat := 0
  fqWait : List FaultRec := []
  fqOpen : Tab FaultRec := []
  /-- Answered records whose answer has not taken effect, each with its slot (R369). -/
  answered : List (Nat × FaultRec) := []
  token : Nat := 0
  lkBase : Word := 0#64
  lkSize : Nat := 0
  lkUsed : Nat := 0
  passQueue : List (Nat × Nat) := []
  cap : Nat := 645
  live : Telemetry := {}
  copy : Telemetry := {}
  scrubbed : Tab Nat := []
  /-- For each slice, one more than the frame of its latest scrub period (R409). -/
  scrubAt : Tab Nat := []
  inhibit : Bool := false
  deriving DecidableEq, Repr

/-- A branch of memory: its parent, its forked range and the granules it sees (R88-R90). -/
structure Branch where
  parent : Nat
  forker : Nat
  granules : Tab Leaf := []
  dropped : Bool := false
  deriving DecidableEq, Repr

/-- A launch record's fields (R346). -/
structure LaunchRec where
  task : Word
  done : Word
  pool : PoolCfg
  casc : Bool
  place : Word
  deps : List (Word × BitVec 32)
  ctask : Word
  deriving DecidableEq, Repr

/-- A launch that has been read and not completed (R351, R352). -/
structure Launch where
  id : Nat
  queue : Nat
  part : Nat
  addr : Nat
  record : LaunchRec
  root : Option Nat := none
  /-- Its queue was destroyed with cancellation (R359). -/
  killed : Bool := false
  ending : Option (Bool × Bool × BitVec 30) := none
  prefs : List (Option Nat) := []
  /-- The number of the change of memory at which it started: its threads see what came before (R351). -/
  startOrd : Nat := 0
  deriving DecidableEq, Repr

/-- A host launch queue (R348). -/
structure LaunchQueue where
  base : Word := 0#64
  en : Bool := false
  size : Nat := 0
  part : Nat := 0
  head : BitVec 32 := 0#32
  tail : BitVec 32 := 0#32
  stat : BitVec 4 := 0#4
  deriving DecidableEq, Repr

/-- A partition (R365, R348). -/
structure Partition where
  root : Word := 0#64
  mvec : Word := 0#64
  shoot : Option (Nat × Nat) := none
  bbase : Word := 0#64
  bhead : BitVec 32 := 0#32
  ben : Bool := false
  bsize : Nat := 0
  btail : BitVec 32 := 0#32
  stop : Bool := false
  dump : Bool := false
  stopped : Bool := false
  stopAt : Nat := 0
  /-- The record of each core as it stood at the stop (R382). -/
  snaps : Tab (List Byte) := []
  dbg : Word := 0#64
  tqBase : Word := 0#64
  tqEn : Bool := false
  tqSize : Nat := 0
  tasks : List Task := []
  pushes : List Task := []
  branches : Tab Branch := []
  trunk : Tab Leaf := []
  nextBranch : Nat := 1
  deriving DecidableEq, Repr

/-- A Skelpimir port, or a die-to-die link, whose flits are protected alike (R13, R399-R402, R410). -/
structure Port where
  up : Bool := true
  txNext : BitVec 12 := 0#12
  acked : BitVec 12 := 4095#12
  unacked : List Nat := []
  rxLast : BitVec 12 := 4095#12
  epoch : BitVec 12 := 4095#12
  table : Tab (BitVec 256) := []
  tableNext : BitVec 8 := 0#8
  waiting : List (BitVec 12 × BitVec 256) := []
  /-- The units of the latest accepted flit, decoded. -/
  units : List (BitVec 256) := []
  /-- The received units of each virtual channel that do not make up a message yet. -/
  rest : Tab (List (BitVec 256)) := []
  /-- What waits to be sent: virtual channel and unit. -/
  outQ : List (BitVec 3 × BitVec 256) := []
  /-- The virtual channel of the latest accepted flit. -/
  vc : BitVec 3 := 0#3
  /-- The sender's own table of units, and what waits to enter it, as at the receiver (R401). -/
  txTable : Tab (BitVec 256) := []
  txTableNext : BitVec 8 := 0#8
  txWaiting : List (BitVec 12 × BitVec 256) := []
  resends : Nat := 0
  /-- The cycle at which ACK last advanced, or the last resend. -/
  ackAt : Nat := 0
  nak : Bool := false
  credits : BitVec 32 := 0#32
  deriving DecidableEq, Repr

/-- The home of a line's transactions (R113, R115). -/
structure DirLine where
  sharers : List Nat := []
  owner : Option Nat := none
  busy : Option Nat := none
  queue : List (Nat × Nat × Nat) := []
  deriving DecidableEq, Repr

/-- An ordered sequence of additions at one location, with what waits for it (R173-R175). -/
structure Sequence where
  addr : Nat
  next : Nat
  last : Option Nat := none
  pending : List (Nat × Nat) := []
  queued : List Nat := []
  /-- The accepted additions, in the order of their arrival. -/
  arrived : List Nat := []
  deriving DecidableEq, Repr

/-- A write to memory that readers may still miss (R155, R165): the bytes that it replaced and their key, its writer, its number among
the changes of memory, and the number at which its own cluster came to see it. -/
structure Past where
  host : Bool
  addr : Nat
  bytes : List Byte
  key : Nat
  by_ : Writer
  ord : Nat
  vis : Nat
  deriving DecidableEq, Repr

/-- A `JOIN` that came from another module and waits for its group (R61, R299). -/
structure FarJoin where
  group : Nat
  token : Nat
  name : Nat
  deriving DecidableEq, Repr

/-- A bounce on its way back (R80). -/
structure Bounce where
  id : Nat
  store : RStore
  reason : Nat
  deriving DecidableEq, Repr

/-- A `CANCEL` posted and not retired (R300). -/
structure CancelOp where
  id : Nat
  group : Nat
  thread : Nat
  target : Nat
  deriving DecidableEq, Repr

/-- Firmware, flash and the management function (R28, R34, R395-R397). -/
structure Firmware where
  /-- The record that boot applied, and whether it verified; its bytes. DESIGN CHOICE (assumption 4): at `State.reset` it is the default
  record, verified, and the image is taken. -/
  record : Config.ModuleRecord := {}
  recordValid : Bool := true
  recordBytes : List Byte := []
  /-- Whether boot ROM took the firmware image; its bytes. -/
  imageValid : Bool := true
  image : List Byte := []
  minVersion : BitVec 32 := 0#32
  /-- An image and a record that a command has written to flash since the cold reset. -/
  newImage : Option (List Byte) := none
  newRecord : Option (List Byte) := none
  /-- STEP of `c.caps`: the manual gives no number. DESIGN CHOICE: 0 (assumption 4). -/
  step : BitVec 8 := 0#8
  mbBase : Word := 0#64
  /-- The opcode of the command that firmware has taken and not answered. -/
  taken : Option Nat := none
  /-- The next serial, the recorded high-water mark and the last block taken (R34). DESIGN CHOICE (assumption 4): the first boot found m = 0. -/
  nextSerial : Nat := 1
  mark : Nat := 2 ^ 24
  block : Nat := 2 ^ 24
  keys : Tab (BitVec 512) := []
  shutdown : Bool := false
  deriving DecidableEq, Repr

/-- The host port (R388-R391); what it holds before link training is assumption 4. -/
structure HostPort where
  trained : Bool := false
  cxl : Bool := false
  atomicReq : Bool := false
  timeout : BitVec 4 := 0#4
  halves : Tab Bool := []
  podBase : Word := 0#64
  podEn : Bool := false
  /-- The answer to the latest read through the window: none is Unsupported Request (R384). -/
  reply : Option (List Byte) := none
  /-- The answer to the latest access of another module: none is a refusal (R403). -/
  podReply : Option (List Byte) := none
  deriving DecidableEq, Repr

/-- The bundle that is issuing: the model's own bookkeeping of one turn (assumption 2). -/
structure Issue where
  /-- A turn is under way: `cur` is the live copy of the issuing thread. -/
  live : Bool := false
  core : Nat := 0
  group : Nat := 0
  thread : Nat := 0
  pc : Word := 0#64
  words : Nat := 1
  sWord : Code := 0#32
  vWord : Code := 0#32
  /-- The word in hand is the V-word. -/
  inV : Bool := false
  /-- The turn has ended without effect: a wait or a trap was taken. -/
  ended : Bool := false
  /-- The trap that ended it: cause and value. -/
  trapped : Option (Nat × Word) := none
  /-- The address that failed and the access, when an access of the bundle traps (R368). -/
  touched : Option (Nat × AccessType) := none
  /-- `TRAP` or `BREAK` after the bundle: cause and value (R265). -/
  after : Option (Nat × Word) := none
  /-- The thread ends after the bundle: with a status by `EXIT`, without one when it is forced out (R206). -/
  leave : Option (Option Word) := none
  deriving DecidableEq, Repr

/-- What the machine does next: the model's own ordering of asynchronous steps (assumption 1). -/
inductive Act where
  | turn
  | event (i : Instr)
  deriving DecidableEq, Repr

/-- The machine. -/
structure State where
  /-- Cycles since cold reset, `c.cycle` (R221). -/
  cycle : Nat := 0
  /-- The first core that has not had its turn in this cycle (assumption 1). -/
  turnPtr : Nat := 0
  /-- The asynchronous steps to come (assumption 1). -/
  agenda : List Act := []
  /-- The thread that is issuing, as it changes. -/
  cur : Thread := {}
  /-- The same thread as it stood before the bundle: what every operand is read from (R206). -/
  pre : Thread := {}
  iss : Issue := {}
  /-- The next identifier of a thing in flight. -/
  nextId : Nat := 0
  /-- The next free value (assumption 6). -/
  freeCount : Nat := 0
  hbm : List Host.Cell := []
  hostMem : List Host.Cell := []
  /-- The key under which each line was written; key 0 where unlisted (R393). -/
  lineKeys : Tab Nat := []
  /-- Poisoned lines of HBM, each with the unit that found it (R379, R410). -/
  poison : Tab Nat := []
  dir : Tab DirLine := []
  groups : Tab Group := []
  roll : Tab RollEntry := []
  cores : Tab Core := []
  clus : Tab Cluster := []
  dies : Tab Die := []
  parts : Tab Partition := []
  lqs : Tab LaunchQueue := []
  pending : List Launch := []
  running : List Launch := []
  acc : List Access := []
  /-- Writes that readers may still miss, the latest first. -/
  past : List Past := []
  /-- What comes before the writes, where anything does. -/
  wrote : List WriteRec := []
  walks : List Walk := []
  cows : List CowCopy := []
  rstores : List RStore := []
  bounces : List Bounce := []
  /-- Remote stores that have left for other modules and of which nothing has come back (R81). -/
  away : List RStore := []
  cancels : List CancelOp := []
  joins : List FarJoin := []
  seqs : List Sequence := []
  regions : Tab Region := []
  worldOps : List WorldOp := []
  edges : List Edge := []
  ports : Tab Port := []
  firm : Firmware := {}
  port : HostPort := {}
  deriving DecidableEq, Repr

/-- Why the machine stops with a fault. -/
inductive Fault where
  /-- Raised by the step when the core's records name a thread that is not there; no run reaches it. Safe. -/
  | lostThread
  deriving DecidableEq, Repr

/-- Why a step has no meaning. -/
inductive Refusal where
  /-- Raised by an arm of the dispatch whose instruction has no meaning yet. Safe. -/
  | notModelled (mnemonic : String)
  /-- Raised by a step of the device or the host whose occasion does not exist in this state: the thing it names is
  not pending, or an ordering rule keeps it back. The step cannot occur there. Safe. -/
  | notEnabled
  deriving DecidableEq, Repr

/-- The machine after a cold reset (R33): every slot, queue and table empty, HBM zero, and the register values that the
field maps give. DESIGN CHOICE: the values that no rule gives are those of assumptions 3, 4 and 5 (a register without a reset value, STEP of
`c.caps`, the module's record and its validity, the high-water mark, unwritten host and scratchpad bytes). -/
def State.reset : State := {}

end Sys2Proof.Machine
end

