-- ==== Sys2Proof/Machine/Runs.lean ====
section
/-! DEFINITION. Run registers as sequences of runs (spec 07 R195-R198), the run-alignment walk (10 R270), and the element
functions of the vector instructions (10 R275-R282). -/

namespace Sys2Proof.Machine

/-- Bits of an element (R177). -/
def widthOf : ElemType → Nat
  | .i8 | .u8 | .f8 => 8
  | .i16 | .u16 | .f16 | .g16 => 16
  | .i32 | .u32 | .f32 => 32
  | .i64 | .u64 | .f64 => 64
  | .f4 => 4
  | .b1 => 1

/-- Elements of a literal slot (R177). -/
def perSlot (t : ElemType) : Nat := 64 / widthOf t

/-- Whether integer elements of the type read signed. -/
def signedType : ElemType → Bool
  | .i8 | .i16 | .i32 | .i64 => true
  | _ => false

/-- A run: an element repeated, or literal elements (R197). -/
inductive Run where
  | rep (v n : Nat)
  | lit (vs : List Nat)
  deriving DecidableEq, Repr

/-- Elements of a run. -/
def Run.len : Run → Nat
  | .rep _ n => n
  | .lit vs => vs.length

/-- Elements of a sequence of runs. -/
def runsLen (rs : List Run) : Nat := (rs.map Run.len).sum

/-! ## The bits of a run register -/

/-- LEN (R195). -/
def RunReg.len (r : RunReg) : Nat := bitsOf 63 51 r.hdr.toNat
/-- TYPE (R195). -/
def RunReg.type (r : RunReg) : Nat := bitsOf 50 47 r.hdr.toNat
/-- USED (R195). -/
def RunReg.used (r : RunReg) : Nat := bitsOf 46 40 r.hdr.toNat

/-- A slot's count (R196). -/
def VSlot.cnt (s : VSlot) : Nat := s.hdr.toNat % 4096 + 1
/-- A slot's kind (R196). -/
def VSlot.kind (s : VSlot) : Nat := bitsOf 15 14 s.hdr.toNat

/-- The well-formed run registers (R198). -/
def RunReg.wf (r : RunReg) : Bool :=
  match ElemType.ofCode r.type with
  | none => false
  | some t =>
    let live := r.slots.take r.used
    decide (bitsOf 39 0 r.hdr.toNat = 0) && decide (r.used ≤ 64) && decide (r.len ≤ 4096)
      && live.all (fun s => decide (bitsOf 13 12 s.hdr.toNat = 0)
        && (s.kind == 1 || (s.kind == 2 && decide (s.cnt ≤ perSlot t))))
      && decide ((live.map VSlot.cnt).sum = r.len)

/-- The `n` elements of width `w` packed in a payload, the first lowest. -/
def unpack (w : Nat) : Nat → Nat → List Nat
  | 0, _ => []
  | n + 1, p => p % 2 ^ w :: unpack w n (p / 2 ^ w)

/-- Elements packed from bit 0 upward. -/
def pack (w : Nat) : List Nat → Nat
  | [] => 0
  | v :: vs => v % 2 ^ w + 2 ^ w * pack w vs

/-- A slot as a run of elements of width `w`. -/
def VSlot.run (w : Nat) (s : VSlot) : Run :=
  if s.kind = 1 then .rep (s.payload.toNat % 2 ^ w) s.cnt else .lit (unpack w s.cnt s.payload.toNat)

/-- The runs of a well-formed register of type `t`. -/
def RunReg.runs (t : ElemType) (r : RunReg) : List Run := (r.slots.take r.used).map (VSlot.run (widthOf t))

/-- A run as a slot. -/
def Run.slot (w : Nat) : Run → VSlot
  | .rep v n => ⟨.ofNat 64 (v % 2 ^ w), .ofNat 16 (0x4000 + (n - 1))⟩
  | .lit vs => ⟨.ofNat 64 (pack w vs), .ofNat 16 (0x8000 + (vs.length - 1))⟩

/-- A register header (R195). -/
def runHeader (l t used : Nat) : BitVec 64 := .ofNat 64 (l * 2 ^ 51 + t * 2 ^ 47 + used * 2 ^ 40)

/-- The register of type `t` that holds at most 64 runs; slots above are zero (R271). -/
def mkRun (t : ElemType) (rs : List Run) : RunReg :=
  ⟨runHeader (runsLen rs) t.code rs.length,
    rs.map (Run.slot (widthOf t)) ++ List.replicate (64 - rs.length) ({} : VSlot)⟩

/-- A slot with the payload bits above its elements zero (R197). -/
def VSlot.trim (w : Nat) (s : VSlot) : VSlot := { s with payload := .ofNat 64 (s.payload.toNat % 2 ^ (if s.kind = 1 then w else w * s.cnt)) }

/-- The register that an instruction writes with the slots of `r`, of type `t`: no bit above an element, no slot above USED (R271). -/
def RunReg.trim (t : ElemType) (r : RunReg) : RunReg :=
  { r with slots := (r.slots.take r.used).map (VSlot.trim (widthOf t)) ++ List.replicate (64 - r.used) ({} : VSlot) }

/-! ## Greedy packing -/

/-- `put` of R270 on a reversed list of runs: appends an element to the open literal, opening one where none is open. -/
def putElem (p : Nat) (out : List Run) (v : Nat) : List Run :=
  match out with
  | .lit vs :: rest => if vs.length < p then .lit (vs ++ [v]) :: rest else .lit [v] :: .lit vs :: rest
  | out => .lit [v] :: out

/-- `put` of each element in turn. -/
def putAll (p : Nat) (out : List Run) (vs : List Nat) : List Run := vs.foldl (putElem p) out

/-- The elements packed greedily into literal slots. -/
def packLits (t : ElemType) (vs : List Nat) : List Run := (putAll (perSlot t) [] vs).reverse

/-- A run's elements, written out. -/
def Run.elems : Run → List Nat
  | .rep v n => List.replicate n v
  | .lit vs => vs

/-- The elements of a sequence of runs. -/
def elemsOf (rs : List Run) : List Nat := rs.flatMap Run.elems

/-! ## The walk (R270) -/

/-- A piece of the walk: the inputs' values over a stretch that every input holds in a repeat, or position by position. -/
inductive WalkPiece where
  | rep (args : List Nat) (n : Nat)
  | lits (args : List (List Nat))
  deriving DecidableEq, Repr

/-- Element `i` of a run. -/
def Run.at (i : Nat) : Run → Nat
  | .rep v _ => v
  | .lit vs => vs.getD i 0

/-- Whether a run is a repeat. -/
def Run.isRep : Run → Bool
  | .rep _ _ => true
  | .lit _ => false

/-- A sequence of runs without its first `n` elements, `n` at most the first run's. -/
def dropHead (n : Nat) : List Run → List Run
  | [] => []
  | .rep v m :: rs => if m ≤ n then rs else .rep v (m - n) :: rs
  | .lit vs :: rs => if vs.length ≤ n then rs else .lit (vs.drop n) :: rs

/-- The first run of a sequence. -/
def headRun : List Run → Run
  | [] => .lit []
  | r :: _ => r

/-- The walk over input sequences of one length, with fuel. -/
def walkGo : Nat → List (List Run) → List WalkPiece
  | 0, _ => []
  | fuel + 1, ins =>
    if ins.any List.isEmpty || ins.isEmpty then []
    else
      let heads := ins.map headRun
      let n := (heads.map Run.len).foldl min 4096
      let piece := if heads.all Run.isRep then .rep (heads.map (Run.at 0)) n
        else .lits ((List.range n).map fun i => heads.map (Run.at i))
      piece :: walkGo fuel (ins.map (dropHead n))

/-- The walk of R270. -/
def walkRuns (ins : List (List Run)) : List WalkPiece := walkGo ((ins.map List.length).sum + 1) ins

/-- The walk's result at packing `p`, with each position's value and flags from `f`. -/
def buildRuns (p : Nat) (f : List Nat → FRes) (ps : List WalkPiece) : List Run × Flags :=
  let r := ps.foldl (fun (acc : List Run × Flags) pc => match pc with
    | .rep args n => let x := f args; (.rep x.bits n :: acc.1, acc.2 ||| x.flags)
    | .lits as => as.foldl (fun (a : List Run × Flags) args => let x := f args; (putElem p a.1 x.bits, a.2 ||| x.flags)) acc)
    ([], 0#5)
  (r.1.reverse, r.2)

/-! ## Restructuring (R283, R284) -/

/-- The runs that cover elements `[i, j)`: repeats clipped, literal elements packed greedily. -/
def takeGo (p : Nat) : List Run → Nat → Nat → List Run → List Run
  | [], _, _, out => out
  | r :: rs, i, j, out =>
    let n := min r.len j - i
    let out := if n = 0 then out else match r with
      | .rep v _ => .rep v n :: out
      | .lit vs => putAll p out ((vs.drop i).take n)
    takeGo p rs (i - r.len) (j - r.len) out

/-- take(va, i, j) of R284. -/
def takeRuns (t : ElemType) (rs : List Run) (i j : Nat) : List Run := (takeGo (perSlot t) rs i j []).reverse

/-- zero(n) of R284. -/
def zeroRuns (n : Nat) : List Run := if n = 0 then [] else [.rep 0 n]

/-- The first step of `VCOAL`: a literal of equal elements becomes a repeat. -/
def coalOne : Run → Run
  | .lit (v :: vs) => if vs.all (· == v) then .rep v (vs.length + 1) else .lit (v :: vs)
  | r => r

/-- The second step: adjacent repeats of one element merge. -/
def coalMerge : List Run → List Run
  | [] => []
  | r :: rs =>
    match r, coalMerge rs with
    | .rep v n, .rep v' n' :: rest => if v = v' then .rep v (n + n') :: rest else .rep v n :: .rep v' n' :: rest
    | r, rest => r :: rest

/-- `VCOAL` on runs (R283). -/
def coalesce (rs : List Run) : List Run := coalMerge (rs.map coalOne)

/-- A run reversed. -/
def Run.rev : Run → Run
  | .rep v n => .rep v n
  | .lit vs => .lit vs.reverse

/-! ## Elements -/

/-- Integer division of R229 in width `w`: quotient, remainder and flags. -/
def divInt (w : Nat) (sgn : Bool) (a b : Nat) : Nat × Nat × Flags :=
  if b % 2 ^ w = 0 then (0, a % 2 ^ w, dz)
  else if sgn then
    let x := signedOf w a
    let y := signedOf w b
    (codeOf w (x.tdiv y), codeOf w (x.tmod y), 0#5)
  else (a % 2 ^ w / (b % 2 ^ w), a % 2 ^ w % (b % 2 ^ w), 0#5)

/-- Whether integer a is below b in a type's own order. -/
def intLess (t : ElemType) (a b : Nat) : Bool :=
  if signedType t then signedOf (widthOf t) a < signedOf (widthOf t) b else a < b

/-- The functions of VOP and VOPS (R275). -/
inductive VOp where
  | add | sub | mul | div | min | max | and | or | xor | andn | shl | shr | sra | absd | cpsgn
  deriving DecidableEq, Repr

/-- The integer results of R275. -/
def vopInt (op : VOp) (t : ElemType) (a b : Nat) : FRes :=
  let w := widthOf t
  let m := 2 ^ w
  match op with
  | .add => ⟨(a + b) % m, 0#5⟩
  | .sub => ⟨(a + (m - b % m)) % m, 0#5⟩
  | .mul => ⟨a * b % m, 0#5⟩
  | .div => let r := divInt w (signedType t) a b; ⟨r.1, r.2.2⟩
  | .min => ⟨if intLess t b a then b else a, 0#5⟩
  | .max => ⟨if intLess t a b then b else a, 0#5⟩
  | .and => ⟨a &&& b, 0#5⟩
  | .or => ⟨a ||| b, 0#5⟩
  | .xor => ⟨a ^^^ b, 0#5⟩
  | .andn => ⟨a &&& (m - 1 - b % m), 0#5⟩
  | .shl => ⟨a * 2 ^ (b % w) % m, 0#5⟩
  | .shr => ⟨a / 2 ^ (b % w), 0#5⟩
  | .sra => ⟨codeOf w (signedOf w a / (2 ^ (b % w) : Nat)), 0#5⟩
  | .absd =>
    let x : Int := if signedType t then signedOf w a - signedOf w b else (a : Int) - b
    ⟨x.natAbs % m, 0#5⟩
  | .cpsgn => ⟨a, 0#5⟩

/-- The absolute value of a rounded result; a NaN result stays as it is. -/
def clearSign (f : FFmt) (r : FRes) : FRes := if (f.decode r.bits).isNan then r else ⟨r.bits % 2 ^ f.signBit, r.flags⟩

/-- The mode that rounds a magnitude as `m` rounds the signed exact result whose sign is `s`. -/
def modeAbs (m : Mode) (s : Bool) : Mode :=
  if s then (match m with | .rup => .rdn | .rdn => .rup | m => m) else m

/-- |a - b|, rounded once (R275). -/
def fAbsd (f : FFmt) (mode : Mode) (t : NanTag) (a b : Nat) : FRes :=
  let x := f.decode a; let y := f.decode b
  let neg := x.cmp y < 0
  clearSign f (fSub f (modeAbs mode neg) t a b)

/-- The floating-point results of R275; `mode` is the mode of R184 for the type. -/
def vopFloat (op : VOp) (f : FFmt) (mode : Mode) (tag : NanTag) (a b : Nat) : FRes :=
  match op with
  | .add => fAdd f mode tag a b
  | .sub => fSub f mode tag a b
  | .mul => fMul f mode tag a b
  | .div => fDiv f mode tag a b
  | .min => fMin f a b
  | .max => fMax f a b
  | .absd => fAbsd f mode tag a b
  | _ => ⟨fSgn f a b, 0#5⟩

/-- An element of R275 for any accepted type. -/
def vopElem (op : VOp) (t : ElemType) (mode : Mode) (tag : NanTag) (a b : Nat) : FRes :=
  if t.isFloat then vopFloat op (fmtOf t) (modeFor t mode) tag a b else vopInt op t a b

/-- The forms of VFMA (R276): d + ab, d - ab, ab - d. -/
inductive FmaForm where
  | add | sub | rev
  deriving DecidableEq, Repr

/-- A code with its sign bit flipped, NaNs untouched. -/
def flipSign (f : FFmt) (a : Nat) : Nat :=
  if (f.decode a).isNan then a else a % 2 ^ f.signBit + bitNat (!bitOf f.signBit a) * 2 ^ f.signBit

/-- An element of VFMA (R276). -/
def vfmaElem (form : FmaForm) (t : ElemType) (mode : Mode) (tag : NanTag) (a b d : Nat) : FRes :=
  if t.isFloat then
    let f := fmtOf t
    let m := modeFor t mode
    match form with
    | .add => fFma f m tag false a b d
    | .sub => fFma f m tag true a b d
    | .rev => fFma f m tag false a b (flipSign f d)
  else
    let w := widthOf t
    match form with
    | .add => ⟨codeOf w ((d : Int) + a * b), 0#5⟩
    | .sub => ⟨codeOf w ((d : Int) - a * b), 0#5⟩
    | .rev => ⟨codeOf w ((a * b : Int) - d), 0#5⟩

/-- The functions of VUN (R277). -/
inductive VUn where
  | neg | abs | not | sqrt | rsq | rcp | exp2 | log2 | floor | round | clz | popc
  deriving DecidableEq, Repr

/-- An element of VUN (R277). -/
def vunElem (op : VUn) (t : ElemType) (mode : Mode) (tag : NanTag) (a : Nat) : FRes :=
  let w := widthOf t
  let f := fmtOf t
  let m := modeFor t mode
  match op with
  | .neg => if t.isFloat then ⟨a % 2 ^ f.signBit + bitNat (!bitOf f.signBit a) * 2 ^ f.signBit, 0#5⟩
    else ⟨(2 ^ w - a) % 2 ^ w, 0#5⟩
  | .abs => if t.isFloat then ⟨a % 2 ^ f.signBit, 0#5⟩
    else if signedType t then ⟨(signedOf w a).natAbs % 2 ^ w, 0#5⟩ else ⟨a, 0#5⟩
  | .not => ⟨2 ^ w - 1 - a % 2 ^ w, 0#5⟩
  | .sqrt => fSqrt f m tag a
  | .rsq => fRsq f m tag a
  | .rcp => fRcp f m tag a
  | .exp2 => fExp2 f m tag a
  | .log2 => fLog2 f m tag a
  | .floor => fIntegral f .rdn true a
  | .round => fIntegral f m false a
  | .clz => ⟨leadingZeros w a, 0#5⟩
  | .popc => ⟨popCount w a, 0#5⟩

/-- Whether two values compare under a condition of R278 (floats); `un` holds for a NaN. -/
def vcmpFloat (c : VCond) (x y : FVal) : Bool :=
  let u := x.isNan || y.isNan
  match c with
  | .eq => !u && x.cmp y == 0
  | .ne => u || x.cmp y != 0
  | .lt => !u && decide (x.cmp y < 0)
  | .le => !u && decide (x.cmp y ≤ 0)
  | .gt => !u && decide (0 < x.cmp y)
  | .ge => !u && decide (0 ≤ x.cmp y)
  | .un => u

/-- The flags of a float comparison (R278). -/
def vcmpFlags (c : VCond) (x y : FVal) : Flags :=
  match c with
  | .eq | .ne | .un => signalFlag [x, y]
  | _ => if x.isNan || y.isNan then nv else 0#5

/-- An element of VCMP (R278). -/
def vcmpElem (c : VCond) (t : ElemType) (a b : Nat) : FRes :=
  if t.isFloat || t.isNarrow then
    let x := decodeElem t a; let y := decodeElem t b
    ⟨bitNat (vcmpFloat c x y), vcmpFlags c x y⟩
  else ⟨bitNat (match c with
    | .eq => a == b
    | .ne => a != b
    | .lt => intLess t a b
    | .le => !intLess t b a
    | .gt => intLess t b a
    | .ge => !intLess t a b
    | .un => false), 0#5⟩

/-- The integer that an element of an integer type or b1 stands for. -/
def intOf (t : ElemType) (a : Nat) : Int := if signedType t then signedOf (widthOf t) a else a

/-- Whether an element converts to b1 as 1 (R187): it is nonzero, a NaN included. -/
def nonzero (t : ElemType) (a : Nat) : Bool :=
  if t.isFloat || t.isNarrow then (match decodeElem t a with | .fin _ m _ => m != 0 | _ => true) else a != 0

/-- An integer into a float type (R187). -/
def intToFloat (t : ElemType) (mode : Mode) (x : Int) : FRes := encodeElem t mode (.fin (decide (x < 0)) x.natAbs 0)

/-- An integer saturated to an integer type (R187). -/
def saturate (t : ElemType) (x : Int) : Nat :=
  let w := widthOf t
  let lo : Int := if signedType t then -(2 ^ (w - 1) : Nat) else 0
  let hi : Int := if signedType t then (2 ^ (w - 1) : Nat) - 1 else (2 ^ w : Nat) - 1
  codeOf w (if x < lo then lo else if hi < x then hi else x)

/-- The conversion of an element from `src` to `dst` (R187, R280). -/
def convElem (src dst : ElemType) (mode : Mode) (a : Nat) : FRes :=
  if src = dst then ⟨a, 0#5⟩
  else if dst = .b1 then ⟨bitNat (nonzero src a), 0#5⟩
  else if src.isFloat || src.isNarrow then
    (if dst.isInt then floatToInt mode (widthOf dst) (signedType dst) (decodeElem src a)
     else encodeElem dst mode (decodeElem src a))
  else if dst.isInt then ⟨saturate dst (intOf src a), 0#5⟩
  else intToFloat dst mode (intOf src a)

/-! ## Reductions (R282) -/

/-- Extends an element to 64 bits: signed for i types, else zero-extended. -/
def ext64 (t : ElemType) (a : Nat) : Nat := codeOf 64 (intOf t a)

/-- The f64 contribution of a run of `n` elements (R282): a signalling NaN is quieted and sets NV. -/
def contribF64 (t : ElemType) (v n : Nat) : FRes :=
  match decodeElem t v with
  | .fin s m e => roundTo .f64 .rne s (m * n) e
  | x => toFloat .f64 .rne x

/-- The runs of the reduction: a repeat slot is one run, a literal slot one run for each element. -/
def redRuns (rs : List Run) : List (Nat × Nat) :=
  rs.flatMap fun r => match r with
    | .rep v n => [(v, n)]
    | .lit vs => vs.map fun v => (v, 1)

/-- Folds contributions left to right, the first starting the accumulator. -/
def redFold (contrib : Nat → Nat → FRes) (combine : Nat → Nat → FRes) (rs : List (Nat × Nat)) : Option Nat × Flags :=
  rs.foldl (fun (acc : Option Nat × Flags) r =>
    let c := contrib r.1 r.2
    match acc.1 with
    | none => (some c.bits, acc.2 ||| c.flags)
    | some a => let x := combine a c.bits; (some x.bits, acc.2 ||| c.flags ||| x.flags)) (none, 0#5)

/-- The index of the first nonzero element, or the length. -/
def firstNonzero (t : ElemType) : List (Nat × Nat) → Nat
  | [] => 0
  | (v, n) :: rs => if nonzero t v then 0 else n + firstNonzero t rs

/-- The value of R282 for an empty register under `min` and `max`. -/
def emptyExtreme (t : ElemType) (isMin : Bool) : Nat :=
  if t.isInt then
    let w := widthOf t
    if signedType t then (if isMin then 2 ^ (w - 1) - 1 else 2 ^ (w - 1)) else (if isMin then 2 ^ w - 1 else 0)
  else if t = .f64 then FFmt.f64.inf (!isMin) else FFmt.f32.inf (!isMin)

/-- f8 and f4 values in the f32 format, class F in their own: the format in which `min` and `max` compare. -/
def redMinMax (t : ElemType) (isMin : Bool) (rs : List (Nat × Nat)) : Nat × Flags :=
  if t.isInt then
    let r := redFold (fun v _ => ⟨v, 0#5⟩) (fun a b => vopInt (if isMin then .min else .max) t a b) rs
    (ext64 t (r.1.getD (emptyExtreme t isMin)), r.2)
  else if t = .f64 then
    let r := redFold (fun v _ => ⟨v, 0#5⟩) (fun a b => if isMin then fMin .f64 a b else fMax .f64 a b) rs
    (r.1.getD (emptyExtreme t isMin), r.2)
  else
    let f := if t.isNarrow then FFmt.f32 else fmtOf t
    let r := redFold (fun v _ => ⟨if t.isNarrow then (encodeElem .f32 .rne (decodeElem t v)).bits else v, 0#5⟩)
      (fun a b => if isMin then fMin f a b else fMax f a b) rs
    match r.1 with
    | none => (emptyExtreme t isMin, r.2)
    | some b =>
      if f = .f32 then (b, r.2)
      else let x := toFloat .f32 .rne (f.decode b); (x.bits, r.2 ||| x.flags)

/-- A reduction (R282): the scalar result and the flags. -/
def reduce (op : RedOp) (t : ElemType) (tag : NanTag) (rs : List Run) : Nat × Flags :=
  let runs := redRuns rs
  let w := widthOf t
  match op with
  | .add =>
    if t.isInt || t == .b1 then
      let r := redFold (fun v n => ⟨codeOf 64 (intOf t v * n), 0#5⟩) (fun a c => ⟨(a + c) % 2 ^ 64, 0#5⟩) runs
      (r.1.getD 0, r.2)
    else
      let r := redFold (contribF64 t) (fun a c => fAdd .f64 .rne tag a c) runs
      match r.1 with
      | none => (0, r.2)
      | some a => if t = .f64 then (a, r.2) else let x := toFloat .f32 .rne (FFmt.f64.decode a); (x.bits, r.2 ||| x.flags)
  | .min => redMinMax t true runs
  | .max => redMinMax t false runs
  | .and => let r := redFold (fun v _ => ⟨v, 0#5⟩) (fun a b => ⟨a &&& b, 0#5⟩) runs; (ext64 t (r.1.getD (2 ^ w - 1)), r.2)
  | .or => let r := redFold (fun v _ => ⟨v, 0#5⟩) (fun a b => ⟨a ||| b, 0#5⟩) runs; (ext64 t (r.1.getD 0), r.2)
  | .xor =>
    let r := redFold (fun v n => ⟨if n % 2 = 1 then v else 0, 0#5⟩) (fun a b => ⟨a ^^^ b, 0#5⟩) runs
    (ext64 t (r.1.getD 0), r.2)
  | .cnt => ((runs.map fun r => if nonzero t r.1 then r.2 else 0).sum, 0#5)
  | .first => (firstNonzero t runs, 0#5)

end Sys2Proof.Machine
end

