-- ==== Sys2Proof/Machine/Blocks.lean ====
section
/-! DEFINITION. Block-scaled formats (spec 07 R188-R190) and the decoding of bank formats (04 R109; 10 R288, R289). -/

namespace Sys2Proof.Machine

/-- The formats of a bank or of a tile operand (R109). -/
inductive BankFmt where
  | raw | q4 | q8 | q16 | q18 | f4 | f8 | g16 | f16 | f32
  deriving DecidableEq, Repr

/-- The format of a code; 10 to 15 are reserved. -/
def BankFmt.ofCode : Nat → BankFmt
  | 1 => .q4 | 2 => .q8 | 3 => .q16 | 4 => .q18 | 5 => .f4 | 6 => .f8 | 7 => .g16 | 8 => .f16 | 9 => .f32 | _ => .raw

/-- Bits of a stored element (R188); `w` for raw (R288). -/
def BankFmt.width (w : Nat) : BankFmt → Nat
  | .raw => w
  | .q4 | .f4 => 4
  | .q8 | .f8 => 8
  | .q16 | .g16 | .f16 => 16
  | .q18 | .f32 => 32

/-- Bits of the integer of a q format. -/
def BankFmt.intBits : BankFmt → Nat
  | .q4 => 4 | .q8 => 8 | .q16 => 16 | _ => 18

/-- Whether a format holds scaled integers. -/
def BankFmt.isQ : BankFmt → Bool
  | .q4 | .q8 | .q16 | .q18 => true
  | _ => false

/-- Whether a format is block scaled. -/
def BankFmt.isScaled (f : BankFmt) : Bool := f.isQ || f == .f4

/-- The element type of a floating-point format. -/
def BankFmt.elem : BankFmt → ElemType
  | .f4 => .f4 | .f8 => .f8 | .g16 => .g16 | .f16 => .f16 | _ => .f32

/-- An integer as an exact value. -/
def intVal (x : Int) : FVal := .fin (decide (x < 0)) x.natAbs 0

/-- The value of a stored element, before its scale. -/
def BankFmt.value (f : BankFmt) (bits : Nat) : FVal :=
  if f.isQ then intVal (signedOf f.intBits bits) else decodeElem f.elem bits

/-- A value times 2^k. -/
def FVal.shift (k : Int) : FVal → FVal
  | .fin s m e => .fin s m (e + k)
  | v => v

/-- The value of an element under a scale byte (R188). -/
def BankFmt.scaled (f : BankFmt) (sc bits : Nat) : FVal := (f.value bits).shift ((sc : Int) - 127)

/-- Floor of the binary logarithm of a finite nonzero value's magnitude. -/
def FVal.log2 : FVal → Option Int
  | .fin _ m e => if m = 0 then none else some ((bitLen m : Int) - 1 + e)
  | _ => none

/-- The scale byte of a block of real elements (R189). -/
def BankFmt.scaleOf (f : BankFmt) (xs : List FVal) : Nat :=
  match (xs.filterMap FVal.log2).max? with
  | none => 127
  | some l =>
    let s := l - (if f = .f4 then 2 else (f.intBits : Int) - 2)
    ((max (-127) (min 128 s)) + 127).toNat

/-- A value as an integer of `b` bits, rounded to nearest and clamped; a NaN gives 0 (R189). -/
def clampInt (b : Nat) (v : FVal) : Int :=
  let lo : Int := -(2 ^ (b - 1) : Nat)
  let hi : Int := (2 ^ (b - 1) : Nat) - 1
  match v with
  | .nan _ _ => 0
  | .inf s => if s then lo else hi
  | .fin s m e => max lo (min hi (signedMag s (toIntegral .rne s m e).1))

/-- An element converted into a block-scaled format under a scale byte (R189). -/
def BankFmt.quantise (f : BankFmt) (sc : Nat) (x : FVal) : Nat :=
  let y := x.shift (127 - (sc : Int))
  if f = .f4 then (toF4 y).bits else codeOf (f.width 0) (clampInt f.intBits y)

/-- An element encoded under a scale byte in a format that is not raw: f8 and the wider formats round to nearest (R289). -/
def BankFmt.encode (f : BankFmt) (sc : Nat) (x : FVal) : FRes :=
  if f.isScaled then ⟨f.quantise sc x, 0#5⟩ else encodeElem f.elem .rne (x.shift (127 - (sc : Int)))

/-- Elements of a block (R109). -/
def blockSize (code : Nat) : Nat := 16 * 2 ^ code

/-- The scale byte of element `e` when the bytes `sc` begin with the one of element `e0`'s block; 127 without scales. -/
def scaleAt (blk e0 : Nat) (sc : List Byte) (e : Nat) : Nat :=
  if blk = 0 then 127 else (sc.getD (e / blk - e0 / blk) 127#8).toNat

/-- The elements of a bank-decoded load: `n` of format `f` from element `e0` on, with the bytes of their scales (R288). -/
def decodeBank (t : ElemType) (f : BankFmt) (n e0 blk : Nat) (mode : Mode) (els sc : List Byte) : List FRes :=
  let codes := unpack (f.width (widthOf t)) n (ofBytesLE els)
  ((List.range n).zip codes).map fun x =>
    if f = .raw then ⟨x.2, 0#5⟩ else encodeElem t mode (f.scaled (scaleAt blk e0 sc (e0 + x.1)) x.2)

/-- The OR of the flags of results. -/
def flagsOf (rs : List FRes) : Flags := rs.foldl (fun fl r => fl ||| r.flags) 0#5

/-- Bytes that `n` elements of `w` bits fill. -/
def bytesFor (w n : Nat) : Nat := (n * w + 7) / 8

end Sys2Proof.Machine
end

