-- ==== Sys2Proof/Machine/Crypto.lean ====
section
/-! DEFINITION. The two standard functions that the manual names to the bit: AES-256-XTS of a line of HBM (spec 20 R393) and
SHAKE256 (R397, R398). Their byte conventions are those of the standards (assumption 70). -/

namespace Sys2Proof.Machine

/-! ## AES-256 -/

/-- A byte times x in the field of AES. -/
def xtime (a : Nat) : Nat := if 128 ≤ a then (2 * a) ^^^ 0x11B else 2 * a

/-- The product of two bytes in the field of AES, over the low `n` bits of the second. -/
def gmul : Nat → Nat → Nat → Nat
  | 0, _, _ => 0
  | n + 1, a, b => (if b % 2 = 1 then a else 0) ^^^ gmul n (xtime a) (b / 2)

/-- The inverse of a byte: its 254th power; 0 for 0. -/
def ginv (a : Nat) : Nat :=
  let step (x : Nat × Nat) : Nat × Nat := let q := gmul 8 x.1 x.1; (q, gmul 8 x.2 q)
  (step (step (step (step (step (step (step (a, 1)))))))).2

/-- A byte turned left by `k` bits. -/
def rotl8 (k a : Nat) : Nat := a * 2 ^ k % 256 + a / 2 ^ (8 - k)

/-- The substitution of a byte. -/
def sboxOf (a : Nat) : Nat := let b := ginv a; b ^^^ rotl8 1 b ^^^ rotl8 2 b ^^^ rotl8 3 b ^^^ rotl8 4 b ^^^ 0x63
/-- The inverse substitution of a byte. -/
def sboxInvOf (a : Nat) : Nat := ginv (rotl8 1 a ^^^ rotl8 3 a ^^^ rotl8 6 a ^^^ 0x05)

/-- The substitution as a table. -/
def sbox : List Nat := (List.range 256).map sboxOf
/-- The inverse substitution as a table. -/
def sboxInv : List Nat := (List.range 256).map sboxInvOf

/-- The exclusive or of two byte strings. -/
def xorBytes (a b : List Nat) : List Nat := a.zipWith (· ^^^ ·) b

/-- The further words of the key schedule, the latest first, with fuel. -/
def keyWords (sub : List Nat) (rcon : Nat) : Nat → List (List Nat) → List (List Nat)
  | 0, ws => ws
  | fuel + 1, ws =>
    let i := ws.length
    let prev := ws.headD []
    let s (w : List Nat) : List Nat := w.map fun b => sub.getD b 0
    let f := if i % 8 = 0 then xorBytes (s (prev.drop 1 ++ prev.take 1)) [rcon, 0, 0, 0] else if i % 8 = 4 then s prev else prev
    keyWords sub (if i % 8 = 0 then xtime rcon else rcon) fuel (xorBytes (ws.getD 7 []) f :: ws)

/-- A byte string cut into pieces of `n`, with fuel. -/
def chunks (n : Nat) : Nat → List Nat → List (List Nat)
  | 0, _ => []
  | k + 1, bs => bs.take n :: chunks n k (bs.drop n)

/-- The fifteen round keys of a key of 32 bytes. -/
def roundKeys (key : List Nat) : List (List Nat) :=
  chunks 16 15 ((keyWords sbox 1 52 (chunks 4 8 key).reverse).reverse.flatMap id)

/-- The rows of a state turned: row r by `k r` places. -/
def shiftRows (k : Nat → Nat) (s : List Nat) : List Nat :=
  (List.range 16).map fun i => s.getD ((i / 4 + k (i % 4)) % 4 * 4 + i % 4) 0

/-- One column, and so the state, times the matrix whose first row is given. -/
def mixColumns (row : List Nat) (s : List Nat) : List Nat :=
  (List.range 16).map fun i =>
    (List.range 4).foldl (fun x j => x ^^^ gmul 4 (s.getD (i / 4 * 4 + j) 0) (row.getD ((j + 4 - i % 4) % 4) 0)) 0

/-- One block enciphered. -/
def aesEncrypt (rk : List (List Nat)) (b : List Nat) : List Nat :=
  let sub (s : List Nat) : List Nat := shiftRows id (s.map fun x => sbox.getD x 0)
  let mid := ((rk.drop 1).take 13).foldl (fun s k => xorBytes (mixColumns [2, 3, 1, 1] (sub s)) k) (xorBytes b (rk.headD []))
  xorBytes (sub mid) (rk.getD 14 [])

/-- One block deciphered. -/
def aesDecrypt (rk : List (List Nat)) (b : List Nat) : List Nat :=
  let sub (s : List Nat) : List Nat := (shiftRows (fun r => 4 - r) s).map fun x => sboxInv.getD x 0
  let first := sub (xorBytes b (rk.getD 14 []))
  xorBytes (((rk.drop 1).take 13).reverse.foldl (fun s k => sub (mixColumns [14, 11, 13, 9] (xorBytes s k))) first) (rk.headD [])

/-! ## XTS over one line -/

/-- The `n` bytes of a number, least significant first. -/
def natBytes (n x : Nat) : List Nat := (List.range n).map fun i => x / 256 ^ i % 256
/-- The number of a byte string, least significant first. -/
def bytesNat (bs : List Nat) : Nat := bs.foldr (fun b x => b + 256 * x) 0

/-- The tweak of the next block. -/
def nextTweak (t : Nat) : Nat := if 2 ^ 127 ≤ t then (2 * t - 2 ^ 128) ^^^ 0x87 else 2 * t

/-- The blocks of a data unit, each between its tweak. -/
def xtsGo (f : List Nat → List Nat) : Nat → List (List Nat) → List Nat
  | _, [] => []
  | t, b :: bs => xorBytes (f (xorBytes b (natBytes 16 t))) (natBytes 16 t) ++ xtsGo f (nextTweak t) bs

/-- A line enciphered, or deciphered, under a 512-bit key; `unit` is its offset in the module (R393). -/
def xtsLine (key : Nat) (unit : Nat) (encrypt : Bool) (bs : List Nat) : List Nat :=
  let k1 := roundKeys (natBytes 32 (key % 2 ^ 256))
  let k2 := roundKeys (natBytes 32 (key / 2 ^ 256))
  xtsGo (if encrypt then aesEncrypt k1 else aesDecrypt k1) (bytesNat (aesEncrypt k2 (natBytes 16 unit))) (chunks 16 8 bs)

/-! ## SHAKE256 -/

/-- A lane turned left. -/
def rotl64 (k : Nat) (a : Nat) : Nat := a * 2 ^ (k % 64) % 2 ^ 64 + a / 2 ^ (64 - k % 64)

/-- The next lane in the walk of the rho and pi steps. -/
def piNext (p : Nat × Nat) : Nat × Nat := (p.2, (2 * p.1 + 3 * p.2) % 5)

/-- The rho and pi steps: the lane at each place of the walk goes, turned, to the next. -/
def rhoPi (a : List Nat) : Nat → Nat → Nat × Nat → List (Nat × Nat) → List (Nat × Nat)
  | 0, _, _, out => out
  | fuel + 1, t, p, out =>
    let q := piNext p
    rhoPi a fuel (t + 1) q ((q.1 + 5 * q.2, rotl64 ((t + 1) * (t + 2) / 2) (a.getD (p.1 + 5 * p.2) 0)) :: out)

/-- The next state of the generator of the round constants. -/
def lfsr (r : Nat) : Nat := let x := 2 * r; if 256 ≤ x then (x - 256) ^^^ 0x71 else x

/-- The round constant from generator state `r`, and the state after its seven bits. -/
def roundConst (r : Nat) : Nat × Nat :=
  (List.range 7).foldl (fun x j => (if x.2 % 2 = 1 then x.1 ^^^ 2 ^ (2 ^ j - 1) else x.1, lfsr x.2)) (0, r)

/-- One round of Keccak-f[1600]. -/
def keccakRound (rc : Nat) (a : List Nat) : List Nat :=
  let c := (List.range 5).map fun x => (List.range 5).foldl (fun s y => s ^^^ a.getD (x + 5 * y) 0) 0
  let d := (List.range 5).map fun x => c.getD ((x + 4) % 5) 0 ^^^ rotl64 1 (c.getD ((x + 1) % 5) 0)
  let a := (List.range 25).map fun i => a.getD i 0 ^^^ d.getD (i % 5) 0
  let m := rhoPi a 24 0 (1, 0) [(0, a.getD 0 0)]
  let b := (List.range 25).map fun i => ((m.find? fun e => e.1 == i).map (·.2)).getD 0
  (List.range 25).map fun i =>
    let lane (k : Nat) : Nat := b.getD (i / 5 * 5 + (i % 5 + k) % 5) 0
    let v := lane 0 ^^^ ((2 ^ 64 - 1 - lane 1) &&& lane 2)
    if i = 0 then v ^^^ rc else v

/-- The rounds of Keccak-f[1600], with fuel and the generator state. -/
def keccakGo : Nat → Nat → List Nat → List Nat
  | 0, _, a => a
  | fuel + 1, r, a => let k := roundConst r; keccakGo fuel k.2 (keccakRound k.1 a)

/-- Keccak-f[1600]. -/
def keccak (a : List Nat) : List Nat := keccakGo 24 1 a

/-- The state after the blocks of 136 bytes, with fuel. -/
def absorb : Nat → List Nat → List Nat → List Nat
  | 0, _, a => a
  | fuel + 1, bs, a =>
    let lanes := (chunks 8 17 (bs.take 136)).map bytesNat
    absorb fuel (bs.drop 136) (keccak ((List.range 25).map fun i => a.getD i 0 ^^^ lanes.getD i 0))

/-- The blocks that come out, with fuel. -/
def squeeze : Nat → List Nat → List Nat
  | 0, _ => []
  | fuel + 1, a => (a.take 17).flatMap (natBytes 8) ++ squeeze fuel (keccak a)

/-- The first `n` bytes of SHAKE256 over a byte string. -/
def shake256 (data : List Byte) (n : Nat) : List Byte :=
  let bs := data.map (·.toNat)
  let k := bs.length / 136 + 1
  let gap := k * 136 - bs.length
  let pad := if gap = 1 then [0x9F] else 0x1F :: List.replicate (gap - 2) 0 ++ [0x80]
  ((squeeze (n / 136 + 1) (absorb k (bs ++ pad) (List.replicate 25 0))).take n).map fun b => BitVec.ofNat 8 b

end Sys2Proof.Machine
end

