-- ==== Sys2Proof/Machine/Mem.lean ====
section
/-! DEFINITION. The bytes of HBM and of host memory: the one place where they are read and written, with encryption keys and
poison (spec 01 R33, 04 R101, 20 R384, R393, 21 R410). -/

namespace Sys2Proof.Machine

/-- What a byte of HBM reads when nothing has written it: zero, as the cold reset leaves it (R33). -/
def unlisted : Byte := 0#8

/-- The canonical form of a memory: addresses strictly rising, no entry equal to what an unlisted address reads. -/
abbrev Memory.wf (m : List Host.Cell) : Bool := Tab.canonical unlisted m

/-- One byte of a memory. -/
def memByte (m : List Host.Cell) (a : Nat) : Byte := Tab.get unlisted a m

/-- The memory with one byte written. -/
def memPut (m : List Host.Cell) (a : Nat) (b : Byte) : List Host.Cell := Tab.set unlisted a b m

/-- `n` bytes of a memory from `a` on. -/
def memBytes (m : List Host.Cell) (a : Nat) : Nat → List Byte
  | 0 => []
  | n + 1 => memByte m a :: memBytes m (a + 1) n

/-- The memory with a byte string written from `a` on. -/
def memPuts (m : List Host.Cell) (a : Nat) : List Byte → List Host.Cell
  | [] => m
  | b :: bs => memPuts (memPut m a b) (a + 1) bs

/-- The name of the boot key, slot 0: no 512-bit key has it (R393). -/
def bootKey : Nat := 0

/-- The name of the key that slot `k` holds (R394): one more than its 512 bits. -/
def State.key (s : State) (k : Nat) : Nat := if k = 0 then bootKey else (Tab.get 0#512 k s.firm.keys).toNat + 1

/-- The key under which a line of HBM was written. -/
def State.lineKey (s : State) (l : Nat) : Nat := Tab.get bootKey l s.lineKeys

/-- The 512 bits of a key by its name. -/
def keyBits (name : Nat) : Nat := if name = bootKey then Config.bootKey.toNat else name - 1

/-- What line `l` of HBM, written as `bs` under the key named `old`, reads as under the key named `new`: its AES-256-XTS
ciphertext deciphered; the tweak is the line's offset in the module (R393). -/
def recrypt (old new l : Nat) (bs : List Byte) : List Byte :=
  (xtsLine (keyBits new) (l * 128) false (xtsLine (keyBits old) (l * 128) true (bs.map (·.toNat)))).map fun x => BitVec.ofNat 8 x

/-- A line of HBM as key slot `k` decrypts it (R393). -/
def State.lineUnder (s : State) (k l : Nat) : List Byte := recrypt (s.lineKey l) (s.key k) l (memBytes s.hbm (l * 128) 128)

/-- A byte of HBM as key slot `k` decrypts it (R393). -/
def State.hbmByte (s : State) (k a : Nat) : Byte :=
  if s.lineKey (a / 128) = s.key k then memByte s.hbm a else (s.lineUnder k (a / 128)).getD (a % 128) unlisted

/-- The line of HBM as it decrypts under key slot `k`, held under that key from now on. -/
def State.rekey (s : State) (k l : Nat) : State :=
  if s.lineKey l = s.key k then s
  else { s with hbm := memPuts s.hbm (l * 128) (s.lineUnder k l), lineKeys := Tab.set bootKey l (s.key k) s.lineKeys }

/-- HBM with one byte written under key slot `k`. -/
def State.putHbm (s : State) (k a : Nat) (b : Byte) : State :=
  let s := s.rekey k (a / 128)
  { s with hbm := memPut s.hbm a b }

/-- HBM with a byte string written under key slot `k`. -/
def State.putHbms (s : State) (k a : Nat) : List Byte → State
  | [] => s
  | b :: bs => State.putHbms (s.putHbm k a b) k (a + 1) bs

/-- The lines that a write of `n` bytes at `a` covers whole. -/
def wholeLines (a n : Nat) : List Nat :=
  (List.range (n / 128 + 2)).filterMap fun i =>
    let l := a / 128 + i
    if a ≤ l * 128 ∧ l * 128 + 128 ≤ a + n then some l else none

/-- Bytes of physical memory: of HBM at a module offset, or of host memory. -/
def State.readPhys (s : State) (host : Bool) (k a n : Nat) : List Byte :=
  if host then memBytes s.hostMem a n else (List.range n).map fun i => s.hbmByte k (a + i)

/-- Physical memory with a byte string written; a whole line written clears its poison (R410). -/
def State.writePhys (s : State) (host : Bool) (k a : Nat) (bs : List Byte) : State :=
  if host then { s with hostMem := memPuts s.hostMem a bs }
  else
    let s := s.putHbms k a bs
    { s with poison := s.poison.filter fun l => !(wholeLines a bs.length).contains l.1 }

/-- HBM with the poison marks of lines `ls` cleared. -/
def State.cleanLines (s : State) (ls : List Nat) : State := { s with poison := s.poison.filter fun l => !ls.contains l.1 }

/-- The DETAIL of a machine check: the die, the unit, and the offset of the poisoned line (R379). -/
def detailOf (die unit offset : Nat) : Nat := die * 2 ^ 59 + unit * 2 ^ 56 + offset

/-- The first poisoned line that a physical range meets, as DETAIL of its machine check (R379, R410). -/
def State.physPoison (s : State) (host : Bool) (a n : Nat) : Option Nat :=
  if host then none
  else (s.poison.find? fun l => decide (l.1 * 128 < a + n ∧ a < l.1 * 128 + 128 ∧ 0 < n)).map fun l =>
    detailOf (l.1 * 128 / Config.dieBytes) l.2 (l.1 * 128 % Config.dieBytes)

/-- A 64-bit word of HBM under key 0, as the device's own tables hold it. -/
def State.word0 (s : State) (a : Nat) : Nat := ofBytesLE (s.readPhys false 0 a 8)

/-- The module offset of offset `a` of die `d` (R384). -/
def dieOffset (d a : Nat) : Nat := d * Config.dieBytes + a

/-- The die of a module offset. -/
def dieOf (a : Nat) : Nat := a / Config.dieBytes

/-- The slice of a die that homes the line at offset `a` of that die (R101). -/
def sliceOf (a : Nat) : Nat := 8 * (a % Config.dieBytes / (48 * 2 ^ 30)) + a / 128 % 8

end Sys2Proof.Machine
end

