-- ==== Sys2Proof/Machine/Operands.lean ====
section
/-! DEFINITION. The registers that an instruction names: what it reads, writes and empties, in field order. From these the
shared checks follow: REGLIMIT (spec 08 R207), the clash of R206, the waits of R70 and R77, and POISON (09 R242). -/

namespace Sys2Proof.Machine

/-- The registers an instruction names. Numbers are natural, since the members of a pair may pass 127. -/
structure RegUse where
  /-- Scalar registers in field order. -/
  fields : List Nat := []
  reads : List Nat := []
  writes : List Nat := []
  /-- Registers written that no operand field names: `s1` of `CALL`. -/
  hidden : List Nat := []
  empties : List Nat := []
  vfields : List Nat := []
  vreads : List Nat := []
  vwrites : List Nat := []
  vempties : List Nat := []
  preads : List Nat := []
  pwrites : List Nat := []
  /-- The control register that `CSRW` names. -/
  csrw : Option Nat := none
  /-- `c.wstat` is read or written by number. -/
  wstat : Bool := false
  deriving DecidableEq, Repr

/-- d := f(a, b). -/
def use3 (d a b : SReg) : RegUse := { fields := [d.toNat, a.toNat, b.toNat], reads := [a.toNat, b.toNat], writes := [d.toNat] }
/-- d := f(a). -/
def use2 (d a : SReg) : RegUse := { fields := [d.toNat, a.toNat], reads := [a.toNat], writes := [d.toNat] }
/-- d written. -/
def useD (d : SReg) : RegUse := { fields := [d.toNat], writes := [d.toNat] }
/-- a read. -/
def useA (a : SReg) : RegUse := { fields := [a.toNat], reads := [a.toNat] }
/-- s, a, b read. -/
def useR3 (s a b : SReg) : RegUse := { fields := [s.toNat, a.toNat, b.toNat], reads := [s.toNat, a.toNat, b.toNat] }
/-- The pair at d written, a and b read. -/
def usePairD (d : SReg) (rs : List Nat) : RegUse :=
  { fields := d.toNat :: (d.toNat + 1) :: rs, reads := rs, writes := [d.toNat, d.toNat + 1] }
/-- The pair at s read, with others. -/
def usePairS (s : SReg) (rs : List Nat) : RegUse :=
  { fields := s.toNat :: (s.toNat + 1) :: rs, reads := s.toNat :: (s.toNat + 1) :: rs }
/-- pd := f(pa, pb). -/
def useP (pd : PReg) (ps : List PReg) : RegUse := { preads := ps.map (·.toNat), pwrites := [pd.toNat] }
/-- vd := f(va, vb) under mask vm, reading the old vd when masked (R269). -/
def useV (vd : VReg) (vs : List VReg) (vm : VReg) (old : Bool) : RegUse :=
  { vfields := vd.toNat :: vs.map (·.toNat) ++ (if vm = 0#4 then [] else [vm.toNat])
    vreads := vs.map (·.toNat) ++ (if vm = 0#4 then [] else [vm.toNat]) ++ (if old || vm != 0#4 then [vd.toNat] else [])
    vwrites := [vd.toNat] }
/-- vd := f(va, s). -/
def useVS (vd : VReg) (vs : List VReg) (s : List SReg) : RegUse :=
  { vfields := vd.toNat :: vs.map (·.toNat), vreads := vs.map (·.toNat), vwrites := [vd.toNat]
    fields := s.map (·.toNat), reads := s.map (·.toNat) }
/-- s := f(va). -/
def useSV (s : SReg) (va : VReg) : RegUse :=
  { vfields := [va.toNat], vreads := [va.toNat], fields := [s.toNat], writes := [s.toNat] }
/-- A vector store of vs from scalars. -/
def useVst (vs : List VReg) (s : List SReg) : RegUse :=
  { vfields := vs.map (·.toNat), vreads := vs.map (·.toNat), fields := s.map (·.toNat), reads := s.map (·.toNat) }

/-- The registers of each instruction; a step of the device or the host names none. -/
def regUse : Instr → RegUse
  | .add d a b | .sub d a b | .and d a b | .or d a b | .xor d a b | .andn d a b | .shl d a b | .shr d a b
  | .sra d a b | .rot d a b | .min d a b | .max d a b | .minu d a b | .maxu d a b | .mul d a b | .mulh d a b
  | .mulhu d a b | .div d a b | .divu d a b | .rem d a b | .remu d a b | .bext d a b | .lea d a b _
  | .faddD d a b | .fsubD d a b | .fmulD d a b | .fdivD d a b | .fminD d a b | .fmaxD d a b | .fsgnD d a b
  | .faddS d a b | .fsubS d a b | .fmulS d a b | .fdivS d a b | .fminS d a b | .fmaxS d a b | .fsgnS d a b
  | .amoC _ d a b | .amoG _ d a b | .fork d a b => use3 d a b
  | .bins d a b | .ffma _ _ d a b => { use3 d a b with reads := [d.toNat, a.toNat, b.toNat] }
  | .clz d a | .ctz d a | .popc d a | .sxb d a | .sxh d a | .sxw d a | .zxb d a | .zxh d a | .zxw d a
  | .addi d a _ | .andi d a _ | .ori d a _ | .xori d a _ | .shfi _ d a _
  | .ldb d a _ | .ldh d a _ | .ldw d a _ | .ldd d a _ | .ldbu d a _ | .ldhu d a _ | .ldwu d a _
  | .jmpr d a | .fsqrtD d a | .fsqrtS d a | .fcvt _ d a | .spawn d a | .spawnQ d a | .join d a
  | .wstat d _ a => use2 d a
  | .take d a => { use2 d a with empties := [a.toNat] }
  | .cmp pd _ a b | .fcmp pd _ _ a b => { fields := [a.toNat, b.toNat], reads := [a.toNat, b.toNat], pwrites := [pd.toNat] }
  | .cmpi pd _ a _ => { useA a with pwrites := [pd.toNat] }
  | .sel d p a b => { use3 d a b with preads := [p.toNat] }
  | .movi d _ | .lui d _ | .self d | .parent d | .lane d | .time d | .wclock d _ => useD d
  | .csrr d c => { useD d with wstat := c.toNat == 8 }
  | .pand pd pa pb | .por pd pa pb | .pxor pd pa pb | .pandn pd pa pb => useP pd [pa, pb]
  | .pnot pd pa => useP pd [pa]
  | .pset pd | .pclr pd => useP pd []
  | .ldq d a _ => usePairD d [a.toNat]
  | .stb s a _ | .sth s a _ | .stw s a _ | .std s a _ => { fields := [s.toNat, a.toNat], reads := [s.toNat, a.toNat] }
  | .stq s a _ => usePairS s [a.toNat]
  | .ldx wd d a b => if wd = .q then usePairD d [a.toNat, b.toNat] else use3 d a b
  | .stx wd s a b => if wd = .q then usePairS s [a.toNat, b.toNat] else useR3 s a b
  | .cas _ q d a b =>
    if q then { fields := [d.toNat, d.toNat + 1, a.toNat, b.toNat, b.toNat + 1]
                reads := [d.toNat, d.toNat + 1, a.toNat, b.toNat, b.toNat + 1], writes := [d.toNat, d.toNat + 1] }
    else { use3 d a b with reads := [d.toNat, a.toNat, b.toNat] }
  | .faadd _ ord d a b =>
    if ord then useR3 d a b else { fields := [a.toNat, b.toNat], reads := [a.toNat, b.toNat] }
  | .br p _ _ => { preads := [p.toNat] }
  | .call _ => { hidden := [1] }
  | .rss d a b | .rssT d a b => useR3 d a b
  | .rsv vs a b | .rsvT vs a b => useVst [vs] [a, b]
  | .exit a | .cancel a | .trap a | .vsetl a | .kidx a | .brset a | .brdrop a => useA a
  | .wbind _ a | .wcommit _ a | .whor _ a => useA a
  | .hold a => { fields := [a.toNat], empties := [a.toNat] }
  | .test pd a => { fields := [a.toNat], pwrites := [pd.toNat] }
  | .vtake vd va => { vfields := [vd.toNat, va.toNat], vreads := [va.toNat], vwrites := [vd.toNat], vempties := [va.toNat] }
  | .vhold va => { vfields := [va.toNat], vempties := [va.toNat] }
  | .wld vd _ k i pd | .wldN vd _ k i pd =>
    { vfields := [vd.toNat], vwrites := [vd.toNat], fields := [k.toNat, i.toNat], reads := [k.toNat, i.toNat], pwrites := [pd.toNat] }
  | .wst vs _ k i => useVst [vs] [k, i]
  | .swait s _ | .sadd s _ | .sset s _ => useA s
  | .sread s _ => useD s
  | .enq _ a =>
    let rs := [a.toNat, a.toNat + 1, a.toNat + 2, a.toNat + 3]
    { fields := rs, reads := rs }
  | .csrw a c => { useA a with csrw := some c.toNat, wstat := c.toNat == 8 }
  | .vadd d a b m _ | .vsub d a b m _ | .vmul d a b m _ | .vdiv d a b m _ | .vmin d a b m _ | .vmax d a b m _
  | .vand d a b m _ | .vor d a b m _ | .vxor d a b m _ | .vandn d a b m _ | .vshl d a b m _ | .vshr d a b m _
  | .vsra d a b m _ | .vabsd d a b m _ | .vcpsgn d a b m _ | .vcmp _ d a b m _ => useV d [a, b] m false
  | .vfma d a b m _ | .vfmaN d a b m _ | .vfmaE d a b m _ => useV d [a, b] m true
  | .vsel d a b m _ => { vfields := [d.toNat, a.toNat, b.toNat, m.toNat], vreads := [a.toNat, b.toNat, m.toNat], vwrites := [d.toNat] }
  | .vaddS d a s _ _ | .vsubS d a s _ _ | .vmulS d a s _ _ | .vdivS d a s _ _ | .vminS d a s _ _ | .vmaxS d a s _ _
  | .vandS d a s _ _ | .vorS d a s _ _ | .vxorS d a s _ _ | .vandnS d a s _ _ | .vshlS d a s _ _ | .vshrS d a s _ _
  | .vsraS d a s _ _ | .vabsdS d a s _ _ | .vcpsgnS d a s _ _ => useVS d [a] [s]
  | .vsldu d a s _ | .vsldd d a s _ | .vslice d a s _ => useVS d [a] [s]
  | .vneg d a m _ | .vabs d a m _ | .vnot d a m _ | .vsqrt d a m _ | .vrsq d a m _ | .vrcp d a m _ | .vexp2 d a m _
  | .vlog2 d a m _ | .vfloor d a m _ | .vround d a m _ | .vclz d a m _ | .vpopc d a m _ | .vcvt d a _ m _ _ => useV d [a] m false
  | .vspl d s _ => useVS d [] [s]
  | .vmask d s => useVS d [] [s]
  | .viota d _ | .vclr d _ => useVS d [] []
  | .vred _ s a _ | .vlen s a _ | .vnrun s a _ => useSV s a
  | .vextr s a _ => { useSV s a with reads := [s.toNat] }
  | .vcoal d a _ | .vexpand d a _ | .vmov d a _ | .vrev d a _ => useVS d [a] []
  | .vcat d a b _ => useVS d [a, b] []
  | .vldDense d b _ | .vldRuns d b _ => useVS d [] [b]
  | .vldStr d b s _ => useVS d [] [b, s]
  | .vldBank d b e _ => useVS d [] [b, e]
  | .vstDense v b _ | .vstRuns v b _ => useVst [v] [b]
  | .vstStr v b s _ => useVst [v] [b, s]
  | .vstBank v b e _ => useVst [v] [b, e]
  | .vgth d b i _ _ => useVS d [i] [b]
  | .vsct v b i _ _ => useVst [v, i] [b]
  | _ => {}

/-- Whether two words of one bundle clash (R206): one destination named twice, or a register emptied that the other writes. -/
def clash (a b : RegUse) : Bool :=
  a.writes.any (b.writes.contains ·) || a.vwrites.any (b.vwrites.contains ·)
    || a.empties.any (b.writes.contains ·) || b.empties.any (a.writes.contains ·)
    || a.vempties.any (b.vwrites.contains ·) || b.vempties.any (a.vwrites.contains ·)

end Sys2Proof.Machine
end

