-- ==== Sys2Proof/Machine/Ops.lean ====
section
/-! DEFINITION. The named operations over registers, threads, groups and units; taking a trap and returning from one
(spec 19 R360-R364); the checks that every instruction shares (08 R206-R214). -/

namespace Sys2Proof.Machine

/-- The outcome of a step. -/
abbrev Out := Host.Outcome State Fault Refusal

/-! ## Units -/

/-- Group `n`. -/
def State.group (s : State) (n : Nat) : Group := Tab.get {} n s.groups
/-- Core `c`. -/
def State.core (s : State) (c : Nat) : Core := Tab.get {} c s.cores
/-- Cluster `k`. -/
def State.cluster (s : State) (k : Nat) : Cluster := Tab.get {} k s.clus
/-- Die `d`. -/
def State.die (s : State) (d : Nat) : Die := Tab.get {} d s.dies
/-- Partition `p`. -/
def State.partn (s : State) (p : Nat) : Partition := Tab.get {} p s.parts
/-- Host launch queue `q`. -/
def State.lq (s : State) (q : Nat) : LaunchQueue := Tab.get {} q s.lqs

/-- The state with group `n` changed by `f`, if it is there. -/
def State.onGroup (s : State) (n : Nat) (f : Group → Group) : State :=
  match Tab.find n s.groups with
  | none => s
  | some g => { s with groups := Tab.put n (f g) s.groups }
/-- The state with core `c` changed by `f`. -/
def State.onCore (s : State) (c : Nat) (f : Core → Core) : State := { s with cores := Tab.alter {} c f s.cores }
/-- The state with cluster `k` changed by `f`. -/
def State.onCluster (s : State) (k : Nat) (f : Cluster → Cluster) : State := { s with clus := Tab.alter {} k f s.clus }
/-- The state with die `d` changed by `f`. -/
def State.onDie (s : State) (d : Nat) (f : Die → Die) : State := { s with dies := Tab.alter {} d f s.dies }
/-- The state with partition `p` changed by `f`. -/
def State.onPart (s : State) (p : Nat) (f : Partition → Partition) : State := { s with parts := Tab.alter {} p f s.parts }
/-- The state with launch queue `q` changed by `f`. -/
def State.onLq (s : State) (q : Nat) (f : LaunchQueue → LaunchQueue) : State := { s with lqs := Tab.alter {} q f s.lqs }
/-- The state with roll entry `n` changed by `f`, if it is there. -/
def State.onRoll (s : State) (n : Nat) (f : RollEntry → RollEntry) : State :=
  match Tab.find n s.roll with
  | none => s
  | some e => { s with roll := Tab.put n (f e) s.roll }
/-- The state with the issuing thread's live copy changed by `f`. -/
def State.onCur (s : State) (f : Thread → Thread) : State := { s with cur := f s.cur }

/-- The cluster of a core (R20). -/
def clusterOf (c : Nat) : Nat := c / Config.coresPerCluster
/-- The die of a core (R20). -/
def dieOfCore (c : Nat) : Nat := c / (Config.coresPerCluster * Config.clustersPerDie)
/-- The partition of a core. -/
def State.partOf (s : State) (c : Nat) : Nat := (s.cluster (clusterOf c)).part
/-- The clusters of a partition, lowest first. -/
def State.clustersOf (s : State) (p : Nat) : List Nat :=
  (List.range Config.clusters).filter fun k => decide ((s.cluster k).part = p)
/-- The die of a partition's lowest cluster; die 0 when it holds none (R348, R350). -/
def State.partDie (s : State) (p : Nat) : Nat := ((s.clustersOf p).headD 0) / Config.clustersPerDie

/-! ## Sets of writes, and what an acquire takes (R157) -/

/-- The larger of the values that two tables list. -/
def joinTab (a b : Tab Nat) : Tab Nat := b.foldl (fun m e => Tab.put e.1 (max e.2 (Tab.get 0 e.1 m)) m) a

/-- The writes of two sets. -/
def View.join (a b : View) : View :=
  { upTo := joinTab a.upTo b.upTo, cmdsTo := joinTab a.cmdsTo b.cmdsTo, ids := a.ids ++ b.ids.filter fun i => !a.ids.contains i }

/-- Whether one unit of a scope holds two cores (R152). -/
def sameUnit (sc : FenceScope) (c d : Nat) : Bool :=
  match sc with
  | .core => c == d
  | .cluster => clusterOf c == clusterOf d
  | .die => dieOfCore c == dieOfCore d
  | _ => true

/-- What an acquire of scope `sc` on core `c` takes from the releases that it observes: both parties lie within both scopes (R157). -/
def takes (sc : FenceScope) (c : Nat) (rs : List Rel) : View :=
  ((rs.filter fun r => sameUnit r.scope r.core c && sameUnit sc r.core c).map (·.view)).foldl View.join {}

/-- A fresh identifier. -/
def State.fresh (s : State) : State := { s with nextId := s.nextId + 1 }
/-- The next free value, and the state that has used it (assumption 6). -/
def State.freeVal (s : State) : Word × State := (Config.freeWord s.freeCount, { s with freeCount := s.freeCount + 1 })

/-! ## Threads -/

/-- Thread `t` of group `g`: the live copy during its own turn. -/
def State.thread (s : State) (g t : Nat) : Thread :=
  if s.iss.live ∧ s.iss.group = g ∧ s.iss.thread = t then s.cur else (s.group g).threads.getD t {}

/-- The state with thread `t` of group `g` changed by `f`. -/
def State.onThread (s : State) (g t : Nat) (f : Thread → Thread) : State :=
  if s.iss.live ∧ s.iss.group = g ∧ s.iss.thread = t then s.onCur f
  else s.onGroup g fun gr => { gr with threads := modifyNth t f gr.threads }

/-- Whether group `g` has a thread `t`. -/
def State.hasThread (s : State) (g t : Nat) : Bool :=
  match Tab.find g s.groups with
  | none => false
  | some gr => decide (t < gr.threads.length)

/-- The issuing group. -/
def State.me (s : State) : Group := s.group s.iss.group

/-! ## Registers: every read is of the bundle's start, every write of the live copy (R206) -/

/-- Scalar register `r`; `s0` reads zero (R26). -/
def Thread.reg (t : Thread) (r : Nat) : Reg := if r = 0 then {} else t.regs.getD r {}
/-- Run register `r`. -/
def Thread.vreg (t : Thread) (r : Nat) : VCell := t.vregs.getD r {}
/-- Predicate `p`; `p0` reads true (R207). -/
def Thread.pred (t : Thread) (p : Nat) : Bool := p = 0 || t.preds.getLsbD p

/-- The value of a scalar register as the bundle reads it. -/
def State.rd (s : State) (r : SReg) : Word := (s.pre.reg r.toNat).val
/-- The value of the register after `r`, for a pair. -/
def State.rdNext (s : State) (r : SReg) (k : Nat) : Word := (s.pre.reg (r.toNat + k)).val
/-- A run register as the bundle reads it. -/
def State.rdV (s : State) (r : VReg) : RunReg := (s.pre.vreg r.toNat).run
/-- A predicate as the bundle reads it. -/
def State.rdP (s : State) (p : PReg) : Bool := s.pre.pred p.toNat

/-- A thread with scalar register `r` set to `c`; a change of `s0` is discarded (R26). -/
def Thread.setReg (t : Thread) (r : Nat) (c : Reg) : Thread :=
  if r = 0 then t else { t with regs := modifyNth r (fun _ => c) t.regs }
/-- A thread with run register `r` set to `c`. -/
def Thread.setVReg (t : Thread) (r : Nat) (c : VCell) : Thread := { t with vregs := modifyNth r (fun _ => c) t.vregs }
/-- A thread with predicate `p` set; a change of `p0` is discarded (R207). -/
def Thread.setPred (t : Thread) (p : Nat) (b : Bool) : Thread :=
  if p = 0 then t
  else { t with preds := if b then t.preds ||| (1#8 <<< p) else t.preds &&& ~~~(1#8 <<< p) }

/-- The thread with a scalar register written by a bundle that issues at `now`: the register becomes full (R74), and until
the end of `now + 7` mapped accesses and arrivals still meet the old content, that before the bundle (R222, R224). -/
def Thread.write (t : Thread) (now r : Nat) (v : Word) : Thread :=
  if r = 0 then t
  else { t.setReg r { val := v } with
    oldRegs := if t.oldRegs.any (fun o => o.1 == r && o.2.1 == now + 7) then t.oldRegs else (r, now + 7, t.reg r) :: t.oldRegs }
/-- The thread with a run register written by a bundle that issues at `now`. -/
def Thread.writeV (t : Thread) (now r : Nat) (x : RunReg) : Thread :=
  { t.setVReg r { run := x } with
    oldRuns := if t.oldRuns.any (fun o => o.1 == r && o.2.1 == now + 7) then t.oldRuns else (r, now + 7, t.vreg r) :: t.oldRuns }

/-- The machine with scalar register `r` of the issuing thread written. -/
def State.wr (s : State) (r : SReg) (v : Word) : State := s.onCur fun t => t.write s.cycle r.toNat v
/-- The machine with the register `k` after `r` written. -/
def State.wrNext (s : State) (r : SReg) (k : Nat) (v : Word) : State := s.onCur fun t => t.write s.cycle (r.toNat + k) v
/-- The machine with run register `r` of the issuing thread written. -/
def State.wrV (s : State) (r : VReg) (x : RunReg) : State := s.onCur fun t => t.writeV s.cycle r.toNat x
/-- The machine with predicate `p` of the issuing thread written. -/
def State.wrP (s : State) (p : PReg) (b : Bool) : State := s.onCur fun t => t.setPred p.toNat b
/-- The machine with sticky flags set (R185). -/
def State.orFlags (s : State) (f : Flags) : State := s.onCur fun t => { t with flags := t.flags ||| f }

/-- The core number and tag of the issuing thread's new NaNs (R193). -/
def State.nanTag (s : State) : NanTag := ⟨s.iss.core, s.pre.kidx.toNat⟩
/-- The issuing thread's rounding mode (R183). -/
def State.mode (s : State) : Mode := Mode.ofCode s.pre.round.toNat

/-- The thread with its write of `c.bounce` made, when it takes effect by the end of cycle `now` (R222). -/
def Thread.settleBounce (t : Thread) (now : Nat) : Thread :=
  match t.bounceQ with
  | some (due, v) => if due ≤ now then { t with bounce := v, bounceQ := none } else t
  | none => t

/-- The address after the bundle (R206). -/
def State.link (s : State) : Word := s.iss.pc + BitVec.ofNat 64 (4 * s.iss.words)

/-- The word in hand: the S-word or the V-word of the bundle. -/
def State.wordInHand (s : State) : Code := if s.iss.inV then s.iss.vWord else s.iss.sWord

/-- Trap causes (R360). -/
def Cause.illegal : Nat := 0x01
/-- BUNDLE. -/
def Cause.bundle : Nat := 0x02
/-- PRIV. -/
def Cause.priv : Nat := 0x03
/-- REGLIMIT. -/
def Cause.reglimit : Nat := 0x04
/-- ALIGN. -/
def Cause.align : Nat := 0x05
/-- PAGE. -/
def Cause.page : Nat := 0x06
/-- PROT. -/
def Cause.prot : Nat := 0x07
/-- RANGELOCK. -/
def Cause.rangelock : Nat := 0x08
/-- RUNOVF. -/
def Cause.runovf : Nat := 0x09
/-- LENGTH. -/
def Cause.length : Nat := 0x0A
/-- RUNBAD. -/
def Cause.runbad : Nat := 0x0B
/-- UNAVAIL. -/
def Cause.unavail : Nat := 0x0C
/-- WGONE. -/
def Cause.wgone : Nat := 0x0D
/-- WFAR. -/
def Cause.wfar : Nat := 0x0E
/-- WORDER. -/
def Cause.worder : Nat := 0x0F
/-- BOUNCE. -/
def Cause.bounce : Nat := 0x10
/-- DETERM. -/
def Cause.determ : Nat := 0x11
/-- CANCEL. -/
def Cause.cancel : Nat := 0x12
/-- POISON. -/
def Cause.poison : Nat := 0x13
/-- ENGINE. -/
def Cause.engine : Nat := 0x14
/-- RESIDUE. -/
def Cause.residue : Nat := 0x15
/-- SWTRAP. -/
def Cause.swtrap : Nat := 0x16
/-- BREAK. -/
def Cause.brk : Nat := 0x17
/-- WRETAIN. -/
def Cause.wretain : Nat := 0x19

/-! ## The fault queue (R368) -/

/-- Queues a fault record at a die; it is posted when a slot is free (R367). -/
def State.queueFault (s : State) (die : Nat) (r : FaultRec) : State :=
  (s.onDie die fun d => { d with fqWait := d.fqWait ++ [{ r with id := s.nextId }] }).fresh

/-- A record about thread `t` of group `g`, whose PC is the bundle of its turn, or its next one. -/
def State.threadRecord (s : State) (kind cause : Nat) (ty : AccessType) (addr g t : Nat) : FaultRec :=
  let gr := s.group g
  let th := s.thread g t
  let pc := if s.iss.live ∧ s.iss.group = g ∧ s.iss.thread = t then s.iss.pc else th.pc
  { id := 0, kind := kind, cause := cause, type := ty, addr := addr, name := g, part := gr.part, core := gr.core
    slot := th.slot, thread := t, queue := 0, pc := pc.toNat, detail := 0 }

/-! ## Cancellation (R91) -/

/-- One round of the closure: the names whose parent is in `ns`. -/
def childrenOf (roll : Tab RollEntry) (ns : List Nat) : List Nat :=
  (roll.filter fun e => ns.contains e.2.parent && !ns.contains e.1).map Prod.fst

/-- The closure of `ns` under children, with fuel. -/
def subtreeGo (roll : Tab RollEntry) : Nat → List Nat → List Nat
  | 0, ns => ns
  | fuel + 1, ns => match childrenOf roll ns with
    | [] => ns
    | cs => subtreeGo roll fuel (ns ++ cs)

/-- The subtree rooted at `a`, through parent links (R91). -/
def State.subtree (s : State) (a : Nat) : List Nat := subtreeGo s.roll s.roll.length [a]

/-- Whether a thread is in a handler: `c.tcause`.IN (R361). -/
def Thread.inHandler (t : Thread) : Bool := t.tcause.getLsbD 15
/-- The same at the end of cycle `now`: a bundle's change of IN takes effect at the end of its seventh cycle (R222, R363). -/
def Thread.inHandlerAt (t : Thread) (now : Nat) : Bool := if now < t.inTill then t.inWas else t.inHandler

/-! ## Bounces (R80) and the end of a thread (R298) -/

/-- Sends a bounce back to the sender of `r`: 1 BUSY, 2 GONE, 3 SELECTOR. -/
def State.bounceStore (s : State) (r : RStore) (reason : Nat) : State :=
  ({ s with bounces := s.bounces ++ [{ id := s.nextId, store := r, reason := reason }] } : State).fresh

/-- The thread that a selector names (R304). -/
def selThread (x : Word) : Nat := bitsOf 13 8 x.toNat
/-- The register that a selector names. -/
def selReg (x : Word) : Nat := bitsOf 6 0 x.toNat

/-- Whether an earlier arrival of the pair of `r` waits in the buffer `arr` (R82). -/
def heldBack (arr : List RStore) (r : RStore) : Bool :=
  arr.any fun x => x.sender == r.sender && x.sthread == r.sthread && decide (x.seq < r.seq)

/-- The content that an arrival meets in a scalar register: the old one while a bundle's write is under way (R224). -/
def Thread.regAt (t : Thread) (now r : Nat) : Reg :=
  if r = 0 then {}
  else match t.oldRegs.find? fun o => decide (o.1 = r ∧ now < o.2.1) with
    | some o => o.2.2
    | none => t.reg r
/-- The content that an arrival meets in a run register. -/
def Thread.vregAt (t : Thread) (now r : Nat) : VCell :=
  match t.oldRuns.find? fun o => decide (o.1 = r ∧ now < o.2.1) with
    | some o => o.2.2
    | none => t.vreg r

/-- The thread with the content that arrivals and mapped accesses meet replaced: the old content under a write that is
under way, else the register itself. -/
def Thread.putAt (t : Thread) (now r : Nat) (c : Reg) : Thread :=
  if t.oldRegs.any fun o => decide (o.1 = r ∧ now < o.2.1) then
    { t with oldRegs := t.oldRegs.map fun o => if o.1 = r ∧ now < o.2.1 then (o.1, o.2.1, c) else o }
  else t.setReg r c
/-- The same for a run register. -/
def Thread.putVAt (t : Thread) (now r : Nat) (c : VCell) : Thread :=
  if t.oldRuns.any fun o => decide (o.1 = r ∧ now < o.2.1) then
    { t with oldRuns := t.oldRuns.map fun o => if o.1 = r ∧ now < o.2.1 then (o.1, o.2.1, c) else o }
  else t.setVReg r c

/-- Whether a remote store finds its register empty and unmarked (R78). -/
def Thread.accepts (t : Thread) (now : Nat) (r : RStore) : Bool :=
  if r.kind then (let c := t.vregAt now (selReg r.selector); !c.full && !c.mark)
  else (let c := t.regAt now (selReg r.selector); !c.full && !c.mark)

/-- The thread, on core `c`, with a remote store's value in its register, which becomes full (R74); what its release covers waits there for
the first read (R81, R157). -/
def Thread.receive (t : Thread) (now c : Nat) (r : RStore) : Thread :=
  match r.run with
  | some x => t.putVAt now (selReg r.selector) { run := x, acq := takes .pod c r.carry }
  | none => t.putAt now (selReg r.selector) { val := r.val, acq := takes .pod c r.carry }

/-- The state with the request of every dropped access withdrawn from the directory (R115). -/
def State.dropRequests (s : State) (ids : List Nat) : State :=
  if s.dir.all (fun e => e.2.busy.all (fun b => !ids.contains b) && e.2.queue.all fun q => !ids.contains q.2.2) then s
  else { s with dir := s.dir.filterMap fun e =>
    let d : DirLine := { e.2 with busy := e.2.busy.filter (fun b => !ids.contains b), queue := e.2.queue.filter fun q => !ids.contains q.2.2 }
    if d = {} then none else some (e.1, d) }

/-- A posted trap of thread `t` of group `g` (R135, R364), with the access that failed. -/
def State.postFault (s : State) (g t k : Nat) (x : Word) (acc : Option (Nat × AccessType)) : State :=
  s.onThread g t fun th => if th.exited || th.inCancel then th
    else { th with posted := th.posted ++ [{ cause := k, tval := x, access := acc }] }

/-- A posted trap that no access raises. -/
def State.postTrap (s : State) (g t k : Nat) (x : Word) : State := s.postFault g t k x none

/-- The cycle at whose end a change made now takes effect on core `c`: the issuing cycle, or the last cycle whose turn the core
has had (R224). -/
def State.endCycle (s : State) (c : Nat) : Nat := if s.iss.live ∨ c < s.turnPtr then s.cycle else s.cycle - 1

/-- Whether data may still return to core `c` in this cycle: a return and an arrival that reach the core in one cycle are applied return first
(R224). -/
def State.mayReturn (s : State) (c : Nat) : Bool := (s.core c).arrived != s.endCycle c + 1

/-- One arrival of a buffer takes effect: the earliest that R82 does not hold back and whose register accepts it. -/
def State.drainOne (s : State) (g : Nat) : Option State :=
  let gr := s.group g
  let now := s.endCycle gr.core
  let ok := gr.arr.find? fun r =>
    let th := s.thread g (selThread r.selector)
    !heldBack gr.arr r && !th.exited && th.accepts now r
  match ok with
  | none => none
  | some r =>
    let s := s.onGroup g fun gr => { gr with arr := gr.arr.filter (·.id != r.id) }
    let s := s.onCore gr.core fun c => { c with rrecv := c.rrecv + 1#64 }
    some (s.onThread g (selThread r.selector) fun th => th.receive now gr.core r)

/-- The register that an arrival names is full, as arrivals meet it. -/
def Thread.meetsFull (t : Thread) (now : Nat) (r : RStore) : Bool :=
  if r.kind then (t.vregAt now (selReg r.selector)).full else (t.regAt now (selReg r.selector)).full

/-- The arrivals of a buffer that R82 has released and that find their registers full: in a deterministic group, DETERM (R84). -/
def State.tryArrivals (s : State) (g : Nat) : State :=
  let gr := s.group g
  let new := gr.arr.filter fun r => !r.tried && !heldBack gr.arr r
  if new.isEmpty then s
  else
    let s := s.onGroup g fun gr => { gr with arr := gr.arr.map fun r => if new.any (·.id == r.id) then { r with tried := true } else r }
    new.foldl (fun s r =>
      let t := selThread r.selector
      if gr.task.det && (s.thread g t).meetsFull (s.endCycle gr.core) r then s.postTrap g t Cause.determ r.selector else s) s

/-- Arrivals of group `g` take effect as long as one can, with fuel (R78, R82). -/
def State.drainGo : Nat → State → Nat → State
  | 0, s, _ => s
  | fuel + 1, s, g => match s.drainOne g with
    | none => s
    | some s' => State.drainGo fuel s' g

/-- The waiting arrivals of group `g` take effect where their registers accept them; those that R82 releases meet their registers. -/
def State.drain (s : State) (g : Nat) : State := (s.drainGo (s.group g).arr.length g).tryArrivals g

/-- Arrivals for an exited thread bounce with reason GONE, in their order of arrival; those they held back follow (R298). -/
def State.bounceArrivals (s : State) (g t : Nat) : State :=
  let gone := (s.group g).arr.filter fun r => selThread r.selector == t
  let s := s.onGroup g fun gr => { gr with arr := gr.arr.filter fun r => selThread r.selector != t }
  (gone.foldl (fun s r => s.bounceStore r 2) s).drain g

/-- Ends thread `t` of group `g`: its slot is free, its pending loads and world loads are withdrawn with their wait edges, its
waiting arrivals bounce (R85, R298). -/
def State.endThread (s : State) (g t : Nat) : State :=
  let s := s.onThread g t fun th =>
    { th with exited := true, wait := none, posted := [], cancelDue := false, loads := [], halted := false }
  let mine (w : WorldOp) : Bool := w.group == g && w.thread == t && (match w.kind with | .wld _ _ _ => true | _ => false)
  let dead := (s.worldOps.filter mine).map (·.id)
  let gone (a : Access) : Bool := a.group == g && a.thread == t && (match a.kind with
    | .load | .value _ | .wstat _ _ _ | .wclock _ => true | _ => false)
  let s := s.dropRequests ((s.acc.filter gone).map (·.id))
  let s := { s with
    acc := (s.acc.filter fun a => !gone a).map fun (a : Access) => if a.group == g && a.thread == t then { a with dest := .none } else a
    walks := s.walks.filter fun w => !(w.group == g && w.thread == t)
    worldOps := s.worldOps.filter fun w => !mine w
    edges := s.edges.filter fun e => !dead.contains e.id }
  s.bounceArrivals g t

/-- Forces a thread out of its cancel handler, or out at once (R92). -/
def State.forceOut (s : State) (g t : Nat) : State := s.endThread g t

/-! ## Marking (R91) -/

/-- The threads of a marked group that stands on a core: each takes `CANCEL` at its next turn, or is forced out at once when it is in a
handler (R362, R364). -/
def State.cancelThreads (s : State) (n : Nat) : State :=
  (List.range (s.group n).threads.length).foldl (fun s t =>
    let th := s.thread n t
    if th.exited then s
    else if th.inHandlerAt (s.endCycle (s.group n).core) then s.forceOut n t
    else s.onThread n t fun th => { th with cancelDue := true }) s

/-- Marks one group once: the threads of a resident one are cancelled; a queued or saved group leaves the task queue; one that migrates
completes its migration first (R91). -/
def State.markOne (s : State) (n : Nat) : State :=
  match Tab.find n s.roll with
  | none => s
  | some e =>
    if e.marked then s
    else
      let s := s.onRoll n fun e => { e with marked := true }
      match e.state with
      | .resident => s.cancelThreads n
      | .migrating false | .saved => s.onPart e.part fun p =>
          { p with tasks := p.tasks.filter (·.name != n), pushes := p.pushes.filter (·.name != n) }
      | _ => s

/-- Group `n` is of the subtree of `a`, which is being marked (R91, R300). -/
def RollEntry.under (a : Nat) (e : RollEntry) : RollEntry := { e with roots := a :: e.roots.filter (· != a) }

/-- Marks the subtree rooted at `a` (R91). -/
def State.markTree (s : State) (a : Nat) : State := (s.subtree a).foldl (fun s n => (s.onRoll n (RollEntry.under a)).markOne n) s

/-! ## Taking a trap, and returning from one (R362, R363) -/

/-- `c.tcause` after the entry of a trap: IN 1, PM the current mode, CAUSE k (R362). -/
def tcauseOf (monitor : Bool) (k : Nat) : Word := BitVec.ofNat 64 (2 ^ 15 + bitNat monitor * 2 ^ 14 + k)

/-- The vector of R362: the thread's own, or the partition's monitor vector with M = 1; `none` when both addresses are 0. -/
def trapVector (t : Thread) (mvec : Word) : Option (Word × Bool) :=
  let addr (v : Word) : Word := v &&& ~~~3#64
  if addr t.tvec ≠ 0#64 then some (addr t.tvec, t.tvec.getLsbD 0)
  else if addr mvec ≠ 0#64 then some (addr mvec, true)
  else none

/-- The thread without its wait: the register that a waiting `JOIN` holds is full again with its old value (R299). -/
def Thread.unwait (t : Thread) : Thread :=
  match t.wait with
  | some (.join _ d) => { t.setReg d.toNat { t.reg d.toNat with full := true, mark := false } with wait := none }
  | _ => { t with wait := none }

/-- The thread as it enters a handler at `vec` for cause `k`, value `x`, resume address `e` (R362). -/
def Thread.enter (t : Thread) (k : Nat) (x e : Word) (vec : Word × Bool) : Thread :=
  { t.unwait with epc := e, tval := x, tcause := tcauseOf t.monitor k, inTill := 0, monitor := vec.2, pc := vec.1 }

/-- The ACC field of a record that concerns no access. -/
def noAccess : AccessType := { user := false }

/-- A record about thread `t` of group `g` and the access that failed; without one, no rule gives its ADDR (R368). -/
def State.accessRecord (s : State) (kind cause g t : Nat) (acc : Option (Nat × AccessType)) : State × FaultRec :=
  match acc with
  | some (a, ty) => (s, s.threadRecord kind cause ty a g t)
  | none => let (v, s) := s.freeVal; (s, s.threadRecord kind cause noAccess v.toNat g t)

/-- A record that concerns no thread in a slot: no rule gives its CORE, SLOT, THREAD and PC, and for kind 3 its ADDR (R368). -/
def State.looseRecord (s : State) (kind cause name part detail : Nat) : State × FaultRec :=
  let v := s.freeVal.1.toNat
  let w := s.freeVal.2.freeVal.1.toNat
  let x := s.freeVal.2.freeVal.2.freeVal.1.toNat
  (s.freeVal.2.freeVal.2.freeVal.2,
    { id := 0, kind := kind, cause := cause, type := noAccess, addr := if kind = 3 then x else 0, name := name, part := part
      core := v % 2 ^ 13, slot := v / 2 ^ 13 % 64, thread := v / 2 ^ 19 % 64, queue := 0, pc := w, detail := detail })

/-- fatal(k) of R362: the thread is forced out, its group cancelled with status 0xC000_0000 or'd with k, and a record of
kind 3 posted. -/
def State.fatal (s : State) (g t k : Nat) (acc : Option (Nat × AccessType)) : State :=
  let (s, r) := s.accessRecord 3 k g t acc
  let s := s.queueFault (dieOfCore (s.group g).core) r
  let s := s.endThread g t
  (s.onRoll g fun e => { e with forced := BitVec.ofNat 32 (0xC0000000 + k) }).markTree g

/-- Enters the trap of cause `k`, value `x`, resume address `e`, for thread `t` of group `g`, which is not in a handler or for
which a trap inside one is fatal (R362); `acc` is the access that failed. -/
def State.deliver (s : State) (g t k : Nat) (x e : Word) (acc : Option (Nat × AccessType)) : State :=
  let th := s.thread g t
  if th.inHandler then s.fatal g t k acc
  else match trapVector th (s.partn (s.group g).part).mvec with
    | none => s.fatal g t k acc
    | some v => s.onThread g t fun th => th.enter k x e v

/-- A precise trap of the issuing bundle: neither word has had an effect, and `c.epc` names the bundle (R206, R362). -/
def State.takeTrap (s : State) (k : Nat) (x : Word) : State :=
  let s := { s with
    cur := { s.pre with pc := s.iss.pc }
    iss := { s.iss with ended := true, trapped := some (k, x) } }
  s.deliver s.iss.group s.iss.thread k x s.iss.pc s.iss.touched

/-- The outcome of a precise trap. -/
def trapOut (s : State) (k : Nat) (x : Word) : Out := .next (s.takeTrap k x)

/-- The state that names the access of the issuing bundle that failed. -/
def State.touch (s : State) (a : Nat) (ty : AccessType) : State := { s with iss := { s.iss with touched := some (a, ty) } }

/-- The value that a precise trap carries when its rule names none: the word that raised it (R414). -/
def State.wordVal (s : State) : Word := s.wordInHand.setWidth 64

/-- Begins a wait: the bundle has no effect and is issued again when the wait ends (R71). -/
def State.beginWait (s : State) (w : Wait) : State :=
  { s with
    cur := { s.pre with pc := s.iss.pc, wait := some w }
    iss := { s.iss with ended := true } }

/-- The outcome of a wait. In a cancel handler a wait that is not satisfied in the same turn forces the thread out (R92). -/
def waitOut (s : State) (w : Wait) : Out :=
  if s.pre.inCancel then .next (({ s with iss := { s.iss with ended := true } } : State).forceOut s.iss.group s.iss.thread)
  else .next (s.beginWait w)

/-- `CANCEL` is taken (R362, R92): into the handler at `c.tvec`, or out at once. -/
def State.takeCancel (s : State) (g t : Nat) : State :=
  let th := s.thread g t
  if th.inHandler || (th.tvec &&& ~~~3#64) = 0#64 then s.forceOut g t
  else s.onThread g t fun th =>
    { th.enter Cause.cancel 0#64 th.pc (th.tvec &&& ~~~3#64, th.tvec.getLsbD 0) with
      cancelDue := false, inCancel := true, cancelBundles := 0, posted := [] }

/-- The return from a handler by a bundle that issues at `now` (R363): the pc, the mode and IN. -/
def Thread.leaveHandler (t : Thread) (now : Nat) : Thread :=
  { t with pc := t.epc, monitor := t.tcause.getLsbD 14, tcause := t.tcause &&& ~~~(2 ^ 15 : BitVec 64), inTill := now + 7, inWas := t.inHandler }

/-! ## The checks of every instruction -/

/-- The control registers that only a monitor may write (R220). -/
def monitorCsr (n : Nat) : Bool := (0x020 ≤ n && n ≤ 0x02F) || (0x030 ≤ n && n ≤ 0x032) || n == 0x054

/-- Whether an instruction is privileged by its word alone: `HALT`, and a write of an "R; W monitor" register (R210, R220). -/
def privileged : Instr → Bool
  | .halt => true
  | .csrw _ c => monitorCsr c.toNat
  | _ => false

/-- The first register that passes the thread's limits (R207). DESIGN CHOICE (assumption 92): of several, scalar fields in their order come
before run registers. -/
def limitBroken (u : RegUse) (t : Thread) : Option Nat :=
  match u.fields.find? fun r => decide (t.regs.length ≤ r) with
  | some r => some r
  | none => u.vfields.find? fun r => decide (t.vregs.length ≤ r)

/-- The predicates that world loads in flight will write (R141). DESIGN CHOICE (assumption 91): p0 too is held where a load names it. -/
def State.loadPreds (s : State) : List Nat :=
  s.worldOps.filterMap fun w => if s.pre.loads.contains w.id then
    (match w.kind with | .wld _ _ pd => some pd.toNat | _ => none) else none

/-- The first wait that holds an instruction: an empty register that it reads or writes, or a marked one that it empties
(R70, R77, R302); a predicate or `c.wstat` held by a world load (R141). -/
def regWait (u : RegUse) (s : State) : Option Wait :=
  let t := s.pre
  match u.reads.find? fun r => !(t.reg r).full with
  | some r => some (.scalar (BitVec.ofNat 7 r))
  | none =>
  match u.vreads.find? fun r => !(t.vreg r).full with
  | some r => some (.run (BitVec.ofNat 4 r))
  | none =>
  match ((u.writes ++ u.hidden).filter fun r => !(t.reg r).full) ++ u.empties.filter fun r => (t.reg r).mark with
  | r :: _ => some (.scalar (BitVec.ofNat 7 r))
  | [] =>
  match ((u.vwrites).filter fun r => !(t.vreg r).full) ++ u.vempties.filter fun r => (t.vreg r).mark with
  | r :: _ => some (.run (BitVec.ofNat 4 r))
  | [] =>
    if t.loads ≠ [] ∧ (u.wstat ∨ (u.preads ++ u.pwrites).any (s.loadPreds.contains ·)) then some .world else none

/-- The first poisoned register that an instruction reads, and the line whose data it holds (R242). -/
def poisonedReg (u : RegUse) (t : Thread) : Option (Nat × Nat) :=
  match u.reads.findSome? fun r => (t.reg r).poison.map fun l => (r, l) with
  | some x => some x
  | none => u.vreads.findSome? fun r => (t.vreg r).poison.map fun l => (r, l)

/-- What the shared checks decide. -/
inductive Verdict where
  | pass
  | trap (cause : Nat) (val : Word)
  | wait (w : Wait)
  deriving DecidableEq, Repr

/-- ILLEGAL, PRIV and REGLIMIT, in the order of R214. -/
def staticCheck (i : Instr) (s : State) : Verdict :=
  if i.illFormed.isSome then .trap Cause.illegal s.wordVal
  else if privileged i && !s.pre.monitor then .trap Cause.priv s.wordVal
  else match limitBroken (regUse i) s.pre with
    | some r => .trap Cause.reglimit (BitVec.ofNat 64 r)
    | none => .pass

/-- The waits and POISON, after the static checks. -/
def dynamicCheck (i : Instr) (s : State) : Verdict :=
  match regWait (regUse i) s with
  | some w => .wait w
  | none => match poisonedReg (regUse i) s.pre with
    | some r => .trap Cause.poison (BitVec.ofNat 64 r.1)
    | none => .pass

/-- The shared checks of an instruction. -/
def checkInstr (i : Instr) (s : State) : Verdict :=
  match staticCheck i s with
  | .pass => dynamicCheck i s
  | v => v

/-- POISON of the issuing bundle, with value `x` (R242): a machine-check record with DETAIL `detail` is posted first, and the thread
waits for it (R367, R379). Inside a handler the trap is fatal at once (R364). -/
def poisonOut (s : State) (detail : Nat) (x : Word) (acc : Option (Nat × AccessType)) : Out :=
  let (s, r) := s.accessRecord 4 Cause.poison s.iss.group s.iss.thread acc
  let id := s.nextId
  let trap : FaultTarget := .trap s.iss.group s.iss.thread Cause.poison x acc
  if s.pre.inHandler then trapOut (s.queueFault (dieOfCore s.iss.core) { r with detail := detail }) Cause.poison x
  else waitOut (s.queueFault (dieOfCore s.iss.core) { r with detail := detail, target := trap }) (.post id)

/-- Runs `k` when the shared checks of `i` pass; else takes the trap or the wait that they decide. -/
def guarded (i : Instr) (s : State) (k : State → Out) : Out :=
  match checkInstr i s with
  | .pass => k s
  | .trap c x => if c = Cause.poison then poisonOut s (((poisonedReg (regUse i) s.pre).map (·.2)).getD 0) x none else trapOut s c x
  | .wait w => waitOut s w

/-- A register-to-register meaning: `f` of the state that passed the checks. -/
def effect (i : Instr) (s : State) (f : State → State) : Out := guarded i s fun s => .next (f s)

end Sys2Proof.Machine
end

