-- ==== Sys2Proof/Machine/Translate.lean ====
section
/-! DEFINITION. Addresses: the page-table walk, the access check, branches, the core-local window, and range locks
(spec 04 R97-R104, R122-R125; 03 R88, R89; 06 R167). -/

namespace Sys2Proof.Machine

/-! ## The walk (R98-R100) -/

/-- Whether a leaf is well formed at its page size (R100). -/
def leafFormed (s : State) (size off home cc : Nat) (world : Bool) : Bool :=
  decide (off % size = 0) && (decide (home < 24) || home == 31) && (home == 31 || decide (off < Config.dieBytes))
    && (cc != 3 || home == 31) && !(world && s.firm.record.noWorld.contains home)

/-- The leaf of an entry that maps a page of `size` bytes, when it is well formed (R99). -/
def leafOf (s : State) (size e : Nat) : Option Leaf :=
  let off := bitsOf 51 16 e * 65536
  let home := bitsOf 15 11 e
  let cc := bitsOf 9 8 e
  if leafFormed s size off home cc (bitOf 7 e) then
    some { key := bitsOf 63 56 e, host := home == 31, base := if home = 31 then off else dieOffset home off
           cc := cc, world := bitOf 7 e, cow := bitOf 6 e, user := bitOf 5 e, exec := bitOf 4 e, store := bitOf 3 e
           load := bitOf 2 e }
  else none

/-- An entry of a table at a physical base. -/
def tableEntry (s : State) (host : Bool) (base i : Nat) : Nat := ofBytesLE (s.readPhys host 0 (base + 8 * i) 8)

/-- The table that a non-leaf entry names: host memory or a module offset; none when HOME is malformed. -/
def nextTable (e : Nat) : Option (Bool × Nat) :=
  let off := bitsOf 51 16 e * 65536
  let home := bitsOf 15 11 e
  if home = 31 then some (true, off) else if home < 24 then some (false, dieOffset home off) else none

/-- The sizes of a page that a leaf at levels 2, 1 and 0 maps, with the address bits that index the level (R98). -/
def walkLevels : List (Nat × Nat × Nat) := [(38, 30, 2 ^ 30), (29, 21, 2 ^ 21), (20, 16, 2 ^ 16)]

/-- The walk below the root table. -/
def tableWalk (s : State) (va : Nat) : List (Nat × Nat × Nat) → Bool → Nat → Option TlbEntry
  | [], _, _ => none
  | (hi, lo, size) :: ls, host, base =>
    let e := tableEntry s host base (bitsOf hi lo va)
    if !bitOf 0 e then none
    else if bitOf 1 e || ls.isEmpty then (leafOf s size e).map fun l => ⟨va / size * size, size, l⟩
    else match nextTable e with
      | none => none
      | some (h, b) => tableWalk s va ls h b

/-- The walk from a partition's root (R98); `none` is the fate `PAGE` of R100. -/
def walkTable (s : State) (p va : Nat) : Option TlbEntry :=
  let root := (s.partn p).root.toNat
  let e := tableEntry s false (dieOffset (bitsOf 44 40 root) (bitsOf 39 0 root)) (bitsOf 55 39 va)
  if !bitOf 0 e || bitOf 1 e then none
  else match nextTable e with
    | none => none
    | some (h, b) => tableWalk s va walkLevels h b

/-- A translation that a TLB holds. -/
def tlbFind (va : Nat) (es : List TlbEntry) : Option TlbEntry := es.find? fun e => decide (e.va ≤ va ∧ va < e.va + e.size)

/-- The translation that core `c` finds: in its own TLB, else in its cluster's (R241). -/
def State.lookup (s : State) (c va : Nat) : Option TlbEntry :=
  match tlbFind va (s.core c).tlb with
  | some e => some e
  | none => tlbFind va (s.cluster (clusterOf c)).tlb

/-! ## Branches (R88, R89, R314) -/

/-- The granule that a branch sees in place of the page table's: `none` where it sees the page table's own; `some none` where
the branch was dropped and the granule is of its forked range (R314). -/
def branchGo (p : Partition) (g : Nat) : Nat → Nat → Option (Option Leaf)
  | 0, _ => none
  | fuel + 1, b =>
    if b = 0 then (Tab.find g p.trunk).map some
    else match Tab.find b p.branches with
      | none => (Tab.find g p.trunk).map some
      | some br => match Tab.find g br.granules with
        | some l => if br.dropped then some none else some (some l)
        | none => branchGo p g fuel br.parent

/-- The branch whose view branch `b` has of granule `g`: the first of its chain whose forked range holds it, else the trunk (R312). -/
def Partition.owner (p : Partition) (g : Nat) : Nat → Nat → Nat
  | 0, _ => 0
  | fuel + 1, b => match Tab.find b p.branches with
    | none => 0
    | some br => if (Tab.find g br.granules).isSome then b else Partition.owner p g fuel br.parent

/-- The branch in which a write by branch `b` of partition `p` to granule `g` lands (R89, R312). -/
def State.ownerOf (s : State) (p b g : Nat) : Nat := (s.partn p).owner g ((s.partn p).branches.length + 2) b

/-- The granule of address `va` as branch `b` of partition `p` sees it. -/
def State.branchLeaf (s : State) (p b va : Nat) : Option (Option Leaf) :=
  let pt := s.partn p
  branchGo pt (va / Config.granule) (pt.branches.length + 2) b

/-- What translation decides for one address. -/
inductive Trans where
  /-- The leaf and the physical address. -/
  | ok (leaf : Leaf) (addr : Nat)
  | miss
  | trap (cause : Nat) (named : Bool)
  /-- A shared granule must be copied first: its leaf, with the granule's own base. -/
  | cow (leaf : Leaf)
  deriving DecidableEq, Repr

/-- The rights of R100 on a leaf; `true` when the access may go on. -/
def rightsOk (l : Leaf) (ty : AccessType) : Bool :=
  !(ty.user && !l.user) && !(ty.load && !ty.atomic && !l.load) && !((ty.store || ty.atomic) && !l.store)
    && !(ty.fetch && !l.exec) && (l.world == ty.world)

/-- A TLB's leaf under a branch: where the granule lies, and whether it is shared. -/
def underBranch (e : TlbEntry) (va : Nat) (o : Option Leaf) : Leaf × Nat :=
  match o with
  | none => (e.leaf, e.leaf.base + (va - e.va))
  | some g => ({ e.leaf with host := g.host, base := g.base, cc := g.cc, cow := g.cow, key := g.key }, g.base + va % Config.granule)

/-- The leaf that an address finds: a thread's access looks into the TLBs of core `c`; the device's own (`direct`) walks the
tables. -/
def State.look (s : State) (direct : Bool) (c p va : Nat) : Option TlbEntry := if direct then walkTable s p va else s.lookup c va

/-- Translation of an address for core `c`, partition `p` and branch `b` (R97, R100, R314). -/
def State.translate (s : State) (direct : Bool) (c p b va : Nat) (ty : AccessType) : Trans :=
  match s.look direct c p va with
  | none => .miss
  | some e =>
    if !rightsOk e.leaf ty then .trap Cause.prot false
    else match s.branchLeaf p b va with
      | some none => .trap Cause.prot true
      | o =>
        let r := underBranch e va (o.getD none)
        if (ty.store || ty.atomic) && r.1.cow then .cow { r.1 with base := r.2 - va % Config.granule } else .ok r.1 r.2

/-! ## Pieces (R167) -/

/-- The length of the next piece of an access at `a` with `n` bytes left, blocks of `blk` bytes, split at 8-byte boundaries
unless naturally aligned. -/
def pieceLen (a n blk : Nat) (aligned : Bool) : Nat :=
  let k := min n (blk - a % blk)
  if aligned then k else min k (8 - a % 8)

/-- The offsets and lengths of an access's pieces, with fuel. -/
def splitGo (blk : Nat) (aligned : Bool) : Nat → Nat → Nat → List (Nat × Nat)
  | 0, _, _ => []
  | fuel + 1, a, n =>
    if n = 0 then []
    else
      let k := pieceLen a n blk aligned
      (a, k) :: splitGo blk aligned fuel (a + k) (n - k)

/-- Whether `n` bytes at `a` are naturally aligned: only a power of two of bytes can be (DESIGN CHOICE, assumption 71). -/
def natural (a n : Nat) : Bool := n != 0 && n &&& (n - 1) == 0 && a % n == 0

/-- The parts of `n` bytes at `va` that lie in one granule each: address, offset in the access, length. -/
def granuleParts (va n : Nat) : List (Nat × Nat × Nat) :=
  (List.range (n / Config.granule + 2)).filterMap fun i =>
    let lo := max va ((va / Config.granule + i) * Config.granule)
    let hi := min (va + n) ((va / Config.granule + i + 1) * Config.granule)
    if lo < hi then some (lo, lo - va, hi - lo) else none

/-- What the device decides for a range of virtual memory. -/
inductive Plan where
  | ok (pieces : List Piece)
  | trap (cause : Nat) (named : Bool) (va : Nat)
  | miss (va : Nat)
  | cow (leaf : Leaf) (va : Nat)
  deriving DecidableEq, Repr

/-- The pieces of one granule part: blocks of 64 bytes of module memory and 8 of host memory; a 16-byte form is whole. -/
def partPieces (l : Leaf) (va addr off len : Nat) (aligned quad : Bool) : List Piece :=
  let blk := if quad then 16 else if l.host then 8 else 64
  (splitGo blk (aligned || quad) len addr len).map fun p =>
    { host := l.host, addr := p.1, key := l.key, cc := l.cc, off := off + (p.1 - addr), len := p.2, va := va + (p.1 - addr) }

/-- A piece with the page of the leaf that translated it (R366). -/
def Piece.onPage (e : Option TlbEntry) (p : Piece) : Piece :=
  match e with
  | some e => { p with page := e.va, pageSize := e.size }
  | none => p

/-- Whether the pages of addresses differ in CC, or only some are in host memory (R169). -/
def State.unlike (s : State) (direct : Bool) (c p : Nat) (vas : List Nat) : Bool :=
  let ls := vas.filterMap fun va => (s.look direct c p va).map fun e => (e.leaf.cc, e.leaf.host)
  ls.any fun x => some x != ls.head?

/-- The plan of an access of `n` bytes at virtual address `va` (R97, R100, R167, R169): the lowest fault decides; pages that
differ in CC, or of which one is in host memory, trap `ALIGN` unless `mixed`. -/
def State.plan (s : State) (direct : Bool) (c p b va n : Nat) (ty : AccessType) (quad mixed : Bool) : Plan :=
  if va / 2 ^ 56 % 256 ≠ 0 then .trap Cause.prot true va
  else
    let parts := granuleParts va n
    let ts := parts.map fun x => (x, if x.1 / 2 ^ 56 = va / 2 ^ 56 then s.translate direct c p b x.1 ty else .trap Cause.prot true)
    match ts.find? fun x => (match x.2 with | .ok _ _ => false | .cow _ => false | _ => true) with
    | some (x, .trap k nm) => .trap k nm x.1
    | some (x, _) => .miss x.1
    | none =>
      if !mixed && s.unlike direct c p (parts.map (·.1)) then .trap Cause.align true va
      else match ts.find? fun x => (match x.2 with | .cow _ => true | _ => false) with
        | some (x, .cow l) => .cow l x.1
        | _ => .ok (ts.flatMap fun x => match x.2 with
          | .ok l a => (partPieces l x.1.1 a x.1.2.1 x.1.2.2 (natural va n) quad).map (Piece.onPage (s.look direct c p x.1.1))
          | _ => [])

/-! ## The core-local window (R102, R103) -/

/-- What a window offset reaches. -/
inductive WinRef where
  | scratch (off : Nat)
  | sreg (t i : Nat)
  | slot (t j k part : Nat)
  | vhdr (t j : Nat)
  | sem (n : Nat)
  deriving DecidableEq, Repr

/-- What an access of `n` bytes at window offset `off` reaches, or its fault: the limit first, then size and alignment. -/
def winRef (g : Group) (off n : Nat) : Except Nat WinRef :=
  if off < 0x1000000 then
    (if off + n ≤ 1024 * g.task.scratch then .ok (.scratch off) else .error Cause.prot)
  else if 0x3000000 ≤ off then
    let i := (off - 0x3000000) / 4
    if g.task.sems ≤ i then .error Cause.reglimit
    else if n = 4 ∧ off % 4 = 0 then .ok (.sem i) else .error Cause.prot
  else
    let r := off % 65536
    let base := if off < 0x2000000 then 0x1000000 else if off < 0x2800000 then 0x2000000 else 0x2800000
    let t := (off - base) / 65536
    if g.threads.length ≤ t then .error Cause.reglimit
    else if off < 0x2000000 then
      (if g.task.sregs ≤ r / 8 then .error Cause.reglimit
       else if n = 8 ∧ r % 8 = 0 then .ok (.sreg t (r / 8)) else .error Cause.prot)
    else if off < 0x2800000 then
      (if g.task.vregs ≤ r / 1024 then .error Cause.reglimit
       else if r % 16 = 0 ∧ n = 8 then .ok (.slot t (r / 1024) (r / 16 % 64) 0)
       else if r % 16 = 8 ∧ n = 2 then .ok (.slot t (r / 1024) (r / 16 % 64) 1)
       else if r % 16 = 0 ∧ n = 16 then .ok (.slot t (r / 1024) (r / 16 % 64) 2)
       else .error Cause.prot)
    else
      (if g.task.vregs ≤ r / 8 then .error Cause.reglimit
       else if n = 8 ∧ r % 8 = 0 then .ok (.vhdr t (r / 8)) else .error Cause.prot)

/-- The pool address of a scratchpad byte of a group (R105, R108). -/
def poolAddr (g : Group) (off : Nat) : Nat := g.pool.scr + 1024 * g.scrBase + off

/-! ## Range locks (R122-R125) -/

/-- The accepted commands of a cluster, core by core and queue by queue. -/
def State.commandsOf (s : State) (k : Nat) : List (Nat × Nat × Cmd) :=
  (List.range Config.coresPerCluster).flatMap fun i =>
    let c := Config.coresPerCluster * k + i
    match Tab.find c s.cores with
    | none => []
    | some co => ((List.range co.queues.length).zip co.queues).flatMap fun q => q.2.map fun m => (c, q.1, m)

/-- The range-lock entries in use in a cluster. -/
def State.locksUsed (s : State) (k : Nat) : Nat := ((s.commandsOf k).filter fun x => x.2.2.lock.isSome).length

/-- The ranges that a command still locks for writing: the range of a dense destination, the
first of its entry, narrows as WP rises (R123). -/
def Cmd.writeRanges (m : Cmd) (l : LockEntry) : List Range :=
  match l.dense with
  | some (_, lo) => if m.started then (match l.writes with
      | r :: rs => { r with lo := max r.lo ((lo + m.wp) / 128 * 128) } :: rs
      | [] => []) else l.writes
  | none => l.writes

/-- Whether two ranges meet. -/
def Range.meets (a b : Range) : Bool := a.pool == b.pool && decide (a.lo < b.hi) && decide (b.lo < a.hi)

/-- The first address of `r` that a live entry of cluster `k` forbids: write locks for a load, any lock for a store (R125). -/
def State.lockHit (s : State) (k : Nat) (r : Range) (store : Bool) : Option Nat :=
  let rs := (s.commandsOf k).flatMap fun x => match x.2.2.lock with
    | none => []
    | some l => x.2.2.writeRanges l ++ (if store then l.reads else [])
  ((rs.filter fun x => r.meets x).map fun x => max r.lo x.lo).min?

end Sys2Proof.Machine
end

