-- ==== Sys2Proof/Machine/Order.lean ====
section
/-! DEFINITION. Ordering (spec 06): fences, the order that a thread keeps at one location, what a load reads, and the
semaphore updates, which are releases (09 R257, R258). -/

namespace Sys2Proof.Machine

/-! ## Completeness -/

/-- Whether an access reads: a load, or the load part of an atomic (R159, R170). -/
def AccKind.reads : AccKind → Bool
  | .load | .amo _ _ _ | .cas _ _ _ | .faadd _ _ _ _ _ | .wstat _ _ _ | .wclock _ => true
  | _ => false

/-- Whether an access writes memory. -/
def AccKind.writes : AccKind → Bool
  | .store | .amo _ _ _ | .cas _ _ _ | .faadd _ _ _ _ _ | .fork _ _ _ => true
  | _ => false

/-- Whether an access is an addition at a home slice (R247). -/
def AccKind.adds : AccKind → Bool
  | .faadd _ _ _ _ _ => true
  | _ => false

/-- Whether a scope lies within one cluster. -/
def scopeInCluster : FenceScope → Bool
  | .core | .cluster => true
  | _ => false

/-- Whether a piece is complete as the parties of a scope observe it (R160, R165). -/
def Piece.completeAt (sc : FenceScope) (p : Piece) : Bool := p.stage == .performed || (p.stage == .visible && scopeInCluster sc)

/-- Whether an access is complete at a scope: a load has bound its value, a store is seen by the scope. -/
def Access.completeAt (sc : FenceScope) (a : Access) : Bool :=
  match a.kind with
  | .value _ | .spawn _ _ _ _ _ | .pushed _ => true
  | .fork _ _ _ | .wstat _ _ _ | .wclock _ => false
  | _ => a.pieces.all (Piece.completeAt sc)

/-- Whether access `a` belongs to thread `t` of group `g`. -/
def Access.of (g t : Nat) (a : Access) : Bool := a.group == g && a.thread == t

/-- The number of thread `t` of group `g` among all threads. -/
def threadKey (g t : Nat) : Nat := g * 64 + t

/-- Who makes the writes of an access. -/
def Access.writer (a : Access) : Writer := { id := a.id, core := a.core, thread := some (threadKey a.group a.thread), seq := a.seq }

/-- Who makes the writes of a command of core `core`. -/
def Cmd.writer (m : Cmd) (core : Nat) : Writer :=
  { id := m.id, core := core, engine := true, thread := some (threadKey m.group m.thread), seq := m.seq }

/-- Who makes a posted world operation. -/
def WorldOp.writer (w : WorldOp) : Writer := { id := w.id, core := w.core, thread := some (threadKey w.group w.thread), seq := w.seq }

/-- Whether a set holds the writes of `w`. -/
def View.covers (v : View) (w : Writer) : Bool :=
  v.ids.contains w.id || w.thread.any fun k => decide (w.seq < Tab.get 0 k (if w.engine then v.cmdsTo else v.upTo))

/-- What happens before the access of a thread that stands at `n` in its program order. -/
def Thread.knownAt (th : Thread) (n : Nat) : View := ((th.knows.filter fun x => decide (x.1 ≤ n)).map (·.2)).foldl View.join {}

/-- Thread `t` of group `g` follows `v` from place `n` of its program order on. -/
def State.learn (s : State) (g t n : Nat) (v : View) : State :=
  if v = {} then s else s.onThread g t fun th => { th with knows := th.knows ++ [(n, v)] }

/-- What a release of thread `t` of group `g` at place `n` covers: what the thread did before, with its commands where `e`; the writes that
its loads before have read; and what happens before any of these (R157). -/
def State.cover (s : State) (g t n : Nat) (e : Bool) : View :=
  let th := s.thread g t
  let read := (th.reads.filter fun r => decide (r.2 < n)).map (·.1)
  let own : View := { upTo := [(threadKey g t, n)], cmdsTo := if e then [(threadKey g t, n)] else [], ids := read }
  ((s.wrote.filter fun r => read.contains r.id).map (·.before)).foldl View.join ((th.knownAt n).join own)

/-- The commands that a thread has enqueued and that are not complete. -/
def State.commandsBy (s : State) (g t : Nat) : List Cmd :=
  let ofThread (m : Cmd) : Bool := m.group == g && m.thread == t
  (s.cores.flatMap fun c => c.2.queues.flatMap fun q => q.filter ofThread) ++ ((s.group g).imgCmds.map (·.2)).filter ofThread

/-- Whether the writes of a set that are under way are complete at a scope; an addition that its core retries holds nothing back (R247). -/
def State.viewDone (s : State) (v : View) (sc : FenceScope) : Bool :=
  s.acc.all fun a => !(a.kind.writes && v.covers a.writer) || a.retried || a.completeAt sc

/-- Whether the posted world operations of a set are performed. -/
def State.viewPosted (s : State) (v : View) : Bool :=
  s.worldOps.all fun w => (match w.kind with | .wld _ _ _ => true | _ => false) || !v.covers w.writer

/-- Whether every memory access of a thread below `seq` is complete at a scope, with what a release there covers: what a remote store
waits for (R81, R157). An addition that its core retries does not count (R247). -/
def State.memDone (s : State) (g t seq : Nat) (sc : FenceScope) : Bool :=
  (s.acc.all fun a => !(a.of g t && decide (a.seq < seq)) || a.retried || a.completeAt sc) && s.viewDone (s.cover g t seq false) sc

/-- The same with the world operations: what a commit waits for (R134, R149). -/
def State.earlierDone (s : State) (g t seq : Nat) (sc : FenceScope) : Bool :=
  s.memDone g t seq sc && (s.worldOps.all fun w => !(w.group == g && w.thread == t && decide (w.seq < seq)))
    && s.viewPosted (s.cover g t seq false)

/-- Whether the accesses of a thread before a fence are complete at its scope, the reads alone for an acquire when `loads`: with its
remote stores, world operations and, in the E form, commands (R159-R161, R175, R176). -/
def State.beforeFence (s : State) (g t : Nat) (f : FenceRec) (loads : Bool) : Bool :=
  (s.acc.all fun a => !(a.of g t && decide (a.seq < f.seq) && (!loads || a.kind.reads)) || a.completeAt f.scope)
    && (s.worldOps.all fun w =>
      !(w.group == g && w.thread == t && decide (w.seq < f.seq) && (!loads || (match w.kind with | .wld _ _ _ => true | _ => false))))
    && (loads || s.rstores.all fun r => !(r.sender == g && r.sthread == t && decide (r.seq < f.seq)))
    && (!f.e || (s.commandsBy g t).all fun m => decide (f.seq ≤ m.seq))

/-- The writes that loads of a thread below `seq` have read. -/
def State.readBefore (s : State) (g t seq : Nat) : View := { ids := ((s.thread g t).reads.filter fun r => decide (r.2 < seq)).map (·.1) }

/-- Whether what a fence orders before later accesses is complete (R159): for a release with all that it covers (R157); for an acquire with
the writes that its loads have read, so that no two readers disagree on the order of two stores (R165). -/
def State.fenceMet (s : State) (g t : Nat) (f : FenceRec) : Bool :=
  f.view.isSome || (s.beforeFence g t f (f.kind == .acq) && (if f.kind = .acq then s.viewDone (s.readBefore g t f.seq) f.scope
    else s.viewDone (s.cover g t f.seq f.e) f.scope && s.viewPosted (s.cover g t f.seq f.e)))

/-- Whether the whole earlier set of a fence is complete, whatever its kind: what later commands wait for in the E form (R161). -/
def State.fenceWhole (s : State) (g t : Nat) (f : FenceRec) : Bool :=
  s.beforeFence g t f false && s.viewDone (s.cover g t f.seq f.e) f.scope && s.viewPosted (s.cover g t f.seq f.e)

/-- Whether a world load is one of thread `t`'s before `seq` that has not been classified: it may be an acquire (R149). -/
def WorldOp.holds (g t seq : Nat) (w : WorldOp) : Bool :=
  w.group == g && w.thread == t && decide (w.seq < seq) && w.result.isNone && (match w.kind with | .wld _ _ _ => true | _ => false)

/-- Whether a thread's fences and world loads let an access or another ordered operation numbered `seq` be performed (R149, R159). DESIGN
CHOICE: so a world operation on another key waits for an earlier world load that may be an acquire (assumption 30). -/
def State.fencesAllow (s : State) (g t seq : Nat) (write : Bool) : Bool :=
  ((s.thread g t).fences.all fun f => decide (seq < f.seq) || (f.kind == .rel && !write) || s.fenceMet g t f)
    && s.worldOps.all fun w => !w.holds g t seq

/-- Whether two pieces of one group's accesses share a byte. -/
def Piece.meets (p q : Piece) : Bool := p.host == q.host && p.pool == q.pool && decide (p.addr < q.addr + q.len) && decide (q.addr < p.addr + p.len)

/-- Whether the order that a thread keeps at one location lets a piece of access `a` be performed (R153): earlier accesses of
the thread to the same bytes come first, but a load may read the thread's own store before it is performed, and an addition that
its core retries holds nothing back (R247). -/
def State.locationAllows (s : State) (a : Access) (p : Piece) : Bool :=
  s.acc.all fun b => !(b.of a.group a.thread && decide (b.seq < a.seq))
    || (a.kind == .load && b.kind == .store) || (b.retried && b.kind.adds)
    || b.pieces.all fun q => !q.meets p || q.stage == .performed

/-- Whether an access must wait for a store that its thread follows or has read, and that only another cluster sees yet: the thread has left
it (R153, R158). -/
def State.leftBehind (s : State) (a : Access) (p : Piece) : Bool :=
  let th := s.thread a.group a.thread
  s.acc.any fun b => b.kind == .store && !b.of a.group a.thread && clusterOf b.core != clusterOf a.core
    && (b.pieces.any fun q => q.stage == .visible && q.meets p) && ((Tab.find b.id th.reads).isSome || (th.knownAt a.seq).covers b.writer)

/-- Whether piece `p` of access `a` may be performed. -/
def State.mayPerform (s : State) (a : Access) (p : Piece) : Bool :=
  s.fencesAllow a.group a.thread a.seq a.kind.writes && s.locationAllows a p && !s.leftBehind a p

/-! ## What a thread must see (R154, R156-R161, R165)

Changes of memory are numbered in their order. A thread must see those that happen before its loads; beyond these, those up to a number, by
how far their writer lies from its core, where a fence or a record of the device says so; and it may miss the others (R155). -/

/-- The number of the latest change of memory. -/
def State.clock (s : State) : Nat := s.nextId

/-- How far a writer's core lies from core `c`: 0 the core itself, 1 its cluster, 2 its die, 3 beyond; an engine's write lies in its
cluster (R152). -/
def Past.level (p : Past) (c : Nat) : Nat :=
  if p.by_.core = c ∧ !p.by_.engine then 0
  else if clusterOf p.by_.core = clusterOf c then 1
  else if dieOfCore p.by_.core = dieOfCore c then 2 else 3

/-- The number at which a change came to be seen by core `c`: its own cluster sees a store before the others do (R165). -/
def Past.ordFor (p : Past) (c : Nat) : Nat := if clusterOf p.by_.core = clusterOf c then p.vis else p.ord

/-- The level that a scope reaches. -/
def scopeLevel : FenceScope → Nat
  | .core => 0
  | .cluster => 1
  | .die => 2
  | _ => 3

/-- The releases that the writes `ids` follow. -/
def State.relsOf (s : State) (ids : List Nat) : List Rel := (s.wrote.filter fun r => ids.contains r.id).flatMap (·.rels)

/-- The later of two records of the numbers up to which changes must be seen. -/
def joinFloors (a b : List Nat) : List Nat := (List.range 4).map fun i => max (a.getD i 0) (b.getD i 0)

/-- Thread `t` of group `g` must see the changes up to the numbers `fl`. -/
def State.mustSee (s : State) (g t : Nat) (fl : List Nat) : State := s.onThread g t fun th => { th with floor := joinFloors th.floor fl }

/-- The number at which a change was complete at scope `sc` for core `c`. -/
def Past.doneAt (p : Past) (sc : FenceScope) (c : Nat) : Nat := if scopeInCluster sc then p.ordFor c else p.ord

/-- The change after which the accesses that a fence orders before later loads are complete: the writes that its loads have read; for a full
fence the thread's own before it; in the E form those of its commands (R159-R161, R165). -/
def State.fenceAt (s : State) (g t : Nat) (f : FenceRec) : Nat :=
  let th := s.thread g t
  let c := (s.group g).core
  let key := threadKey g t
  let before (w : Writer) : Bool := (Tab.find w.id th.reads).any (fun n => decide (n < f.seq))
    || (w.thread == some key && decide (w.seq < f.seq) && (if w.engine then f.e else f.kind == .full))
  let shown := s.acc.flatMap fun a => if scopeInCluster f.scope && before a.writer then (a.pieces.filter (·.stage == .visible)).map (·.ord) else []
  max (shown.foldl max 0) (s.past.foldl (fun m p => if before p.by_ then max m (p.doneAt f.scope c) else m) 0)

/-- Fence `f` takes effect: as an acquire it observes what its loads have read, and what a barrier has passed on for its scope; as a release it
covers what comes before it (R156, R157, R164). -/
def State.settleFence (s : State) (g t : Nat) (f : FenceRec) : State :=
  let th := s.thread g t
  let c := (s.group g).core
  let s := if f.kind = .rel then s else
    let got := ((th.barGot.filter fun b => decide (b.1 ≤ f.seq) && b.2.1 == f.scope).map (·.2.2)).foldl View.join {}
    let n := s.fenceAt g t f
    let s := (s.learn g t f.seq ((takes f.scope c (s.relsOf (s.readBefore g t f.seq).ids)).join got)).mustSee g t
      ((List.range 4).map fun i => if (if i = 3 then 1 else i + 1) ≤ scopeLevel f.scope then n else 0)
    s.onThread g t fun x => { x with barGot := x.barGot.filter fun b => !(decide (b.1 ≤ f.seq) && b.2.1 == f.scope) }
  let v := if f.kind = .acq then {} else s.cover g t f.seq f.e
  s.onThread g t fun x => { x with fences := x.fences.map fun e => if e = f then { e with view := some v } else e }

/-- The fences of thread `t` whose earlier set is complete take effect. -/
def State.settleFences (s : State) (g t : Nat) : State :=
  ((s.thread g t).fences.filter fun f => f.view.isNone).foldl (fun s f => if s.fenceMet g t f then s.settleFence g t f else s) s

/-- The releases that stand before an operation numbered `seq` of a thread on core `c` as fences (R156). -/
def Thread.fenceRels (th : Thread) (c seq : Nat) : List Rel :=
  (th.fences.filter fun f => f.kind != .acq && decide (f.seq ≤ seq)).filterMap fun f => f.view.map fun v => ⟨f.scope, c, v⟩

/-- The load of thread `t` numbered `seq` has read the writes `ids`: for what depends on it, and here for all that the thread issues from now on,
an acquire of core scope (R154, R157). -/
def State.noteReads (s : State) (g t seq : Nat) (ids : List Nat) : State :=
  if ids = [] then s
  else
    let v := takes .core (s.group g).core (s.relsOf ids)
    let s := s.onThread g t fun th =>
      { th with reads := ids.foldl (fun m i => if (Tab.find i m).any (fun n => decide (n ≤ seq)) then m else Tab.put i seq m) th.reads }
    s.learn g t (max (seq + 1) (s.thread g t).seq) v

/-! ## What a load reads -/

/-- The byte that a piece holds for physical address `x`. -/
def Piece.byteAt (p : Piece) (host : Bool) (x : Nat) : Option Byte :=
  if p.host == host && !p.pool && decide (p.addr ≤ x ∧ x < p.addr + p.len) then p.data[x - p.addr]? else none

/-- The stores that cluster `k` alone can read, in the order in which they became visible there (R165). -/
def State.visibleIn (s : State) (k : Nat) : List (Nat × Piece) :=
  s.acc.flatMap fun a => if a.kind == .store && clusterOf a.core == k
    then (a.pieces.filter (·.stage == .visible)).map fun p => (a.id, p) else []

/-- The latest of the stores of the cluster of core `c` at an address that memory does not hold yet, as change `at` has them, with its id. -/
def State.visibleByte (s : State) (c now : Nat) (host : Bool) (x : Nat) : Option (Nat × Byte) :=
  (((s.visibleIn (clusterOf c)).filter fun e => (s.acc.any fun a => a.id == e.1 && a.core == c) || decide (e.2.ord ≤ now)).foldl
    (fun (best : Option (Nat × Nat × Byte)) e => match e.2.byteAt host x with
      | none => best
      | some b => match best with
        | none => some (e.2.ord, e.1, b)
        | some (o, _, _) => if o ≤ e.2.ord then some (e.2.ord, e.1, b) else best) none).map (·.2)

/-- Whether the thread itself must read a piece of its own store, which its core `c` does not see in its cluster: it is not visible,
or was made so in a cluster that the thread has left (R153). -/
def Access.ownPiece (a : Access) (c : Nat) (p : Piece) : Bool :=
  p.stage == .pending || (p.stage == .visible && clusterOf a.core != clusterOf c)

/-- The thread's own stores below `seq`, oldest first. -/
def State.ownStores (s : State) (g t seq : Nat) : List Access :=
  s.acc.filter fun a => a.of g t && a.kind == .store && decide (a.seq < seq)

/-- The thread's own latest store below `seq` at an address that its core does not see yet, with its id. -/
def State.ownByte (s : State) (g t c seq : Nat) (host : Bool) (x : Nat) : Option (Nat × Byte) :=
  (s.ownStores g t seq).foldl (fun best a => a.pieces.foldl (fun best p => if a.ownPiece c p then
    (match p.byteAt host x with | some b => some (a.id, b) | none => best) else best) best) none

/-- The byte at an address as change `now` left it for core `c`, and the write that it comes from: `b` without the later changes, which are
listed latest first. -/
def pastByte (c now : Nat) (host : Bool) (x : Nat) : List Past → Byte → Byte × Option Nat
  | [], b => (b, none)
  | p :: ps, b =>
    if p.host = host ∧ p.addr ≤ x ∧ x < p.addr + p.bytes.length then
      (if p.ordFor c ≤ now then (b, some p.by_.id) else pastByte c now host x ps (p.bytes.getD (x - p.addr) b))
    else pastByte c now host x ps b

/-- The byte that an access of thread `t` of group `g` on core `c`, numbered `seq`, reads at a physical address under a key, as change
`now` left memory, and the write that it comes from. -/
def State.readByte (s : State) (g t c seq now : Nat) (host : Bool) (key x : Nat) : Byte × Option Nat :=
  match s.ownByte g t c seq host x with
  | some (i, b) => (b, some i)
  | none => match s.visibleByte c now host x with
    | some (i, b) => (b, some i)
    | none => pastByte c now host x s.past (if host then memByte s.hostMem x else s.hbmByte key x)

/-- The changes of memory that meet a piece. -/
def State.pastOf (s : State) (p : Piece) : List Past :=
  s.past.filter fun q => q.host == p.host && decide (q.addr < p.addr + p.len) && decide (p.addr < q.addr + q.bytes.length)

/-- The number under which a thread notes what it has read of a block of 8 bytes. -/
def blockKey (host : Bool) (x : Nat) : Nat := x / 8 * 2 + bitNat host

/-- The blocks that a piece meets. -/
def Piece.blocks (p : Piece) : List Nat := (List.range ((p.addr + p.len + 7) / 8 - p.addr / 8)).map fun i => blockKey p.host (p.addr + 8 * i)

/-- The change of memory as of which load `a` reads piece `p`: `back` changes ago, or the latest that it must see there: by its own
core or thread, under another key, before the load by a rule, or what the thread has read there before (R114, R153, R154, R158). -/
def State.asOf (s : State) (a : Access) (p : Piece) (back : Nat) : Nat :=
  let th := s.thread a.group a.thread
  let known := th.knownAt a.seq
  let must (q : Past) : Bool :=
    let l := q.level a.core
    l == 0 || q.by_.thread == some (threadKey a.group a.thread) && !q.by_.engine || known.covers q.by_
      || decide (q.ordFor a.core ≤ th.floor.getD (l - 1) 0)
      || (q.by_.engine && q.by_.core == a.core && decide (q.ordFor a.core ≤ th.floor.getD 3 0)) || (!p.host && q.key != s.key p.key)
  let seen := p.blocks.map fun k => Tab.get 0 k th.seenAt
  let shown := s.acc.flatMap fun b => if b.kind == .store && clusterOf b.core == clusterOf a.core && known.covers b.writer
    then (b.pieces.filter fun q => q.stage == .visible && q.meets p).map (·.ord) else []
  max (max (s.clock - back) a.fill) (max ((seen ++ shown).foldl max 0) ((((s.pastOf p).filter must).map fun q => q.ordFor a.core).foldl max 0))

/-! ## Mapped accesses (R104) -/

/-- What the window shows of group `g` at `n` bytes from offset `off` on: the scratchpad, or a value of a register or semaphore. -/
def State.winBytes (s : State) (g off n : Nat) : List Byte :=
  let gr := s.group g
  let now := s.endCycle gr.core
  match winRef gr off n with
  | .error _ => []
  | .ok (.scratch o) => memBytes gr.scratch o n
  | .ok (.sreg t i) => toBytesLE n (((s.thread g t).regAt now i).val).toNat
  | .ok (.slot t j k part) =>
    let sl := ((s.thread g t).vregAt now j).run.slots.getD k {}
    toBytesLE n (if part = 1 then sl.hdr.toNat else sl.payload.toNat + sl.hdr.toNat * 2 ^ 64)
  | .ok (.vhdr t j) => toBytesLE n (((s.thread g t).vregAt now j).run.hdr).toNat
  | .ok (.sem i) => toBytesLE n ((gr.sems.getD i 0#32).toNat)

/-- A slot with the bytes of a mapped store in it. -/
def putSlot (part x : Nat) (sl : VSlot) : VSlot :=
  if part = 0 then { sl with payload := BitVec.ofNat 64 x }
  else if part = 1 then { sl with hdr := BitVec.ofNat 16 x }
  else { payload := BitVec.ofNat 64 x, hdr := BitVec.ofNat 16 (x / 2 ^ 64) }

/-- A register that a mapped access names and that carries a pending-load mark. -/
def State.winMarked (s : State) (g : Nat) : WinRef → Option Wait
  | .sreg t i => if ((s.thread g t).reg i).mark then some (.mapped t i false) else none
  | .slot t j _ _ | .vhdr t j => if ((s.thread g t).vreg j).mark then some (.mapped t j true) else none
  | _ => none

/-- The bytes that a piece of an access reads, as change `now` left memory, each with the write that it comes from. -/
def State.readSrc (s : State) (a : Access) (now : Nat) (p : Piece) : List (Byte × Option Nat) :=
  (List.range p.len).map fun i => s.readByte a.group a.thread a.core a.seq now p.host p.key (p.addr + i)

/-- The bytes that a piece of an access reads, as change `now` left memory. -/
def State.readPiece (s : State) (a : Access) (now : Nat) (p : Piece) : List Byte :=
  if p.pool then s.winBytes a.group p.addr p.len else (s.readSrc a now p).map (·.1)

/-- The writes to `n` bytes at window offset `off` of group `g` of which something is recorded. -/
def State.poolWrites (s : State) (g off n : Nat) : List Nat :=
  (s.wrote.filter fun r => r.pool.any fun x => x.1 == g && decide (x.2.1 < off + n ∧ off < x.2.1 + x.2.2)).map (·.id)

/-- The writes that a piece of an access reads (R156, R157). -/
def State.sources (s : State) (a : Access) (now : Nat) (p : Piece) : List Nat :=
  if p.pool then s.poolWrites a.group p.addr p.len else ((s.readSrc a now p).filterMap (·.2)).eraseDups

/-- The DETAIL of the poison that `n` bytes at window offset `off` of group `g` carry (R242, R410); of a register as the window shows it
(R224). -/
def State.winPoison (s : State) (g off n : Nat) : Option Nat :=
  let gr := s.group g
  let now := s.endCycle gr.core
  match winRef gr off n with
  | .ok (.scratch o) => (gr.bad.find? fun l => decide (l.1 * 128 < o + n ∧ o < l.1 * 128 + 128)).map (·.2)
  | .ok (.sreg t i) => ((s.thread g t).regAt now i).poison
  | .ok (.slot t j _ _) | .ok (.vhdr t j) => ((s.thread g t).vregAt now j).poison
  | _ => none

/-- The poison that a piece of an access of group `g` carries. -/
def State.piecePoison (s : State) (g : Nat) (p : Piece) : Option Nat :=
  if p.pool then s.winPoison g p.addr p.len else s.physPoison p.host p.addr p.len

/-- The state with access `id` changed by `f`. -/
def State.onAccess (s : State) (id : Nat) (f : Access → Access) : State :=
  { s with acc := s.acc.map fun a => if a.id = id then f a else a }

/-- Access `id`. -/
def State.access (s : State) (id : Nat) : Option Access := s.acc.find? (·.id == id)

/-- Binds piece `i` of load `a`: its value is what memory held for its thread `back` changes ago, or as late as it must see (R155). -/
def State.bindPiece (s : State) (a : Access) (i back : Nat) : State :=
  match a.pieces[i]? with
  | none => s
  | some p =>
    if p.stage = .performed then s
    else
      let s := s.settleFences a.group a.thread
      let now := s.asOf a p back
      let data := s.readPiece a now p
      let poison := s.piecePoison a.group p
      let changed := !p.pool && !(s.pastOf p).isEmpty
      let s := if changed then s.onThread a.group a.thread fun th =>
        { th with seenAt := p.blocks.foldl (fun m k => Tab.put k (max now (Tab.get 0 k m)) m) th.seenAt } else s
      (s.noteReads a.group a.thread a.seq (s.sources a now p)).onAccess a.id fun x => { x with
        poison := x.poison.or poison
        pieces := modifyNth i (fun q => { q with stage := .performed, data := data }) x.pieces }

/-- Binds every piece of a load to what memory holds now. -/
def State.bindAll (s : State) (a : Access) : State := (List.range a.pieces.length).foldl (fun s i => s.bindPiece a i 0) s

/-- Records what comes before a write of access `a` to piece `p` (R156, R157); what was recorded of an overwritten place of the pool goes. -/
def State.noteWrite (s : State) (a : Access) (p : Piece) : State :=
  let s := s.settleFences a.group a.thread
  let th := s.thread a.group a.thread
  let place := if p.pool then some (a.group, p.addr, p.len) else none
  let r : WriteRec := { id := a.id, core := a.core, pool := place, before := th.knownAt a.seq, rels := th.fenceRels a.core a.seq }
  let gone (x : WriteRec) : Bool := p.pool && x.pool.any fun y => y.1 == a.group && decide (p.addr ≤ y.2.1 ∧ y.2.1 + y.2.2 ≤ p.addr + p.len)
  let rest := s.wrote.filter fun x => !gone x
  if (r.before == {} && r.rels.isEmpty) || rest.any (fun x => x.id == a.id && x.pool == place) then { s with wrote := rest }
  else { s with wrote := rest ++ [r] }

/-- Whether a line of an L2 meets `n` bytes at `a`. -/
def L2Line.meets (l : L2Line) (host : Bool) (a n : Nat) : Bool := l.host == host && decide (l.line * 128 < a + n ∧ a < l.line * 128 + 128)

/-- The L2 of cluster `k` is about to perform a write to `n` bytes: its cores' L1s but core `own`'s give up their copies (R111). -/
def State.trimCopies (s : State) (host : Bool) (a n k : Nat) (own : Option Nat) : State :=
  if (s.cluster k).l2.any (·.meets host a n) then
    s.onCluster k fun c => { c with l2 := c.l2.map fun l => if l.meets host a n then { l with cores := l.cores.filter fun c => own == some c } else l }
  else s

/-- Makes piece `i` of a store visible to its cluster (R165), at whose L2 it is performed (R111). -/
def State.showPiece (s : State) (a : Access) (i : Nat) : State :=
  match a.pieces[i]? with
  | none => s
  | some p =>
    if p.stage ≠ .pending ∨ p.pool then s
    else
      let s := (s.noteWrite a p).trimCopies p.host p.addr p.len (clusterOf a.core) (some a.core)
      (s.onAccess a.id fun x => { x with
        pieces := modifyNth i (fun q => { q with stage := .visible, ord := s.nextId + 1 }) x.pieces }).fresh

/-! ## Semaphores (R257, R258) -/

/-- Semaphore `i` of group `g`, as a count. -/
def State.sem (s : State) (g i : Nat) : Nat := ((s.group g).sems.getD i 0#32).toNat

/-- The semaphore with a new count; a thread whose threshold it meets waits no longer. -/
def State.putSem (s : State) (g i v : Nat) : State :=
  let s := s.onGroup g fun gr => { gr with sems := modifyNth i (fun _ => BitVec.ofNat 32 v) gr.sems }
  let free (th : Thread) : Thread := match th.wait with
    | some (.sem j thr) => if j = i ∧ thr ≤ v % 2 ^ 32 then { th with wait := none } else th
    | _ => th
  let s := s.onGroup g fun gr => { gr with threads := gr.threads.map free }
  if s.iss.live ∧ s.iss.group = g then s.onCur free else s

/-- The window of group `g` with bytes written at offset `off`: presence stays; poison is cleared, of the scratchpad where a line is
written whole (R104, R242, R410). DESIGN CHOICE (assumption 93): reserved bits of a header are kept as written, and read back. -/
def State.winPut (s : State) (g off : Nat) (bs : List Byte) : State :=
  let gr := s.group g
  let now := s.endCycle gr.core
  let x := ofBytesLE bs
  match winRef gr off bs.length with
  | .error _ => s
  | .ok (.scratch o) => s.onGroup g fun gr => { gr with
      scratch := memPuts gr.scratch o bs, bad := gr.bad.filter fun l => !(wholeLines o bs.length).contains l.1 }
  | .ok (.sreg t i) => s.onThread g t fun th => th.putAt now i { th.regAt now i with val := BitVec.ofNat 64 x, poison := none }
  | .ok (.slot t j k part) => s.onThread g t fun th =>
      let c := th.vregAt now j
      th.putVAt now j { c with poison := none, run := { c.run with slots := modifyNth k (putSlot part x) c.run.slots } }
  | .ok (.vhdr t j) => s.onThread g t fun th =>
      let c := th.vregAt now j
      th.putVAt now j { c with poison := none, run := { c.run with hdr := BitVec.ofNat 64 x } }
  | .ok (.sem i) => (s.onGroup g fun gr => { gr with semView := Tab.drop i gr.semView }).putSem g i x

/-! ## Caches (R111, R112, R389) -/

/-- Lines of an L2 (R111). -/
def l2Lines : Nat := 131072

/-- Lines of the L1 of core `c`, as its pool leaves them (R105). -/
def State.l1Lines (s : State) (c : Nat) : Nat := (2 ^ 20 - (s.core c).pool.l1) / Config.line

/-- The lines of an L2 with core `c` taken from those beyond its L1's `n` latest. -/
def trimL1 (c : Nat) : Nat → List L2Line → List L2Line
  | _, [] => []
  | n, l :: ls =>
    if !l.cores.contains c then l :: trimL1 c n ls
    else if n = 0 then { l with cores := l.cores.filter (· != c) } :: trimL1 c 0 ls
    else l :: trimL1 c (n - 1) ls

/-- An L2 that has given up line `l` writes it back, and its directory knows it, where cluster `k` held it writable; a clean line goes
silently (R113). -/
def State.writeBack (s : State) (k : Nat) (l : L2Line) : State :=
  let d := Tab.get {} l.line s.dir
  if l.host || d.owner != some k then s
  else { s with dir := Tab.set {} l.line { d with sharers := d.sharers.filter (· != k), owner := none } s.dir }

/-- Cluster of core `c` holds a line from now on, tagged with key slot `key`; the core's L1 too where `l1` (R111, R112). -/
def State.holdLine (s : State) (c : Nat) (host : Bool) (line key : Nat) (l1 : Bool) : State :=
  let n := s.l1Lines c
  let k := clusterOf c
  let same (l : L2Line) : Bool := l.host == host && l.line == line
  let old := (((s.cluster k).l2.find? same).map (·.cores)).getD []
  let cores := if l1 && n != 0 && !old.contains c then old ++ [c] else old
  let all := trimL1 c n ({ host := host, line := line, key := key, cores := cores } :: (s.cluster k).l2.filter fun l => !same l)
  (all.drop l2Lines).foldl (fun s l => s.writeBack k l) (s.onCluster k fun x => { x with l2 := all.take l2Lines })

/-- Every L2 but that of cluster `k` gives up a line of HBM, which its directory recalls (R111, R115). -/
def State.takeLine (s : State) (line k : Nat) : State :=
  let here (l : L2Line) : Bool := !l.host && l.line == line
  if s.clus.any (fun c => c.1 != k && c.2.l2.any here) then
    { s with clus := s.clus.map fun c => if c.1 = k then c else (c.1, { c.2 with l2 := c.2.l2.filter fun l => !here l }) }
  else s

/-- A write to `n` bytes is about to be performed: every L2 but that of cluster `keep` gives up its copy, and that one the copies of
its cores' L1s but core `own`'s (R111). -/
def State.recallLines (s : State) (host : Bool) (a n : Nat) (keep own : Option Nat) : State :=
  let left (k : Nat) (l : L2Line) : Option L2Line :=
    if !l.meets host a n then some l else if keep = some k then some { l with cores := l.cores.filter fun c => own == some c } else none
  if s.clus.any (fun k => k.2.l2.any (·.meets host a n)) then
    { s with clus := s.clus.map fun k => (k.1, { k.2 with l2 := k.2.l2.filterMap (left k.1) }) }
  else s

/-- Lines of host memory of which the bridge holds one half (R389). -/
def halfHeld (hs : Tab Bool) : List Nat := (hs.map (·.1)).filter fun h => (Tab.find (h ^^^ 1) hs).isNone

/-- Half-held lines with those beyond the 4,096 that the bridge keeps given up, `half` last of all (R389). -/
def limitHalves (half : Option Nat) (hs : Tab Bool) : Tab Bool :=
  let held := halfHeld hs
  ((held.filter (some · != half)).take (held.length - 4096)).foldl (fun m h => Tab.drop h m) hs

/-- The bridge obtains the half line at host address `a`, both halves for a line that a cache of the module takes and of which it
holds no half alone; it keeps 4,096 half-held lines at most (R389). -/
def State.bridge (s : State) (a cc : Nat) (writable : Bool) : State :=
  let half := a / 64
  let hs := s.port.halves
  let kept := (Tab.find half hs).isSome && (Tab.find (half ^^^ 1) hs).isNone
  let hs := (if cc < 2 && !kept then [half, half ^^^ 1] else [half]).foldl (fun m h => Tab.put h (writable || Tab.get false h m) m) hs
  { s with port := { s.port with halves := limitHalves (some half) hs } }

/-- The caches after piece `p` of an access of core `c` has reached its place (R111, R112): its cluster holds the line, and the core's L1
where `l1`; of a line that is performed at its home no cache holds a copy. -/
def State.cachePiece (s : State) (c : Nat) (p : Piece) (home l1 : Bool) : State :=
  if p.cc = 2 ∨ home then s.recallLines p.host p.addr p.len none none
  else if p.host ∧ !([p.addr / 64, p.addr / 64 ^^^ 1].all fun h => (Tab.find h s.port.halves).isSome) then s
  else s.holdLine c p.host (p.addr / Config.line) p.key (p.cc == 0 && l1)

/-- The directory of the lines of `n` bytes after a write by `agent`, as a writable holder or at the home (R113, R385). -/
def State.seize (s : State) (a n agent : Nat) (home : Bool) : State :=
  { s with dir := ((List.range ((a + n + 127) / 128 - a / 128)).map (a / 128 + ·)).foldl (fun m l =>
      let d : DirLine := Tab.get {} l m
      Tab.set {} l { d with sharers := if home then [] else [agent], owner := if home then none else some agent } m) s.dir }

/-! ## Writes that land (R111, R153, R369) -/

/-- The module offset that a HOME and OFF pair names. -/
def homeOff (v : Word) : Nat := dieOffset (bitsOf 44 40 v.toNat) (bitsOf 39 0 v.toNat)

/-- The module offset of slot `k` of a die's fault ring. -/
def Die.fqSlot (d : Die) (k : Nat) : Nat := homeOff d.fqBase + 64 * k

/-- Where a write to `n` bytes of HBM has set DONE in the last word of a posted record, the record is answered (R369). -/
def State.watchAnswers (s : State) (a n : Nat) : State :=
  s.dies.foldl (fun s e =>
    let d : Die := e.2
    let done := d.fqOpen.filter fun r =>
      let w := d.fqSlot r.1 + 56
      decide (w < a + n ∧ a < w + 8) && bitOf 62 (s.word0 w)
    if done = [] then s
    else s.onDie e.1 fun d => { d with
      fqOpen := d.fqOpen.filter fun r => !done.any (·.1 == r.1)
      answered := d.answered ++ done.map fun r => (r.1, { r.2 with answer := some (s.word0 (d.fqSlot r.1 + 56) % 4) }) }) s

/-- A write of `w` to physical memory takes effect for every party, as the next change of memory; the cluster of its core saw it from change
`vis` on. -/
def State.land (s : State) (w : Writer) (vis : Nat) (host : Bool) (k a : Nat) (bs : List Byte) : State :=
  if bs = [] then s
  else
    let p : Past := { host := host, addr := a, bytes := s.readPhys host k a bs.length, key := if host then 0 else s.key k
                      by_ := w, ord := s.nextId + 1, vis := vis }
    let s := s.recallLines host a bs.length (some (clusterOf w.core)) (if w.engine then none else some w.core)
    let s := (({ s with past := p :: s.past } : State).writePhys host k a bs).fresh
    if host then s else s.watchAnswers a bs.length

/-- What is left of a change of memory beside the `n` bytes at `a`. -/
def Past.cut (p : Past) (host : Bool) (a n : Nat) : List Past :=
  if p.host != host || decide (p.addr + p.bytes.length ≤ a ∨ a + n ≤ p.addr) then [p]
  else [{ p with bytes := p.bytes.take (a - p.addr) }, { p with addr := a + n, bytes := p.bytes.drop (a + n - p.addr) }].filter fun q => q.bytes != []

/-- Whether a store that only its own cluster sees meets `n` bytes at `a`. -/
def State.shownAt (s : State) (host : Bool) (a n : Nat) : Bool :=
  s.acc.any fun x => x.pieces.any fun p => p.stage == .visible && p.host == host && !p.pool && decide (p.addr < a + n ∧ a < p.addr + p.len)

/-- The core number under which writes of the device itself, of the host and of other modules stand among the changes of memory: it is of no
cluster. -/
def outsideCore : Nat := Config.cores

/-- The writer of the device itself, the host and other modules, for the next change of memory. -/
def State.outside (s : State) : Writer := { id := s.nextId, core := outsideCore }

/-- What has come from outside: what a release of another module may cover here (R163). -/
def State.outsideView (s : State) : View := { ids := (s.past.filter (·.by_.core == outsideCore)).map (·.by_.id) }

/-- A write that an engine, the device or an outside agent makes at the home of its lines: whole lines that its pieces cover lose their
poison (R410). -/
def State.landPieces (s : State) (w : Writer) (ps : List Piece) : State :=
  let s := ps.foldl (fun s q =>
    let s := if q.host then (if q.cc < 3 then s.bridge q.addr q.cc true else s)
      else s.seize q.addr q.len (clusterOf w.core) (q.cc = 2 || !w.engine)
    let s := if w.engine && q.cc < 2 then s.cachePiece w.core q false false else s
    s.land w (s.nextId + 1) q.host q.key q.addr q.data) s
  let lines := ((ps.filter fun q => !q.host).map fun q => q.addr / 128).eraseDups
  s.cleanLines (lines.filter fun l => (List.range 128).all fun i => ps.any fun q => !q.host && decide (q.addr ≤ l * 128 + i ∧ l * 128 + i < q.addr + q.len))

/-- Whether access `a` has written every byte of the line of piece `p` under its key (R410). -/
def Access.wroteLine (a : Access) (p : Piece) : Bool :=
  !p.host && !p.pool && (List.range 128).all fun i => a.pieces.any fun q =>
    q.stage == .performed && !q.host && !q.pool && decide (q.addr ≤ p.addr / 128 * 128 + i ∧ p.addr / 128 * 128 + i < q.addr + q.len)

/-- Access `id` is complete. -/
def State.dropAccess (s : State) (id : Nat) : State := { s.dropRequests [id] with acc := s.acc.filter (·.id != id) }

/-- Piece `i` of store `a` is performed for every party. -/
def State.storeHere (s : State) (a : Access) (i : Nat) (p : Piece) : State :=
  let s := s.noteWrite a p
  let s := if p.pool then s.winPut a.group p.addr p.data
    else s.land a.writer (if p.stage = .visible then p.ord else s.nextId + 1) p.host p.key p.addr p.data
  let s := s.onAccess a.id fun x => { x with pieces := modifyNth i (fun q => { q with stage := .performed }) x.pieces }
  match s.access a.id with
  | some x =>
    let s := if x.wroteLine p then s.cleanLines [p.addr / 128] else s
    if x.pieces.all (·.stage == .performed) then s.dropAccess a.id else s
  | none => s

/-- The accesses of a thread below `seq` that a release at core scope makes seen by its core: loads are bound, stores are visible
to the cluster, and those to the pool are performed (R156). -/
def State.releaseCore (s : State) (g t seq : Nat) : State :=
  (s.acc.filter fun a => a.of g t && decide (a.seq < seq)).foldl (fun s a => match a.kind with
    | .load => s.bindAll a
    | .store => ((List.range a.pieces.length).zip a.pieces).foldl (fun s x =>
        if x.2.pool then (if x.2.stage = .pending then s.storeHere a x.1 x.2 else s) else s.showPiece a x.1) s
    | _ => s) s

/-- Whether a thread's update may take effect: what its fences and its release order before it is complete; an addition that its core
retries does not count (R247). -/
def State.semReady (s : State) (g : Nat) (u : SemUpd) : Bool :=
  s.fencesAllow g u.thread u.seq true
    && s.acc.all fun a => !(a.of g u.thread && decide (a.seq < u.seq)) || a.kind == .load || a.kind == .store || a.retried
        || a.completeAt .core

/-- One update of a thread takes effect: a release, which an `SSET` puts in the place of the earlier ones (R156). -/
def State.applySem (s : State) (g : Nat) (u : SemUpd) : State :=
  let s := (s.releaseCore g u.thread u.seq).settleFences g u.thread
  let v := (((s.thread g u.thread).fenceRels (s.group g).core u.seq).map (·.view)).foldl View.join (s.cover g u.thread u.seq false)
  let s := s.onGroup g fun gr => { gr with semView := Tab.put u.idx (if u.set then v else (Tab.get {} u.idx gr.semView).join v) gr.semView }
  s.putSem g u.idx (if u.set then u.val else s.sem g u.idx + u.val)

/-- The thread updates of group `g` that are due by the end of cycle `e` take effect, in the order of their issue. -/
def State.settleSems (s : State) (g e : Nat) : State :=
  (s.group g).semQ.foldl (fun s u =>
    if u.due ≤ e ∧ s.semReady g u then
      (s.onGroup g fun gr => { gr with semQ := gr.semQ.filter (· != u) }).applySem g u
    else s) s

/-- The branch changes of group `g` that are due by the end of cycle `e` take effect (R313). -/
def State.settleBranch (s : State) (g e : Nat) : State :=
  s.onGroup g fun gr =>
    let due := gr.brQ.filter fun b => decide (b.1 ≤ e)
    { gr with branch := (due.getLast?.map (·.2)).getD gr.branch, brQ := gr.brQ.filter fun b => decide (e < b.1) }

/-- An engine's or a child's signal, a release that covers `v`: the thread updates of the same cycle come first (R258). -/
def State.signalSem (s : State) (g i inc : Nat) (v : View) : State :=
  let s := s.settleSems g (s.endCycle (s.group g).core)
  (s.onGroup g fun gr => { gr with semView := Tab.put i ((Tab.get {} i gr.semView).join v) gr.semView }).putSem g i (s.sem g i + inc)

/-- A write through the window: the thread updates of a semaphore that are due come first (R104, R258). -/
def State.winWrite (s : State) (g off : Nat) (bs : List Byte) : State :=
  match winRef (s.group g) off bs.length with
  | .ok (.sem _) => (s.settleSems g (s.endCycle (s.group g).core)).winPut g off bs
  | _ => s.winPut g off bs

/-- The same for piece `i` of store `a`. -/
def State.storeNow (s : State) (a : Access) (i : Nat) (p : Piece) : State :=
  match p.pool, winRef (s.group a.group) p.addr p.len with
  | true, .ok (.sem _) => (s.settleSems a.group (s.endCycle (s.group a.group).core)).storeHere a i p
  | _, _ => s.storeHere a i p

end Sys2Proof.Machine
end

