-- ==== Sys2Proof/Machine/Access.lean ====
section
/-! DEFINITION. Issuing an access: the checks of R97-R104, R125 and R167-R169 for one or several ranges of memory, the waits
for walks and branch copies, and the records of accesses on their way (spec 04, 06, 09 R239-R247). -/

namespace Sys2Proof.Machine

/-- Whether an address is of the core-local window (R97). -/
def isWindow (va : Nat) : Bool := va / 2 ^ 56 % 256 == 0xFF

/-- The offset of a window address. -/
def windowOff (va : Nat) : Nat := va % 2 ^ 56

/-! ## Plans over several ranges -/

/-- The plan of one range of a memory form in branch `b`, which reaches the scratchpad alone of the window (R290). `direct` walks the
tables instead of the TLBs. -/
def State.planRange (s : State) (direct : Bool) (g b c : Nat) (ty : AccessType) (quad : Bool) (off va n : Nat) : Plan :=
  let gr := s.group g
  if isWindow va then
    match winRef gr (windowOff va) n with
    | .ok (.scratch o) => .ok [{ host := false, pool := true, addr := o, key := 0, cc := 0, off := off, len := n }]
    | _ => .trap Cause.prot false va
  else match s.plan direct c gr.part b va n ty quad false with
    | .ok ps => .ok (ps.map fun p => { p with off := p.off + off })
    | r => r

/-- The plan of several ranges (address, length): the first that faults decides. -/
def State.planAll (s : State) (direct : Bool) (g b c : Nat) (ty : AccessType) (quad : Bool) : Nat → List (Nat × Nat) → Plan
  | _, [] => .ok []
  | off, (va, n) :: rs =>
    match s.planRange direct g b c ty quad off va n with
    | .ok ps => match State.planAll s direct g b c ty quad (off + n) rs with
      | .ok qs => .ok (ps ++ qs)
      | r => r
    | .cow l a => match State.planAll s direct g b c ty quad (off + n) rs with
      | .ok _ => .cow l a
      | r => r
    | r => r

/-- The range that a thread's access takes in the lock table: pool addresses for the window (R122). -/
def lockRange (gr : Group) (c va n : Nat) : Range :=
  if isWindow va then ⟨some c, poolAddr gr (windowOff va), poolAddr gr (windowOff va) + n⟩ else ⟨none, va, va + n⟩

/-- The first address of the ranges that meets a lock, in the form in which the thread named it (R125). -/
def State.lockedAt (s : State) (g c : Nat) (store : Bool) (rs : List (Nat × Nat)) : Option Nat :=
  rs.findSome? fun r =>
    let lr := lockRange (s.group g) c r.1 r.2
    (s.lockHit (clusterOf c) lr store).map fun a => r.1 + (a - lr.lo)

/-! ## Waits -/

/-- Waits for the page walk of `va` (R241). -/
def walkOut (s : State) (va : Nat) (ty : AccessType) : Out :=
  if s.pre.inCancel then waitOut s (.walk s.nextId)
  else waitOut (({ s with walks := s.walks ++ [{ id := s.nextId, group := s.iss.group, thread := s.iss.thread, core := s.iss.core, va := va, type := ty }] } : State).fresh) (.walk s.nextId)

/-- The copy of a granule that is under way for a branch. -/
def State.cowUnderWay (s : State) (p b g : Nat) : Option CowCopy :=
  s.cows.find? fun c => c.part == p && c.branch == b && c.granule == g

/-- Waits for the copy of the granule of `va`, in the branch whose view the group has of it: threads that write one granule share one
copy (R89, R312). -/
def cowOut (s : State) (leaf : Leaf) (va : Nat) : Out :=
  let g := va / Config.granule
  let b := s.ownerOf s.me.part s.me.branch g
  match s.cowUnderWay s.me.part b g with
  | some c => waitOut s (.cow c.id)
  | none =>
    if s.pre.inCancel then waitOut s (.cow s.nextId)
    else waitOut (({ s with cows := s.cows ++ [{ id := s.nextId, part := s.me.part, branch := b, granule := g, core := s.iss.core, leaf := leaf }] } : State).fresh) (.cow s.nextId)

/-- Runs `k` on the pieces of an access of the issuing thread, or takes the trap or the wait that its ranges decide: address
faults, then range locks, then the branch copy. -/
def withPieces (s : State) (ty : AccessType) (quad : Bool) (rs : List (Nat × Nat)) (k : List Piece → Out) : Out :=
  let locked : Option Nat := s.lockedAt s.iss.group s.iss.core (ty.store || ty.atomic) rs
  match s.planAll false s.iss.group s.me.branch s.iss.core ty quad 0 rs with
  | .trap c named va => trapOut (s.touch va ty) c (if named then BitVec.ofNat 64 va else s.wordVal)
  | .miss va => walkOut s va ty
  | .cow l va => match locked with
    | some a => trapOut (s.touch a ty) Cause.rangelock (BitVec.ofNat 64 a)
    | none => cowOut s l va
  | .ok ps => match locked with
    | some a => trapOut (s.touch a ty) Cause.rangelock (BitVec.ofNat 64 a)
    | none => k ps

/-- Runs `k` on the pieces of a record that an instruction reads; the record's address is the value of a denied access. DESIGN CHOICE:
the read meets write locks as a load of the thread does (assumption 72), and it waits for the thread's fences, since the checks of the
record are precise (assumption 73). -/
def withRecord (s : State) (va n : Nat) (k : List Piece → Out) : Out :=
  let ty : AccessType := { load := true, user := !s.pre.monitor }
  match s.planAll false s.iss.group s.me.branch s.iss.core ty false 0 [(va, n)] with
  | .trap c _ x => trapOut (s.touch x ty) c (BitVec.ofNat 64 va)
  | .miss x => walkOut s x ty
  | .cow _ x => trapOut (s.touch x ty) Cause.prot (BitVec.ofNat 64 va)
  | .ok ps => match s.lockedAt s.iss.group s.iss.core false [(va, n)] with
    | some a => trapOut (s.touch a ty) Cause.rangelock (BitVec.ofNat 64 a)
    | none => if !s.fencesAllow s.iss.group s.iss.thread s.cur.seq false then waitOut s .order else k ps

/-- The user bit of the issuing thread's accesses. -/
def State.user (s : State) : Bool := !s.pre.monitor

/-! ## Records -/

/-- Takes the next place in the issuing thread's program order. -/
def State.nextSeq (s : State) : State := s.onCur fun t => { t with seq := t.seq + 1 }

/-- Records an access of the issuing thread. -/
def State.post (s : State) (kind : AccKind) (va : Nat) (ps : List Piece) (d : Dest) : State :=
  ({ s with acc := s.acc ++ [{ id := s.nextId, kind := kind, group := s.iss.group, thread := s.iss.thread, core := s.iss.core,
                               seq := s.cur.seq, va := va, pieces := ps, dest := d, user := s.user, pc := s.iss.pc.toNat, branch := s.me.branch }] } : State).fresh.nextSeq

/-- Empties a register under a pending-load mark (R74); its value stays for the cases that restore it. -/
def Thread.mark (t : Thread) (r : Nat) : Thread := t.setReg r { t.reg r with full := false, mark := true }
/-- The same for a run register. -/
def Thread.markV (t : Thread) (r : Nat) : Thread := t.setVReg r { t.vreg r with full := false, mark := true }

/-- A destination register: none for `s0`. -/
def destOf (d : SReg) (signed : Bool) : Dest := if d = 0#7 then .none else .scalar d signed

/-- Marks the registers that an access will fill. -/
def State.markDest (s : State) (d : Dest) : State :=
  match d with
  | .none => s
  | .scalar d _ => s.onCur fun t => t.mark d.toNat
  | .pair d => s.onCur fun t => (t.mark d.toNat).mark (d.toNat + 1)
  | .run vd _ _ | .stream vd _ _ _ | .bank vd _ _ _ _ _ _ => s.onCur fun t => t.markV vd.toNat

/-- Issues an access whose data returns to `d`. -/
def State.issue (s : State) (kind : AccKind) (va : Nat) (ps : List Piece) (d : Dest) : State := (s.post kind va ps d).markDest d

/-- An access of the issuing thread as it would be numbered now. -/
def State.probe (s : State) (kind : AccKind) : Access :=
  { id := s.nextId, kind := kind, group := s.iss.group, thread := s.iss.thread, core := s.iss.core, seq := s.cur.seq, va := 0, pieces := [], dest := .none }

/-- Whether a pool piece of an access of the issuing thread is performed at once: nothing that its fences or its own accesses to
the same bytes order before it is under way (R108, R153, R159). -/
def State.poolNow (s : State) (kind : AccKind) (p : Piece) : Bool :=
  let a := s.probe kind
  p.pool && s.mayPerform a p
    && (kind != .load || s.acc.all fun b => !(b.of a.group a.thread) || b.pieces.all fun q => !q.meets p || q.stage == .performed)

/-- Whether a load of the issuing thread finds a piece in the L1 of its core, and nothing orders it behind what is under way (R111, R112,
R240). -/
def State.l1Hit (s : State) (p : Piece) : Bool :=
  let held (l : L2Line) : Bool := l.host == p.host && l.line == p.addr / Config.line && l.key == p.key && l.cores.contains s.iss.core
  !p.pool && p.cc == 0 && (s.cluster (clusterOf s.iss.core)).l2.any held && s.mayPerform (s.probe .load) p

/-- The pieces of a load with the pool's bytes in those that are performed at once. -/
def State.loadPool (s : State) (ps : List Piece) : List Piece :=
  ps.map fun p => if s.poolNow .load p then { p with stage := .performed, data := s.winBytes s.iss.group p.addr p.len } else p

/-- The bytes of pieces in order. -/
def pieceBytes (ps : List Piece) : List Byte := ps.flatMap (·.data)

/-- The writes that the performed pool pieces of a load of the issuing thread have read (R156, R157). -/
def State.poolSources (s : State) (ps : List Piece) : List Nat :=
  (ps.filter fun p => p.pool && p.stage == .performed).flatMap fun p => s.poolWrites s.iss.group p.addr p.len

/-- Notes what a pool load of the issuing thread comes to follow. -/
def State.followPool (s : State) (ps : List Piece) : State := s.noteReads s.iss.group s.iss.thread s.cur.seq (s.poolSources ps)

/-- The registers of a destination that has its data at once, poisoned where the data is (R242). -/
def State.poisonDest (s : State) (d : Dest) (bad : Option Nat) : State :=
  let mark (t : Thread) (r : Nat) : Thread := t.setReg r { t.reg r with poison := bad }
  if bad = none then s
  else match d with
    | .none => s
    | .scalar d _ => s.onCur fun t => mark t d.toNat
    | .pair d => s.onCur fun t => mark (mark t d.toNat) (d.toNat + 1)
    | .run vd _ _ | .stream vd _ _ _ | .bank vd _ _ _ _ _ _ => s.onCur fun t => t.setVReg vd.toNat { t.vreg vd.toNat with poison := bad }

/-- A load of the issuing thread whose pieces are in the pool and in the L1 of its core: `k` takes the bytes (R240). -/
def State.hitNow (s : State) (va : Nat) (ps : List Piece) (d : Dest) (k : State → List Byte → State) : State :=
  let id := s.nextId
  let s := s.post .load va ps .none
  let s := s.bindAll ((s.access id).getD (s.probe .load))
  match s.access id with
  | some a => ((k s (pieceBytes a.pieces)).poisonDest d a.poison).dropAccess id
  | none => s

/-- Issues a load of the issuing thread: `k` takes the bytes when all are at hand, else the access returns them to `d`. -/
def State.issueLoad (s : State) (va : Nat) (ps : List Piece) (d : Dest) (k : State → List Byte → State) : State :=
  let bad := ps.findSome? fun p => if s.poolNow .load p then s.winPoison s.iss.group p.addr p.len else none
  let ps := s.loadPool ps
  let read := s.poolSources ps
  let s := s.followPool ps
  if ps.all fun p => p.stage == .performed then
    (let s := (k s (pieceBytes ps)).poisonDest d bad
     if read = [] then s else s.nextSeq)
  else if ps.all fun p => p.stage == .performed || s.l1Hit p then s.hitNow va ps d k
  else if bad = none then s.issue .load va ps d
  else (s.issue .load va ps d).onAccess s.nextId fun a => { a with poison := bad }

/-- The pieces of a store with the bytes that each writes. -/
def withData (ps : List Piece) (bs : List Byte) : List Piece := ps.map fun p => { p with data := (bs.drop p.off).take p.len }

/-- Performs the pool pieces of a store that are performed at once. -/
def State.storePool (s : State) (a : Access) : List Piece → State
  | [] => s
  | p :: ps => State.storePool ((s.noteWrite a p).winWrite a.group p.addr p.data) a ps

/-- The pieces of a store in two: those performed at once, and those that come later, with what an earlier one of them holds back
(R291). -/
def splitNow (now : Piece → Bool) (ps : List Piece) : List Piece × List Piece :=
  ps.foldl (fun x p => if now p && !x.2.any (fun q => q.meets p) then (x.1 ++ [p], x.2) else (x.1, x.2 ++ [p])) ([], [])

/-- Issues the stores of the issuing thread to the pieces `ps` of the bytes `bs`: the pool's at once, the others posted as one
access. -/
def State.issueStore (s : State) (va : Nat) (ps : List Piece) (bs : List Byte) : State :=
  let ps := withData ps bs
  let a : Access := { id := s.nextId, kind := .store, group := s.iss.group, thread := s.iss.thread, core := s.iss.core,
                      seq := s.cur.seq, va := va, pieces := ps, dest := .none }
  let x := splitNow (s.poolNow .store) ps
  let s' := s.storePool a x.1
  if !x.2.isEmpty then s'.post .store va x.2 .none else if s'.wrote = s.wrote then s' else s'.fresh

/-- A value on its way to a register: a name, a branch id or an instant unit's reply. -/
def State.issueValue (s : State) (v : Word) (d : SReg) : State := s.issue (.value v) 0 [] (destOf d false)

end Sys2Proof.Machine
end

