-- ==== Sys2Proof/Machine/Memory.lean ====
section
/-! DEFINITION. Scalar loads and stores, atomics, additions at the home slice and fences (spec 09 R238-R248). -/

namespace Sys2Proof.Machine

/-- Bytes of a load (R238). -/
def loadBytes : LoadWidth → Nat
  | .b | .bu => 1
  | .h | .hu => 2
  | .w | .wu => 4
  | .d => 8
  | .q => 16

/-- Whether a load extends its sign (R238). -/
def loadSigned : LoadWidth → Bool
  | .b | .h | .w => true
  | _ => false

/-- Bytes of a store (R238). -/
def storeBytes : StoreWidth → Nat
  | .b => 1
  | .h => 2
  | .w => 4
  | .d => 8
  | .q => 16

/-- The effective address of an SM form: the offset counts in units of the access size (R239). -/
def smAddress (a : Word) (off : BitVec 10) (size : Nat) : Word := a + off.signExtend 64 * BitVec.ofNat 64 size

/-- The loaded bytes as a register value (R239). -/
def loadedValue (signed : Bool) (bs : List Byte) : Word :=
  if signed then BitVec.ofInt 64 (signedOf (8 * bs.length) (ofBytesLE bs)) else BitVec.ofNat 64 (ofBytesLE bs)

/-- Where a load's data goes. -/
def loadDest (wd : LoadWidth) (d : SReg) : Dest := if wd = .q then .pair d else destOf d (loadSigned wd)

/-- Writes the data of a load that the pool answers at once. -/
def State.wrLoad (s : State) (wd : LoadWidth) (d : SReg) (bs : List Byte) : State :=
  if wd = .q then (s.wr d (loadedValue false (bs.take 8))).wrNext d 1 (loadedValue false (bs.drop 8))
  else s.wr d (loadedValue (loadSigned wd) bs)

/-- The check of a scalar access to the window (R102-R104, R125); `k` takes the window offset. -/
def withWindow (s : State) (va n : Nat) (store : Bool) (k : Nat → Out) : Out :=
  let off := windowOff va
  let ty : AccessType := { load := !store, store := store, user := s.user }
  match winRef s.me off n with
  | .error c => trapOut (s.touch va ty) c (if c = Cause.reglimit then BitVec.ofNat 64 off else s.wordVal)
  | .ok r => match s.winMarked s.iss.group r with
    | some w => waitOut s w
    | none => match r with
      | .scratch _ => match s.lockedAt s.iss.group s.iss.core store [(va, n)] with
        | some a => trapOut (s.touch a ty) Cause.rangelock (BitVec.ofNat 64 a)
        | none => k off
      | _ => k off

/-- The one piece of a scalar window access. -/
def windowPiece (off n : Nat) : List Piece := [{ host := false, pool := true, addr := off, key := 0, cc := 0, off := 0, len := n }]

/-- Runs `k` on the pieces of a scalar load or store of `n` bytes at `va`: a 16-byte form is naturally aligned (R241). -/
def withScalar (s : State) (va n : Nat) (store : Bool) (k : List Piece → Out) : Out :=
  let ty : AccessType := { load := !store, store := store, user := s.user }
  if n = 16 ∧ va % 16 ≠ 0 then trapOut (s.touch va ty) Cause.align s.wordVal
  else if isWindow va then withWindow s va n store fun off => k (windowPiece off n)
  else withPieces s ty (n == 16) [(va, n)] k

/-- A scalar load (R239, R240). -/
def loadOut (s : State) (wd : LoadWidth) (ea : Word) (d : SReg) : Out :=
  withScalar s ea.toNat (loadBytes wd) false fun ps =>
    .next (s.issueLoad ea.toNat ps (loadDest wd d) fun s bs => s.wrLoad wd d bs)

/-- The bytes that a scalar store writes (R239). -/
def State.storeData (s : State) (wd : StoreWidth) (r : SReg) : List Byte :=
  if wd = .q then toBytesLE 8 (s.rd r).toNat ++ toBytesLE 8 (s.rdNext r 1).toNat else toBytesLE (storeBytes wd) (s.rd r).toNat

/-- A scalar store (R239, R240). -/
def storeOut (s : State) (wd : StoreWidth) (ea : Word) (r : SReg) : Out :=
  withScalar s ea.toNat (storeBytes wd) true fun ps => .next (s.issueStore ea.toNat ps (s.storeData wd r))

/-- `LDB` (R238, R239). -/
def execLdb (d a : SReg) (off : BitVec 10) (s : State) : Out :=
  guarded (.ldb d a off) s fun s => loadOut s .b (smAddress (s.rd a) off (loadBytes .b)) d

/-- `LDH` (R238, R239). -/
def execLdh (d a : SReg) (off : BitVec 10) (s : State) : Out :=
  guarded (.ldh d a off) s fun s => loadOut s .h (smAddress (s.rd a) off (loadBytes .h)) d

/-- `LDW` (R238, R239). -/
def execLdw (d a : SReg) (off : BitVec 10) (s : State) : Out :=
  guarded (.ldw d a off) s fun s => loadOut s .w (smAddress (s.rd a) off (loadBytes .w)) d

/-- `LDD` (R238, R239). -/
def execLdd (d a : SReg) (off : BitVec 10) (s : State) : Out :=
  guarded (.ldd d a off) s fun s => loadOut s .d (smAddress (s.rd a) off (loadBytes .d)) d

/-- `LDBU` (R238, R239). -/
def execLdbu (d a : SReg) (off : BitVec 10) (s : State) : Out :=
  guarded (.ldbu d a off) s fun s => loadOut s .bu (smAddress (s.rd a) off (loadBytes .bu)) d

/-- `LDHU` (R238, R239). -/
def execLdhu (d a : SReg) (off : BitVec 10) (s : State) : Out :=
  guarded (.ldhu d a off) s fun s => loadOut s .hu (smAddress (s.rd a) off (loadBytes .hu)) d

/-- `LDWU` (R238, R239). -/
def execLdwu (d a : SReg) (off : BitVec 10) (s : State) : Out :=
  guarded (.ldwu d a off) s fun s => loadOut s .wu (smAddress (s.rd a) off (loadBytes .wu)) d

/-- `LDQ` (R238, R239). -/
def execLdq (d a : SReg) (off : BitVec 10) (s : State) : Out :=
  guarded (.ldq d a off) s fun s => loadOut s .q (smAddress (s.rd a) off (loadBytes .q)) d

/-- `STB` (R238, R239). -/
def execStb (r a : SReg) (off : BitVec 10) (s : State) : Out :=
  guarded (.stb r a off) s fun s => storeOut s .b (smAddress (s.rd a) off (storeBytes .b)) r

/-- `STH` (R238, R239). -/
def execSth (r a : SReg) (off : BitVec 10) (s : State) : Out :=
  guarded (.sth r a off) s fun s => storeOut s .h (smAddress (s.rd a) off (storeBytes .h)) r

/-- `STW` (R238, R239). -/
def execStw (r a : SReg) (off : BitVec 10) (s : State) : Out :=
  guarded (.stw r a off) s fun s => storeOut s .w (smAddress (s.rd a) off (storeBytes .w)) r

/-- `STD` (R238, R239). -/
def execStd (r a : SReg) (off : BitVec 10) (s : State) : Out :=
  guarded (.std r a off) s fun s => storeOut s .d (smAddress (s.rd a) off (storeBytes .d)) r

/-- `STQ` (R238, R239). -/
def execStq (r a : SReg) (off : BitVec 10) (s : State) : Out :=
  guarded (.stq r a off) s fun s => storeOut s .q (smAddress (s.rd a) off (storeBytes .q)) r

/-- `LDX` (R238, R239): no scaling. -/
def execLdx (wd : LoadWidth) (d a b : SReg) (s : State) : Out :=
  guarded (.ldx wd d a b) s fun s => loadOut s wd (s.rd a + s.rd b) d

/-- `STX` (R238, R239): no scaling. -/
def execStx (wd : StoreWidth) (r a b : SReg) (s : State) : Out :=
  guarded (.stx wd r a b) s fun s => storeOut s wd (s.rd a + s.rd b) r

/-! ## Atomics -/

/-- Whether a PCIe AtomicOp carries the atomic: add, swap and compare-and-swap (R170). -/
def overPcie : AccKind → Bool
  | .amo .add _ _ | .amo .swp _ _ | .cas _ _ _ => true
  | _ => false

/-- Issues an atomic of `n` bytes (R170, R244-R246, R390). -/
def atomicOut (s : State) (va n : Nat) (kind : AccKind) (d : Dest) : Out :=
  let ty : AccessType := { atomic := true, user := s.user }
  if va % n ≠ 0 then trapOut (s.touch va ty) Cause.align s.wordVal
  else if isWindow va then trapOut (s.touch va ty) Cause.prot s.wordVal
  else withPieces s ty (n == 16) [(va, n)] fun ps =>
    if ps.any fun p => p.host && p.cc == 3 then
      if !s.port.atomicReq then trapOut (s.touch va ty) Cause.prot (BitVec.ofNat 64 va)
      else if !overPcie kind then trapOut (s.touch va ty) Cause.prot s.wordVal
      else .next (s.issue kind va ps d)
    else .next (s.issue kind va ps d)

/-- `AMO.C` (R244). -/
def execAmoC (op : AmoOp) (d a b : SReg) (s : State) : Out :=
  guarded (.amoC op d a b) s fun s => atomicOut s (s.rd a).toNat 8 (.amo op (s.rd b) false) (destOf d false)

/-- `AMO.G` (R244). -/
def execAmoG (op : AmoOp) (d a b : SReg) (s : State) : Out :=
  guarded (.amoG op d a b) s fun s => atomicOut s (s.rd a).toNat 8 (.amo op (s.rd b) true) (destOf d false)

/-- A register, or a register pair with its second member above, as a number. -/
def State.rdWide (s : State) (q : Bool) (r : SReg) : Nat :=
  if q then (s.rd r).toNat + (s.rdNext r 1).toNat * 2 ^ 64 else (s.rd r).toNat

/-- `CAS` (R245). -/
def execCas (g q : Bool) (d a b : SReg) (s : State) : Out :=
  guarded (.cas g q d a b) s fun s =>
    atomicOut s (s.rd a).toNat (if q then 16 else 8) (.cas (s.rdWide q d) (s.rdWide q b) g) (if q then .pair d else destOf d false)

/-- The number and LAST bit of an ordered addition (R173). -/
def State.sequenceWord (s : State) (d : SReg) : Nat × Bool :=
  ((s.pre.seqbase.toNat + (s.rd d).toNat % 2 ^ 32) % 2 ^ 32, (s.rd d).getLsbD 63)

/-- `FAADD` (R247). -/
def execFaadd (dbl ord : Bool) (d a b : SReg) (s : State) : Out :=
  guarded (.faadd dbl ord d a b) s fun s =>
    let va := (s.rd a).toNat
    let n := if dbl then 8 else 4
    let ty : AccessType := { atomic := true, user := s.user }
    if va % n ≠ 0 then trapOut (s.touch va ty) Cause.align s.wordVal
    else if isWindow va then trapOut (s.touch va ty) Cause.prot s.wordVal
    else withPieces s ty false [(va, n)] fun ps =>
      if ps.any (·.host) then trapOut (s.touch va ty) Cause.prot s.wordVal
      else .next (s.issue (.faadd dbl (s.rd b) (if ord then some (s.sequenceWord d) else none) s.iss.core s.pre.kidx) va ps .none)

/-- `FENCE` (R159, R248): it divides the thread's accesses and never holds the thread. -/
def execFence (scope : FenceScope) (kind : FenceKind) (e : Bool) (s : State) : Out :=
  effect (.fence scope kind e) s fun s =>
    s.onCur fun t => { t with fences := t.fences ++ [{ seq := t.seq, scope := scope, kind := kind, e := e }] }

end Sys2Proof.Machine
end

