-- ==== Sys2Proof/Machine/AccessEvents.lean ====
section
/-! DEFINITION. Accesses as the device performs them: data that returns, stores, atomics and additions at their places, page
walks, branch copies and the directory (spec 03 R89; 04 R111-R117; 06 R165, R170-R175; 09 R240-R247; 10 R287; 20 R389-R392). -/

namespace Sys2Proof.Machine

/-- The outcome of an event whose occasion is not there. -/
def notNow : Out := .refused .notEnabled

/-- Runs `k` when `ok`, else the event's occasion is not there. -/
def whenOk (ok : Bool) (k : Out) : Out := if ok then k else notNow

/-- Whether the compute function responds: boot has verified what it runs (R32, R383), and no die has overheated (R412). -/
def State.serving (s : State) : Bool := s.firm.recordValid && s.firm.imageValid && !s.firm.shutdown

/-- A host write to a register of the compute function that exists when `ok` holds: discarded while it does not respond. -/
def hostWrite (s : State) (ok : Bool) (k : State) : Out := whenOk ok (.next (if s.serving then k else s))

/-- Whether the machine is in the housekeeping period of a frame (R408). -/
def State.period15 (s : State) : Bool := decide (3840 ≤ s.cycle % 4096)

/-- Whether the housekeeping period of this frame carries task `k` (R408). -/
def State.housekeeping (s : State) (k : Nat) : Bool := s.period15 && s.cycle / 4096 % 4 == k

/-! ## The directory (R113-R115) -/

/-- What a request for a line obtains: a readable copy, a writable one, or the line at its home. -/
inductive Reach where
  | shared | own | home
  deriving DecidableEq, Repr

/-- Whether other holders stand against a request. -/
def DirLine.against (d : DirLine) (agent : Nat) : Reach → Bool
  | .shared => d.owner.any (· != agent)
  | .own => d.sharers.any (· != agent)
  | .home => !d.sharers.isEmpty

/-- The line after a request is served. -/
def DirLine.granted (d : DirLine) (agent : Nat) : Reach → DirLine
  | .shared => { d with sharers := if d.sharers.contains agent then d.sharers else d.sharers ++ [agent], owner := none, busy := none }
  | .own => { d with sharers := [agent], owner := some agent, busy := none }
  | .home => { d with sharers := [], owner := none, busy := none }

/-- A request `id` of agent `agent` at the directory of a line: served, or it opens a transaction that recalls the other holders,
or it is queued behind the open one; `none` when it is queued already (R115). -/
def State.request (s : State) (line agent id : Nat) (r : Reach) : Option (State × Bool) :=
  let d := Tab.get {} line s.dir
  let put (d : DirLine) : State := { s with dir := Tab.set {} line d s.dir }
  if d.busy = some id then some (put (d.granted agent r), true)
  else if r = .shared ∧ d.sharers.contains agent ∧ !d.against agent r then some (s.dropRequests [id], true)
  else if d.busy.isSome ∨ d.queue ≠ [] then
    if d.queue.any (·.2.2 == id) then none else some (put { d with queue := d.queue ++ [(s.cycle, agent, id)] }, false)
  else if d.against agent r then
    some ((put { d with busy := some id, sharers := d.sharers.filter (· == agent), owner := none }).takeLine line agent, false)
  else some (put (d.granted agent r), true)

/-- The caches after piece `p` of access `a` has reached its place: the L1 of its core holds the line for a load of class 0 (R112). -/
def State.cacheLine (s : State) (a : Access) (p : Piece) (r : Reach) : State := s.cachePiece a.core p (r == .home) (r == .shared)

/-- The access of a request whose transaction is served: what it reads comes after what was performed before (R114). -/
def State.served (s : State) (line id : Nat) : State :=
  if (Tab.get {} line s.dir).busy = some id then s.onAccess id fun x => { x with fill := s.clock } else s

/-- Reaches the place where a piece of an access is performed; `k` performs it. -/
def reach (s : State) (a : Access) (p : Piece) (r : Reach) (k : State → Out) : Out :=
  if p.pool then k s
  else if p.host then (if p.cc = 3 then k s else k ((s.bridge p.addr p.cc (r != .shared)).cacheLine a p r))
  else match (s.served (p.addr / Config.line) a.id).request (p.addr / Config.line) (clusterOf a.core) a.id (if p.cc = 2 then .home else r) with
    | none => notNow
    | some (s, false) => .next s
    | some (s, true) => k (s.cacheLine a p r)

/-! ## Returning data -/

/-- The runs of a load's plan: repeats of one element, and literal elements put greedily (R286). -/
def planRuns (p : Nat) : List (Bool × Nat) → List Nat → List Run → List Run
  | [], _, out => out.reverse
  | (true, n) :: ps, els, out => planRuns p ps (els.drop 1) (.rep (els.headD 0) n :: out)
  | (false, m) :: ps, els, out => planRuns p ps (els.drop m) (putAll p out (els.take m))

/-- The elements that a plan takes from the data. -/
def planCount (ps : List (Bool × Nat)) : Nat := (ps.map fun p => if p.1 then 1 else p.2).sum

/-- The run register that a load's bytes make. -/
def runFromBytes (t : ElemType) (plan : List (Bool × Nat)) (bs : List Byte) : RunReg :=
  mkRun t (planRuns (perSlot t) plan (unpack (widthOf t) (planCount plan) (ofBytesLE bs)) [])

/-- The run register of a stream's bytes (R287). -/
def runFromStream (bs : List Byte) : RunReg :=
  let hdr := BitVec.ofNat 64 (ofBytesLE (bs.take 8))
  let used := bitsOf 46 40 hdr.toNat
  let slot (k : Nat) : VSlot :=
    { payload := BitVec.ofNat 64 (ofBytesLE ((bs.drop (16 + 16 * k)).take 8))
      hdr := BitVec.ofNat 16 (ofBytesLE ((bs.drop (24 + 16 * k)).take 2)) }
  ⟨hdr, (List.range used).map slot ++ List.replicate (64 - used) ({} : VSlot)⟩

/-- The elements that the bytes of a bank-decoded load give. -/
def bankElems (t : ElemType) (fmt mode n e0 blk : Nat) (bs : List Byte) : List FRes :=
  let f := BankFmt.ofCode fmt
  let k := bytesFor (f.width (widthOf t)) n
  decodeBank t f n e0 blk (Mode.ofCode mode) (bs.take k) (bs.drop k)

/-- A stream load ends without its data: vd keeps its value, with the poison mark that it carried (DESIGN
CHOICE, assumption 86), and the thread takes the trap at its next turn (R287). -/
def State.failStream (s : State) (a : Access) (vd : VReg) (k : Nat) (x : Word) : State :=
  let s := s.onThread a.group a.thread fun th => th.setVReg vd.toNat { th.vreg vd.toNat with full := true, mark := false }
  let acc : Option (Nat × AccessType) := if k = Cause.runbad then none else some (x.toNat, { load := true, user := a.user })
  (s.postFault a.group a.thread k x acc).dropAccess a.id

/-- A stream whose header has returned: the slots are translated and checked, then asked for (R287). DESIGN CHOICE (assumption 93): a wrong
TYPE, or USED above 64, ends it before the slots are translated; other breaks of the header end it once they have come. -/
def State.askSlots (s : State) (a : Access) (vd : VReg) (t : ElemType) (base : Nat) (bs : List Byte) : State :=
  let r := runFromStream bs
  if r.type ≠ t.code ∨ 64 < r.used then s.failStream a vd Cause.runbad (BitVec.ofNat 64 base)
  else
    let rs := [(base + 16, 16 * r.used)]
    let ty : AccessType := { load := true, user := a.user }
    match s.planAll true a.group a.branch a.core ty false 16 rs with
    | .miss va =>
      let rec0 := { s.threadRecord 1 Cause.page ty va a.group a.thread with pc := a.pc, target := .stream a.id }
      (s.queueFault (dieOfCore a.core) rec0).onAccess a.id fun x => { x with retried := true }
    | .trap c _ va => s.failStream a vd c (BitVec.ofNat 64 va)
    | .cow _ va => s.failStream a vd Cause.prot (BitVec.ofNat 64 va)
    | .ok ps => match s.lockedAt a.group a.core false rs with
      | some x => s.failStream a vd Cause.rangelock (BitVec.ofNat 64 x)
      | none => s.onAccess a.id fun x => { x with pieces := x.pieces ++ ps, dest := .stream vd t base true, retried := false }

/-- The data of access `a` reaches its destination (R74, R242). -/
def State.deliverData (s : State) (a : Access) : State :=
  let bs := pieceBytes a.pieces
  let cell (x : RunReg) : VCell := { run := x, poison := a.poison }
  match a.dest with
  | .none => s.dropAccess a.id
  | .scalar d sg => (s.onThread a.group a.thread fun th =>
      th.setReg d.toNat { val := loadedValue sg bs, poison := a.poison }).dropAccess a.id
  | .pair d => (s.onThread a.group a.thread fun th =>
      (th.setReg d.toNat { val := loadedValue false (bs.take 8), poison := a.poison }).setReg (d.toNat + 1)
        { val := loadedValue false (bs.drop 8), poison := a.poison }).dropAccess a.id
  | .run vd t plan => (s.onThread a.group a.thread fun th => th.setVReg vd.toNat (cell (runFromBytes t plan bs))).dropAccess a.id
  | .bank vd t fmt mode n e0 blk =>
    let els := bankElems t fmt mode n e0 blk bs
    (s.onThread a.group a.thread fun th =>
      { th.setVReg vd.toNat (cell (mkRun t (packLits t (els.map (·.bits))))) with flags := th.flags ||| flagsOf els }).dropAccess a.id
  | .stream vd t base slots =>
    if !slots ∧ bitsOf 46 40 (ofBytesLE (bs.take 8)) ≠ 0 then s.askSlots a vd t base bs
    else
      let r := runFromStream bs
      if r.wf && r.type == t.code then (s.onThread a.group a.thread fun th => th.setVReg vd.toNat (cell (r.trim t))).dropAccess a.id
      else s.failStream a vd Cause.runbad (BitVec.ofNat 64 base)

/-- A value reaches its destination. -/
def State.deliverValue (s : State) (a : Access) (v : Word) : State :=
  match a.dest with
  | .scalar d _ => (s.onThread a.group a.thread fun th => th.setReg d.toNat { val := v }).dropAccess a.id
  | _ => s.dropAccess a.id

/-- The granule that a branch sees at `g` from now on. -/
def Partition.putGranule (p : Partition) (b g : Nat) (l : Leaf) : Partition :=
  if b = 0 then { p with trunk := Tab.put g l p.trunk }
  else { p with branches := match Tab.find b p.branches with
    | none => p.branches
    | some br => Tab.put b { br with granules := Tab.put g l br.granules } p.branches }

/-! ## Branches (R88, R312) -/

/-- The leaf of granule `g` as branch `b` of partition `p` sees it, with the granule's own base. -/
def State.granuleLeaf (s : State) (p b g : Nat) : Option Leaf :=
  match s.branchLeaf p b (g * Config.granule) with
  | some o => o
  | none => (walkTable s p (g * Config.granule)).map fun e => { e.leaf with base := e.leaf.base + (g * Config.granule - e.va) }

/-- Whether branch `b` of a partition lives (R88). -/
def Partition.live (p : Partition) (b : Nat) : Bool :=
  match Tab.find b p.branches with
  | none => false
  | some br => !br.dropped

/-- The next id from `b` on whose branch does not live, with fuel; ids are 1 to 2^32 - 1. -/
def Partition.freeId (p : Partition) : Nat → Nat → Nat
  | 0, b => b
  | fuel + 1, b => if p.live b then Partition.freeId p fuel (b % (2 ^ 32 - 1) + 1) else b

/-- The branches of a partition that live. -/
def Partition.liveCount (p : Partition) : Nat := (p.branches.filter fun b => !b.2.dropped).length

/-- Forks `n` granules from `lo` on from branch `b0`: both views share each granule until one of them writes it (R88, R89). The
new id, or 0 when the partition is full. -/
def State.makeBranch (s : State) (part b0 forker lo n : Nat) : State × Nat :=
  let p := s.partn part
  if Config.branches ≤ p.liveCount then (s, 0)
  else
    let id := p.freeId (Config.branches + 1) p.nextBranch
    let shared := (List.range n).filterMap fun i => (s.granuleLeaf part b0 (lo + i)).map fun l => (lo + i, { l with cow := true })
    let s := s.onPart part fun p =>
      let p := shared.foldl (fun q e => q.putGranule (p.owner e.1 (p.branches.length + 2) b0) e.1 e.2) p
      { p with nextBranch := id % (2 ^ 32 - 1) + 1
               branches := Tab.put id { parent := b0, forker := forker, granules := shared } p.branches }
    (s, id)

/-- After a piece of a load is bound: the data is delivered when it is the last. -/
def afterBind (s : State) (id : Nat) : Out :=
  match s.access id with
  | none => notNow
  | some a => .next (if a.pieces.all (·.stage == .performed) then s.deliverData a else s)

/-! ## Stores (R165, R240) -/

/-- Whether an earlier piece of the same store, to the same bytes, comes first (R291). -/
def pieceOrder (a : Access) (i : Nat) (p : Piece) (all : Bool) : Bool :=
  (a.pieces.take i).all fun q => !q.meets p || q.stage == .performed || (!all && q.stage == .visible)

/-- Whether another store that the cluster sees already comes first in the order of the bytes of `p`. -/
def State.seenFirst (s : State) (a : Access) (p : Piece) : Bool :=
  (s.visibleIn (clusterOf a.core)).any fun e => e.2.meets p && (p.stage == .pending || decide (e.2.ord < p.ord))

/-- `STORE_PERFORM`: for the store's own cluster, or for all. -/
def execStorePerform (id p : Nat) (all : Bool) (s : State) : Out :=
  match s.access id with
  | none => notNow
  | some a => match a.pieces[p]? with
    | none => notNow
    | some pc =>
      if a.kind ≠ .store ∨ pc.stage = .performed ∨ !s.mayPerform a pc ∨ !pieceOrder a p pc all then notNow
      else if !all then whenOk (pc.stage == .pending && !pc.pool && decide (pc.cc < 2)) (.next (s.showPiece a p))
      else if s.seenFirst a pc then notNow
      else reach s a pc .own fun s => .next (s.storeNow a p pc)

/-! ## Atomics (R170, R171, R244, R245) -/

/-- The new value of an `AMO` (R244). -/
def amoResult (op : AmoOp) (old x : Word) : Word :=
  match op with
  | .add => old + x
  | .and => old &&& x
  | .or => old ||| x
  | .xor => old ^^^ x
  | .min => if BitVec.slt x old then x else old
  | .max => if BitVec.slt old x then x else old
  | .minu => if BitVec.ult x old then x else old
  | .swp => x

/-- What an atomic of `n` bytes writes over `old`; nothing when a comparison fails. -/
def atomicResult (kind : AccKind) (n old : Nat) : Option Nat :=
  match kind with
  | .amo op x _ => some (amoResult op (BitVec.ofNat 64 old) x).toNat
  | .cas c v _ => if old = c % 2 ^ (8 * n) then some v else none
  | _ => none

/-- The atomic is performed: one access that reads and writes. -/
def State.atomicNow (s : State) (a : Access) (p : Piece) : State :=
  let old := s.readPhys p.host p.key p.addr p.len
  let poison := s.physPoison p.host p.addr p.len
  let read := s.sources a s.clock p
  let s := s.settleFences a.group a.thread
  let s := match atomicResult a.kind p.len (ofBytesLE old) with
    | some v => let s := s.noteWrite a p; s.land a.writer (s.nextId + 1) p.host p.key p.addr (toBytesLE p.len v)
    | none => s
  let s := s.noteReads a.group a.thread a.seq read
  if a.dest = .none then s.dropAccess a.id
  else s.onAccess a.id fun x => { x with poison := poison, pieces := [{ p with stage := .performed, data := old }] }

/-- Whether an atomic goes to the home slice: the global forms, and class 2 (R170). -/
def atomicReach (a : Access) : Reach :=
  match a.kind with
  | .amo _ _ g | .cas _ _ g => if g then .home else .own
  | _ => .home

/-- `ATOMIC_PERFORM` (R170). -/
def execAtomicPerform (id : Nat) (s : State) : Out :=
  match s.access id with
  | none => notNow
  | some a => match a.kind, a.pieces with
    | .amo _ _ _, [p] | .cas _ _ _, [p] =>
      if p.stage ≠ .pending ∨ !s.mayPerform a p ∨ s.seenFirst a p ∨ (p.host ∧ p.cc = 3) then notNow
      else reach s a p (atomicReach a) fun s => .next (s.atomicNow a p)
    | _, _ => notNow

/-- Whether access `a` is an AtomicOp on its way to the root complex. -/
def Access.isPcie (a : Access) : Bool := overPcie a.kind && a.pieces.any fun p => p.host && p.cc == 3 && p.stage == .pending

/-- A failed AtomicOp: the destination becomes full with its old value and marks, and the thread takes `PROT` (R392). -/
def State.failAtomic (s : State) (a : Access) : State :=
  let keep (th : Thread) (r : Nat) : Thread := th.setReg r { th.reg r with full := true, mark := false }
  let s := match a.dest with
    | .scalar d _ => s.onThread a.group a.thread fun th => keep th d.toNat
    | .pair d => s.onThread a.group a.thread fun th => keep (keep th d.toNat) (d.toNat + 1)
    | _ => s
  (s.postFault a.group a.thread Cause.prot (BitVec.ofNat 64 a.va) (some (a.va, { atomic := true, user := a.user }))).dropAccess a.id

/-- `ATOMICOP_COMPLETION` (R392): the root complex has performed the atomic, or refuses it. -/
def execAtomicopCompletion (id : Nat) (ok : Bool) (s : State) : Out :=
  match s.access id with
  | none => notNow
  | some a => match a.pieces with
    | [p] =>
      if !a.isPcie ∨ !s.mayPerform a p ∨ s.seenFirst a p ∨ !s.mayReturn (s.group a.group).core then notNow
      else if !ok then .next (s.failAtomic a)
      else
        let s := s.atomicNow a p
        match s.access id with
        | some x => .next (s.deliverData x)
        | none => .next s
    | _ => notNow

/-- The shortest completion timeout of each range of Device Control 2, in cycles of 2.4 GHz: 50 us for value 0 (R391); the other codes
are those of PCI Express (PRESUMED, assumption 12). -/
def timeoutCycles (range : Nat) : Nat :=
  match range with
  | 2 => 2400000
  | 5 => 38400000
  | 6 => 156000000
  | 9 => 624000000
  | 10 => 2400000000
  | 13 => 9600000000
  | 14 => 40800000000
  | _ => 120000

/-- `ATOMICOP_TIMEOUT` (R391, R392): the request of the AtomicOp goes out; if it has, and no completion has come within the timeout,
it fails. -/
def execAtomicopTimeout (id : Nat) (s : State) : Out :=
  match s.access id with
  | none => notNow
  | some a => match a.pieces, a.sent with
    | [p], none => if !a.isPcie ∨ !s.mayPerform a p ∨ s.seenFirst a p then notNow
      else .next (s.onAccess id fun x => { x with sent := some s.cycle })
    | [_], some c => whenOk (a.isPcie && decide (c + timeoutCycles s.port.timeout.toNat ≤ s.cycle) && s.mayReturn (s.group a.group).core)
        (.next (s.failAtomic a))
    | _, _ => notNow

/-! ## Additions at the home slice (R172-R175) -/

/-- The addition `id` is applied: one rounding to nearest, no flag. -/
def State.addNow (s : State) (id : Nat) : State :=
  match s.access id with
  | none => s
  | some a => match a.kind, a.pieces with
    | .faadd dbl x _ core kidx, p :: _ =>
      let f := if dbl then FFmt.f64 else FFmt.f32
      let v := ofBytesLE (s.readPhys p.host p.key p.addr p.len)
      let r := fAdd f .rne ⟨core, kidx.toNat⟩ v (x.toNat % 2 ^ (8 * p.len))
      let read := s.sources a s.clock p
      let s := (s.noteWrite a p).seize p.addr p.len 0 true
      let s := s.land a.writer (s.nextId + 1) p.host p.key p.addr (toBytesLE p.len r.bits)
      (s.noteReads a.group a.thread a.seq read).dropAccess id
    | _, _ => s

/-- The physical address of an access. -/
def Access.where (a : Access) : Nat := (a.pieces.headD { host := false, addr := 0, key := 0, cc := 0, off := 0, len := 0 }).addr

/-- Pending ordered additions of the slice that homes an address. -/
def State.slicePending (s : State) (addr : Nat) : Nat :=
  ((s.seqs.filter fun q => dieOf q.addr == dieOf addr && sliceOf q.addr == sliceOf addr).map (·.pending.length)).sum

/-- Unordered additions queued at the line of an address. -/
def State.lineQueued (s : State) (addr : Nat) : Nat :=
  ((s.seqs.filter fun q => q.addr / Config.line == addr / Config.line).map (·.queued.length)).sum

/-- The open sequence of a location. -/
def State.seqAt (s : State) (addr : Nat) : Option Sequence := s.seqs.find? (·.addr == addr)

/-- Whether the number of an ordered addition makes it an unordered one: applied already, or past LAST (R175). DESIGN CHOICE (assumption
94): or pending already. -/
def Sequence.outside (q : Sequence) (n : Nat) : Bool :=
  decide (n < q.next) || q.pending.any (·.1 == n) || q.last.any fun m => decide (m < n)

/-- Whether the slice has room for an addition (R175). -/
def State.hasRoom (s : State) (addr : Nat) (num : Option (Nat × Bool)) : Bool :=
  let q := s.seqAt addr
  let expected := (q.map (·.next)).getD 0
  match num with
  | some (n, _) =>
    if q.any (·.outside n) then decide (s.lineQueued addr < 64)
    else n == expected || decide (s.slicePending addr < 512)
  | none => q.isNone || decide (s.lineQueued addr < 64)

/-- Applies the numbers of a sequence that are at hand, in order, with fuel; closes it after LAST, when the queued unordered
additions follow (R173, R174). -/
def State.advanceSeq : Nat → State → Nat → State
  | 0, s, _ => s
  | fuel + 1, s, addr =>
    match s.seqAt addr with
    | none => s
    | some q => match q.pending.find? fun e => e.1 == q.next with
      | some (n, id) =>
        let s := s.addNow id
        let s := { s with seqs := s.seqs.map fun x => if x.addr = addr
          then { x with next := n + 1, pending := x.pending.filter (·.1 != n) } else x }
        State.advanceSeq fuel s addr
      | none =>
        if q.last.any fun m => decide (m < q.next) then
          q.queued.foldl State.addNow { s with seqs := s.seqs.filter (·.addr != addr) }
        else s

/-- The state with the sequence of a location changed by `f`. -/
def State.onSeq (s : State) (addr : Nat) (f : Sequence → Sequence) : State :=
  { s with seqs := s.seqs.map fun q => if q.addr = addr then f q else q }

/-- Accepts an unordered addition: queued behind an open sequence of its location, else applied at once (R174). -/
def State.acceptUnordered (s : State) (addr id : Nat) : State :=
  match s.seqAt addr with
  | none => s.addNow id
  | some _ => s.onSeq addr fun q => { q with queued := q.queued ++ [id], arrived := q.arrived ++ [id] }

/-- Pending additions `ids` of a location, above the number that carried LAST, are unordered ones: queued in the order of arrival among
the others; those that find no room at their line are retried (R174, R175). -/
def State.queueAbove (s : State) (addr : Nat) (ids : List Nat) : State :=
  let room := 64 - s.lineQueued addr
  let s := s.onSeq addr fun q => { q with
    pending := q.pending.filter fun e => !ids.contains e.2
    queued := q.arrived.filter fun i => q.queued.contains i || (ids.take room).contains i
    arrived := q.arrived.filter fun i => !(ids.drop room).contains i }
  (ids.drop room).foldl (fun s i => s.onAccess i fun x =>
    { x with retried := true, pieces := x.pieces.map fun p => { p with stage := .pending } }) s

/-- Accepts an ordered addition (R173). -/
def State.acceptOrdered (s : State) (addr id n : Nat) (last : Bool) : State :=
  let s := if (s.seqAt addr).isNone then { s with seqs := s.seqs ++ [{ addr := addr, next := 0 }] } else s
  if (s.seqAt addr).any (·.outside n) then s.acceptUnordered addr id
  else
    let above := if last then (((s.seqAt addr).map (·.pending)).getD []).filter fun e => decide (n < e.1) else []
    let s := s.onSeq addr fun q =>
      { q with pending := q.pending ++ [(n, id)], arrived := q.arrived ++ [id], last := if last then some n else q.last }
    let s := s.queueAbove addr (above.map (·.2))
    s.advanceSeq (s.acc.length + 1) addr

/-- `FAADD_APPLY`: the addition reaches its home slice, which has room for it (R172-R175). -/
def execFaaddApply (id : Nat) (s : State) : Out :=
  match s.access id with
  | none => notNow
  | some a => match a.kind, a.pieces with
    | .faadd _ _ num _ _, [p] =>
      if p.stage ≠ .pending ∨ !s.mayPerform a p ∨ s.seenFirst a p ∨ !s.hasRoom p.addr num then notNow
      else reach s a p .home fun s =>
        let s := s.onAccess id fun x => { x with pieces := [{ p with stage := .performed }] }
        match num with
        | none => .next (s.acceptUnordered p.addr id)
        | some (n, last) => .next (s.acceptOrdered p.addr id n last)
    | _, _ => notNow

/-- `FAADD_RETRY`: the slice has no room, and the core retries (R175). -/
def execFaaddRetry (id : Nat) (s : State) : Out :=
  match s.access id with
  | none => notNow
  | some a => match a.kind, a.pieces with
    | .faadd _ _ num _ _, [p] =>
      whenOk (p.stage == .pending && !s.hasRoom p.addr num) (.next (s.onAccess id fun x => { x with retried := true }))
    | _, _ => notNow

/-! ## Walks and copies -/

/-- Whether walk `id` has one of its die's walkers: the oldest 128 have (R366). -/
def State.hasWalker (s : State) (w : Walk) : Bool :=
  ((s.walks.filter fun x => dieOfCore x.core == dieOfCore w.core).take Config.walkers).any (·.id == w.id)

/-- The TLBs of a core and its cluster with a translation added; the oldest make room. -/
def State.fillTlb (s : State) (core : Nat) (e : TlbEntry) : State :=
  let add (n : Nat) (es : List TlbEntry) : List TlbEntry := (e :: es.filter fun x => !(x.va == e.va && x.size == e.size)).take n
  (s.onCore core fun c => { c with tlb := add 64 c.tlb }).onCluster (clusterOf core) fun k => { k with tlb := add 2048 k.tlb }

/-- `PAGE_WALK_COMPLETE`: the translation is at hand, or the thread is suspended on a fault record (R100, R241, R369). -/
def execPageWalkComplete (id : Nat) (s : State) : Out :=
  match s.walks.find? (·.id == id) with
  | none => notNow
  | some w =>
    if !s.hasWalker w then notNow
    else
      let s := { s with walks := s.walks.filter (·.id != id) }
      let waits := (s.thread w.group w.thread).wait == some (.walk id)
      match walkTable s (s.group w.group).part w.va with
      | some e =>
        let s := s.fillTlb w.core e
        .next (if waits then s.onThread w.group w.thread fun th => { th with wait := none } else s)
      | none => if !waits then .next s else
        let r := { s.threadRecord 1 Cause.page w.type w.va w.group w.thread with target := .thread w.group w.thread }
        let s := s.onThread w.group w.thread fun th => { th with wait := some (.fault s.nextId) }
        .next (s.queueFault (dieOfCore w.core) r)

/-- The granule maps of a partition's trunk and live branches. -/
def Partition.maps (p : Partition) : List (Tab Leaf) :=
  p.trunk :: (p.branches.filter fun b => !b.2.dropped).map fun b => b.2.granules

/-- The module offsets of the granules that a partition's branches map. -/
def Partition.copies (p : Partition) : List Nat := p.maps.flatMap fun m => m.map fun g => g.2.base

/-- The base of a die's locker. -/
def Die.locker (d : Die) : Nat := dieOffset (bitsOf 44 40 d.lkBase.toNat) (bitsOf 39 0 d.lkBase.toNat)

/-- Whether a die's locker can hold `n` more bytes (R89, R374). -/
def State.lockerHas (s : State) (d n : Nat) : Bool := decide ((s.die d).lkUsed + n ≤ (s.die d).lkSize)

/-- The lowest granule of a die's locker that holds no copy. -/
def State.lockerGranule (s : State) (d : Nat) : Nat :=
  let base := (s.die d).locker
  let used := s.parts.flatMap fun p => p.2.copies
  (((List.range ((s.die d).lkSize / Config.granule)).map fun i => base + i * Config.granule).find? fun a => !used.contains a).getD base

/-- The changes of memory after a granule at `a` has been copied to `dst`: readers of the copy may miss what they may miss of the
original. -/
def copyPast (host : Bool) (a dst : Nat) (p : Past) : List Past :=
  let own := if p.host || decide (p.addr + p.bytes.length ≤ dst ∨ dst + Config.granule ≤ p.addr) then [p] else []
  if p.host = host ∧ a ≤ p.addr ∧ p.addr < a + Config.granule then own ++ [{ p with host := false, addr := p.addr - a + dst }] else own

/-- A granule is copied, with the poison of its lines (R89, R410); no cache, of the module or the host, keeps lines of its place (R385). -/
def State.copyGranule (s : State) (l : Leaf) (dst : Nat) : State :=
  let bad := s.poison.filter fun x => !l.host && decide (l.base ≤ x.1 * 128 ∧ x.1 * 128 < l.base + Config.granule)
  let s := ((s.recallLines false dst Config.granule none none).seize dst Config.granule 0 true).writePhys false l.key dst
    (s.readPhys l.host l.key l.base Config.granule)
  let s := { s with past := s.past.flatMap (copyPast l.host l.base dst) }
  let kept := s.poison.filter fun x => !decide (dst ≤ x.1 * 128 ∧ x.1 * 128 < dst + Config.granule)
  { s with poison := bad.foldl (fun m x => Tab.put (x.1 - l.base / 128 + dst / 128) x.2 m) kept }

/-- An access whose pieces lie in granule `l`, moved to the copy at `dst`. -/
def Access.moveGranule (a : Access) (l : Leaf) (dst : Nat) : Access :=
  let here (p : Piece) : Bool := !p.pool && (p.stage == .pending || a.kind.adds) && p.host == l.host && decide (l.base ≤ p.addr ∧ p.addr < l.base + Config.granule)
  { a with pieces := a.pieces.map fun p => if here p
      then { p with host := false, addr := p.addr - l.base + dst, cc := if p.cc = 3 then 0 else p.cc } else p }

/-- The accesses under way of the branch that has its own copy of a granule from now on go to that copy, with the ordered sequences that
their additions stand in (R89, R312). -/
def State.moveAccesses (s : State) (part branch granule : Nat) (l : Leaf) (dst : Nat) : State :=
  let mine (a : Access) : Bool := (s.group a.group).part == part && s.ownerOf part a.branch granule == branch
  let ids := (s.acc.filter fun a => mine a && a.moveGranule l dst != a).map (·.id)
  let goes (q : Sequence) : Bool := decide (l.base ≤ q.addr ∧ q.addr < l.base + Config.granule) && q.arrived.any fun i => ids.contains i
  let s' := s.dropRequests ids
  { s' with acc := s'.acc.map fun a => if mine a then a.moveGranule l dst else a
            seqs := s'.seqs.map fun q => if goes q then { q with addr := q.addr - l.base + dst } else q }

/-- Whether granule leaf `l` lies in the locker of its die and no other live view of the module maps it. -/
def State.freesCopy (s : State) (l : Leaf) : Bool :=
  let d := s.die (dieOf l.base)
  !l.host && decide (d.locker ≤ l.base ∧ l.base < d.locker + d.lkSize)
    && !(s.parts.any fun p => p.2.copies.contains l.base)

/-- The locker has the room of a copy that no view maps any longer (R90). -/
def State.freeCopy (s : State) (l : Leaf) : State :=
  if s.freesCopy l then s.onDie (dieOf l.base) fun d => { d with lkUsed := d.lkUsed - Config.granule } else s

/-- A granule copy takes effect (R89): the branch whose view the writer has of the granule sees its own copy, in the locker of the
original's home die. A copy of it that was under way is this one. -/
def State.copyNow (s : State) (part branch granule core : Nat) (l : Leaf) : State :=
  let branch := s.ownerOf part branch granule
  let s := { s with cows := s.cows.filter fun c => !(c.part == part && c.branch == branch && c.granule == granule) }
  let d := if l.host then dieOfCore core else dieOf l.base
  let dst := s.lockerGranule d
  let s := (s.copyGranule l dst).moveAccesses part branch granule l dst
  let s := s.onPart part fun p =>
    p.putGranule branch granule { l with host := false, base := dst, cow := false, cc := if l.cc = 3 then 0 else l.cc }
  (s.onDie d fun x => { x with lkUsed := x.lkUsed + Config.granule }).freeCopy l

/-- `COW_COPY_COMPLETE` (R89): once the locker can hold the copy. -/
def execCowCopyComplete (id : Nat) (s : State) : Out :=
  match s.cows.find? (·.id == id) with
  | none => notNow
  | some c =>
    if !s.lockerHas (if c.leaf.host then dieOfCore c.core else dieOf c.leaf.base) Config.granule then notNow
    else .next { s.copyNow c.part c.branch c.granule c.core c.leaf with cows := s.cows.filter (·.id != id) }

/-! ## `FORK` takes effect (R312) -/

/-- Whether a store or atomic of the forking branch meets granule `g`, whose leaf is `l`, at a stage of its way; an addition that its slice
has accepted is on its way until it is applied. -/
def State.writesIn (s : State) (part b g : Nat) (l : Leaf) (st : Stage) : Bool :=
  s.acc.any fun a => a.kind.writes && (s.group a.group).part == part && s.ownerOf part a.branch g == s.ownerOf part b g
    && a.pieces.any fun p => !p.pool && (if a.kind.adds then st == .pending else p.stage == st) && p.host == l.host && decide (p.addr < l.base + Config.granule ∧ l.base < p.addr + p.len)

/-- Stores that were under way to forked granules land after the snapshot, in the forking branch alone: its own copies are made for
them. None while a locker has no room. -/
def State.forkLate (s : State) (part b core : Nat) : List Nat → Option State
  | [] => some s
  | g :: gs => match s.granuleLeaf part b g with
    | none => State.forkLate s part b core gs
    | some l =>
      if !s.writesIn part b g l .pending then State.forkLate s part b core gs
      else if !s.lockerHas (if l.host then dieOfCore core else dieOf l.base) Config.granule then none
      else State.forkLate (s.copyNow part b g core l) part b core gs

/-- A `FORK` of access `a` is performed: after the earlier stores of its thread, and after those that the cluster sees already. The
state, and the branch; none while it waits. -/
def State.forkNow (s : State) (a : Access) (b lo n : Nat) : Option (State × Nat) :=
  let part := (s.group a.group).part
  let gs := (List.range n).map (lo + ·)
  let shown := gs.any fun g => match s.granuleLeaf part b g with
    | some l => s.writesIn part b g l .visible
    | none => false
  if shown || s.acc.any (fun x => x.of a.group a.thread && decide (x.seq < a.seq) && x.kind.writes) then none
  else
    let r := s.makeBranch part b a.group lo n
    if r.2 = 0 then some r else (r.1.forkLate part b a.core gs).map fun s => (s, r.2)

/-! ## The directory's own steps -/

/-- The request that is served first: the oldest, then the lowest agent (R115). -/
def firstRequest (q : List (Nat × Nat × Nat)) : Option (Nat × Nat × Nat) :=
  q.foldl (fun best e => match best with
    | none => some e
    | some b => if e.1 < b.1 ∨ (e.1 = b.1 ∧ e.2.1 < b.2.1) then some e else some b) none

/-- `DIRECTORY_FORWARD` (R115): the first queued request has the line next. -/
def execDirectoryForward (line : Nat) (s : State) : Out :=
  let d := Tab.get {} line s.dir
  match d.busy, firstRequest d.queue with
  | none, some e =>
    let d := { d with busy := some e.2.2, queue := d.queue.filter (· != e), sharers := d.sharers.filter (· == e.2.1), owner := none }
    .next (({ s with dir := Tab.set {} line d s.dir } : State).takeLine line e.2.1)
  | _, _ => notNow

/-- `DIRECTORY_SWEEP` (R116): a listed agent that no longer holds the line answers absent and is removed; whether it still holds a clean
copy is open, since it may have dropped it silently (R113). -/
def execDirectorySweep (line agent : Nat) (s : State) : Out :=
  let d := Tab.get {} line s.dir
  let isLine (l : L2Line) : Bool := !l.host && l.line == line
  if !s.housekeeping 1 ∨ !d.sharers.contains agent then notNow
  else
    let holds : Bool := decide (agent = Config.clusters) || (s.cluster agent).l2.any isLine
    let (v, s) := s.freeVal
    if holds && (d.owner == some agent || v.getLsbD 0) then .next s
    else
      let s := if agent = Config.clusters then s else s.onCluster agent fun k => { k with l2 := k.l2.filter fun l => !isLine l }
      .next { s with dir := Tab.set {} line { d with sharers := d.sharers.filter (· != agent), owner := if d.owner = some agent then none else d.owner } s.dir }

/-- `HOST_SNOOP` (R389): the module's caches give up the whole line, a store that only its cluster sees there comes first, and the
bridge gives up the snooped half and keeps the other. -/
def execHostSnoop (half : Nat) (s : State) : Out :=
  match Tab.find half s.port.halves with
  | none => notNow
  | some _ =>
    if s.shownAt true (half * 64) 64 then notNow
    else
      let s := s.recallLines true (half / 2 * 128) 128 none none
      .next { s with port := { s.port with halves := limitHalves none (Tab.drop half s.port.halves) } }

end Sys2Proof.Machine
end

