-- ==== Sys2Proof/Machine/Flags.lean ====
section
/-! DEFINITION. Conditions and the flags of scalar instructions (spec 09 R229, R235, R256). Rounding flags stand in
`Machine/Float.lean`. -/

namespace Sys2Proof.Machine

/-- Whether a condition of `CMP` holds (R235). -/
def condHolds (c : Cond) (a b : Word) : Bool :=
  match c with
  | .eq => a == b
  | .ne => a != b
  | .lt => BitVec.slt a b
  | .ge => !BitVec.slt a b
  | .ltu => BitVec.ult a b
  | .geu => !BitVec.ult a b
  | .tst => a &&& b != 0#64
  | .tstn => a &&& b == 0#64

/-- The flag of a division: DZ when the divisor is zero (R229). -/
def divFlags (b : Word) : Flags := if b = 0#64 then dz else 0#5

/-- Whether a condition of `FCMP` holds (R256). -/
def fcondHolds (c : FCond) (x y : FVal) : Bool :=
  let u := x.isNan || y.isNan
  match c with
  | .eq => !u && x.cmp y == 0
  | .lt => !u && decide (x.cmp y < 0)
  | .le => !u && decide (x.cmp y ≤ 0)
  | .un => u

/-- The flags of `FCMP` (R256). -/
def fcondFlags (c : FCond) (x y : FVal) : Flags :=
  match c with
  | .eq | .un => signalFlag [x, y]
  | .lt | .le => if x.isNan || y.isNan then nv else 0#5

end Sys2Proof.Machine
end

