-- ==== Sys2Proof/Machine/Alu.lean ====
section
/-! DEFINITION. Scalar arithmetic, immediates, compares, predicates and select (spec 09 R228-R237). -/

namespace Sys2Proof.Machine

/-! ## Results -/

/-- The shift amount b[5:0] (R228). -/
def shiftAmount (b : Word) : Nat := b.toNat % 64

/-- A shift or rotate by `n` (R228, R233). -/
def shiftBy (k : ShiftKind) (a : Word) (n : Nat) : Word :=
  match k with
  | .shl => a <<< n
  | .shr => a >>> n
  | .sra => BitVec.sshiftRight a n
  | .rot => BitVec.rotateRight a n

/-- Bits [127:64] of the signed product (R228). -/
def mulHigh (a b : Word) : Word := BitVec.ofInt 64 (a.toInt * b.toInt / 2 ^ 64)

/-- Bits [127:64] of the unsigned product (R228). -/
def mulHighU (a b : Word) : Word := BitVec.ofNat 64 (a.toNat * b.toNat / 2 ^ 64)

/-- The position of a bit field (R230). -/
def fieldPos (b : Word) : Nat := b.toNat % 64

/-- The width of a bit field: 64 when the field is 0 (R230). -/
def fieldWidth (b : Word) : Nat := if b.toNat / 64 % 64 = 0 then 64 else b.toNat / 64 % 64

/-- `BEXT` (R230). -/
def bitExtract (a b : Word) : Word := BitVec.ofNat 64 (a.toNat / 2 ^ fieldPos b % 2 ^ fieldWidth b)

/-- The mask of `BINS` (R230). -/
def fieldMask (b : Word) : Word := BitVec.ofNat 64 ((2 ^ fieldWidth b - 1) * 2 ^ fieldPos b)

/-- `BINS` (R230). -/
def bitInsert (d a b : Word) : Word := (d &&& ~~~fieldMask b) ||| ((a <<< fieldPos b) &&& fieldMask b)

/-- A sign-extended ten-bit immediate. -/
def simm10 (imm : BitVec 10) : Word := imm.signExtend 64

/-- A sign-extended 17-bit immediate. -/
def simm17 (imm : BitVec 17) : Word := imm.signExtend 64

/-! ## Meanings -/

/-- `ADD` (R228). -/
def execAdd (d a b : SReg) (s : State) : Out := effect (.add d a b) s fun s => s.wr d (s.rd a + s.rd b)

/-- `SUB` (R228). -/
def execSub (d a b : SReg) (s : State) : Out := effect (.sub d a b) s fun s => s.wr d (s.rd a - s.rd b)

/-- `AND` (R228). -/
def execAnd (d a b : SReg) (s : State) : Out := effect (.and d a b) s fun s => s.wr d (s.rd a &&& s.rd b)

/-- `OR` (R228). -/
def execOr (d a b : SReg) (s : State) : Out := effect (.or d a b) s fun s => s.wr d (s.rd a ||| s.rd b)

/-- `XOR` (R228). -/
def execXor (d a b : SReg) (s : State) : Out := effect (.xor d a b) s fun s => s.wr d (s.rd a ^^^ s.rd b)

/-- `ANDN` (R228). -/
def execAndn (d a b : SReg) (s : State) : Out := effect (.andn d a b) s fun s => s.wr d (s.rd a &&& ~~~(s.rd b))

/-- `SHL` (R228). -/
def execShl (d a b : SReg) (s : State) : Out := effect (.shl d a b) s fun s => s.wr d (shiftBy .shl (s.rd a) (shiftAmount (s.rd b)))

/-- `SHR` (R228). -/
def execShr (d a b : SReg) (s : State) : Out := effect (.shr d a b) s fun s => s.wr d (shiftBy .shr (s.rd a) (shiftAmount (s.rd b)))

/-- `SRA` (R228). -/
def execSra (d a b : SReg) (s : State) : Out := effect (.sra d a b) s fun s => s.wr d (shiftBy .sra (s.rd a) (shiftAmount (s.rd b)))

/-- `ROT` (R228). -/
def execRot (d a b : SReg) (s : State) : Out := effect (.rot d a b) s fun s => s.wr d (shiftBy .rot (s.rd a) (shiftAmount (s.rd b)))

/-- `MIN` (R228). -/
def execMin (d a b : SReg) (s : State) : Out := effect (.min d a b) s fun s => s.wr d (if BitVec.slt (s.rd b) (s.rd a) then s.rd b else s.rd a)

/-- `MAX` (R228). -/
def execMax (d a b : SReg) (s : State) : Out := effect (.max d a b) s fun s => s.wr d (if BitVec.slt (s.rd a) (s.rd b) then s.rd b else s.rd a)

/-- `MINU` (R228). -/
def execMinu (d a b : SReg) (s : State) : Out := effect (.minu d a b) s fun s => s.wr d (if BitVec.ult (s.rd b) (s.rd a) then s.rd b else s.rd a)

/-- `MAXU` (R228). -/
def execMaxu (d a b : SReg) (s : State) : Out := effect (.maxu d a b) s fun s => s.wr d (if BitVec.ult (s.rd a) (s.rd b) then s.rd b else s.rd a)

/-- `MUL` (R228). -/
def execMul (d a b : SReg) (s : State) : Out := effect (.mul d a b) s fun s => s.wr d (s.rd a * s.rd b)

/-- `MULH` (R228). -/
def execMulh (d a b : SReg) (s : State) : Out := effect (.mulh d a b) s fun s => s.wr d (mulHigh (s.rd a) (s.rd b))

/-- `MULHU` (R228). -/
def execMulhu (d a b : SReg) (s : State) : Out := effect (.mulhu d a b) s fun s => s.wr d (mulHighU (s.rd a) (s.rd b))

/-- `DIV` (R229). -/
def execDiv (d a b : SReg) (s : State) : Out :=
  effect (.div d a b) s fun s => (s.wr d (BitVec.sdiv (s.rd a) (s.rd b))).orFlags (divFlags (s.rd b))

/-- `DIVU` (R229). -/
def execDivu (d a b : SReg) (s : State) : Out :=
  effect (.divu d a b) s fun s => (s.wr d (s.rd a / s.rd b)).orFlags (divFlags (s.rd b))

/-- `REM` (R229). -/
def execRem (d a b : SReg) (s : State) : Out :=
  effect (.rem d a b) s fun s => (s.wr d (BitVec.srem (s.rd a) (s.rd b))).orFlags (divFlags (s.rd b))

/-- `REMU` (R229). -/
def execRemu (d a b : SReg) (s : State) : Out :=
  effect (.remu d a b) s fun s => (s.wr d (s.rd a % s.rd b)).orFlags (divFlags (s.rd b))

/-- `CLZ` (R228). -/
def execClz (d a : SReg) (s : State) : Out := effect (.clz d a) s fun s => s.wr d (BitVec.ofNat 64 (leadingZeros 64 (s.rd a).toNat))

/-- `CTZ` (R228). -/
def execCtz (d a : SReg) (s : State) : Out := effect (.ctz d a) s fun s => s.wr d (BitVec.ofNat 64 (trailingZeros 64 (s.rd a).toNat))

/-- `POPC` (R228). -/
def execPopc (d a : SReg) (s : State) : Out := effect (.popc d a) s fun s => s.wr d (BitVec.ofNat 64 (popCount 64 (s.rd a).toNat))

/-- `SXB` (R228). -/
def execSxb (d a : SReg) (s : State) : Out := effect (.sxb d a) s fun s => s.wr d (((s.rd a).setWidth 8).signExtend 64)

/-- `SXH` (R228). -/
def execSxh (d a : SReg) (s : State) : Out := effect (.sxh d a) s fun s => s.wr d (((s.rd a).setWidth 16).signExtend 64)

/-- `SXW` (R228). -/
def execSxw (d a : SReg) (s : State) : Out := effect (.sxw d a) s fun s => s.wr d (((s.rd a).setWidth 32).signExtend 64)

/-- `ZXB` (R228). -/
def execZxb (d a : SReg) (s : State) : Out := effect (.zxb d a) s fun s => s.wr d (((s.rd a).setWidth 8).setWidth 64)

/-- `ZXH` (R228). -/
def execZxh (d a : SReg) (s : State) : Out := effect (.zxh d a) s fun s => s.wr d (((s.rd a).setWidth 16).setWidth 64)

/-- `ZXW` (R228). -/
def execZxw (d a : SReg) (s : State) : Out := effect (.zxw d a) s fun s => s.wr d (((s.rd a).setWidth 32).setWidth 64)

/-- `BEXT` (R230). -/
def execBext (d a b : SReg) (s : State) : Out := effect (.bext d a b) s fun s => s.wr d (bitExtract (s.rd a) (s.rd b))

/-- `BINS` (R230). -/
def execBins (d a b : SReg) (s : State) : Out :=
  effect (.bins d a b) s fun s => s.wr d (bitInsert (s.rd d) (s.rd a) (s.rd b))

/-- `LEA` (R231). -/
def execLea (d a b : SReg) (f : BitVec 3) (s : State) : Out :=
  effect (.lea d a b f) s fun s => s.wr d (s.rd a + (s.rd b <<< f.toNat))

/-- `CMP` (R235). -/
def execCmp (pd : PReg) (c : Cond) (a b : SReg) (s : State) : Out :=
  effect (.cmp pd c a b) s fun s => s.wrP pd (condHolds c (s.rd a) (s.rd b))

/-- `CMPI` (R235). -/
def execCmpi (pd : PReg) (c : Cond) (a : SReg) (imm : BitVec 10) (s : State) : Out :=
  effect (.cmpi pd c a imm) s fun s => s.wrP pd (condHolds c (s.rd a) (simm10 imm))

/-- `SEL` (R237). -/
def execSel (d : SReg) (p : PReg) (a b : SReg) (s : State) : Out :=
  effect (.sel d p a b) s fun s => s.wr d (if s.rdP p then s.rd a else s.rd b)

/-- `ADDI` (R232). -/
def execAddi (d a : SReg) (imm : BitVec 10) (s : State) : Out := effect (.addi d a imm) s fun s => s.wr d (s.rd a + simm10 imm)

/-- `ANDI` (R232). -/
def execAndi (d a : SReg) (imm : BitVec 10) (s : State) : Out := effect (.andi d a imm) s fun s => s.wr d (s.rd a &&& simm10 imm)

/-- `ORI` (R232). -/
def execOri (d a : SReg) (imm : BitVec 10) (s : State) : Out := effect (.ori d a imm) s fun s => s.wr d (s.rd a ||| simm10 imm)

/-- `XORI` (R232). -/
def execXori (d a : SReg) (imm : BitVec 10) (s : State) : Out := effect (.xori d a imm) s fun s => s.wr d (s.rd a ^^^ simm10 imm)

/-- `SHFI` (R233). -/
def execShfi (k : ShiftKind) (d a : SReg) (n : BitVec 6) (s : State) : Out :=
  effect (.shfi k d a n) s fun s => s.wr d (shiftBy k (s.rd a) n.toNat)

/-- `MOVI` (R234). -/
def execMovi (d : SReg) (imm : BitVec 17) (s : State) : Out := effect (.movi d imm) s fun s => s.wr d (simm17 imm)

/-- `LUI` (R234). -/
def execLui (d : SReg) (imm : BitVec 17) (s : State) : Out := effect (.lui d imm) s fun s => s.wr d (simm17 imm <<< 17)

/-- `PAND` (R236). -/
def execPand (pd pa pb : PReg) (s : State) : Out := effect (.pand pd pa pb) s fun s => s.wrP pd (s.rdP pa && s.rdP pb)

/-- `POR` (R236). -/
def execPor (pd pa pb : PReg) (s : State) : Out := effect (.por pd pa pb) s fun s => s.wrP pd (s.rdP pa || s.rdP pb)

/-- `PXOR` (R236). -/
def execPxor (pd pa pb : PReg) (s : State) : Out := effect (.pxor pd pa pb) s fun s => s.wrP pd (s.rdP pa != s.rdP pb)

/-- `PANDN` (R236). -/
def execPandn (pd pa pb : PReg) (s : State) : Out := effect (.pandn pd pa pb) s fun s => s.wrP pd (s.rdP pa && !s.rdP pb)

/-- `PNOT` (R236). -/
def execPnot (pd pa : PReg) (s : State) : Out := effect (.pnot pd pa) s fun s => s.wrP pd (!s.rdP pa)

/-- `PSET` (R236). -/
def execPset (pd : PReg) (s : State) : Out := effect (.pset pd) s fun s => s.wrP pd true

/-- `PCLR` (R236). -/
def execPclr (pd : PReg) (s : State) : Out := effect (.pclr pd) s fun s => s.wrP pd false

end Sys2Proof.Machine
end

