-- ==== Sys2Proof/Machine/Control.lean ====
section
/-! DEFINITION. Branches, calls and jumps, system instructions, unassigned words and posted traps (spec 09 R249-R251, R264,
R265; 08 R213, R221; 19 R362-R364; 03 R92). -/

namespace Sys2Proof.Machine

/-- The program counter of the issuing thread after the bundle. -/
def State.jump (s : State) (target : Word) : State := s.onCur fun t => { t with pc := target }

/-- `BR` (R249). -/
def execBr (p : PReg) (n : Bool) (disp : BitVec 20) (s : State) : Out :=
  effect (.br p n disp) s fun s =>
    s.jump (if s.rdP p != n then s.iss.pc + disp.signExtend 64 * 4#64 else s.link)

/-- `CALL` (R250). -/
def execCall (disp : BitVec 24) (s : State) : Out :=
  effect (.call disp) s fun s => (s.wr 1#7 s.link).jump (s.iss.pc + disp.signExtend 64 * 4#64)

/-- `JMPR` (R251): the target is read before the link is written; a misaligned target traps (R210). -/
def execJmpr (d a : SReg) (s : State) : Out :=
  guarded (.jmpr d a) s fun s =>
    if (s.rd a).toNat % 4 ≠ 0 then trapOut s Cause.align (s.rd a)
    else .next ((s.wr d s.link).jump (s.rd a))

/-- `NOP` (R264). -/
def execNop (s : State) : Out := effect .nop s fun s => s

/-- `TRAP` (R264, R265): `SWTRAP` is taken after the bundle. -/
def execTrap (a : SReg) (s : State) : Out :=
  effect (.trap a) s fun s => { s with iss := { s.iss with after := some (Cause.swtrap, s.rd a) } }

/-- `BREAK` (R264, R265): taken after the bundle. -/
def execBrk (s : State) : Out :=
  effect .brk s fun s => { s with iss := { s.iss with after := some (Cause.brk, 0#64) } }

/-- `ERET` (R363): outside a handler it is illegal; in a cancel handler it ends the thread (R92). -/
def execEret (s : State) : Out :=
  guarded .eret s fun s =>
    if !s.pre.inHandler then trapOut s Cause.illegal s.wordVal
    else if s.pre.inCancel then .next { s with iss := { s.iss with leave := some none } }
    else if s.pre.epc.toNat % 4 ≠ 0 then trapOut s Cause.align s.pre.epc
    else .next (s.onCur fun t => t.leaveHandler s.cycle)

/-- `HALT` (R264): the thread stops issuing and keeps its slot; from a user thread it traps `PRIV` (R210). -/
def execHalt (s : State) : Out := effect .halt s fun s => s.onCur fun t => { t with halted := true }

/-- `TIME` (R264). -/
def execTime (d : SReg) (s : State) : Out := effect (.time d) s fun s => s.wr d (BitVec.ofNat 64 s.cycle)

/-- Sets `c.vlen`; an operand above 4,096 traps `LENGTH` and writes nothing (R221). -/
def setVlen (s : State) (v : Word) : Out :=
  if 4096 < v.toNat then trapOut s Cause.length v else .next (s.onCur fun t => { t with vlen := v.setWidth 13 })

/-- `VSETL` (R264). -/
def execVsetl (a : SReg) (s : State) : Out := guarded (.vsetl a) s fun s => setVlen s (s.rd a)

/-- `KIDX` (R264). -/
def execKidx (a : SReg) (s : State) : Out := effect (.kidx a) s fun s => s.onCur fun t => { t with kidx := s.rd a }

/-- `VLEN_WRITE` (R221): the issuing thread's write of `c.vlen`. -/
def execVlenWrite (v : Word) (s : State) : Out := setVlen s v

/-- `UNASSIGNED_ENCODING` (R213): the word traps `ILLEGAL`, with the word as the value. -/
def execUnassignedEncoding (w : Code) (s : State) : Out := trapOut s Cause.illegal (w.setWidth 64)

/-! ## Posted traps -/

/-- The pending posted trap with the lowest code, the earliest of those (R364). -/
def firstPosted (ps : List Posted) : Option Posted :=
  ps.foldl (fun best p => match best with
    | none => some p
    | some b => if p.cause < b.cause then some p else some b) none

/-- The list without its first member equal to `p`. -/
def dropOne (p : Posted) : List Posted → List Posted
  | [] => []
  | q :: qs => if q = p then qs else q :: dropOne p qs

/-- Whether a posted trap, or `CANCEL`, stands before thread `th`'s next bundle. -/
def Thread.trapPending (th : Thread) : Bool := th.cancelDue || (!th.inHandler && !th.inCancel && !th.posted.isEmpty)

/-- The thread takes `CANCEL`, or its first posted trap: `c.epc` names the bundle that has not issued (R135, R362). -/
def State.takePosted (s : State) (g t : Nat) : State :=
  let th := s.thread g t
  if th.cancelDue then s.takeCancel g t
  else match firstPosted th.posted with
    | none => s
    | some p => (s.onThread g t fun th => { th with posted := dropOne p th.posted }).deliver g t p.cause p.tval th.pc p.access

/-- `POSTED_TRAP_TAKEN` (R135, R364): at a turn, and the cores of a stopped partition have none (R380). -/
def execPostedTrapTaken (g t : Nat) (s : State) : Out :=
  whenOk (s.hasThread g t && !(s.partn (s.partOf (s.group g).core)).stop && !(s.thread g t).exited && (s.thread g t).place == .inSlot && (s.thread g t).trapPending)
    (.next (s.takePosted g t))

/-- `CANCEL_HANDLER_LIMIT` (R92): the 4,096th bundle of a cancel handler ends the thread. -/
def execCancelHandlerLimit (g t : Nat) (s : State) : Out :=
  whenOk (s.hasThread g t && !(s.thread g t).exited && (s.thread g t).inCancel && decide (4096 ≤ (s.thread g t).cancelBundles))
    (.next (s.forceOut g t))

end Sys2Proof.Machine
end

