-- ==== Sys2Proof/Machine/Links.lean ====
section
/-! DEFINITION. The links of the module: where the dies lie, the ports and die-to-die links, their flits, and what modules send each
other about names (spec 01 R13, R14; 03 R61; 20 R399-R402; 21 R410, R411). -/

namespace Sys2Proof.Machine

/-! ## The dies and their links (R13, R14) -/

/-- The die row of a die. -/
def dieRow (d : Nat) : Nat := d / 6
/-- The die column of a die. -/
def dieCol (d : Nat) : Nat := d % 6

/-- The number of die-to-die hops of a message: along the die row, then along the die column (R14). -/
def dieHops (a b : Nat) : Nat :=
  (dieRow a - dieRow b) + (dieRow b - dieRow a) + ((dieCol a - dieCol b) + (dieCol b - dieCol a))

/-- The pairs of dies that a die-to-die port joins: neighbours in a row, then neighbours in a column. -/
def dieLinks : List (Nat × Nat) :=
  ((List.range Config.dies).filter fun d => decide (dieCol d < 5)).map (fun d => (d, d + 1))
    ++ ((List.range Config.dies).filter fun d => decide (dieRow d < 3)).map fun d => (d, d + 6)

/-! ## Ports (R24, R399-R402) -/

/-- Port `p`. -/
def State.portn (s : State) (p : Nat) : Port := Tab.get {} p s.ports
/-- The state with port `p` changed by `f`. -/
def State.onPort (s : State) (p : Nat) (f : Port → Port) : State := { s with ports := Tab.alter {} p f s.ports }
/-- Skelpimir ports of a module (R24). -/
def pods : Nat := 32

/-- Whether a number names a port: a Skelpimir port, or after those a die-to-die link (R13, R24). -/
def portNamed (p : Nat) : Bool := decide (p < pods + dieLinks.length)

/-- The dies at which a port ends (R411). -/
def portDies (p : Nat) : List Nat :=
  if p < pods then [Config.portDie p % Config.dies] else match dieLinks[p - pods]? with | some e => [e.1, e.2] | none => []

/-- The lanes that port `p` runs on: eight, with one spare in place of a failed lane; with two or more failed lanes four, at half
rate (R402). -/
def State.lanes (s : State) (p : Nat) : Nat := if (Tab.get [] p s.firm.record.lanes).eraseDups.length < 2 then 8 else 4

/-- `x ≥ n` of sequence numbers (R401). -/
def seqGe (x n : BitVec 12) : Bool := decide ((x - n).toNat < 2048)

/-- The bytes of a flit. -/
def flitBytes (flit : Nat) : List Byte := toBytesLE 256 flit

/-- One byte into a CRC-64 of ECMA-182: polynomial 0x42F0E1EBA9EA3693, most significant bit first, from zero. -/
def crcByte : Nat → BitVec 64 → BitVec 64
  | 0, c => c
  | n + 1, c => crcByte n (if c.getLsbD 63 then (c <<< 1) ^^^ 0x42F0E1EBA9EA3693#64 else c <<< 1)

/-- The CRC-64 of a byte string. -/
def crc64 (bs : List Byte) : BitVec 64 := bs.foldl (fun c b => crcByte 8 (c ^^^ (b.setWidth 64 : BitVec 64) <<< (56 : Nat))) 0#64

/-- Word 0 of a flit's header. -/
def flitHead (flit : Nat) : Nat := flit % 2 ^ 64
/-- SEQ of a flit. -/
def flitSeq (flit : Nat) : BitVec 12 := BitVec.ofNat 12 (bitsOf 63 52 (flitHead flit))
/-- The virtual channel of a flit. -/
def flitVc (flit : Nat) : BitVec 3 := BitVec.ofNat 3 (bitsOf 26 24 (flitHead flit))
/-- ACK of a flit. -/
def flitAck (flit : Nat) : BitVec 12 := BitVec.ofNat 12 (bitsOf 51 40 (flitHead flit))
/-- EPOCH of a flit. -/
def flitEpoch (flit : Nat) : BitVec 12 := BitVec.ofNat 12 (bitsOf 39 28 (flitHead flit))
/-- NAK of a flit. -/
def flitNakBit (flit : Nat) : Bool := bitOf 27 (flitHead flit)
/-- The unit count of a flit. -/
def flitCount (flit : Nat) : Nat := bitsOf 23 16 (flitHead flit)
/-- MAP of a flit. -/
def flitMap (flit : Nat) : Nat := flitHead flit % 65536

/-- The bytes that the units of a flit take. -/
def unitBytes (flit : Nat) : Nat := ((List.range (flitCount flit)).map fun i => if bitOf i (flitMap flit) then 1 else 32).sum

/-- Whether a flit is laid out as R399 says and its CRC checks. -/
def flitOk (flit : Nat) : Bool :=
  decide (1 ≤ flitCount flit ∧ flitCount flit ≤ 16) && decide (unitBytes flit ≤ 224) && decide (flitMap flit < 2 ^ flitCount flit)
    && crc64 ((flitBytes flit).take 248) == BitVec.ofNat 64 (ofBytesLE ((flitBytes flit).drop 248))

/-- A unit of a flit: a literal, or an index into the table. -/
inductive FlitUnit where
  | literal (v : BitVec 256)
  | index (i : Nat)
  deriving DecidableEq, Repr

/-- The units of a payload, by the bits of MAP from `i` on. -/
def unitsGo (map : Nat) : Nat → Nat → List Byte → List FlitUnit
  | 0, _, _ => []
  | n + 1, i, bs =>
    if bitOf i map then .index (ofBytesLE (bs.take 1)) :: unitsGo map n (i + 1) (bs.drop 1)
    else .literal (BitVec.ofNat 256 (ofBytesLE (bs.take 32))) :: unitsGo map n (i + 1) (bs.drop 32)

/-- The units of a flit in order. -/
def flitUnits (flit : Nat) : List FlitUnit := unitsGo (flitMap flit) (flitCount flit) 0 ((flitBytes flit).drop 16)

/-- A port with one unit inserted into its table, modulo 256. -/
def Port.insert (p : Port) (v : BitVec 256) : Port :=
  { p with table := Tab.put p.tableNext.toNat v p.table, tableNext := p.tableNext + 1#8 }

/-- A port with the pending insertions of flits up to EPOCH applied (R401). -/
def Port.applyEpoch (p : Port) (e : BitVec 12) : Port :=
  let due := p.waiting.filter fun w => seqGe e w.1
  due.foldl (fun p w => p.insert w.2) { p with waiting := p.waiting.filter (fun w => !seqGe e w.1), epoch := e }

/-- A unit as the receiver decodes it. -/
def Port.decode (p : Port) : FlitUnit → BitVec 256
  | .literal v => v
  | .index i => Tab.get 0#256 i p.table

/-- The literal units of a list. -/
def literals (us : List FlitUnit) : List (BitVec 256) := us.filterMap fun u => match u with | .literal v => some v | _ => none

/-- A port as it accepts a flit (R400, R401): pending insertions first, then the units, whose literals wait for a later EPOCH. -/
def Port.accept (p : Port) (flit : Nat) : Port :=
  let p := p.applyEpoch (flitEpoch flit)
  let us := flitUnits flit
  { p with
    rxLast := flitSeq flit
    nak := false
    units := us.map p.decode
    vc := flitVc flit
    rest := Tab.put (flitVc flit).toNat (Tab.get [] (flitVc flit).toNat p.rest ++ us.map p.decode) p.rest
    waiting := p.waiting ++ (literals us).map fun v => (flitSeq flit, v)
    credits := BitVec.ofNat 32 (flit / 2 ^ 96) }

/-- A port whose flits up to `ack` are acknowledged at cycle `now`: progress ends the count of resends. -/
def Port.acknowledge (p : Port) (now : Nat) (ack : BitVec 12) : Port :=
  if ack = p.acked ∨ !seqGe ack p.acked ∨ !seqGe (p.txNext - 1#12) ack then p
  else { p with acked := ack, unacked := p.unacked.filter (fun f => !seqGe ack (flitSeq f)), resends := 0, ackAt := now }

/-! ## Sending (R399-R401) -/

/-- The bytes of a unit. -/
def FlitUnit.bytes : FlitUnit → List Byte
  | .literal v => toBytesLE 32 v.toNat
  | .index i => toBytesLE 1 i

/-- MAP of units in order, from bit `i` on. -/
def unitMap : Nat → List FlitUnit → Nat
  | _, [] => 0
  | i, .literal _ :: us => unitMap (i + 1) us
  | i, .index _ :: us => 2 ^ i + unitMap (i + 1) us

/-- The flit that carries units (R399). -/
def flitOf (seq ack epoch : BitVec 12) (nak : Bool) (vc : BitVec 3) (credits : BitVec 32) (us : List FlitUnit) : Nat :=
  let head := seq.toNat * 2 ^ 52 + ack.toNat * 2 ^ 40 + epoch.toNat * 2 ^ 28 + bitNat nak * 2 ^ 27 + vc.toNat * 2 ^ 24
    + us.length * 2 ^ 16 + unitMap 0 us
  let pay := us.flatMap FlitUnit.bytes
  let body := toBytesLE 8 head ++ toBytesLE 8 (credits.toNat * 2 ^ 32) ++ pay ++ List.replicate (232 - pay.length) 0#8
  ofBytesLE (body ++ toBytesLE 8 (crc64 body).toNat)

/-- A sender's port with the units of acknowledged flits entered into its table (R401). -/
def Port.enterTable (p : Port) : Port :=
  let due := p.txWaiting.filter fun w => seqGe p.acked w.1
  due.foldl (fun p w => { p with txTable := Tab.put p.txTableNext.toNat w.2 p.txTable, txTableNext := p.txTableNext + 1#8 })
    { p with txWaiting := p.txWaiting.filter fun w => !seqGe p.acked w.1 }

/-- A unit as the sender encodes it: by its index when the table holds it. -/
def Port.encode (p : Port) (v : BitVec 256) : FlitUnit :=
  match p.txTable.find? (·.2 == v) with
  | some e => .index e.1
  | none => .literal v

/-- The units of virtual channel `vc` that go into one flit: sixteen at most, of 224 bytes at most. -/
def fillFlit (vc : BitVec 3) : Nat → Nat → List (BitVec 3 × FlitUnit) → List FlitUnit
  | 0, _, _ => []
  | _, _, [] => []
  | n + 1, room, (c, u) :: us => if c = vc ∧ u.bytes.length ≤ room then u :: fillFlit vc n (room - u.bytes.length) us else []

/-- A port sends what waits, as long as it is up and fewer than 1,024 flits stand unacknowledged, with fuel (R400). -/
def Port.flushGo (port now : Nat) : Nat → Port → Port
  | 0, p => p
  | fuel + 1, p => match p.outQ with
    | [] => p
    | (vc, _) :: _ =>
      if !p.up || decide (1024 ≤ p.unacked.length) then p
      else
        let p := p.enterTable
        let us := fillFlit vc 16 224 (p.outQ.map fun x => (x.1, p.encode x.2))
        let flit := flitOf p.txNext p.rxLast p.acked p.nak vc (Config.credits port p.txNext) us
        Port.flushGo port now fuel { p with
          outQ := p.outQ.drop us.length
          txNext := p.txNext + 1#12
          ackAt := if p.unacked = [] then now else p.ackAt
          unacked := p.unacked ++ [flit]
          txWaiting := p.txWaiting ++ (literals us).map fun v => (p.txNext, v) }

/-- The same with fuel for all that waits. -/
def State.flushPort (s : State) (p : Nat) : State := s.onPort p fun q => Port.flushGo p s.cycle q.outQ.length q

/-- The flits of port `p` that stand unacknowledged: on a die-to-die link, whose messages the manual does not lay out, an open number of
at most 1,024 (R400; DESIGN CHOICE, assumption 87). -/
def State.standing (s : State) (p : Nat) : Nat × State :=
  if p < pods then ((s.portn p).unacked.length, s) else (s.freeVal.1.toNat % 1025, s.freeVal.2)

/-- Every flit from ACK + 1 is sent again, each as it was first sent; TM.RETRY counts them at the dies where the link ends (R400, R411). -/
def State.resend (s : State) (p : Nat) : State :=
  let n := (s.standing p).1
  let s := (s.standing p).2
  if n = 0 then s
  else (portDies p).foldl (fun s d => s.onDie d fun x => { x with live := { x.live with retry := x.live.retry + BitVec.ofNat 64 n } })
    (s.onPort p fun q => { q with resends := q.resends + 1, ackAt := s.cycle })

/-- A port learns that its flits up to `ack` are accepted, and sends what waited for that. -/
def State.takeAck (s : State) (p : Nat) (ack : BitVec 12) : State := (s.onPort p fun q => q.acknowledge s.cycle ack).flushPort p

/-- A NAK with ACK has reached a port: what stood unacknowledged goes again. -/
def State.takeNak (s : State) (p : Nat) (ack : BitVec 12) : State := ((s.onPort p fun q => q.acknowledge s.cycle ack).resend p).flushPort p

/-! ## Messages between modules (R61) -/

/-- The module that a name belongs to (R60). -/
def moduleOf (n : Nat) : Nat := n / 2 ^ 52

/-- This module's id. -/
def State.modid (s : State) : Nat := s.firm.record.modid.toNat

/-- The ports of this module on routes to module `m`, the preferred one first. -/
def routesTo (m : Nat) : List Nat := (Config.route m :: Config.otherRoutes m).map Fin.val

/-- Whether a route to module `m` exists (R400). -/
def State.routed (s : State) (m : Nat) : Bool := (routesTo m).any fun p => (s.portn p).up

/-- Whether the port that copies to and from module `m` are routed through is up (R400). -/
def State.copyRouted (s : State) (m : Nat) : Bool := (s.portn (Config.route m)).up

/-- Sends a message to module `m` over its route: the first port that is up, else its preferred one, which sends it when it is up. -/
def State.sendPod (s : State) (m : Nat) (x : Config.PodMessage) : State :=
  match ((routesTo m).find? fun p => (s.portn p).up).or (routesTo m).head? with
  | none => s
  | some p => (s.onPort p fun q => { q with outQ := q.outQ ++ (Config.messageUnits x).map fun u => (Config.channel x, u) }).flushPort p

/-- A remote store as it travels. -/
def RStore.pod (r : RStore) : Config.PodStore :=
  { sender := r.sender, thread := r.sthread, target := r.target, selector := r.selector, value := r.val, trap := r.trap
    run := r.run.map fun x => (x.hdr, x.slots.map fun v => (v.payload, v.hdr)) }

/-- A remote store that has travelled, as number `id`. -/
def podStore (x : Config.PodStore) (id : Nat) : RStore :=
  { id := id, sender := x.sender, sthread := x.thread, seq := id, target := x.target, selector := x.selector, val := x.value
    run := x.run.map fun y => ⟨y.1, y.2.map fun v => ⟨v.1, v.2⟩⟩, trap := x.trap, kind := x.run.isSome }

end Sys2Proof.Machine
end

