-- ==== Sys2Proof/Machine/Signals.lean ====
section
/-! DEFINITION. Semaphores, presence and remote register stores (spec 09 R257-R259; 11 R302-R306; 03 R74-R84). -/

namespace Sys2Proof.Machine

/-! ## Semaphores -/

/-- Runs `k` when semaphore `i` is one of the group's, else traps `REGLIMIT` with the index (R59, R257). -/
def withSem (s : State) (i : BitVec 8) (k : Out) : Out :=
  if s.me.task.sems ≤ i.toNat then trapOut s Cause.reglimit (i.setWidth 64) else k

/-- A `SWAIT` is an acquire at cluster scope: it observes the releases that its semaphore's count includes (R156). -/
def State.followSem (s : State) (i : Nat) : State := s.learn s.iss.group s.iss.thread s.cur.seq (Tab.get {} i s.me.semView)

/-- `SWAIT` (R257): waits until the count reaches s[31:0]. -/
def execSwait (r : SReg) (i : BitVec 8) (s : State) : Out :=
  guarded (.swait r i) s fun s => withSem s i (
    let thr := (s.rd r).toNat % 2 ^ 32
    if thr ≤ s.sem s.iss.group i.toNat then .next (s.followSem i.toNat) else waitOut s (.sem i.toNat thr))

/-- A semaphore update of the issuing thread, on its way (R257). -/
def State.pushSem (s : State) (i : Nat) (set : Bool) (v : Nat) : State :=
  let u : SemUpd := { due := s.cycle + 7, idx := i, set := set, val := v, thread := s.iss.thread, seq := s.cur.seq }
  (s.onGroup s.iss.group fun g => { g with semQ := g.semQ ++ [u] }).nextSeq

/-- `SADD` (R257): effective at the end of cycle c + 7. -/
def execSadd (r : SReg) (i : BitVec 8) (s : State) : Out :=
  guarded (.sadd r i) s fun s => withSem s i (.next (s.pushSem i.toNat false ((s.rd r).toNat % 2 ^ 32)))

/-- `SSET` (R257). -/
def execSset (r : SReg) (i : BitVec 8) (s : State) : Out :=
  guarded (.sset r i) s fun s => withSem s i (.next (s.pushSem i.toNat true ((s.rd r).toNat % 2 ^ 32)))

/-- `SREAD` (R257). -/
def execSread (r : SReg) (i : BitVec 8) (s : State) : Out :=
  guarded (.sread r i) s fun s => withSem s i (.next (s.wr r (BitVec.ofNat 64 (s.sem s.iss.group i.toNat))))

/-! ## Presence -/

/-- The issuing thread with a scalar register emptied; `s0` stays full (R26). -/
def State.emptyReg (s : State) (a : SReg) : State := s.onCur fun t => t.setReg a.toNat { t.reg a.toNat with full := false }

/-- The issuing thread with a run register emptied. -/
def State.emptyRun (s : State) (a : VReg) : State := s.onCur fun t => t.setVReg a.toNat { t.vreg a.toNat with full := false }

/-- `TAKE` (R76, R302, R303): a is read and emptied; waiting arrivals then take effect. -/
def execTake (d a : SReg) (s : State) : Out :=
  effect (.take d a) s fun s =>
    let v := s.rd a
    let s := s.emptyReg a
    (if d = a then s else s.wr d v).drain s.iss.group

/-- `HOLD` (R302). -/
def execHold (a : SReg) (s : State) : Out := effect (.hold a) s fun s => (s.emptyReg a).drain s.iss.group

/-- `TEST` (R77, R302): it never waits for the register it tests. -/
def execTest (pd : PReg) (a : SReg) (s : State) : Out :=
  effect (.test pd a) s fun s => s.wrP pd ((s.pre.reg a.toNat).full && !(s.pre.reg a.toNat).mark)

/-- `VTAKE` (R302): the image is copied as it stands. -/
def execVtake (vd va : VReg) (s : State) : Out :=
  effect (.vtake vd va) s fun s =>
    let x := s.rdV va
    let s := s.emptyRun va
    (if vd = va then s else s.wrV vd x).drain s.iss.group

/-- `VHOLD` (R302). -/
def execVhold (va : VReg) (s : State) : Out := effect (.vhold va) s fun s => (s.emptyRun va).drain s.iss.group

/-! ## Sending (R304, R305) -/

/-- Whether a selector suits the instruction (R305). -/
def selectorOk (sel : Word) (run : Bool) : Bool :=
  decide (sel.toNat / 2 ^ 14 = 0) && bitOf 7 sel.toNat == run
    && (if run then decide (bitsOf 6 4 sel.toNat = 0) else decide (selReg sel ≠ 0))

/-- The remote store of the issuing thread. -/
def State.storeOf (s : State) (name sel val : Word) (run : Option RunReg) (trap : Bool) : RStore :=
  { id := s.nextId, sender := s.iss.group, sthread := s.iss.thread, seq := s.cur.seq, target := name.toNat, selector := sel
    run := run, val := val, trap := trap, kind := run.isSome }

/-- Sends a remote store, or bounces it at the sender (R305). -/
def State.sendStore (s : State) (name sel val : Word) (run : Option RunReg) (trap : Bool) : State :=
  let r := s.storeOf name sel val run trap
  let s := s.fresh.nextSeq
  if !selectorOk sel run.isSome then s.bounceStore r 3
  else if name = 0#64 then s.bounceStore r 2
  else ({ s with rstores := s.rstores ++ [r] } : State).onCore s.iss.core fun c => { c with rsent := c.rsent + 1#64 }

/-- `RSS` (R305). -/
def execRss (d a b : SReg) (s : State) : Out :=
  effect (.rss d a b) s fun s => s.sendStore (s.rd a) (s.rd b) (s.rd d) none false

/-- `RSS_T` (R305, R306). -/
def execRssT (d a b : SReg) (s : State) : Out :=
  effect (.rssT d a b) s fun s => s.sendStore (s.rd a) (s.rd b) (s.rd d) none true

/-- `RSV` in either form: the source must be well formed; its slots above USED, and the bits above their elements, are not sent (R197,
R305). -/
def sendRun (s : State) (vs : VReg) (a b : SReg) (trap : Bool) : Out :=
  match ElemType.ofCode (s.rdV vs).type, (s.rdV vs).wf with
  | some t, true => .next (s.sendStore (s.rd a) (s.rd b) 0#64 (some ((s.rdV vs).trim t)) trap)
  | _, _ => trapOut s Cause.runbad (vs.setWidth 64)

/-- `RSV` (R305). -/
def execRsv (vs : VReg) (a b : SReg) (s : State) : Out := guarded (.rsv vs a b) s fun s => sendRun s vs a b false

/-- `RSV_T` (R305, R306). -/
def execRsvT (vs : VReg) (a b : SReg) (s : State) : Out := guarded (.rsvT vs a b) s fun s => sendRun s vs a b true

/-! ## Arriving (R78-R84) -/

/-- Whether the group of a name resides on its core (R63). -/
def State.resides (s : State) (n : Nat) : Bool := match Tab.find n s.roll with | some e => e.state == .resident | none => false

/-- The groups that reside on core `c`. -/
def State.groupsOn (s : State) (c : Nat) : List (Nat × Group) := s.groups.filter fun g => g.2.core == c && s.resides g.1

/-- The threads that stand in slots of core `c`: slot, group and thread. -/
def State.slotsOf (s : State) (c : Nat) : List (Nat × Nat × Nat) :=
  (s.groupsOn c).flatMap fun g => ((List.range g.2.threads.length).zip g.2.threads).filterMap fun x =>
    if x.2.place == .inSlot && !x.2.exited then some (x.2.slot, g.1, x.1) else none

/-- Whether thread `t` of group `g` stands in a slot of its core. -/
def State.inSlot (s : State) (g t : Nat) : Bool :=
  s.resides g && (s.thread g t).place == .inSlot

/-- Arrivals in the buffer that an arrival for thread `t` of group `g` would use: the core's, that of a swapped thread's image, or that
of a saved group's image (R78, R79). -/
def State.buffered (s : State) (g t : Nat) : Nat :=
  if s.inSlot g t then
    ((s.groupsOn (s.group g).core).map fun x => (x.2.arr.filter fun r => s.inSlot x.1 (selThread r.selector)).length).sum
  else if s.resides g then
    ((s.group g).arr.filter fun r => selThread r.selector == t).length
  else (s.group g).arr.length

/-- Whether a selector names a register of the group (R79). -/
def selectorFits (g : Group) (r : RStore) : Bool :=
  decide (selThread r.selector < g.threads.length)
    && (if r.kind then decide (selReg r.selector < g.task.vregs) else decide (selReg r.selector < g.task.sregs))

/-- A remote store reaches a group that resides or is saved: it takes effect, waits in the buffer, or bounces (R78, R79, R84). -/
def State.arrive (s : State) (r : RStore) : State :=
  let g := r.target
  let gr := s.group g
  let t := selThread r.selector
  if !selectorFits gr r then s.bounceStore r 3
  else if (s.thread g t).exited then s.bounceStore r 2
  else
    let now := s.endCycle gr.core
    let th := s.thread g t
    if !heldBack gr.arr r && th.accepts now r then
      let s := if s.inSlot g t then s.onCore gr.core fun c => { c with rrecv := c.rrecv + 1#64 } else s
      s.onThread g t fun th => th.receive now gr.core r
    else
      let met := !heldBack gr.arr r
      let s := if gr.task.det && met && th.meetsFull now r then s.postTrap g t Cause.determ r.selector else s
      if s.buffered g t < Config.arrivals then s.onGroup g fun gr => { gr with arr := gr.arr ++ [{ r with tried := met }] }
      else s.bounceStore r 1

/-- A remote store is delivered as the roll decides (R79). -/
def State.deliverStore (s : State) (r : RStore) : State :=
  match Tab.find r.target s.roll with
  | none => s.bounceStore r 2
  | some e => match e.state with
    | .exited | .cancelled => s.bounceStore r 2
    | .migrating _ =>
      if e.held.length < Config.arrivals then s.onRoll r.target fun e => { e with held := e.held ++ [r] }
      else s.bounceStore r 1
    | .resident =>
      let c := (s.group r.target).core
      (s.onCore c fun co => { co with arrived := s.endCycle c + 1 }).arrive r
    | .saved => s.arrive r

/-- Whether remote store `x` comes before `r` in the issue order of one pair (R81). -/
def RStore.before (x r : RStore) : Bool :=
  x.sender == r.sender && x.sthread == r.sthread && x.target == r.target && decide (x.seq < r.seq ∨ (x.seq = r.seq ∧ x.id < r.id))

/-- What a remote store passes on to the first read of its register: it is a release at pod scope, and the fences before it in its thread
are releases of theirs (R81, R156). -/
def State.carryOf (s : State) (r : RStore) : List Rel :=
  let c := (s.group r.sender).core
  ⟨.pod, c, s.cover r.sender r.sthread r.seq false⟩ :: (s.thread r.sender r.sthread).fenceRels c r.seq

/-- Whether every earlier remote store of a pair has been delivered, or has bounced back to its sender (R81, R305). -/
def State.pairReady (s : State) (r : RStore) : Bool :=
  (s.rstores.all fun x => !x.before r) && s.bounces.all fun b => !b.store.before r

/-- A remote store that its group's roll answers: of another module's sender, it hears where the store has not bounced (R81). -/
def State.answerStore (s : State) (r : RStore) : State :=
  let s := s.deliverStore r
  if moduleOf r.sender = s.modid ∨ s.bounces.any (·.store.id == r.id) then s else s.sendPod (moduleOf r.sender) (.taken r.pod)

/-- `REMOTE_STORE_ARRIVAL` (R78, R79): the memory accesses that the sender's release covers are complete at pod scope (R81);
one to a name of another module leaves for it once a route exists (R61, R400). -/
def execRemoteStoreArrival (id : Nat) (s : State) : Out :=
  match s.rstores.find? (·.id == id) with
  | none => notNow
  | some r =>
    if moduleOf r.target ≠ s.modid ∧ !s.routed (moduleOf r.target) then notNow
    else if !s.pairReady r ∨ !s.memDone r.sender r.sthread r.seq .pod ∨ !s.fencesAllow r.sender r.sthread r.seq true then notNow
    else
      let s := { (if s.hasThread r.sender r.sthread then s.settleFences r.sender r.sthread else s) with rstores := s.rstores.filter (·.id != id) }
      let r := { r with carry := if s.hasThread r.sender r.sthread then s.carryOf r else [⟨.pod, outsideCore, s.outsideView⟩] }
      .next (if moduleOf r.target = s.modid then s.answerStore r
        else ({ s with away := s.away ++ [r] } : State).sendPod (moduleOf r.target) (.store r.pod))

/-! ## Bounces (R80, R306, R365) -/

/-- The device's own write of virtual memory in the trunk of a partition, with fuel for the copies of shared granules; `none` when
it faults. -/
def State.deviceWrite : Nat → State → Nat → Nat → List Byte → Option State
  | 0, _, _, _, _ => none
  | fuel + 1, s, part, va, bs =>
    match s.plan true 0 part 0 va bs.length { store := true, user := false } false true with
    | .ok ps => some (s.landPieces s.outside (withData ps bs))
    | .cow l a =>
      let d := if l.host then s.partDie part else dieOf l.base
      if s.lockerHas d Config.granule then
        State.deviceWrite fuel (s.copyNow part 0 (a / Config.granule) (d * Config.coresPerCluster * Config.clustersPerDie) l) part va bs
      else none
    | _ => none

/-- Whether the device's own write waits for room in a locker that a copy of a shared granule needs (R89), with fuel for the copies. -/
def State.deviceWaits : Nat → State → Nat → Nat → Nat → Bool
  | 0, _, _, _, _ => false
  | fuel + 1, s, part, va, n =>
    match s.plan true 0 part 0 va n { store := true, user := false } false true with
    | .cow l a =>
      let d := if l.host then s.partDie part else dieOf l.base
      !s.lockerHas d Config.granule
        || State.deviceWaits fuel (s.copyNow part 0 (a / Config.granule) (d * Config.coresPerCluster * Config.clustersPerDie) l) part va n
    | _ => false

/-- The record of a bounce (R306). -/
def bounceRecord (r : RStore) (reason : Nat) (count : Nat) : List Byte :=
  toBytesLE 8 r.target
    ++ toBytesLE 8 (count * 2 ^ 32 + r.sthread * 2 ^ 24 + reason * 2 ^ 20 + bitNat r.kind * 2 ^ 19 + r.selector.toNat % 2 ^ 16)
    ++ toBytesLE 8 r.sender ++ toBytesLE 8 (if r.kind then 0 else r.val.toNat)

/-- Whether the ring of a partition takes no record: it is disabled or full (R306, R365). -/
def Partition.ringShut (p : Partition) : Bool := !p.ben || decide (2 ^ p.bsize ≤ (p.bhead - p.btail).toNat)

/-- The address of the next record of a partition's ring (R365). -/
def Partition.ringNext (p : Partition) : Nat := p.bbase.toNat + 32 * (p.bhead.toNat % 2 ^ p.bsize)

/-- Appends a bounce record to the ring of a partition, or drops it (R306, R365). -/
def State.recordBounce (s : State) (part : Nat) (r : RStore) (reason count : Nat) : State :=
  let p := s.partn part
  if p.ringShut then s
  else match State.deviceWrite 2 s part p.ringNext (bounceRecord r reason count) with
    | none => s
    | some s => s.onPart part fun p => { p with bhead := p.bhead + 1#32 }

/-- `BOUNCE_RETURN` (R80): the sender counts the bounce; a `.T` form also traps. Bounces of a pair keep its order (R81, R305), and the
record waits for the room that its write needs (R89); that of another module's sender goes back to it (R61). DESIGN CHOICE (assumption
74): for a sender whose group is gone, COUNT of the record is 0, and its partition that of the roll entry, 0 when there is none. -/
def execBounceReturn (id : Nat) (s : State) : Out :=
  match s.bounces.find? (·.id == id) with
  | none => notNow
  | some b =>
    let r := b.store
    let part := match Tab.find r.sender s.roll with | some e => e.part | none => (s.group r.sender).part
    if !s.pairReady r ∨ s.away.any (·.before r) then notNow
    else if moduleOf r.sender ≠ s.modid then
      .next (({ s with bounces := s.bounces.filter (·.id != id) } : State).sendPod (moduleOf r.sender) (.bounce r.pod b.reason))
    else if !(s.partn part).ringShut && State.deviceWaits 2 s part (s.partn part).ringNext 32 then notNow
    else
      let s := { s with bounces := s.bounces.filter (·.id != id) }
      let now := s.endCycle (s.group r.sender).core
      let s := s.onThread r.sender r.sthread fun th => let th := th.settleBounce now; { th with bounce := th.bounce + 1#32 }
      let s := s.recordBounce part r b.reason (s.thread r.sender r.sthread).bounce.toNat
      .next (if r.trap && s.hasThread r.sender r.sthread then s.postTrap r.sender r.sthread Cause.bounce r.selector else s)

end Sys2Proof.Machine
end

