-- ==== Sys2Proof/Machine/Groups.lean ====
section
/-! DEFINITION. The group family, cancellation's marking, and branches of memory (spec 11 R297-R301, R311-R314; 03 R86-R93). -/

namespace Sys2Proof.Machine

/-- `SELF` (R297). -/
def execSelf (d : SReg) (s : State) : Out := effect (.self d) s fun s => s.wr d s.me.name

/-- `PARENT` (R297). -/
def execParent (d : SReg) (s : State) : Out := effect (.parent d) s fun s => s.wr d s.me.parent

/-- `LANE` (R58, R297). -/
def execLane (d : SReg) (s : State) : Out := effect (.lane d) s fun s => s.wr d (BitVec.ofNat 64 s.iss.thread)

/-- `EXIT` (R297, R298): the thread ends after the bundle (R206). -/
def execExit (a : SReg) (s : State) : Out :=
  effect (.exit a) s fun s => { s with iss := { s.iss with leave := some (some (s.rd a)) } }

/-! ## Joining -/

/-- Whether a roll entry has ended. -/
def RollEntry.ended (e : RollEntry) : Bool := e.state == .exited || e.state == .cancelled

/-- Whether the entry of name `n` has ended, or is absent. -/
def State.endedName (s : State) (n : Nat) : Bool :=
  match Tab.find n s.roll with
  | none => true
  | some e => e.ended

/-- The entries whose parent has ended and has no living child become absent (R64). -/
def State.pruneRoll (s : State) : State :=
  { s with roll := s.roll.filter fun e =>
      !(e.2.ended && e.2.parent != 0 && s.endedName e.2.parent && !(s.roll.any fun c => c.2.parent == e.2.parent && !c.2.ended)) }

/-- Whether every group that was marked with the subtree rooted at `n` has been reclaimed (R91, R300). -/
def State.reclaimed (s : State) (n : Nat) : Bool := s.roll.all fun e => !e.2.roots.contains n || e.2.ended

/-- What this module's roll answers to a `JOIN` of name `n` by group `by_` (R86): nothing while the group goes on, or while a group that
cancelled it waits for its subtree to be reclaimed (R93, R300). -/
def State.joinAnswer (s : State) (by_ n : Nat) : Option Word :=
  match Tab.find n s.roll with
  | none => some 0xFFFFFFFF#64
  | some e => if e.ended && (!e.cancellers.contains by_ || s.reclaimed n) then some (e.status.setWidth 64) else none

/-- Whether thread `t` of group `g` has a `CANCEL` of name `n` that has not retired (R299). -/
def State.cancelsName (s : State) (g t n : Nat) : Bool := s.cancels.any fun c => c.group == g && c.thread == t && c.target == n

/-- The wait of a `JOIN`: d is held as for a load (R299). -/
def joinWait (s : State) (d : SReg) (n : Nat) : Out :=
  if s.pre.inCancel then waitOut s (.join n d) else .next ((s.beginWait (.join n d)).onCur fun t => t.mark d.toNat)

/-- What the exit of the group of name `n` covers (R156, R157). -/
def State.endView (s : State) (n : Nat) : View := ((Tab.find n s.roll).map (·.view)).getD {}

/-- A `JOIN` that completes: an acquire at pod scope of an exit that covers `c` (R86, R156). -/
def State.joined (s : State) (d : SReg) (v : Word) (c : View) : State := (s.learn s.iss.group s.iss.thread s.cur.seq c).wr d v

/-- `JOIN` of a name of another module: that module's roll is asked, and the thread waits for its answer (R61, R299). -/
def joinFar (s : State) (d : SReg) (n : Nat) : Out :=
  let ask : Out :=
    if s.pre.inCancel || s.cancelsName s.iss.group s.iss.thread n then joinWait s d n
    else match joinWait (s.fresh.sendPod (moduleOf n) (.join s.iss.group s.nextId n)) d n with
      | .next s' => .next (s'.onCur fun t => { t with far := some (n, s.nextId, none) })
      | o => o
  match s.pre.far with
  | some (m, _, v) =>
    if m ≠ n then ask
    else match v with
      | some v => .next ((s.joined d v s.outsideView).onCur fun t => { t with far := none })
      | none => joinWait s d n
  | none => ask

/-- `JOIN` (R86, R299): a `CANCEL` of the same name that the thread issued before retires first. -/
def execJoin (d a : SReg) (s : State) : Out :=
  guarded (.join d a) s fun s =>
    let n := (s.rd a).toNat
    if n ≠ 0 ∧ moduleOf n ≠ s.modid then joinFar s d n
    else if s.cancelsName s.iss.group s.iss.thread n then joinWait s d n
    else match s.joinAnswer s.iss.group n with
      | some v => .next (s.joined d v (s.endView n))
      | none => joinWait s d n

/-- The `JOIN`s of other modules whose groups have ended are answered (R61). -/
def State.answerJoins (s : State) : State :=
  let due := s.joins.filter fun j => (s.joinAnswer j.group j.name).isSome
  due.foldl (fun s j => s.sendPod (moduleOf j.group) (.status j.token ((s.joinAnswer j.group j.name).getD 0#64)))
    { s with joins := s.joins.filter fun j => (s.joinAnswer j.group j.name).isNone }

/-- `CANCEL` (R300): posted; it retires when the subtree is marked. -/
def execCancel (a : SReg) (s : State) : Out :=
  effect (.cancel a) s fun s =>
    ({ s with cancels := s.cancels ++ [{ id := s.nextId, group := s.iss.group, thread := s.iss.thread, target := (s.rd a).toNat }] } : State).fresh

/-- The partition of a group's roll entry, or of its own record. -/
def State.partOfGroup (s : State) (g : Nat) : Nat :=
  match Tab.find g s.roll with
  | some e => e.part
  | none => (s.group g).part

/-- A `CANCEL` by group `by_` of partition `part` reaches the roll: the subtree is marked; an absent name, and a name of another
partition, marks nothing (R91, R300). -/
def State.cancelName (s : State) (by_ part n : Nat) : State :=
  match Tab.find n s.roll with
  | none => s
  | some e => if e.part = part then (s.onRoll n fun e => { e with cancellers := by_ :: e.cancellers.filter (· != by_) }).markTree n else s

/-- `CANCEL_MARKED` (R91, R300); a name of another module goes there to be marked (R61). -/
def execCancelMarked (id : Nat) (s : State) : Out :=
  match s.cancels.find? (·.id == id) with
  | none => notNow
  | some c =>
    let s := { s with cancels := s.cancels.filter (·.id != id) }
    let part := s.partOfGroup c.group
    .next (if c.target ≠ 0 ∧ moduleOf c.target ≠ s.modid then s.sendPod (moduleOf c.target) (.cancel c.group part c.target)
      else s.cancelName c.group part c.target)

/-! ## The group barrier (R87, R164) -/

/-- Whether every thread of group `g` that has not exited waits at the barrier, `self` apart. -/
def State.allArrived (s : State) (g : Nat) (self : Option Nat) : Bool :=
  (List.range (s.group g).threads.length).all fun t =>
    let th := s.thread g t
    th.exited || self == some t || (match th.wait with | some (.barrier _) => true | _ => false)

/-- The threads of group `g` that have not exited. -/
def State.liveThreads (s : State) (g : Nat) : List Nat := (List.range (s.group g).threads.length).filter fun t => !(s.thread g t).exited

/-- The release fences of a thread since its last barrier. -/
def Thread.barFences (th : Thread) : List FenceRec := th.fences.filter fun f => f.kind != .acq && decide (th.barSeq ≤ f.seq)

/-- The scopes of which a release fence stands before the barrier in every thread of group `g` that has not exited (R164). -/
def State.bracketScopes (s : State) (g : Nat) : List FenceScope :=
  let of (t : Nat) : List FenceScope := ((s.thread g t).barFences.map (·.scope)).eraseDups
  match s.liveThreads g with
  | [] => []
  | t :: ts => (of t).filter fun sc => ts.all fun u => (of u).contains sc

/-- Whether the barrier of group `g` may be released: its threads have arrived, and the accesses before the fences that bracket it are
complete. -/
def State.barrierReady (s : State) (g : Nat) (self : Option Nat) : Bool :=
  s.allArrived g self && (s.liveThreads g).all fun t => ((s.thread g t).barFences.filter fun f => (s.bracketScopes g).contains f.scope).all (s.fenceMet g t)

/-- A thread let past the barrier that it waits at. -/
def Thread.release (th : Thread) : Thread :=
  match th.wait with
  | some (.barrier _) => { th with wait := none, barPass := some th.pc }
  | _ => th

/-- A barrier passes on to each thread, for its acquire fence of the scope after it, what the fences of a scope that bracket it cover
(R164); it has a place of its own in the program order. -/
def State.passBarrier (s : State) (g : Nat) : State :=
  let ts := s.liveThreads g
  let s := ts.foldl (fun s t => s.settleFences g t) s
  let got := (s.bracketScopes g).map fun sc => (sc, ((ts.flatMap fun t => ((s.thread g t).barFences.filter (·.scope == sc)).filterMap (·.view))).foldl View.join {})
  ts.foldl (fun s t => s.onThread g t fun th =>
    { th with barGot := th.barGot ++ got.map fun x => (th.seq, x), seq := th.seq + 1, barSeq := th.seq + 1 }) s

/-- Releases the waiting threads of the issuing group. -/
def State.releaseBarrier (s : State) : State :=
  (s.passBarrier s.iss.group).onGroup s.iss.group fun gr => { gr with threads := gr.threads.map Thread.release }

/-- `BARG` (R87): the last to arrive waits for what the bracketing fences order, then releases the others (R164). -/
def execBarg (s : State) : Out :=
  guarded .barg s fun s =>
    if s.pre.barPass = some s.iss.pc then .next (s.onCur fun t => { t with barPass := none })
    else if s.barrierReady s.iss.group (some s.iss.thread) then .next s.releaseBarrier
    else waitOut s (.barrier (s.allArrived s.iss.group (some s.iss.thread)))

/-- `YIELD` (R301): it offers the slot; a swap, if the device makes one, is a step of its own. On a core in deterministic mode it is
`NOP`. -/
def execYield (s : State) : Out :=
  effect .yield s fun s => if (s.core s.iss.core).pool.det then s else s.onCur fun t => { t with yielded := true }

/-! ## Branches -/

/-- What the checks of `FORK` decide for granule `g` (R312): the address and the trap, or `none`. -/
def State.forkFault (s : State) (g : Nat) : Option (Option Nat) :=
  match walkTable s s.me.part (g * Config.granule) with
  | none => some none
  | some e => if e.leaf.world || !e.leaf.store || e.size != Config.granule then some (some (g * Config.granule)) else none

/-- The first granule of a range that breaks a check: an unmapped one first (R312). -/
def State.forkCheck (s : State) (lo n : Nat) : Option (Nat × Option Nat) :=
  let first (unmapped : Bool) := (List.range n).findSome? fun i => match s.forkFault (lo + i) with
    | some r => if r.isNone == unmapped then some (lo + i, r) else none
    | none => none
  (first true).or (first false)

/-- `FORK` (R312). -/
def execFork (d a b : SReg) (s : State) : Out :=
  guarded (.fork d a b) s fun s =>
    let x := (s.rd a).toNat
    let n := (s.rd b).toNat
    if x % Config.granule ≠ 0 ∨ n % Config.granule ≠ 0 ∨ n = 0 ∨ 2 ^ 40 < n ∨ 2 ^ 56 < x + n then trapOut s Cause.align (s.rd a)
    else match s.forkCheck (x / Config.granule) (n / Config.granule) with
      | some (g, none) => walkOut s (g * Config.granule) { store := true, user := s.user }
      | some (_, some y) => trapOut s Cause.prot (BitVec.ofNat 64 y)
      | none => match s.lockedAt s.iss.group s.iss.core true [(x, n)] with
        | some y => trapOut s Cause.rangelock (BitVec.ofNat 64 y)
        | none => .next (s.issue (.fork s.me.branch (x / Config.granule) (n / Config.granule)) x [] (destOf d false))

/-- `BRSET` (R313): the group's accesses use the branch after the end of cycle c + 7. -/
def execBrset (a : SReg) (s : State) : Out :=
  guarded (.brset a) s fun s =>
    let b := (s.rd a).toNat
    if b ≠ 0 ∧ ((s.partn s.me.part).live b) = false then trapOut s Cause.prot (s.rd a)
    else .next (s.onGroup s.iss.group fun g => { g with brQ := g.brQ ++ [(s.cycle + 7, b)] })

/-- Drops branch `b` of a partition and frees its copies; a copy under way for it is given up (R90, R314). -/
def State.dropBranch (s : State) (part b : Nat) : State :=
  match Tab.find b (s.partn part).branches with
  | none => s
  | some br =>
    if br.dropped then s
    else
      let s := s.onPart part fun p => { p with branches := Tab.put b { br with dropped := true } p.branches }
      let s := { s with cows := s.cows.filter fun c => !(c.part == part && c.branch == b) }
      br.granules.foldl (fun s g => s.freeCopy g.2) s

/-- `BRDROP` (R314). -/
def execBrdrop (a : SReg) (s : State) : Out :=
  guarded (.brdrop a) s fun s =>
    if s.rd a = 0#64 then trapOut s Cause.prot (s.rd a) else .next (s.dropBranch s.me.part (s.rd a).toNat)

end Sys2Proof.Machine
end

