-- ==== Sys2Proof/Machine/World.lean ====
section
/-! DEFINITION. The world instructions (spec 05 R128-R141, R413; 11 R307-R310; 19 R377). -/

namespace Sys2Proof.Machine

/-! ## UNAVAIL (R31, R377) -/

/-- Whether the world service of a die is in service (R31). -/
def State.worldOn (s : State) (die : Nat) : Bool := !s.firm.record.noWorld.contains die
/-- Whether the matrix array of a cluster is in service (R28). -/
def State.matrixOn (s : State) (k : Nat) : Bool := !s.firm.record.noMatrix.contains k

/-- Whether a cluster has the units that a task needs. -/
def State.unitsOn (s : State) (t : TaskRec) (k : Nat) : Bool := (!t.needM || s.matrixOn k) && (!t.needW || s.worldOn (k / Config.clustersPerDie))

/-- A task that needs the matrix array, or else the instant units. -/
def TaskRec.needing (t : TaskRec) (matrix : Bool) : TaskRec := if matrix then { t with needM := true } else { t with needW := true }

/-- Whether the device can move group `g` to a cluster of its partition that has the unit: there is one, and the die's locker holds
images (R31, R377). -/
def State.movable (s : State) (g : Nat) (matrix : Bool) : Bool :=
  let gr := s.group g
  (s.clustersOf gr.part).any (s.unitsOn (gr.task.needing matrix)) && (s.die (dieOfCore gr.core)).lkSize != 0

/-- UNAVAIL of the issuing bundle: it waits for its group to be moved, or the trap is delivered where that cannot be. -/
def unavailOut (s : State) (matrix : Bool) : Out :=
  if s.movable s.iss.group matrix then waitOut s (.unavail matrix) else trapOut s Cause.unavail s.wordVal

/-- Runs `k` when the issuing die serves world instructions. -/
def withWorldUnit (s : State) (k : Out) : Out :=
  if s.worldOn (dieOfCore s.iss.core) then k
  else unavailOut s false

/-! ## The descriptor (R128, R130) -/

/-- Word `i` of a descriptor. -/
def descWord (bs : List Byte) (i : Nat) : Nat := ofBytesLE ((bs.drop (8 * i)).take 8)

/-- The mode of a field: 0 HOLD, 1 NEAREST, 2 LINEAR. -/
def fieldMode (fields i : Nat) : Nat := bitsOf (4 * i + 1) (4 * i) fields
/-- Whether a field is f64. -/
def fieldF64 (fields i : Nat) : Bool := bitOf (4 * i + 2) fields

/-- A descriptor's copy. -/
def descBinding (bs : List Byte) : Binding :=
  { base := descWord bs 0
    keys := descWord bs 1 % 2 ^ 32
    fields := descWord bs 2
    nf := bitsOf 20 16 (descWord bs 3)
    depth := bitsOf 12 8 (descWord bs 3)
    faultPolicy := bitOf 0 (descWord bs 3)
    lambda := descWord bs 4 % 2 ^ 63
    omega := descWord bs 5 % 2 ^ 63
    writer := descWord bs 6
    timeout := descWord bs 7 }

/-- Whether the reserved fields of a descriptor are zero. -/
def descReserved (bs : List Byte) : Bool :=
  decide (descWord bs 1 < 2 ^ 32) && decide (bitsOf 63 21 (descWord bs 3) = 0) && decide (bitsOf 15 13 (descWord bs 3) = 0)
    && decide (bitsOf 7 1 (descWord bs 3) = 0) && decide (descWord bs 4 < 2 ^ 63) && decide (descWord bs 5 < 2 ^ 63)
    && ((bs.drop 64).all (· == 0#8))

/-- Whether the fields of a copy lie in their ranges. -/
def Binding.ok (b : Binding) : Bool :=
  decide (b.base < 2 ^ 56) && decide (b.base % 128 = 0) && decide (1 ≤ b.keys) && decide (1 ≤ b.nf ∧ b.nf ≤ 16)
    && decide (2 ≤ b.depth ∧ b.depth ≤ 16) && decide (b.lambda ≤ b.omega)
    && (List.range 16).all fun i => !bitOf (4 * i + 3) b.fields && fieldMode b.fields i != 3
        && (decide (i < b.nf) || bitsOf (4 * i + 3) (4 * i) b.fields == 0)

/-- The layout that a copy gives its region. -/
def Binding.layout (b : Binding) : Layout := { keys := b.keys, nf := b.nf, fields := b.fields, depth := b.depth }

/-- Bytes of a key block (R129). -/
def Layout.block (l : Layout) : Nat := 128 * ((16 + l.depth * (8 + 8 * l.nf) + 127) / 128)
/-- Bytes of a key block of a copy's region. -/
def Binding.block (b : Binding) : Nat := b.layout.block

/-- The offset of a key's block from the first (R129). -/
def Binding.keyOff (b : Binding) (key : Nat) : Nat := key * b.block
/-- The address of a key's block (R129). -/
def Binding.keyAddr (b : Binding) (key : Nat) : Nat := b.base + 512 + b.keyOff key

/-! ## Translation (R413) -/

/-- The type of a world access. DESIGN CHOICE (assumption 90): R100 names the rights L and S and the copy of a shared granule of loads, stores
and atomics; of a world access it tests U and WORLD alone. -/
def State.worldType (s : State) : AccessType := { world := true, user := s.user }

/-- The plan of several ranges as world accesses, in order: the first that faults decides. -/
def State.worldPlan (s : State) (direct : Bool) (c p b : Nat) (ty : AccessType) : List (Nat × Nat) → Plan
  | [] => .ok []
  | (va, n) :: rs =>
    match s.plan direct c p b va n ty false true with
    | .ok ps => match State.worldPlan s direct c p b ty rs with
      | .ok qs => .ok (ps ++ qs)
      | r => r
    | r => r

/-- The name of the key under which the bytes at `va` of a world access lie (R393); host memory has none. -/
def State.keyAt (s : State) (ps : List Piece) (va : Nat) : Nat :=
  match ps.find? (·.va == va) with
  | some p => if p.host then 0 else s.key p.key
  | none => 0

/-- A region's name: where its BASE lies in physical memory. -/
def regionName (ps : List Piece) : Nat :=
  match ps with
  | [] => 0
  | p :: _ => 2 * p.addr + bitNat p.host

/-- Runs `k` on the region of a binding and the pieces of its storage, when the page at BASE and those of `extra` translate. -/
def withRegion (s : State) (b : Binding) (extra : List (Nat × Nat)) (k : Nat → List Piece → Out) : Out :=
  match s.worldPlan false s.iss.core s.me.part s.me.branch s.worldType ((b.base, 128) :: extra) with
  | .trap c named va => trapOut (s.touch va s.worldType) c (if named then BitVec.ofNat 64 va else s.wordVal)
  | .miss va => walkOut s va s.worldType
  | .cow _ va => trapOut (s.touch va s.worldType) Cause.prot (BitVec.ofNat 64 va)
  | .ok ps => k (regionName ps) ps

/-! ## The checks of R132 -/

/-- The slot number as a trap value. -/
def slotVal (w : BitVec 2) : Word := w.setWidth 64

/-- Runs `k` on the copy in slot `w` of the issuing thread. -/
def withSlot (s : State) (w : BitVec 2) (k : Binding → Out) : Out :=
  withWorldUnit s (match s.pre.wslots.getD w.toNat none with
    | none => trapOut s Cause.prot (slotVal w)
    | some b => k b)

/-- Runs `k` when a key is one of the region's. -/
def withKey (s : State) (b : Binding) (key : Word) (k : Out) : Out := if b.keys ≤ key.toNat then trapOut s Cause.prot key else k

/-- Runs `k` when an instant has bit 63 clear. -/
def withInstant (s : State) (cause : Nat) (inst : Word) (k : Out) : Out := if inst.getLsbD 63 then trapOut s cause inst else k

/-- Runs `k` when the issuing group is the region's writer. -/
def withWriter (s : State) (w : BitVec 2) (b : Binding) (k : Out) : Out :=
  if s.me.name.toNat ≠ b.writer ∨ b.writer = 0 then trapOut s Cause.prot (slotVal w) else k

/-! ## Sending -/

/-- Sends a world operation of the issuing thread. -/
def State.postWorld (s : State) (kind : WorldKind) (region : Nat) (ps : List Piece) (b : Binding) (key inst : Nat) : State :=
  ({ s with worldOps := s.worldOps ++ [{ id := s.nextId, kind := kind, group := s.iss.group, thread := s.iss.thread, core := s.iss.core,
                                         kidx := s.pre.kidx, seq := s.cur.seq, region := region, bind := b, key := key, inst := inst,
                                         issued := s.cycle, spots := ps }] } : State).fresh.nextSeq

/-- A world load of the issuing thread: vd is empty with a pending-load mark until it completes (R141). -/
def State.sendLoad (s : State) (noWait : Bool) (vd : VReg) (pd : PReg) (region : Nat) (ps : List Piece) (b : Binding) (key inst : Nat) : State :=
  let id := s.nextId
  (s.postWorld (.wld noWait vd pd) region ps b key inst).onCur fun t => { t.markV vd.toNat with loads := t.loads ++ [id] }

/-- `WLD` in either form. -/
def wldOut (s : State) (noWait : Bool) (vd : VReg) (w : BitVec 2) (key inst : SReg) (pd : PReg) : Out :=
  withSlot s w fun b => withKey s b (s.rd key) (withInstant s Cause.wfar (s.rd inst) (
    withRegion s b [(b.keyAddr (s.rd key).toNat, b.block)] fun r ps =>
      .next (s.sendLoad noWait vd pd r ps b (s.rd key).toNat (s.rd inst).toNat)))

/-- `WLD` (R137, R307). -/
def execWld (vd : VReg) (w : BitVec 2) (key inst : SReg) (pd : PReg) (s : State) : Out :=
  guarded (.wld vd w key inst pd) s fun s => wldOut s false vd w key inst pd

/-- `WLD.N` (R137, R307). -/
def execWldN (vd : VReg) (w : BitVec 2) (key inst : SReg) (pd : PReg) (s : State) : Out :=
  guarded (.wldN vd w key inst pd) s fun s => wldOut s true vd w key inst pd

/-- A stored element as a field takes it: widened exactly, or rounded to nearest (R133, R308). -/
def fieldBits (fields i : Nat) (src64 : Bool) (x : Nat) : Nat :=
  if fieldF64 fields i = src64 then x
  else if src64 then (toFloat .f32 .rne (FFmt.f64.decode x)).bits
  else (toFloat .f64 .rne (FFmt.f32.decode x)).bits

/-- The fields of a record from a source's elements. -/
def recordOf (fields : Nat) (src64 : Bool) (els : List Nat) : List Word :=
  ((List.range els.length).zip els).map fun x => BitVec.ofNat 64 (fieldBits fields x.1 src64 x.2)

/-- `WST` (R133, R308). -/
def execWst (vs : VReg) (w : BitVec 2) (key inst : SReg) (s : State) : Out :=
  guarded (.wst vs w key inst) s fun s =>
    withSlot s w fun b => withKey s b (s.rd key) (withInstant s Cause.worder (s.rd inst) (withWriter s w b (
      let v := s.rdV vs
      if v.type ≠ ElemType.f32.code ∧ v.type ≠ ElemType.f64.code then trapOut s Cause.runbad (vs.setWidth 64)
      else if v.len ≠ b.nf then trapOut s Cause.length (BitVec.ofNat 64 v.len)
      else if !v.wf then trapOut s Cause.runbad (vs.setWidth 64)
      else withRegion s b [(b.keyAddr (s.rd key).toNat, b.block)] fun r ps =>
        let t := if v.type = ElemType.f64.code then ElemType.f64 else ElemType.f32
        .next (s.postWorld (.wst (recordOf b.fields (t == .f64) (elemsOf (v.runs t)))) r ps b (s.rd key).toNat (s.rd inst).toNat))))

/-! ## WCTL (R309) -/

/-- The bytes of the descriptor, as a load of the issuing thread reads them. -/
def State.descBytes (s : State) (ps : List Piece) : List Byte :=
  let a : Access := { id := s.nextId, kind := .load, group := s.iss.group, thread := s.iss.thread, core := s.iss.core,
                      seq := s.cur.seq, va := 0, pieces := [], dest := .none }
  ps.flatMap (s.readPiece a s.clock)

/-- The issuing thread with a world slot set. -/
def State.setSlot (s : State) (w : BitVec 2) (b : Option Binding) : State :=
  s.onCur fun t => { t with wslots := modifyNth w.toNat (fun _ => b) t.wslots }

/-- The binding of a descriptor that has been read: its fields, and WORLD of the page at BASE when it is valid; then the page as an
ordinary access meets it. -/
def bindOut (s : State) (w : BitVec 2) (a : Word) (bs : List Byte) : Out :=
  let b := descBinding bs
  let ordinary : Bool := match s.lookup s.iss.core b.base with | some e => !e.leaf.world | none => false
  if !descReserved bs || !b.ok || ordinary then trapOut s Cause.prot a
  else match s.plan false s.iss.core s.me.part s.me.branch b.base 1 s.worldType false true with
    | .miss va => walkOut s va s.worldType
    | .ok _ => .next (s.setSlot w (some b))
    | .trap c named va => trapOut (s.touch va s.worldType) c (if named then BitVec.ofNat 64 va else s.wordVal)
    | .cow _ va => trapOut (s.touch va s.worldType) Cause.prot s.wordVal

/-- Runs `k` on the 128 bytes of a descriptor, read as an ordinary load reads them, fences and poison included, but for range locks,
which do not check world instructions (R125, R130); the window is out of their reach (R103). DESIGN CHOICE (assumption 90): the descriptor
may lie at any address. -/
def withDescriptor (s : State) (va : Nat) (k : List Byte → Out) : Out :=
  let ty : AccessType := { load := true, user := s.user }
  if isWindow va then trapOut (s.touch va ty) Cause.prot s.wordVal
  else match s.plan false s.iss.core s.me.part s.me.branch va 128 ty false false with
    | .trap c named x => trapOut (s.touch x ty) c (if named then BitVec.ofNat 64 x else s.wordVal)
    | .miss x => walkOut s x ty
    | .cow _ x => trapOut (s.touch x ty) Cause.prot s.wordVal
    | .ok ps =>
      if !s.fencesAllow s.iss.group s.iss.thread s.cur.seq false then waitOut s .order
      else match ps.findSome? (s.piecePoison s.iss.group) with
        | some d => poisonOut s d (BitVec.ofNat 64 va) (some (va, ty))
        | none => k (s.descBytes ps)

/-- `WBIND` (R130): 0 unbinds the slot. -/
def execWbind (w : BitVec 2) (a : SReg) (s : State) : Out :=
  guarded (.wbind w a) s fun s => withWorldUnit s (
    if s.rd a = 0#64 then .next (s.setSlot w none)
    else withDescriptor s (s.rd a).toNat (bindOut s w (s.rd a)))

/-- `WCOMMIT` (R134): posted. -/
def execWcommit (w : BitVec 2) (a : SReg) (s : State) : Out :=
  guarded (.wcommit w a) s fun s =>
    withSlot s w fun b => withInstant s Cause.worder (s.rd a) (withWriter s w b (
      withRegion s b [] fun r ps => .next (s.postWorld .wcommit r ps b 0 (s.rd a).toNat)))

/-- `WHOR` (R144): posted. -/
def execWhor (w : BitVec 2) (a : SReg) (s : State) : Out :=
  guarded (.whor w a) s fun s =>
    withSlot s w fun b => withInstant s Cause.worder (s.rd a) (
      withRegion s b [] fun r ps => .next (s.postWorld .whor r ps b 0 (s.rd a).toNat))

/-- `WSTAT` (R309): d is held until the instant unit replies. -/
def execWstat (d : SReg) (w : BitVec 2) (a : SReg) (s : State) : Out :=
  guarded (.wstat d w a) s fun s =>
    withSlot s w fun b => withKey s b (s.rd a) (
      withRegion s b [(b.keyAddr (s.rd a).toNat, b.block)] fun r ps =>
        .next (s.issue (.wstat r b (s.rd a).toNat) 0 ps (destOf d false)))

/-- `WCLOCK` (R309). -/
def execWclock (d : SReg) (w : BitVec 2) (s : State) : Out :=
  guarded (.wclock d w) s fun s =>
    withSlot s w fun b => withRegion s b [] fun r ps => .next (s.issue (.wclock r) b.base ps (destOf d false))

end Sys2Proof.Machine
end

