-- ==== Sys2Proof/Machine/WorldEvents.lean ====
section
/-! DEFINITION. The instant units: classification and interpolation, staging, commits, horizons, cycles and timeouts
(spec 05 R133-R150). -/

namespace Sys2Proof.Machine

/-! ## Values (R138) -/

/-- The bits of field `f` of an entry under a layout: those stored, or an open value where another layout wrote them (R131). -/
def entryField (base off : Nat) (lay : Layout) (e : RingEntry) (f : Nat) : Nat :=
  if e.lay = lay then (e.vals.getD f 0#64).toNat else (Config.foreignField base off e.stamp f).toNat

/-- The exact quotient of two tick counts, rounded once to f64. -/
def tickRatio (a b : Nat) : Nat := (divDyadic .f64 .rne false a 0 b 0).bits

/-- Interpolation between two stored values (R138). -/
def lerp (f64 : Bool) (tag : NanTag) (w v0 v1 : Nat) : Nat :=
  if f64 then (fFma .f64 .rne tag false w (fSub .f64 .rne tag v1 v0).bits v0).bits
  else
    let wide (v : Nat) : Nat := (toFloat .f64 .rne (FFmt.f32.decode v)).bits
    let y := (fFma .f64 .rne tag false w (fSub .f64 .rne tag (wide v1) (wide v0)).bits (wide v0)).bits
    (toFloat .f32 .rne (FFmt.f64.decode y)).bits

/-- The two entries next to instant `t`: those on either side, or the last two when none lies above. -/
def bracket (t : Nat) : List RingEntry → Option (RingEntry × Option RingEntry)
  | [] => none
  | [e] => some (e, none)
  | e :: e' :: es => if t < e'.stamp ∨ es.isEmpty then some (e, some e') else bracket t (e' :: es)

/-- Field `f` of a region at instant `t`, from the key's committed entries in ascending order (R138). -/
def fieldAt (base key : Nat) (b : Binding) (tag : NanTag) (es : List RingEntry) (t f : Nat) : Nat :=
  let val (e : RingEntry) : Nat := entryField base (b.keyOff key) b.layout e f
  match es.find? fun e => e.stamp == t with
  | some e => val e
  | none =>
    let mode := fieldMode b.fields f
    match bracket t es with
    | none => 0
    | some (e, none) => val e
    | some (e0, some e1) =>
      if e1.stamp < t then
        (if mode ≠ 2 then val e1
         else lerp (fieldF64 b.fields f) tag (tickRatio (t - e0.stamp) (e1.stamp - e0.stamp)) (val e0) (val e1))
      else if mode = 0 then val e0
      else if mode = 1 then (if t - e0.stamp ≤ e1.stamp - t then val e0 else val e1)
      else lerp (fieldF64 b.fields f) tag (tickRatio (t - e0.stamp) (e1.stamp - e0.stamp)) (val e0) (val e1)

/-- The record of a key at instant `t`, in field order. -/
def recordAt (base key : Nat) (b : Binding) (tag : NanTag) (es : List RingEntry) (t : Nat) : List Word :=
  (List.range b.nf).map fun f => BitVec.ofNat 64 (fieldAt base key b tag es t f)

/-! ## Regions -/

/-- The region of a name. -/
def State.region (s : State) (r : Nat) : Region := Tab.get {} r s.regions
/-- The state with region `r` changed by `f`. -/
def State.onRegion (s : State) (r : Nat) (f : Region → Region) : State := { s with regions := Tab.alter {} r f s.regions }
/-- The committed instant as classification reads it (R134). -/
def Region.clock (r : Region) : Nat := r.committed.getD 0
/-- The ring of the block at an offset, as it was written. -/
def Region.block (r : Region) (off : Nat) : List RingEntry := Tab.get [] off r.keys
/-- A layout that no binding has. -/
def Layout.none (l : Layout) : Layout := { l with keys := 0 }
/-- The region at `base` as an operation reads it whose access reaches the home under key `kb` and a key's block under `kk`: what was
written under another key decrypts to other bytes (R393). DESIGN CHOICE (assumption 88): a region in which nothing has been written is empty
under every key. -/
def Region.under (r : Region) (base kb kk : Nat) : Region :=
  { r with
    committed := if r.committed.isNone || r.key == kb then r.committed else Config.foreignClock base r.clock r.key kb
    keys := r.keys.map fun k => (k.1, k.2.map fun e => if e.key = kk then e else { e with lay := e.lay.none }) }
/-- The records that another layout than that of `b` has written into bytes of a key's block (R131). -/
def Region.alien (r : Region) (b : Binding) (key : Nat) : List RingEntry :=
  (r.keys.filter fun k => decide (k.1 < b.keyOff key + b.block)).flatMap fun k =>
    k.2.filter fun e => e.lay != b.layout && decide (b.keyOff key < k.1 + e.lay.block)
/-- The stamps that increase, of a list, from `low` on. -/
def rising (low : Nat) : List Nat → List Nat
  | [] => []
  | x :: xs => if low ≤ x then x :: rising (x + 1) xs else rising low xs
/-- An ascending ring with an entry in its place. -/
def insertEntry (e : RingEntry) : List RingEntry → List RingEntry
  | [] => [e]
  | x :: xs => if x.stamp < e.stamp then x :: insertEntry e xs else e :: x :: xs
/-- The entries that a key's block decodes to where another layout or key has written its bytes (R131). -/
def Region.foreign (r : Region) (base : Nat) (b : Binding) (key : Nat) : List RingEntry :=
  ((rising 0 (Config.foreignStamps base (b.keyOff key) (r.alien b key).length)).take b.depth).map fun t =>
    { stamp := t, committed := decide (t ≤ r.clock), lay := b.layout.none, vals := [], group := 0 }
/-- A key's ring in the region at `base` as a binding's layout has it (R131): its own records, and where another layout has written bytes of
the block since they were staged, open entries in their place. -/
def Region.ring (r : Region) (base : Nat) (b : Binding) (key : Nat) : List RingEntry :=
  if r.alien b key = [] then r.block (b.keyOff key)
  else
    let last := ((r.alien b key).map (·.ord)).foldl max 0
    let own := (r.block (b.keyOff key)).filter fun e => e.lay == b.layout && decide (last < e.ord)
    let open_ := (r.foreign base b key).filter fun e => own.all fun x => x.stamp != e.stamp
    own.foldl (fun es e => insertEntry e es) (open_.drop (own.length + open_.length - b.depth))
/-- A key's committed entries, ascending. -/
def Region.entries (r : Region) (base : Nat) (b : Binding) (key : Nat) : List RingEntry := (r.ring base b key).filter (·.committed)
/-- The read floor; none when the horizon table is empty (R144). -/
def Region.floor (r : Region) : Option Nat := (r.horizons.map (·.2)).min?

/-- The region at `base` as an operation through binding `b` reads it for a key, whose pages lie at `ps` (R393). DESIGN CHOICE (assumption
88): a block is under the key of its first line. -/
def State.regionFor (s : State) (base : Nat) (ps : List Piece) (b : Binding) (key : Nat) : Region :=
  (s.region base).under base (s.keyAt ps b.base) (s.keyAt ps (b.keyAddr key))

/-- The region of a world operation as it reads it. -/
def State.regionOf (s : State) (w : WorldOp) : Region := s.regionFor w.region w.spots w.bind w.key

/-- The latest committed stamp of a key, or bit 63 alone when it has none (R309). -/
def State.stampOf (s : State) (base : Nat) (ps : List Piece) (b : Binding) (key : Nat) : Word :=
  match ((s.regionFor base ps b key).entries base b key).map (·.stamp) with
  | [] => 0x8000000000000000#64
  | x :: xs => BitVec.ofNat 64 (xs.foldl max x)

/-- The committed instant of a region whose BASE is at `va`; 0 before the first commit (R309). -/
def State.clockOf (s : State) (base : Nat) (ps : List Piece) (va : Nat) : Word :=
  BitVec.ofNat 64 ((s.region base).under base (s.keyAt ps va) 0).clock

/-- The zones of R137. -/
inductive Zone where
  | far | blocked | gone
  | data (status : Nat)
  deriving DecidableEq, Repr

/-- The zone of instant `t` for a key with the committed entries `es`, when the committed instant reads as `c` (R137). -/
def zoneOf (b : Binding) (c : Nat) (es : List RingEntry) (t : Nat) : Zone :=
  if c + b.omega < t then .far
  else if es.isEmpty || decide (c + b.lambda < t) then .blocked
  else if t < (es.head?.map (·.stamp)).getD 0 then .gone
  else .data (if t ≤ (es.getLast?.map (·.stamp)).getD 0 then 0 else 1)

/-- The zone of instant `t` for a key (R137). -/
def Region.zone (r : Region) (base : Nat) (b : Binding) (key t : Nat) : Zone := zoneOf b r.clock (r.entries base b key) t

/-! ## Wait edges (R146) -/

/-- The groups that `ns` reaches along edges, with fuel. -/
def reachGo (es : List Edge) : Nat → List Nat → List Nat
  | 0, ns => ns
  | fuel + 1, ns =>
    match ((es.filter fun e => ns.contains e.src && !ns.contains e.dst).map (·.dst)) with
    | [] => ns
    | ds => reachGo es fuel (ns ++ ds)

/-- Whether an edge from `src` to `dst` closes a cycle in the graph of the partition of `src`. -/
def State.closes (s : State) (src dst : Nat) : Bool :=
  let es := s.edges.filter fun e => s.partOfGroup e.src == s.partOfGroup src
  (reachGo es (es.length + 1) [dst]).contains src

/-- The state with world operation `id` changed by `f`. -/
def State.onWorld (s : State) (id : Nat) (f : WorldOp → WorldOp) : State :=
  { s with worldOps := s.worldOps.map fun w => if w.id = id then f w else w }

/-- World operation `id`. -/
def State.worldOp (s : State) (id : Nat) : Option WorldOp := s.worldOps.find? (·.id == id)

/-- A load's result is known; its edge leaves the graph (R147). -/
def State.endLoad (s : State) (id : Nat) (r : WldResult) : State :=
  (({ s with edges := s.edges.filter (·.id != id) } : State)).onWorld id fun w => { w with blocked := false, closed := false, result := some r }

/-- A load enters the blocking zone and registers its edge. -/
def State.block (s : State) (w : WorldOp) : State :=
  let cl := s.closes w.group w.bind.writer
  ({ s with edges := s.edges ++ [{ id := w.id, src := w.group, dst := w.bind.writer }] } : State).onWorld w.id fun x =>
    { x with blocked := true, closed := cl }

/-! ## Loads -/

/-- Whether an earlier operation of its thread must come before a world load is classified: a commit of the same region that comes before
the load (R150), or a `WCLOCK` of it (R310). -/
def State.loadBehind (s : State) (w : WorldOp) : Bool :=
  let known := (s.thread w.group w.thread).knownAt w.seq
  s.worldOps.any (fun x => x.region == w.region && x.kind == .wcommit
      && ((x.group == w.group && x.thread == w.thread && decide (x.seq < w.seq)) || known.covers x.writer))
    || s.acc.any fun a => a.of w.group w.thread && decide (a.seq < w.seq) && a.kind == .wclock w.region

/-- The entries that a load at instant `t` uses (R149). -/
def usedEntries (es : List RingEntry) (t : Nat) : List RingEntry :=
  match es.find? fun e => e.stamp == t with
  | some e => [e]
  | none => match bracket t es with
    | none => []
    | some (e, none) => [e]
    | some (e0, some e1) => [e0, e1]

/-- What a load that ends with status 0 or 1 observes (R149): the commits that published the entries that it used, and the one that set the
committed instant; and it has read the records. -/
def State.observe (s : State) (w : WorldOp) (r : Region) : State :=
  let used := usedEntries (r.entries w.region w.bind w.key) w.inst
  (s.learn w.group w.thread (w.seq + 1) (takes .package w.core (r.rels ++ used.flatMap (·.rels)))).noteReads w.group w.thread w.seq
    (used.map (·.src))

/-- `WLD_CLASSIFY` (R137). -/
def execWldClassify (id : Nat) (s : State) : Out :=
  match s.worldOp id with
  | none => notNow
  | some w => match w.kind with
    | .wld noWait _ _ =>
      if w.result.isSome ∨ w.blocked ∨ s.loadBehind w ∨ !s.fencesAllow w.group w.thread w.seq false then notNow
      else
        let r := s.regionOf w
        match r.zone w.region w.bind w.key w.inst with
        | .far => .next (s.endLoad id (.fault Cause.wfar))
        | .gone => .next (s.endLoad id (.fault Cause.wgone))
        | .blocked => .next (if noWait then s.endLoad id (.done 2 []) else s.block w)
        | .data st => .next ((s.observe w r).endLoad id (.done st
            (recordAt w.region w.key w.bind ⟨w.core, w.kidx.toNat⟩ (r.entries w.region w.bind w.key) w.inst)))
    | _ => notNow

/-- The run register of a record (R139). -/
def recordRun (b : Binding) (vals : List Word) : RunReg :=
  let any64 := (List.range b.nf).any (fieldF64 b.fields)
  let el (i : Nat) : Nat :=
    let x := (vals.getD i 0#64).toNat
    if any64 && !fieldF64 b.fields i then (toFloat .f64 .rne (FFmt.f32.decode x)).bits else x
  let t := if any64 then ElemType.f64 else ElemType.f32
  mkRun t (packLits t ((List.range b.nf).map el))

/-- A thread as its world load `id` ends: vd is full again, and a bundle that waited on the load may issue. -/
def Thread.endWorldLoad (th : Thread) (id : Nat) (vd : VReg) (x : Option VCell) : Thread :=
  let th := th.setVReg vd.toNat (match x with
    | some c => c
    | none => { th.vreg vd.toNat with full := true, mark := false })
  { th with loads := th.loads.filter (· != id), wait := if th.wait = some .world then none else th.wait }

/-- The result of a world load reaches its thread (R139); data of poisoned lines marks vd (R242, R410). -/
def State.deliverLoad (s : State) (w : WorldOp) (vd : VReg) (pd : PReg) (r : WldResult) : State :=
  let s := { s with worldOps := s.worldOps.filter (·.id != w.id) }
  match r with
  | .fault c => (s.onThread w.group w.thread fun th => th.endWorldLoad w.id vd none).postTrap w.group w.thread c (BitVec.ofNat 64 w.inst)
  | .done st vals => s.onThread w.group w.thread fun th =>
      let x : Option VCell := if st < 2
        then some { run := recordRun w.bind vals, poison := w.spots.findSome? fun p => s.physPoison p.host p.addr p.len } else none
      { (th.endWorldLoad w.id vd x).setPred pd.toNat (decide (st < 2)) with wstat := BitVec.ofNat 3 st }

/-- Whether a group's entry is migrating: what is meant for it waits at the roll's home (R79, R142). -/
def State.migrating (s : State) (g : Nat) : Bool :=
  match Tab.find g s.roll with
  | some e => (match e.state with | .migrating _ => true | _ => false)
  | none => false

/-- `WLD_COMPLETE` (R139, R141, R142): in issue order. -/
def execWldComplete (id : Nat) (s : State) : Out :=
  match s.worldOp id with
  | none => notNow
  | some w => match w.kind, w.result with
    | .wld _ vd pd, some r =>
      if (s.thread w.group w.thread).loads.head? ≠ some id ∨ s.migrating w.group ∨ !s.mayReturn (s.group w.group).core then notNow else .next (s.deliverLoad w vd pd r)
    | _, _ => notNow

/-! ## Staging (R133, R145) -/

/-- What becomes of a record at its instant unit. -/
inductive Staging where
  /-- It is staged, and these entries of the ring are dropped. -/
  | stage (drop : List RingEntry)
  | refuse (cause : Nat)
  | wait
  deriving DecidableEq, Repr

/-- The fate of a record for key `key` at instant `t` (R133, R145). -/
def Region.stage (r : Region) (base : Nat) (b : Binding) (key t : Nat) : Staging :=
  let ring : List RingEntry := r.ring base b key
  if ring.any (fun x => decide (t ≤ x.stamp)) || r.committed.any (fun c => decide (t ≤ c)) then .refuse Cause.worder
  else if ring.length < b.depth then .stage []
  else
    let second : Nat := ((ring[1]?).map (·.stamp)).getD 0
    if r.floor.all fun f => decide (second ≤ f) then .stage (ring.take 1)
    else if b.faultPolicy then .refuse Cause.wretain else .wait

/-- A region with entry `e` in the ring of the block at `off`, without the entries `drop`. -/
def Region.put (r : Region) (off : Nat) (drop : List RingEntry) (e : RingEntry) : Region :=
  { r with keys := Tab.put off (drop.foldl List.erase (r.block off) ++ [e]) r.keys }

/-- World operation `id` is done. -/
def State.dropWorldOp (s : State) (id : Nat) : State := { s with worldOps := s.worldOps.filter (·.id != id) }

/-- A posted operation is refused: its thread takes the trap (R135). -/
def State.refuseWorld (s : State) (w : WorldOp) (c x : Nat) : State :=
  (s.dropWorldOp w.id).postTrap w.group w.thread c (BitVec.ofNat 64 x)

/-- A world operation as a write of its thread, of which is recorded what comes before it (R157). -/
def WorldOp.access (w : WorldOp) : Access :=
  { id := w.id, kind := .store, group := w.group, thread := w.thread, core := w.core, seq := w.seq, va := 0, pieces := [], dest := .none }

/-- A record's bytes, which no other access reaches. -/
def WorldOp.asPiece (w : WorldOp) : Piece := { host := false, addr := w.region / 2, key := 0, cc := 0, off := 0, len := 0 }

/-- The entry that a `WST` stages. -/
def State.entryOf (s : State) (w : WorldOp) (vals : List Word) : RingEntry :=
  { stamp := w.inst, committed := false, lay := w.bind.layout, vals := vals, group := w.group, ord := s.nextId + 1
    key := s.keyAt w.spots (w.bind.keyAddr w.key), src := w.id }

/-- The staging of a `WST` as its key's unit decides now. -/
def State.stageNow (s : State) (w : WorldOp) (vals : List Word) : State :=
  match (s.regionOf w).stage w.region w.bind w.key w.inst with
  | .stage drop => (((s.noteWrite w.access w.asPiece).onRegion w.region fun r => r.put (w.bind.keyOff w.key) drop (s.entryOf w vals)).fresh).dropWorldOp w.id
  | .refuse c => s.refuseWorld w c w.key
  | .wait => s.onWorld w.id fun x => { x with ringWait := true }

/-- Whether an earlier record of the same thread for the same key comes first. -/
def State.recordBehind (s : State) (w : WorldOp) : Bool :=
  s.worldOps.any fun x => x.group == w.group && x.thread == w.thread && x.region == w.region && x.key == w.key
    && decide (x.seq < w.seq) && (match x.kind with | .wst _ => true | _ => false)

/-- `WST_STAGE` (R133, R145). -/
def execWstStage (id : Nat) (s : State) : Out :=
  match s.worldOp id with
  | none => notNow
  | some w => match w.kind with
    | .wst vals =>
      if w.ringWait ∨ s.recordBehind w ∨ !s.fencesAllow w.group w.thread w.seq true then notNow else .next (s.stageNow w vals)
    | _ => notNow

/-- `WST_RING_WAIT_END` (R145): the read floor has risen far enough. -/
def execWstRingWaitEnd (id : Nat) (s : State) : Out :=
  match s.worldOp id with
  | none => notNow
  | some w => match w.kind with
    | .wst vals =>
      if !w.ringWait ∨ (s.regionOf w).stage w.region w.bind w.key w.inst = .wait then notNow else .next (s.stageNow w vals)
    | _ => notNow

/-! ## Commits and horizons -/

/-- A region with instant `t` committed by the releases `rels` under key `key`, and every entry staged at or below it published (R134,
R149). -/
def Region.commit (r : Region) (t key : Nat) (rels : List Rel) : Region :=
  { r with
    committed := some t
    rels := rels
    key := key
    keys := r.keys.map fun k => (k.1, k.2.map fun e => if e.stamp ≤ t ∧ !e.committed then { e with committed := true, rels := rels } else e) }

/-- Whether the wait of a bulk sample is over: the committed instant has come near enough, and every key has a committed entry (R336). -/
def State.nearFor (s : State) (w : WaitEnd) : Bool :=
  let r := s.region w.region
  decide (w.inst ≤ (r.under w.region w.key 0).clock + w.bind.lambda)
    && w.keys.all fun k => !((r.under w.region w.key k.2).entries w.region w.bind k.1).isEmpty

/-- Blocked loads that a commit releases are classified again, and their edges go; those of bulk samples whose waits end too (R148, R151). -/
def State.releaseLoads (s : State) (region : Nat) : State :=
  let free (w : WorldOp) : Bool := w.region == region && w.blocked && !w.closed && decide (w.inst ≤ (s.regionOf w).clock + w.bind.lambda)
    && !((s.regionOf w).entries region w.bind w.key).isEmpty
  let ids := (s.worldOps.filter free).map (·.id)
  { s with
    edges := s.edges.filter fun e => !ids.contains e.id && !e.till.any s.nearFor
    worldOps := s.worldOps.map fun w => if ids.contains w.id then { w with blocked := false } else w }

/-- A commit of instant `t` for a region whose home it reaches under key `key`: performed, without effect, or refused (R134). -/
def State.commitRegion (s : State) (region t key : Nat) (rels : List Rel) : State × Bool :=
  match ((s.region region).under region key key).committed with
  | some c =>
    if t < c then (s, false)
    else if t = c then (s, true)
    else ((s.onRegion region fun r => r.commit t key rels).releaseLoads region, true)
  | none => ((s.onRegion region fun r => r.commit t key rels).releaseLoads region, true)

/-- The releases of a `WCOMMIT` (R149): its own, at module scope, and those of the fences before it. -/
def State.commitRels (s : State) (w : WorldOp) : List Rel :=
  ⟨.package, w.core, s.cover w.group w.thread w.seq false⟩ :: (s.thread w.group w.thread).fenceRels w.core w.seq

/-- `WCOMMIT_PERFORM` (R134, R149): a release at module scope. -/
def execWcommitPerform (id : Nat) (s : State) : Out :=
  match s.worldOp id with
  | none => notNow
  | some w =>
    if w.kind ≠ .wcommit ∨ !s.earlierDone w.group w.thread w.seq .package ∨ !s.fencesAllow w.group w.thread w.seq true then notNow
    else
      let s := s.settleFences w.group w.thread
      let r := s.commitRegion w.region w.inst (s.keyAt w.spots w.bind.base) (s.commitRels w)
      .next (if r.2 then r.1.dropWorldOp id else s.refuseWorld w Cause.worder w.inst)

/-- `WHOR_PERFORM` (R144). -/
def execWhorPerform (id : Nat) (s : State) : Out :=
  match s.worldOp id with
  | none => notNow
  | some w =>
    if w.kind ≠ .whor ∨ !s.fencesAllow w.group w.thread w.seq true then notNow
    else
      let hs := (s.region w.region).horizons
      match Tab.find w.group hs with
      | none =>
        if 30 ≤ hs.length then .next (s.refuseWorld w Cause.wretain w.inst)
        else .next ((s.onRegion w.region fun r => { r with horizons := Tab.put w.group w.inst r.horizons }).dropWorldOp id)
      | some h => .next ((s.onRegion w.region fun r => { r with horizons := Tab.put w.group (max h w.inst) r.horizons }).dropWorldOp id)

/-- What leaves the instant units when group `g` has exited or been cancelled: its staged entries, its horizons, its operations
and its edges (R136, R142, R144). -/
def State.dropWorld (s : State) (g : Nat) : State :=
  let dead := (s.worldOps.filter (·.group == g)).map (·.id)
  { s with
    worldOps := s.worldOps.filter fun w => w.group != g
    edges := s.edges.filter fun e => !dead.contains e.id
    regions := s.regions.map fun r => (r.1, { r.2 with
      horizons := Tab.drop g r.2.horizons
      keys := r.2.keys.map fun k => (k.1, k.2.filter fun e => e.committed || e.group != g) }) }

end Sys2Proof.Machine
end

