-- ==== Sys2Proof/Machine/Engines.lean ====
section
/-! DEFINITION. Command queues and what their commands share: operand words, the shape record, hall passes, halts, and the
engines' own accesses (spec 04 R119-R126; 08 R215-R219; 12 R315-R319, R330-R332; 19 R371; 21 R406). -/

namespace Sys2Proof.Machine

/-! ## Command words (R215, R315) -/

/-- The opcode (R215). -/
def Cmd.op (m : Cmd) : Nat := m.w0.toNat % 256
/-- The wait semaphore. -/
def Cmd.wsem (m : Cmd) : Nat := bitsOf 63 56 m.w0.toNat
/-- The wait threshold; 0 means no wait. -/
def Cmd.wthr (m : Cmd) : Nat := bitsOf 55 32 m.w0.toNat
/-- The signal semaphore. -/
def Cmd.ssem (m : Cmd) : Nat := bitsOf 31 24 m.w0.toNat
/-- The signal's increment; 0 means no signal. -/
def Cmd.sinc (m : Cmd) : Nat := bitsOf 23 16 m.w0.toNat
/-- The reserved bits of word 0. -/
def Cmd.reserved (m : Cmd) : Nat := bitsOf 15 9 m.w0.toNat
/-- The fence-before flag (R162). -/
def Cmd.fence (m : Cmd) : Bool := bitOf 8 m.w0.toNat

/-- Whether an opcode is one of R217. -/
def opKnown (op : Nat) : Bool := decide (op ≤ 0x07) || (decide (0x10 ≤ op) && decide (op ≤ 0x17)) || op == 0x20 || op == 0x21

/-- Whether queue `q` accepts an opcode (R217). -/
def opAccepted (q op : Nat) : Bool :=
  op == 0 || (if q = 0 then decide (op ≤ 0x07) else if q ≤ 4 then decide (0x10 ≤ op ∧ op ≤ 0x17) else op == 0x20 || op == 0x21)

/-- Whether an opcode is an array command (R320). -/
def opArray (op : Nat) : Bool := decide (3 ≤ op ∧ op ≤ 7)

/-- A place that an operand names (R315): a window offset or a virtual address. -/
structure Place0 where
  win : Bool
  addr : Int
  deriving DecidableEq, Repr

/-- A packed address. -/
def packed (w : Nat) : Place0 := ⟨bitOf 56 w, (w % 2 ^ 56 : Nat)⟩

/-- A place further on. -/
def Place0.plus (p : Place0) (k : Int) : Place0 := { p with addr := p.addr + k }

/-! ## The shape record (R330, R331) -/

/-- A 32-bit field of a record. -/
def rec32 (bs : List Byte) (off : Nat) : Nat := ofBytesLE ((bs.drop off).take 4)
/-- A 64-bit field of a record. -/
def rec64 (bs : List Byte) (off : Nat) : Nat := ofBytesLE ((bs.drop off).take 8)

/-- The shape that a record holds. -/
def shapeOfBytes (bs : List Byte) : Shape :=
  let nd := rec32 bs 0 % 8
  { pad0 := rec32 bs 4
    blk := blockSize (bitsOf 11 10 (rec32 bs 0))
    exts := (List.range (nd + 1)).map fun i => rec32 bs (8 + 4 * i)
    sstr := (List.range nd).map fun i => signedOf 32 (rec32 bs (40 + 4 * i))
    dstr := (List.range nd).map fun i => signedOf 32 (rec32 bs (72 + 4 * i))
    saux := rec64 bs 104
    daux := rec64 bs 112
    idxlim := rec32 bs 120 }

/-- Whether the reserved fields of a record, and its fields beyond NDIM, are zero. -/
def shapeReserved (bs : List Byte) : Bool :=
  let nd := rec32 bs 0 % 8
  bitsOf 31 12 (rec32 bs 0) == 0 && bitsOf 9 3 (rec32 bs 0) == 0 && rec32 bs 68 == 0 && rec32 bs 100 == 0 && rec32 bs 124 == 0
    && decide (rec64 bs 104 < 2 ^ 57) && decide (rec64 bs 112 < 2 ^ 57)
    && (List.range 8).all fun i => decide (i ≤ nd) || (rec32 bs (8 + 4 * i) == 0 && rec32 bs (36 + 4 * i) == 0 && rec32 bs (68 + 4 * i) == 0)

/-- EXT0. -/
def Shape.ext0 (h : Shape) : Nat := h.exts.getD 0 0
/-- P: the padded extent of dimension 0 (R331). -/
def Shape.padded (h : Shape) : Nat := if h.pad0 = 0 then h.ext0 else h.pad0
/-- Lines: combinations of the other dimensions. -/
def Shape.lines (h : Shape) : Nat := (h.exts.drop 1).foldl (· * ·) 1
/-- Whether the copy moves nothing. -/
def Shape.empty (h : Shape) : Bool := h.exts.any (· == 0)

/-- The byte offset of line `n` under strides. -/
def lineOffset : List Nat → List Int → Nat → Int
  | [], _, _ => 0
  | _, [], _ => 0
  | e :: es, k :: ks, n => ((n % e : Nat) : Int) * k + lineOffset es ks (n / e)

/-- The offset of source line `n`. -/
def Shape.srcLine (h : Shape) (n : Nat) : Int := lineOffset (h.exts.drop 1) h.sstr n
/-- The offset of destination line `n`. -/
def Shape.dstLine (h : Shape) (n : Nat) : Int := lineOffset (h.exts.drop 1) h.dstr n

/-- The least and greatest line offsets under strides. -/
def strideSpan : List Nat → List Int → Int × Int
  | e :: es, k :: ks =>
    let r := strideSpan es ks
    let x := ((e : Int) - 1) * k
    (r.1 + min 0 x, r.2 + max 0 x)
  | _, _ => (0, 0)

/-- Whether strides put lines of `row` bytes one behind the other (R123). -/
def denseStrides : List Nat → List Int → Int → Bool
  | e :: es, k :: ks, row => (decide (e ≤ 1) || decide (k = row)) && denseStrides es ks (row * e)
  | _, _, _ => true

/-! ## Copy formats (R332) -/

/-- Bits of an element of a copy format; 0 for a malformed code. -/
def copyBits : Nat → Nat
  | 0 => 8 | 1 => 4 | 2 => 8 | 3 => 16 | 4 => 32 | 5 => 4 | 6 => 8 | 7 => 16 | 8 => 16 | 9 => 32 | 10 => 64
  | 11 => 16 | 12 => 32 | 13 => 64 | _ => 0

/-- Whether a format code is block scaled. -/
def copyScaled (c : Nat) : Bool := decide (1 ≤ c ∧ c ≤ 5)

/-! ## Engine accesses -/

/-- The end of an engine's access to memory. -/
inductive Eng (α : Type) where
  | ok (x : α)
  /-- The translation faults: a record is posted (R371). -/
  | page (va : Nat) (ty : AccessType)
  /-- Denied: the queue halts with the cause. -/
  | halt (cause : Nat)
  /-- Not yet: an earlier store of the cluster or a locker's room comes first. -/
  | wait

/-- The group's window, or virtual memory, as an engine reaches it for command `m`. -/
def State.engPlan (s : State) (core : Nat) (m : Cmd) (store : Bool) (p : Place0) (n : Nat) : Plan :=
  if p.addr < 0 ∨ 2 ^ 56 < p.addr.toNat + n then .trap Cause.prot false 0
  else if n = 0 then .ok []
  else if p.win then
    (if p.addr.toNat + n ≤ 1024 * (s.group m.group).task.scratch
     then .ok [{ host := false, pool := true, addr := p.addr.toNat, key := 0, cc := 0, off := 0, len := n }]
     else .trap Cause.prot false 0)
  else s.plan true core (s.group m.group).part m.branch p.addr.toNat n { load := !store, store := store, user := m.user } false true

/-- Whether a store that only the core's cluster sees meets a piece: it is performed first (R165). -/
def State.storeFirst (s : State) (core : Nat) (p : Piece) : Bool := !p.pool && (s.visibleIn (clusterOf core)).any fun e => e.2.meets p

/-- Bytes that an engine of the core's cluster reads for command `m`: what is performed for every party. -/
def State.engRead (s : State) (core : Nat) (m : Cmd) (p : Place0) (n : Nat) : Eng (List Byte) :=
  match s.engPlan core m false p n with
  | .trap _ _ _ => .halt 8
  | .miss va => .page va { load := true, user := m.user }
  | .cow _ _ => .halt 8
  | .ok ps =>
    if ps.any (s.storeFirst core) then .wait
    else if ps.any fun q => (s.piecePoison m.group q).isSome then .halt 9
    else .ok (ps.flatMap fun q => if q.pool then s.winBytes m.group q.addr q.len else s.readPhys q.host q.key q.addr q.len)

/-- Records what comes before the writes of a command (R157). -/
def State.noteCmd (s : State) (core : Nat) (m : Cmd) : State :=
  if m.knows = {} ∨ s.wrote.any (·.id == m.id) then s
  else { s with wrote := s.wrote ++ [{ id := m.id, core := core, before := m.knows, rels := [] }] }

/-- A command's write of a byte string, with fuel for the copies of shared granules. -/
def State.engWrite : Nat → State → Nat → Cmd → Place0 → List Byte → Eng State
  | 0, _, _, _, _, _ => .wait
  | fuel + 1, s, core, m, p, bs =>
    match s.engPlan core m true p bs.length with
    | .trap _ _ _ => .halt 8
    | .miss va => .page va { store := true, user := m.user }
    | .cow l va =>
      let d := if l.host then dieOfCore core else dieOf l.base
      if s.lockerHas d Config.granule then
        State.engWrite fuel (s.copyNow (s.group m.group).part m.branch (va / Config.granule) core l) core m p bs
      else .wait
    | .ok ps =>
      let ps := withData ps bs
      if ps.any (s.storeFirst core) then .wait
      else .ok ((ps.filter (·.pool)).foldl (fun s q => s.winWrite m.group q.addr q.data) ((s.noteCmd core m).landPieces (m.writer core) (ps.filter (!·.pool))))

/-- A write of bytes at a place. -/
def State.engPut (s : State) (core : Nat) (m : Cmd) (p : Place0) (bs : List Byte) : Eng State :=
  if bs = [] then .ok s else s.engWrite (bs.length / Config.granule + 3) core m p bs

/-- Sequencing. -/
def Eng.bind {α β : Type} (x : Eng α) (f : α → Eng β) : Eng β :=
  match x with
  | .ok a => f a
  | .page v ty => .page v ty
  | .halt c => .halt c
  | .wait => .wait

/-- Each of several accesses in turn, their results in order. -/
def engAll {α β : Type} (f : α → Eng β) : List α → Eng (List β)
  | [] => .ok []
  | x :: xs => (f x).bind fun y => (engAll f xs).bind fun ys => .ok (y :: ys)

/-- Writes in order. -/
def State.engPuts (s : State) (core : Nat) (m : Cmd) : List (Place0 × List Byte) → Eng State
  | [] => .ok s
  | x :: xs => (s.engPut core m x.1 x.2).bind fun s => State.engPuts s core m xs

/-! ## Queues -/

/-- Queue `q` of a core. -/
def State.queue (s : State) (core q : Nat) : List Cmd := (s.core core).queues.getD q []

/-- The head of a queue. -/
def State.headCmd (s : State) (core q : Nat) : Option Cmd := (s.queue core q).head?

/-- The state with a queue changed by `f`. -/
def State.onQueue (s : State) (core q : Nat) (f : List Cmd → List Cmd) : State :=
  s.onCore core fun c => { c with queues := modifyNth q f c.queues }

/-- The state with the head of a queue changed by `f`. -/
def State.onHead (s : State) (core q : Nat) (f : Cmd → Cmd) : State :=
  s.onQueue core q fun ms => match ms with
    | [] => []
    | m :: ms => f m :: ms

/-- The halt record of a command (R219). -/
def qerrOf (op q cause : Nat) : Word := BitVec.ofNat 64 (op * 256 + q * 32 + cause * 2 + 1)

/-- A command gives its hall pass back, or leaves the line of requests. -/
def State.dropPass (s : State) (core q : Nat) : State :=
  (s.onHead core q fun m => { m with pass := .none }).onDie (dieOfCore core) fun d =>
    { d with passQueue := d.passQueue.filter (· != (core, q)) }

/-- The head of a queue halts it (R218, R319): the record goes into `c.qerr` unless it holds another, and the issuing thread takes
`ENGINE`, or for cause 6 `RESIDUE`, once its machine check is posted (R379). -/
def State.haltQueue (s : State) (core q cause : Nat) : State :=
  match s.headCmd core q with
  | none => s
  | some m =>
    let s := s.dropPass core q
    let s := { s with edges := s.edges.filter (·.id != m.id) }
    let s := s.onHead core q fun m => { m with haltCause := some cause, started := false, edge := none, closed := false }
    let s := if (s.core core).qerr.getLsbD 0 then s else s.onCore core fun c => { c with qerr := qerrOf m.op q cause }
    let die := dieOfCore core
    if cause = 6 then
      let rec4 := s.accessRecord 4 Cause.residue m.group m.thread none
      rec4.1.queueFault die { rec4.2 with detail := detailOf die 4 0, target := .trap m.group m.thread Cause.residue 0#64 none }
    else s.postTrap m.group m.thread Cause.engine 0#64

/-- The halt record that `c.qerr` takes up next: the lowest halted queue (R219). -/
def nextHalt (qs : List (List Cmd)) : Word :=
  (((List.range qs.length).zip qs).findSome? fun x => match x.2 with
    | m :: _ => m.haltCause.map fun c => qerrOf m.op x.1 c
    | [] => none).getD 0#64

/-- A write of 0 to `c.qerr` (R219): the halted command is discarded and its queue resumes. -/
def State.clearQerr (s : State) (core : Nat) : State :=
  let e := (s.core core).qerr
  if !e.getLsbD 0 then s
  else
    let s := s.onQueue core (bitsOf 7 5 e.toNat) fun ms => match ms with
      | m :: rest => if m.haltCause.isSome then rest else m :: rest
      | [] => []
    s.onCore core fun c => { c with qerr := nextHalt c.queues }

/-- `QERR_CLEAR` (R219). -/
def execQerrClear (core : Nat) (s : State) : Out := whenOk ((s.core core).qerr.getLsbD 0) (.next (s.clearQerr core))

/-- A copy or bulk command meets a page fault: it stops and posts a record of kind 2 (R371); a matrix command posts kind 1 and is
abandoned (R327). -/
def State.stopCommand (s : State) (core q : Nat) (m : Cmd) (va : Nat) (ty : AccessType) : State :=
  let kind := if q = 0 then 1 else 2
  let base := s.threadRecord kind Cause.page ty va m.group m.thread
  let r := { base with core := core, queue := if q = 0 then 0 else q, pc := if q = 0 then base.pc else m.wp, target := .command core q }
  let s := s.onHead core q fun x => { x with stopped := some s.nextId, started := x.started && q != 0 }
  let s := if q = 0 then s.dropPass core q else s
  s.queueFault (dieOfCore core) r

/-- The outcome of one unit of a started command. -/
def unitOut (s : State) (core q : Nat) (m : Cmd) (r : Eng State) : Out :=
  match r with
  | .ok s => .next s
  | .page va ty => .next (s.stopCommand core q m va ty)
  | .halt c => .next (s.haltQueue core q c)
  | .wait => notNow

/-- Runs `k` on the started head of a queue, of opcode `op`, that is neither halted nor stopped nor done. -/
def withStarted (s : State) (core q op : Nat) (k : Cmd → Out) : Out :=
  match s.headCmd core q with
  | none => notNow
  | some m => if m.op ≠ op ∨ !m.started ∨ m.done ∨ m.stopped.isSome ∨ m.haltCause.isSome then notNow else k m

/-- The head is done: all its writes are performed. -/
def State.doneHead (s : State) (core q : Nat) : State := s.onHead core q fun m => { m with done := true }

/-- `NOPC` (R217). -/
def execNopc (core q : Nat) (s : State) : Out := withStarted s core q 0x00 fun _ => .next (s.doneHead core q)

/-- `CP.SIG` (R333): words 1-3 are zero. -/
def execCpSig (core q : Nat) (s : State) : Out :=
  withStarted s core q 0x17 fun m =>
    if m.w1 ≠ 0#64 ∨ m.w2 ≠ 0#64 ∨ m.w3 ≠ 0#64 then .next (s.haltQueue core q 7) else .next (s.doneHead core q)

/-! ## Hall passes (R318, R406) -/

/-- SFMT. -/
def Cmd.sfmt (m : Cmd) : Nat := bitsOf 63 60 m.w1.toNat
/-- DFMT. -/
def Cmd.dfmt (m : Cmd) : Nat := bitsOf 63 60 m.w2.toNat

/-- Bits of an element of the type code of `CP.PACK` and `CP.UNPACK`; 0 for an unassigned code. -/
def typeBits (c : Nat) : Nat := match ElemType.ofCode c with
  | some t => widthOf t
  | none => 0

/-- Bits of an element of the bank that a format register governs. -/
def bankBits (reg : Nat) : Nat := (BankFmt.ofCode (reg % 16)).width 0

/-- Bits of a source element of a copy. -/
def Cmd.srcBits (m : Cmd) : Nat :=
  match m.banks with
  | some (a, _) => bankBits a
  | none => if m.op = 0x13 then typeBits m.sfmt else copyBits m.sfmt
/-- Bits of a destination element of a copy. -/
def Cmd.dstBits (m : Cmd) : Nat :=
  match m.banks with
  | some (_, b) => bankBits b
  | none => if m.op = 0x14 then typeBits m.dfmt else copyBits m.dfmt

/-- Destination bytes of a copy. -/
def Cmd.destBytes (m : Cmd) : Nat :=
  match m.shape with
  | none => 0
  | some h =>
    if h.empty then 0
    else if m.op = 0x13 then h.lines * 1040
    else if m.op = 0x16 then bytesFor m.dstBits h.idxlim
    else h.lines * bytesFor m.dstBits h.padded

/-- Whether a command obtains a pass before it starts (R318). -/
def Cmd.heavy (m : Cmd) : Bool :=
  opArray m.op || m.op == 0x20 || m.op == 0x21 || (decide (0x10 ≤ m.op ∧ m.op ≤ 0x16) && decide (262144 < m.destBytes))

/-- The charge of a pass in half watts (R406). -/
def Cmd.charge (m : Cmd) : Nat := if opArray m.op then 48 else 2

/-- The draw estimate of a die in half watts (R406). -/
def State.estimate (s : State) (die : Nat) : Nat :=
  580 + ((List.range Config.clustersPerDie).map fun i =>
    (((s.commandsOf (Config.clustersPerDie * die + i))).map fun x => match x.2.2.pass with
      | .held => x.2.2.charge
      | .half => x.2.2.charge / 2
      | _ => 0).sum).sum

/-- STATE of `c.hall` changes for the latest heavy command (R407). -/
def State.noteHall (s : State) (core id : Nat) (st : BitVec 2) : State :=
  s.onCore core fun c => if c.hallCmd = some id then { c with hallState := st } else c

/-- `HALL_PASS_GRANT` (R406): the first request of a die, within its 4,800 cycles, when the estimate allows it and the die is not too
hot (R412). -/
def execHallPassGrant (die : Nat) (s : State) : Out :=
  let d := s.die die
  match d.passQueue with
  | [] => notNow
  | (core, q) :: rest => match s.headCmd core q with
    | none => .next (s.onDie die fun d => { d with passQueue := rest })
    | some m =>
      let late : Bool := match m.pass with | .waiting since => decide (since + Config.passWait < s.cycle) | _ => true
      if late ∨ 2 * d.cap < s.estimate die + m.charge ∨ (d.inhibit ∧ opArray m.op) then notNow
      else
        let s := s.onDie die fun d => { d with passQueue := rest, live := { d.live with grant := d.live.grant + 1#64 } }
        .next ((s.onHead core q fun m => { m with pass := .held }).noteHall core m.id 2#2)

/-- `HALL_PASS_TIMEOUT` (R318): after 4,800 cycles without a pass the command starts at half rate; no request passes an earlier one of
its die (R406). -/
def execHallPassTimeout (core q : Nat) (s : State) : Out :=
  match s.headCmd core q with
  | none => notNow
  | some m => match m.pass with
    | .waiting since =>
      if s.cycle < since + Config.passWait ∨ (s.die (dieOfCore core)).passQueue.head? ≠ some (core, q) then notNow
      else
        let s := s.dropPass core q
        let s := s.onDie (dieOfCore core) fun d => { d with live := { d.live with half := d.live.half + 1#64 } }
        let s := s.onCore core fun c => { c with hallCount := c.hallCount + 1#32 }
        .next ((s.onHead core q fun m => { m with pass := .half }).noteHall core m.id 3#2)
    | _ => notNow

end Sys2Proof.Machine
end

