-- ==== Sys2Proof/Machine/Vector.lean ====
section
/-! DEFINITION. The run-vector instructions that reach no memory (spec 10 R266-R284). -/

namespace Sys2Proof.Machine

/-! ## The checks of R267 and R268 -/

/-- A run register as the bundle reads it, as runs of type `t`. -/
def State.runsOf (s : State) (t : ElemType) (v : VReg) : List Run := (s.rdV v).runs t

/-- RUNBAD for a register that is not well formed, in field order, then for a TYPE that differs from the one expected. -/
def runBad (s : State) (rs : List (VReg × ElemType)) : Option VReg :=
  match rs.find? fun r => !(s.rdV r.1).wf with
  | some r => some r.1
  | none => (rs.find? fun r => (s.rdV r.1).type != r.2.code).map (·.1)

/-- The value of LENGTH for a register whose L differs (R268). -/
def lengthVal (s : State) (v : VReg) : Word := BitVec.ofNat 64 (v.toNat * 2 ^ 16 + (s.rdV v).len)

/-- The first register whose L differs from `n`. -/
def lengthBad (s : State) (n : Nat) (rs : List (VReg × ElemType)) : Option VReg :=
  (rs.find? fun r => (s.rdV r.1).len != n).map (·.1)

/-- Runs `k` when the registers of `rs`, in field order and led by va, meet R267 and R268. -/
def withRuns (s : State) (rs : List (VReg × ElemType)) (k : Out) : Out :=
  match runBad s rs with
  | some v => trapOut s Cause.runbad (v.setWidth 64)
  | none => match lengthBad s ((rs.head?.map fun r => (s.rdV r.1).len).getD 0) rs with
    | some v => trapOut s Cause.length (lengthVal s v)
    | none => k

/-- The outcome of a result of runs `rs`: `RUNOVF` with the index of the first element of slot 65, else the register and the
sticky flags (R268, R271). -/
def putRuns (s : State) (vd : VReg) (t : ElemType) (rs : List Run) (fl : Flags) : Out :=
  if 64 < rs.length then trapOut s Cause.runovf (BitVec.ofNat 64 (runsLen (rs.take 64)))
  else .next ((s.wrV vd (mkRun t rs)).orFlags fl)

/-! ## Elementwise instructions (R269, R270) -/

/-- The mask and the old destination, when an instruction is masked. -/
def maskRegs (vd vm : VReg) (t : ElemType) : List (VReg × ElemType) := if vm = 0#4 then [] else [(vm, .b1), (vd, t)]

/-- An element's value under a mask: `n` sources, then the mask and the old destination (R269). -/
def masked (n : Nat) (vm : VReg) (f : List Nat → FRes) (args : List Nat) : FRes :=
  if vm = 0#4 ∨ args.getD n 0 = 1 then f (args.take n) else ⟨args.getD (n + 1) 0, 0#5⟩

/-- An elementwise instruction: `checks` in field order, `ins` what the walk reads, `t` the result's type. -/
def elementwise (s : State) (vd : VReg) (t : ElemType) (checks ins : List (VReg × ElemType)) (f : List Nat → FRes) : Out :=
  withRuns s checks (
    let r := buildRuns (perSlot t) f (walkRuns (ins.map fun x => s.runsOf x.2 x.1))
    putRuns s vd t r.1 r.2)

/-- VOP (R275). -/
def vopOut (s : State) (op : VOp) (vd va vb vm : VReg) (t : ElemType) : Out :=
  let ins := [(va, t), (vb, t)] ++ maskRegs vd vm t
  elementwise s vd t ins ins (masked 2 vm fun args => vopElem op t s.mode s.nanTag (args.getD 0 0) (args.getD 1 0))

/-- The element that a scalar register gives (R275). -/
def State.scalarElem (s : State) (t : ElemType) (r : SReg) : Nat := (s.rd r).toNat % 2 ^ widthOf t

/-- VOPS (R275): with `rev` the scalar is the first operand. -/
def vopsOut (s : State) (op : VOp) (vd va : VReg) (r : SReg) (t : ElemType) (rev : Bool) : Out :=
  let x := s.scalarElem t r
  elementwise s vd t [(va, t)] [(va, t)] fun args =>
    let a := args.getD 0 0
    if rev then vopElem op t s.mode s.nanTag x a else vopElem op t s.mode s.nanTag a x

/-- VFMA (R276): the old destination is always a source. -/
def vfmaOut (s : State) (form : FmaForm) (vd va vb vm : VReg) (t : ElemType) : Out :=
  let checks := [(va, t), (vb, t)] ++ (if vm = 0#4 then [] else [(vm, .b1)]) ++ [(vd, t)]
  elementwise s vd t checks ([(va, t), (vb, t), (vd, t)] ++ maskRegs vd vm t)
    (masked 3 vm fun args => vfmaElem form t s.mode s.nanTag (args.getD 0 0) (args.getD 1 0) (args.getD 2 0))

/-- VUN (R277). -/
def vunOut (s : State) (op : VUn) (vd va vm : VReg) (t : ElemType) : Out :=
  let ins := [(va, t)] ++ maskRegs vd vm t
  elementwise s vd t ins ins (masked 1 vm fun args => vunElem op t s.mode s.nanTag (args.getD 0 0))

/-! ## VOP and VOPS (R275) -/

/-- `VADD` with two run registers (R275). -/
def execVadd (vd va vb vm : VReg) (t : ElemType) (s : State) : Out :=
  guarded (.vadd vd va vb vm t) s fun s => vopOut s .add vd va vb vm t

/-- `VSUB` with two run registers (R275). -/
def execVsub (vd va vb vm : VReg) (t : ElemType) (s : State) : Out :=
  guarded (.vsub vd va vb vm t) s fun s => vopOut s .sub vd va vb vm t

/-- `VMUL` with two run registers (R275). -/
def execVmul (vd va vb vm : VReg) (t : ElemType) (s : State) : Out :=
  guarded (.vmul vd va vb vm t) s fun s => vopOut s .mul vd va vb vm t

/-- `VDIV` with two run registers (R275). -/
def execVdiv (vd va vb vm : VReg) (t : ElemType) (s : State) : Out :=
  guarded (.vdiv vd va vb vm t) s fun s => vopOut s .div vd va vb vm t

/-- `VMIN` with two run registers (R275). -/
def execVmin (vd va vb vm : VReg) (t : ElemType) (s : State) : Out :=
  guarded (.vmin vd va vb vm t) s fun s => vopOut s .min vd va vb vm t

/-- `VMAX` with two run registers (R275). -/
def execVmax (vd va vb vm : VReg) (t : ElemType) (s : State) : Out :=
  guarded (.vmax vd va vb vm t) s fun s => vopOut s .max vd va vb vm t

/-- `VAND` with two run registers (R275). -/
def execVand (vd va vb vm : VReg) (t : ElemType) (s : State) : Out :=
  guarded (.vand vd va vb vm t) s fun s => vopOut s .and vd va vb vm t

/-- `VOR` with two run registers (R275). -/
def execVor (vd va vb vm : VReg) (t : ElemType) (s : State) : Out :=
  guarded (.vor vd va vb vm t) s fun s => vopOut s .or vd va vb vm t

/-- `VXOR` with two run registers (R275). -/
def execVxor (vd va vb vm : VReg) (t : ElemType) (s : State) : Out :=
  guarded (.vxor vd va vb vm t) s fun s => vopOut s .xor vd va vb vm t

/-- `VANDN` with two run registers (R275). -/
def execVandn (vd va vb vm : VReg) (t : ElemType) (s : State) : Out :=
  guarded (.vandn vd va vb vm t) s fun s => vopOut s .andn vd va vb vm t

/-- `VSHL` with two run registers (R275). -/
def execVshl (vd va vb vm : VReg) (t : ElemType) (s : State) : Out :=
  guarded (.vshl vd va vb vm t) s fun s => vopOut s .shl vd va vb vm t

/-- `VSHR` with two run registers (R275). -/
def execVshr (vd va vb vm : VReg) (t : ElemType) (s : State) : Out :=
  guarded (.vshr vd va vb vm t) s fun s => vopOut s .shr vd va vb vm t

/-- `VSRA` with two run registers (R275). -/
def execVsra (vd va vb vm : VReg) (t : ElemType) (s : State) : Out :=
  guarded (.vsra vd va vb vm t) s fun s => vopOut s .sra vd va vb vm t

/-- `VABSD` with two run registers (R275). -/
def execVabsd (vd va vb vm : VReg) (t : ElemType) (s : State) : Out :=
  guarded (.vabsd vd va vb vm t) s fun s => vopOut s .absd vd va vb vm t

/-- `VCPSGN` with two run registers (R275). -/
def execVcpsgn (vd va vb vm : VReg) (t : ElemType) (s : State) : Out :=
  guarded (.vcpsgn vd va vb vm t) s fun s => vopOut s .cpsgn vd va vb vm t

/-- `VADD` with a scalar (R275). -/
def execVaddS (vd va : VReg) (r : SReg) (t : ElemType) (rev : Bool) (s : State) : Out :=
  guarded (.vaddS vd va r t rev) s fun s => vopsOut s .add vd va r t rev

/-- `VSUB` with a scalar (R275). -/
def execVsubS (vd va : VReg) (r : SReg) (t : ElemType) (rev : Bool) (s : State) : Out :=
  guarded (.vsubS vd va r t rev) s fun s => vopsOut s .sub vd va r t rev

/-- `VMUL` with a scalar (R275). -/
def execVmulS (vd va : VReg) (r : SReg) (t : ElemType) (rev : Bool) (s : State) : Out :=
  guarded (.vmulS vd va r t rev) s fun s => vopsOut s .mul vd va r t rev

/-- `VDIV` with a scalar (R275). -/
def execVdivS (vd va : VReg) (r : SReg) (t : ElemType) (rev : Bool) (s : State) : Out :=
  guarded (.vdivS vd va r t rev) s fun s => vopsOut s .div vd va r t rev

/-- `VMIN` with a scalar (R275). -/
def execVminS (vd va : VReg) (r : SReg) (t : ElemType) (rev : Bool) (s : State) : Out :=
  guarded (.vminS vd va r t rev) s fun s => vopsOut s .min vd va r t rev

/-- `VMAX` with a scalar (R275). -/
def execVmaxS (vd va : VReg) (r : SReg) (t : ElemType) (rev : Bool) (s : State) : Out :=
  guarded (.vmaxS vd va r t rev) s fun s => vopsOut s .max vd va r t rev

/-- `VAND` with a scalar (R275). -/
def execVandS (vd va : VReg) (r : SReg) (t : ElemType) (rev : Bool) (s : State) : Out :=
  guarded (.vandS vd va r t rev) s fun s => vopsOut s .and vd va r t rev

/-- `VOR` with a scalar (R275). -/
def execVorS (vd va : VReg) (r : SReg) (t : ElemType) (rev : Bool) (s : State) : Out :=
  guarded (.vorS vd va r t rev) s fun s => vopsOut s .or vd va r t rev

/-- `VXOR` with a scalar (R275). -/
def execVxorS (vd va : VReg) (r : SReg) (t : ElemType) (rev : Bool) (s : State) : Out :=
  guarded (.vxorS vd va r t rev) s fun s => vopsOut s .xor vd va r t rev

/-- `VANDN` with a scalar (R275). -/
def execVandnS (vd va : VReg) (r : SReg) (t : ElemType) (rev : Bool) (s : State) : Out :=
  guarded (.vandnS vd va r t rev) s fun s => vopsOut s .andn vd va r t rev

/-- `VSHL` with a scalar (R275). -/
def execVshlS (vd va : VReg) (r : SReg) (t : ElemType) (rev : Bool) (s : State) : Out :=
  guarded (.vshlS vd va r t rev) s fun s => vopsOut s .shl vd va r t rev

/-- `VSHR` with a scalar (R275). -/
def execVshrS (vd va : VReg) (r : SReg) (t : ElemType) (rev : Bool) (s : State) : Out :=
  guarded (.vshrS vd va r t rev) s fun s => vopsOut s .shr vd va r t rev

/-- `VSRA` with a scalar (R275). -/
def execVsraS (vd va : VReg) (r : SReg) (t : ElemType) (rev : Bool) (s : State) : Out :=
  guarded (.vsraS vd va r t rev) s fun s => vopsOut s .sra vd va r t rev

/-- `VABSD` with a scalar (R275). -/
def execVabsdS (vd va : VReg) (r : SReg) (t : ElemType) (rev : Bool) (s : State) : Out :=
  guarded (.vabsdS vd va r t rev) s fun s => vopsOut s .absd vd va r t rev

/-- `VCPSGN` with a scalar (R275). -/
def execVcpsgnS (vd va : VReg) (r : SReg) (t : ElemType) (rev : Bool) (s : State) : Out :=
  guarded (.vcpsgnS vd va r t rev) s fun s => vopsOut s .cpsgn vd va r t rev

/-! ## VFMA (R276) -/

/-- `VFMA` (R276). -/
def execVfma (vd va vb vm : VReg) (t : ElemType) (s : State) : Out :=
  guarded (.vfma vd va vb vm t) s fun s => vfmaOut s .add vd va vb vm t

/-- `VFMA.n` (R276). -/
def execVfmaN (vd va vb vm : VReg) (t : ElemType) (s : State) : Out :=
  guarded (.vfmaN vd va vb vm t) s fun s => vfmaOut s .sub vd va vb vm t

/-- `VFMA.e` (R276). -/
def execVfmaE (vd va vb vm : VReg) (t : ElemType) (s : State) : Out :=
  guarded (.vfmaE vd va vb vm t) s fun s => vfmaOut s .rev vd va vb vm t

/-! ## VUN (R277) -/

/-- `VNEG` (R277). -/
def execVneg (vd va vm : VReg) (t : ElemType) (s : State) : Out :=
  guarded (.vneg vd va vm t) s fun s => vunOut s .neg vd va vm t

/-- `VABS` (R277). -/
def execVabs (vd va vm : VReg) (t : ElemType) (s : State) : Out :=
  guarded (.vabs vd va vm t) s fun s => vunOut s .abs vd va vm t

/-- `VNOT` (R277). -/
def execVnot (vd va vm : VReg) (t : ElemType) (s : State) : Out :=
  guarded (.vnot vd va vm t) s fun s => vunOut s .not vd va vm t

/-- `VSQRT` (R277). -/
def execVsqrt (vd va vm : VReg) (t : ElemType) (s : State) : Out :=
  guarded (.vsqrt vd va vm t) s fun s => vunOut s .sqrt vd va vm t

/-- `VRSQ` (R277). -/
def execVrsq (vd va vm : VReg) (t : ElemType) (s : State) : Out :=
  guarded (.vrsq vd va vm t) s fun s => vunOut s .rsq vd va vm t

/-- `VRCP` (R277). -/
def execVrcp (vd va vm : VReg) (t : ElemType) (s : State) : Out :=
  guarded (.vrcp vd va vm t) s fun s => vunOut s .rcp vd va vm t

/-- `VEXP2` (R277). -/
def execVexp2 (vd va vm : VReg) (t : ElemType) (s : State) : Out :=
  guarded (.vexp2 vd va vm t) s fun s => vunOut s .exp2 vd va vm t

/-- `VLOG2` (R277). -/
def execVlog2 (vd va vm : VReg) (t : ElemType) (s : State) : Out :=
  guarded (.vlog2 vd va vm t) s fun s => vunOut s .log2 vd va vm t

/-- `VFLOOR` (R277). -/
def execVfloor (vd va vm : VReg) (t : ElemType) (s : State) : Out :=
  guarded (.vfloor vd va vm t) s fun s => vunOut s .floor vd va vm t

/-- `VROUND` (R277). -/
def execVround (vd va vm : VReg) (t : ElemType) (s : State) : Out :=
  guarded (.vround vd va vm t) s fun s => vunOut s .round vd va vm t

/-- `VCLZ` (R277). -/
def execVclz (vd va vm : VReg) (t : ElemType) (s : State) : Out :=
  guarded (.vclz vd va vm t) s fun s => vunOut s .clz vd va vm t

/-- `VPOPC` (R277). -/
def execVpopc (vd va vm : VReg) (t : ElemType) (s : State) : Out :=
  guarded (.vpopc vd va vm t) s fun s => vunOut s .popc vd va vm t

/-! ## Compare, select and convert (R278-R280) -/

/-- `VCMP` (R278): the result has TYPE b1. -/
def execVcmp (c : VCond) (vd va vb vm : VReg) (t : ElemType) (s : State) : Out :=
  guarded (.vcmp c vd va vb vm t) s fun s =>
    let ins := [(va, t), (vb, t)] ++ maskRegs vd vm .b1
    elementwise s vd .b1 ins ins (masked 2 vm fun args => vcmpElem c t (args.getD 0 0) (args.getD 1 0))

/-- `VSEL` (R279): the mask chooses; the old destination is not read. -/
def execVsel (vd va vb vm : VReg) (t : ElemType) (s : State) : Out :=
  guarded (.vsel vd va vb vm t) s fun s =>
    let ins := [(va, t), (vb, t), (vm, .b1)]
    elementwise s vd t ins ins fun args => ⟨if args.getD 2 0 = 1 then args.getD 0 0 else args.getD 1 0, 0#5⟩

/-- The mode that a rounding field names (R280). -/
def roundMode (r : RoundSel) (m : Mode) : Mode :=
  match r with
  | .rne => .rne | .rtz => .rtz | .rup => .rup | .rdn => .rdn | .cround => m

/-- `VCVT` (R280). -/
def execVcvt (vd va : VReg) (src : ElemType) (vm : VReg) (t : ElemType) (r : RoundSel) (s : State) : Out :=
  guarded (.vcvt vd va src vm t r) s fun s =>
    let ins := [(va, src)] ++ maskRegs vd vm t
    elementwise s vd t ins ins (masked 1 vm fun args => convElem src t (roundMode r s.mode) (args.getD 0 0))

/-! ## Generation (R281) -/

/-- `c.vlen` as the bundle reads it. -/
def State.vlenNow (s : State) : Nat := s.pre.vlen.toNat

/-- One repeat of `n` elements, or none. -/
def repRun (v n : Nat) : List Run := if n = 0 then [] else [.rep v n]

/-- `VSPL` (R281). -/
def execVspl (vd : VReg) (r : SReg) (t : ElemType) (s : State) : Out :=
  guarded (.vspl vd r t) s fun s => putRuns s vd t (repRun (s.scalarElem t r) s.vlenNow) 0#5

/-- Element `i` of `VIOTA`. -/
def iotaElem (t : ElemType) (i : Nat) : Nat := if t.isFloat then (intToFloat t .rne i).bits else i % 2 ^ widthOf t

/-- `VIOTA` (R281). -/
def execViota (vd : VReg) (t : ElemType) (s : State) : Out :=
  guarded (.viota vd t) s fun s => putRuns s vd t (packLits t ((List.range s.vlenNow).map (iotaElem t))) 0#5

/-- `VCLR` (R281). -/
def execVclr (vd : VReg) (t : ElemType) (s : State) : Out :=
  guarded (.vclr vd t) s fun s => putRuns s vd t (repRun 0 s.vlenNow) 0#5

/-- `VMASK` (R281). -/
def execVmask (vd : VReg) (r : SReg) (s : State) : Out :=
  guarded (.vmask vd r) s fun s =>
    let n := min (s.rd r).toNat s.vlenNow
    putRuns s vd .b1 (repRun 1 n ++ repRun 0 (s.vlenNow - n)) 0#5

/-! ## Reductions (R282) -/

/-- `VRED` (R282). -/
def execVred (op : RedOp) (r : SReg) (va : VReg) (t : ElemType) (s : State) : Out :=
  guarded (.vred op r va t) s fun s => withRuns s [(va, t)] (
    let x := reduce op t s.nanTag (s.runsOf t va)
    .next ((s.wr r (BitVec.ofNat 64 x.1)).orFlags x.2))

/-! ## Restructuring (R283) -/

/-- `VCOAL` (R283). -/
def execVcoal (vd va : VReg) (t : ElemType) (s : State) : Out :=
  guarded (.vcoal vd va t) s fun s => withRuns s [(va, t)] (putRuns s vd t (coalesce (s.runsOf t va)) 0#5)

/-- `VLEN` (R283). -/
def execVlen (r : SReg) (va : VReg) (t : ElemType) (s : State) : Out :=
  guarded (.vlen r va t) s fun s => withRuns s [(va, t)] (.next (s.wr r (BitVec.ofNat 64 (s.rdV va).len)))

/-- `VNRUN` (R283). -/
def execVnrun (r : SReg) (va : VReg) (t : ElemType) (s : State) : Out :=
  guarded (.vnrun r va t) s fun s => withRuns s [(va, t)] (.next (s.wr r (BitVec.ofNat 64 (s.rdV va).used)))

/-- `VEXTR` (R283). -/
def execVextr (r : SReg) (va : VReg) (t : ElemType) (s : State) : Out :=
  guarded (.vextr r va t) s fun s => withRuns s [(va, t)] (
    let i := (s.rd r).toNat
    if (s.rdV va).len ≤ i then trapOut s Cause.length (s.rd r)
    else
      let x := (elemsOf (s.runsOf t va)).getD i 0
      .next (s.wr r (BitVec.ofNat 64 (if t.isInt then ext64 t x else x))))

/-- `VEXPAND` (R283). -/
def execVexpand (vd va : VReg) (t : ElemType) (s : State) : Out :=
  guarded (.vexpand vd va t) s fun s => withRuns s [(va, t)] (putRuns s vd t (packLits t (elemsOf (s.runsOf t va))) 0#5)

/-! ## Slides, slices and concatenation (R284) -/

/-- `VSLDU` (R284). -/
def execVsldu (vd va : VReg) (r : SReg) (t : ElemType) (s : State) : Out :=
  guarded (.vsldu vd va r t) s fun s => withRuns s [(va, t)] (
    let l := (s.rdV va).len
    let n := min (s.rd r).toNat l
    putRuns s vd t (zeroRuns n ++ takeRuns t (s.runsOf t va) 0 (l - n)) 0#5)

/-- `VSLDD` (R284). -/
def execVsldd (vd va : VReg) (r : SReg) (t : ElemType) (s : State) : Out :=
  guarded (.vsldd vd va r t) s fun s => withRuns s [(va, t)] (
    let l := (s.rdV va).len
    let n := min (s.rd r).toNat l
    putRuns s vd t (takeRuns t (s.runsOf t va) n l ++ zeroRuns n) 0#5)

/-- `VSLICE` (R284). -/
def execVslice (vd va : VReg) (r : SReg) (t : ElemType) (s : State) : Out :=
  guarded (.vslice vd va r t) s fun s => withRuns s [(va, t)] (
    let start := bitsOf 12 0 (s.rd r).toNat
    let n := bitsOf 28 16 (s.rd r).toNat
    if (s.rdV va).len < start + n then trapOut s Cause.length (BitVec.ofNat 64 (start + n))
    else putRuns s vd t (takeRuns t (s.runsOf t va) start (start + n)) 0#5)

/-- `VCAT` (R284): L(vb) need not equal L(va). -/
def execVcat (vd va vb : VReg) (t : ElemType) (s : State) : Out :=
  guarded (.vcat vd va vb t) s fun s =>
    match runBad s [(va, t), (vb, t)] with
    | some v => trapOut s Cause.runbad (v.setWidth 64)
    | none =>
      let l := (s.rdV va).len + (s.rdV vb).len
      if 4096 < l then trapOut s Cause.length (BitVec.ofNat 64 l)
      else putRuns s vd t (s.runsOf t va ++ s.runsOf t vb) 0#5

/-- `VMOV` (R284). -/
def execVmov (vd va : VReg) (t : ElemType) (s : State) : Out :=
  guarded (.vmov vd va t) s fun s => withRuns s [(va, t)] (putRuns s vd t (s.runsOf t va) 0#5)

/-- `VREV` (R284). -/
def execVrev (vd va : VReg) (t : ElemType) (s : State) : Out :=
  guarded (.vrev vd va t) s fun s => withRuns s [(va, t)] (putRuns s vd t ((s.runsOf t va).reverse.map Run.rev) 0#5)

end Sys2Proof.Machine
end

