-- ==== Sys2Proof/Machine/VecMem.lean ====
section
/-! DEFINITION. The memory forms of the run-vector instructions (spec 10 R285-R291). -/

namespace Sys2Proof.Machine

/-- The type of a load's or store's accesses. -/
def State.memType (s : State) (store : Bool) : AccessType := { load := !store, store := store, user := s.user }

/-- The ranges that hold at least one byte. -/
def ranges (rs : List (Nat × Nat)) : List (Nat × Nat) := rs.filter fun r => r.2 != 0

/-- The address of element `i` of a strided form. -/
def strideAddr (base stride : Word) (i : Nat) : Nat := (base + stride * BitVec.ofNat 64 i).toNat

/-- The runs that a load's plan forms, without its data: their number decides `RUNOVF`. -/
def shapeOf (t : ElemType) (plan : List (Bool × Nat)) : List Run :=
  planRuns (perSlot t) plan (List.replicate (planCount plan) 0) []

/-- A load of the elements at `rs` into the runs of `plan`. -/
def vloadOut (s : State) (vd : VReg) (t : ElemType) (plan : List (Bool × Nat)) (va : Nat) (rs : List (Nat × Nat)) : Out :=
  let shape := shapeOf t plan
  if 64 < shape.length then trapOut s Cause.runovf (BitVec.ofNat 64 (runsLen (shape.take 64)))
  else withPieces s (s.memType false) false (ranges rs) fun ps =>
    .next (s.issueLoad va ps (.run vd t plan) fun s bs => s.wrV vd (runFromBytes t plan bs))

/-- A store of the bytes `bs` to `rs`, in order. -/
def vstoreOut (s : State) (va : Nat) (rs : List (Nat × Nat)) (bs : List Byte) : Out :=
  withPieces s (s.memType true) false (ranges rs) fun ps => .next (s.issueStore va ps bs)

/-- Elements of `w` bits as bytes in dense order, the spare bits zero (R178). -/
def denseBytes (w : Nat) (vs : List Nat) : List Byte := toBytesLE (bytesFor w vs.length) (pack w vs)

/-- The elements of a run register, repeats expanded. -/
def State.elemsOfReg (s : State) (t : ElemType) (v : VReg) : List Nat := elemsOf (s.runsOf t v)

/-! ## Dense and strided (R286) -/

/-- The plan of a load of L elements into literal slots; none when L is 0. -/
def litPlan (n : Nat) : List (Bool × Nat) := if n = 0 then [] else [(false, n)]

/-- `VLD` dense (R286). -/
def execVldDense (vd : VReg) (b : SReg) (t : ElemType) (s : State) : Out :=
  guarded (.vldDense vd b t) s fun s =>
    vloadOut s vd t (litPlan s.vlenNow) (s.rd b).toNat [((s.rd b).toNat, bytesFor (widthOf t) s.vlenNow)]

/-- `VLD` strided (R286). -/
def execVldStr (vd : VReg) (b r : SReg) (t : ElemType) (s : State) : Out :=
  guarded (.vldStr vd b r t) s fun s =>
    vloadOut s vd t (litPlan s.vlenNow) (s.rd b).toNat
      ((List.range s.vlenNow).map fun i => (strideAddr (s.rd b) (s.rd r) i, widthOf t / 8))

/-- `VST` dense (R286). -/
def execVstDense (vs : VReg) (b : SReg) (t : ElemType) (s : State) : Out :=
  guarded (.vstDense vs b t) s fun s => withRuns s [(vs, t)] (
    let bs := denseBytes (widthOf t) (s.elemsOfReg t vs)
    vstoreOut s (s.rd b).toNat [((s.rd b).toNat, bs.length)] bs)

/-- `VST` strided (R286). -/
def execVstStr (vs : VReg) (b r : SReg) (t : ElemType) (s : State) : Out :=
  guarded (.vstStr vs b r t) s fun s => withRuns s [(vs, t)] (
    let els := s.elemsOfReg t vs
    vstoreOut s (s.rd b).toNat ((List.range els.length).map fun i => (strideAddr (s.rd b) (s.rd r) i, widthOf t / 8))
      (els.flatMap (toBytesLE (widthOf t / 8))))

/-! ## Run streams (R287) -/

/-- The bytes of a run register as a stream (R287). -/
def streamBytes (r : RunReg) : List Byte :=
  toBytesLE 16 r.hdr.toNat ++ (r.slots.take r.used).flatMap fun x => toBytesLE 16 (x.payload.toNat + x.hdr.toNat * 2 ^ 64)

/-- Whether a piece of a load of the issuing thread is at hand: bound, in the pool, or in the L1 of its core. -/
def State.atHand (s : State) (p : Piece) : Bool := p.stage == .performed || s.poolNow .load p || s.l1Hit p

/-- A stream whose header is at hand at issue, with the poison of its line (R242): the slots follow at once where they are at hand too. -/
def State.streamNow (s : State) (id : Nat) : State :=
  match s.access id with
  | none => s
  | some a =>
    let s := s.bindAll a
    let s := s.deliverData ((s.access id).getD a)
    match s.access id with
    | none => s
    | some a =>
      if !a.retried && a.pieces.all s.atHand then
        let s := s.bindAll a
        match s.access id with
        | some a => s.deliverData a
        | none => s
      else s

/-- `VLD` run-stream (R287): the header is checked at issue. -/
def execVldRuns (vd : VReg) (b : SReg) (t : ElemType) (s : State) : Out :=
  guarded (.vldRuns vd b t) s fun s =>
    if (s.rd b).toNat % 16 ≠ 0 then trapOut s Cause.align s.wordVal
    else withPieces s (s.memType false) false [((s.rd b).toNat, 16)] fun ps =>
      let id := s.nextId
      let s' := s.issue .load (s.rd b).toNat ps (.stream vd t (s.rd b).toNat false)
      .next (if ps.all s.atHand then s'.streamNow id else s')

/-- `VST` run-stream (R287). -/
def execVstRuns (vs : VReg) (b : SReg) (t : ElemType) (s : State) : Out :=
  guarded (.vstRuns vs b t) s fun s => withRuns s [(vs, t)] (
    if (s.rd b).toNat % 16 ≠ 0 then trapOut s Cause.align s.wordVal
    else
      let bs := streamBytes (s.rdV vs)
      vstoreOut s (s.rd b).toNat [((s.rd b).toNat, bs.length)] bs)

/-! ## Gather and scatter (R286) -/

/-- The integer type that an index register holds, when it holds one. -/
def State.indexType (s : State) (vi : VReg) : Option ElemType :=
  match ElemType.ofCode (s.rdV vi).type with
  | some u => if u.isInt then some u else none
  | none => none

/-- The address of the element that index `x` names (R286). -/
def indexAddr (base : Word) (u t : ElemType) (elem : Bool) (x : Nat) : Nat :=
  (base + BitVec.ofInt 64 (intOf u x) * BitVec.ofNat 64 (if elem then widthOf t / 8 else 1)).toNat

/-- The index values that a gather accesses: one for a repeat, every one of a literal. -/
def gatherIdx : List Run → List Nat
  | [] => []
  | .rep v _ :: rs => v :: gatherIdx rs
  | .lit vs :: rs => vs ++ gatherIdx rs

/-- The plan of a gather: the index register's own runs. -/
def gatherPlan (rs : List Run) : List (Bool × Nat) := rs.map fun r => (r.isRep, r.len)

/-- `VGTH` (R286). -/
def execVgth (vd : VReg) (b : SReg) (vi : VReg) (t : ElemType) (elem : Bool) (s : State) : Out :=
  guarded (.vgth vd b vi t elem) s fun s =>
    if !(s.rdV vi).wf then trapOut s Cause.runbad (vi.setWidth 64)
    else match s.indexType vi with
      | none => trapOut s Cause.runbad (vi.setWidth 64)
      | some u =>
        let rs := s.runsOf u vi
        vloadOut s vd t (gatherPlan rs) (s.rd b).toNat
          ((gatherIdx rs).map fun x => (indexAddr (s.rd b) u t elem x, widthOf t / 8))

/-- The stores of a scatter, in ascending element order: index and value; one for a run that both registers repeat. -/
def scatterPairs (idx vals : List Run) : List (Nat × Nat) :=
  (walkRuns [idx, vals]).flatMap fun p => match p with
    | .rep args _ => [(args.getD 0 0, args.getD 1 0)]
    | .lits as => as.map fun args => (args.getD 0 0, args.getD 1 0)

/-- `VSCT` (R286). DESIGN CHOICE (assumption 92): LENGTH names vI (R268). -/
def execVsct (vs : VReg) (b : SReg) (vi : VReg) (t : ElemType) (elem : Bool) (s : State) : Out :=
  guarded (.vsct vs b vi t elem) s fun s =>
    if !(s.rdV vi).wf then trapOut s Cause.runbad (vi.setWidth 64)
    else if !(s.rdV vs).wf then trapOut s Cause.runbad (vs.setWidth 64)
    else match s.indexType vi with
      | none => trapOut s Cause.runbad (vi.setWidth 64)
      | some u =>
        if (s.rdV vs).type ≠ t.code then trapOut s Cause.runbad (vs.setWidth 64)
        else if (s.rdV vi).len ≠ (s.rdV vs).len then trapOut s Cause.length (lengthVal s vi)
        else
          let ps := scatterPairs (s.runsOf u vi) (s.runsOf t vs)
          vstoreOut s (s.rd b).toNat (ps.map fun p => (indexAddr (s.rd b) u t elem p.1, widthOf t / 8))
            (ps.flatMap fun p => toBytesLE (widthOf t / 8) p.2)

/-! ## Bank-decoded forms (R288, R289) -/

/-- The bank that a bank-decoded form names: its format register, its first scratchpad byte, bytes of a bank. -/
structure BankRef where
  reg : Nat
  start : Nat
  bytes : Nat
  /-- Bytes from the bank's start to the base. -/
  off : Nat
  deriving DecidableEq, Repr

/-- The format of the bank. -/
def BankRef.fmt (k : BankRef) : BankFmt := BankFmt.ofCode (k.reg % 16)
/-- The block of a bank that has scales, else 0; a raw bank has none that a form reads (R288). -/
def BankRef.blk (k : BankRef) : Nat := if bitsOf 7 6 k.reg = 1 ∧ k.fmt ≠ .raw then blockSize (bitsOf 5 4 k.reg) else 0
/-- The first byte of the bank that holds the scales. -/
def BankRef.scales (k : BankRef) : Nat := bitsOf 11 8 k.reg * k.bytes

/-- The bank of a base address, when it lies in the scratchpad of the issuing group (R102, R108). -/
def State.bankOf (s : State) (base : Nat) : Option BankRef :=
  let o := windowOff base
  let size := 64 * s.me.task.scratch
  if isWindow base ∧ o < 1024 * s.me.task.scratch then
    let b := o / size
    some { reg := ((s.core s.iss.core).pool.bankfmt.getD b 0#12).toNat, start := b * size, bytes := size, off := o - b * size }
  else none

/-- The window address of a scratchpad byte. -/
def windowVa (o : Nat) : Nat := 0xFF * 2 ^ 56 + o

/-- The index of the element at the base: none when it is not whole. -/
def BankRef.first (k : BankRef) (w : Nat) : Option Nat := if k.off * 8 % w = 0 then some (k.off * 8 / w) else none

/-- Elements that a load reads: those below the extent, when there is one (R190, R288). -/
def cutExtent (n aux e0 : Nat) : Nat := if aux = 0 then n else min n (aux - e0)

/-- The ranges of elements `[lo, hi)` of a bank and of their scales; none when they pass the end of a bank. -/
def BankRef.ranges (k : BankRef) (w lo hi : Nat) : Option (List (Nat × Nat)) :=
  let e := k.start + lo * w / 8
  let n := bytesFor w (hi - lo)
  let b0 := if k.blk = 0 then 0 else lo / k.blk
  let b1 := if k.blk = 0 ∨ hi ≤ lo then b0 else (hi - 1) / k.blk + 1
  if k.bytes < lo * w / 8 + n ∧ lo < hi ∨ k.bytes < b1 ∧ lo < hi then none
  else some [(windowVa e, n), (windowVa (k.scales + b0), b1 - b0)]

/-- The tests of R288 that come before the elements: the type against the bank's format, then a whole element. -/
def withBank (s : State) (base : Word) (t : ElemType) (k : BankRef → Option Nat → Out) : Out :=
  match s.bankOf base.toNat with
  | none => trapOut s Cause.prot s.wordVal
  | some b => k b (b.first (b.fmt.width (widthOf t)))

/-- PROT for a type that the bank's format does not take, then ALIGN for an index that is not whole (R288). -/
def bankFault (s : State) (b : BankRef) (base : Word) (t : ElemType) (e0 : Option Nat) : Option (Nat × Word) :=
  if b.fmt != .raw && !t.isFloat then some (Cause.prot, base)
  else if e0.isNone then some (Cause.align, s.wordVal) else none

/-- The bank-decoded load of elements `[e0, e0 + n)`. -/
def bankLoad (s : State) (vd : VReg) (t : ElemType) (b : BankRef) (e0 n : Nat) : Out :=
  match b.ranges (b.fmt.width (widthOf t)) e0 (e0 + n) with
  | none => trapOut s Cause.prot s.wordVal
  | some rs =>
    let m := s.pre.round.toNat
    withPieces s (s.memType false) false (ranges rs) fun ps =>
      .next (s.issueLoad (windowVa (b.start + b.off)) ps (.bank vd t (b.reg % 16) m n e0 b.blk) fun s bs =>
        let els := bankElems t (b.reg % 16) m n e0 b.blk bs
        (s.wrV vd (mkRun t (packLits t (els.map (·.bits))))).orFlags (flagsOf els))

/-- Whether `n` literal elements need more than 64 slots. -/
def tooMany (t : ElemType) (n : Nat) : Bool := decide (64 < (n + perSlot t - 1) / perSlot t)

/-- `VLD` bank-decoded (R288): `RUNOVF` comes before the faults of the address, but for an extent, which counts from the address (R273). -/
def execVldBank (vd : VReg) (b e : SReg) (t : ElemType) (s : State) : Out :=
  guarded (.vldBank vd b e t) s fun s =>
    let tooLong : Out := trapOut s Cause.runovf (BitVec.ofNat 64 (64 * perSlot t))
    if (s.rd e = 0#64) && tooMany t s.vlenNow then tooLong
    else withBank s (s.rd b) t fun k e0 =>
      let n := cutExtent s.vlenNow (s.rd e).toNat (e0.getD 0)
      if e0.isSome && tooMany t n then tooLong
      else match bankFault s k (s.rd b) t e0 with
        | some (c, x) => trapOut s c x
        | none => bankLoad s vd t k (e0.getD 0) n

/-- Real element `i` of a block store of `vals` from element `e0` on: below L and the extent (R289). -/
def realElem (vals : List FVal) (e0 aux i : Nat) : Option FVal :=
  if i < e0 ∨ (aux ≠ 0 ∧ aux ≤ i) then none else vals[i - e0]?

/-- The blocks that a scaled store writes: each scale byte and its elements (R289). -/
def storeBlocks (f : BankFmt) (blk e0 aux : Nat) (vals : List FVal) : List (Nat × List Nat) :=
  (List.range ((vals.length + blk - 1) / blk)).map fun j =>
    let els := (List.range blk).map fun i => realElem vals e0 aux (e0 + j * blk + i)
    let sc := f.scaleOf (els.filterMap id)
    (sc, els.map fun x => match x with | some v => f.quantise sc v | none => 0)

/-- The elements of a store without block scales of its own, each under the scale that a load would use; those past the extent are
written as zero (R190, R289). -/
def storeElems (f : BankFmt) (blk e0 aux : Nat) (sc : List Byte) (vals : List FVal) : List FRes :=
  ((List.range vals.length).zip vals).map fun x =>
    if aux ≠ 0 ∧ aux ≤ e0 + x.1 then ⟨0, 0#5⟩
    else if f = .f4 then toF4 x.2
    else f.encode (scaleAt blk e0 sc (e0 + x.1)) x.2

/-- The value of a source element of a floating-point type. -/
def State.sourceVals (s : State) (t : ElemType) (vs : VReg) : List FVal := (s.elemsOfReg t vs).map (decodeElem t)

/-- The bank-decoded store with block scales: whole blocks, and their scale bytes. -/
def bankStoreBlocks (s : State) (vs : VReg) (t : ElemType) (b : BankRef) (e0 aux : Nat) : Out :=
  let w := b.fmt.width 0
  let blocks := storeBlocks b.fmt b.blk e0 aux (s.sourceVals t vs)
  if e0 % b.blk ≠ 0 then trapOut s Cause.align s.wordVal
  else match b.ranges w e0 (e0 + blocks.length * b.blk) with
    | none => trapOut s Cause.prot s.wordVal
    | some rs => vstoreOut s (windowVa (b.start + b.off)) rs
        (denseBytes w (blocks.flatMap (·.2)) ++ blocks.map fun x => BitVec.ofNat 8 x.1)

/-- Runs `k` on the scale bytes that a store needs, read as a load of the thread would: it meets write locks and poison, and waits for
the thread's own accesses and fences (R125, R289, R410). -/
def withScales (s : State) (r : Nat × Nat) (k : State → List Byte → Out) : Out :=
  let ty := s.memType false
  if r.2 = 0 then k s []
  else match s.lockedAt s.iss.group s.iss.core false [r], s.planAll false s.iss.group s.me.branch s.iss.core ty false 0 [r] with
    | some a, _ => trapOut (s.touch a ty) Cause.rangelock (BitVec.ofNat 64 a)
    | none, .ok ps =>
      if !ps.all (s.poolNow .load) then waitOut s .pool
      else match ps.findSome? fun p => s.winPoison s.iss.group p.addr p.len with
        | some d => poisonOut s d (BitVec.ofNat 64 r.1) (some (r.1, ty))
        | none => k (s.followPool (s.loadPool ps)) (pieceBytes (s.loadPool ps))
    | none, _ => trapOut (s.touch r.1 ty) Cause.prot s.wordVal

/-- The bank-decoded store without scale bytes of its own. -/
def bankStorePlain (s : State) (vs : VReg) (t : ElemType) (b : BankRef) (e0 aux : Nat) : Out :=
  let w := b.fmt.width (widthOf t)
  let l := (s.elemsOfReg t vs).length
  match b.ranges w e0 (e0 + l) with
  | none => trapOut s Cause.prot s.wordVal
  | some rs =>
    withPieces s (s.memType true) false (ranges (rs.take 1)) fun ps => withScales s (rs.getD 1 (windowVa 0, 0)) fun s sc =>
      let els := if b.fmt = .raw
        then ((List.range l).zip (s.elemsOfReg t vs)).map fun x => (⟨if aux ≠ 0 ∧ aux ≤ e0 + x.1 then 0 else x.2, 0#5⟩ : FRes)
        else storeElems b.fmt b.blk e0 aux sc (s.sourceVals t vs)
      .next ((s.issueStore (windowVa (b.start + b.off)) ps (denseBytes w (els.map (·.bits)))).orFlags (flagsOf els))

/-- `VST` bank-decoded (R289). -/
def execVstBank (vs : VReg) (b e : SReg) (t : ElemType) (s : State) : Out :=
  guarded (.vstBank vs b e t) s fun s => withRuns s [(vs, t)] (withBank s (s.rd b) t fun k e0 =>
    match bankFault s k (s.rd b) t e0 with
    | some (c, x) => trapOut s c x
    | none =>
      if k.fmt.isScaled && k.blk != 0 then bankStoreBlocks s vs t k (e0.getD 0) (s.rd e).toNat
      else bankStorePlain s vs t k (e0.getD 0) (s.rd e).toNat)

end Sys2Proof.Machine
end

