-- ==== Sys2Proof/Machine/Commands.lean ====
section
/-! DEFINITION. `ENQ` with its checks, range-lock entries, and the start and the completion of a command (spec 04 R119-R126; 09 R260;
12 R316-R320, R327; 11 R297). -/

namespace Sys2Proof.Machine

/-! ## The ranges of a command (R317) -/

/-- A range that a command touches: window offsets, or virtual addresses. -/
structure Span where
  win : Bool
  lo : Int
  hi : Int
  deriving DecidableEq, Repr

/-- The range of `n` bytes at a place. -/
def spanOf (p : Place0) (n : Nat) : Span := ⟨p.win, p.addr, p.addr + n⟩

/-- The bounding interval of lines of `row` bytes at a place, under strides. -/
def lineSpan (p : Place0) (exts : List Nat) (strides : List Int) (row : Nat) : Span :=
  let d := strideSpan exts strides
  ⟨p.win, p.addr + d.1, p.addr + d.2 + row⟩

/-- REMOTE, read as 0 when MOD is this module (R332), and for the source of a fill, which reads none. -/
def Cmd.remote (m : Cmd) (modid : Nat) : Nat :=
  let r := bitsOf 51 50 m.w3.toNat
  if (bitsOf 63 52 m.w3.toNat = modid ∧ r ≠ 3) ∨ (m.op = 0x12 ∧ r = 1) then 0 else r
/-- The source or first operand. -/
def Cmd.src (m : Cmd) : Place0 := packed m.w1.toNat
/-- The destination or second operand. -/
def Cmd.dst (m : Cmd) : Place0 := packed m.w2.toNat

/-! ## Copies between banks (R110) -/

/-- The bank that holds a scratchpad byte of a group, as its launch formats it. -/
def Group.bankAt (g : Group) (o : Nat) : BankRef :=
  let size := 64 * g.task.scratch
  let b := o / size
  { reg := (g.pool.bankfmt.getD b 0#12).toNat, start := b * size, bytes := size, off := o - b * size }

/-- Whether a place lies in the scratchpad of a group. -/
def Place0.inside (p : Place0) (g : Group) : Bool := p.win && decide (0 ≤ p.addr ∧ p.addr < (1024 * g.task.scratch : Nat))

/-- The banks of source and destination of a `CP.COPY` between banks of different formats. -/
def Cmd.bankPair (m : Cmd) (modid : Nat) (g : Group) : Option (BankRef × BankRef) :=
  if m.op = 0x10 ∧ m.remote modid = 0 ∧ m.src.inside g ∧ m.dst.inside g then
    let a := g.bankAt m.src.addr.toNat
    let b := g.bankAt m.dst.addr.toNat
    if a.fmt = b.fmt then none else some (a, b)
  else none

/-- Whether a copy between banks converts (R333): its own codes are raw8, and both banks have a format. -/
def Cmd.converts (m : Cmd) (a b : BankRef) : Bool := m.sfmt == 0 && m.dfmt == 0 && a.fmt != .raw && b.fmt != .raw

/-- The command with the format registers of the banks that it converts between. -/
def Cmd.withBanks (m : Cmd) (modid : Nat) (g : Group) : Cmd :=
  { m with banks := (m.bankPair modid g).bind fun x => if m.converts x.1 x.2 then some (x.1.reg, x.2.reg) else none }

/-- Whether a store into a bank writes whole blocks with their scale bytes (R289). -/
def BankRef.blocks (k : BankRef) : Bool := k.fmt.isScaled && k.blk != 0

/-- Elements that a line of `n` takes in the bank that it is stored to. -/
def BankRef.rowElems (k : BankRef) (n : Nat) : Nat := if k.blocks then (n + k.blk - 1) / k.blk * k.blk else n

/-- The scale bytes of lines of `n` elements in a bank, under strides. -/
def BankRef.scaleSpan (k : BankRef) (exts : List Nat) (strides : List Int) (n : Nat) : List Span :=
  if k.blk = 0 ∨ n = 0 then []
  else
    let d := strideSpan exts strides
    let elem (o : Int) : Nat := ((k.off : Int) + o).toNat * 8 / k.fmt.width 0
    [⟨true, (k.scales + elem d.1 / k.blk : Nat), (k.scales + (elem d.2 + n - 1) / k.blk + 1 : Nat)⟩]

/-- The ranges that a copy between banks reads and writes: the elements, and the scale bytes as R288 and R289 use them. -/
def Cmd.bankSpans (m : Cmd) (h : Shape) (a b : BankRef) : List Span × List Span :=
  let es := h.exts.drop 1
  let n := b.rowElems h.padded
  let sc := b.scaleSpan es h.dstr n
  (lineSpan m.src es h.sstr (bytesFor m.srcBits h.ext0) :: a.scaleSpan es h.sstr h.ext0 ++ (if b.blocks then [] else sc),
   lineSpan m.dst es h.dstr (bytesFor m.dstBits n) :: (if b.blocks then sc else []))

/-! ## The ranges of copies -/

/-- Whether a copy uses a source scale array (R333). -/
def Cmd.srcScaled (m : Cmd) (h : Shape) : Bool := m.op == 0x11 && copyScaled m.sfmt && h.saux != 0
/-- Whether a copy uses a destination scale array. -/
def Cmd.dstScaled (m : Cmd) (h : Shape) : Bool := m.op == 0x11 && copyScaled m.dfmt && h.daux != 0

/-- Bytes of a scale array: one for each block of each line (R331). -/
def Shape.scaleBytes (h : Shape) : Nat := h.lines * (h.padded / h.blk)

/-- The destination range of a copy. -/
def Cmd.copyDst (m : Cmd) (h : Shape) : Span :=
  if m.op = 0x13 then spanOf m.dst (1040 * h.lines)
  else if m.op = 0x16 then spanOf m.dst (bytesFor m.dstBits h.idxlim)
  else lineSpan m.dst (h.exts.drop 1) h.dstr (bytesFor m.dstBits h.padded)

/-- The source range of a copy. -/
def Cmd.copySrc (m : Cmd) (h : Shape) : Span :=
  if m.op = 0x14 then spanOf m.src (1040 * h.lines)
  else if m.op = 0x15 then spanOf m.src (bytesFor m.srcBits h.idxlim)
  else lineSpan m.src (h.exts.drop 1) h.sstr (bytesFor m.srcBits h.ext0)

/-- The ranges that a copy reads and writes on this module: none for an operand whose format code is malformed (assumption 38). -/
def Cmd.copySpans (m : Cmd) (modid : Nat) (h : Shape) : List Span × List Span :=
  if h.empty then ([], [])
  else
    let src := if m.op = 0x12 ∨ m.remote modid = 1 ∨ (m.op ≠ 0x14 ∧ m.srcBits = 0) then [] else [m.copySrc h]
    let idx := if m.op = 0x15 ∨ m.op = 0x16 then [spanOf (packed h.saux) (4 * h.lines * h.ext0)] else []
    let ssc := if m.srcScaled h then [spanOf (packed h.saux) h.scaleBytes] else []
    let dst := if m.remote modid = 2 ∨ (m.op ≠ 0x13 ∧ m.dstBits = 0) then [] else [m.copyDst h]
    let dsc := if m.dstScaled h then [spanOf (packed h.daux) h.scaleBytes] else []
    (src ++ idx ++ ssc, dst ++ dsc)

/-- Bytes of one k-block of a matrix operand (R322); 0 for a malformed format. -/
def blockBytes : Nat → Nat
  | 1 | 5 => 8192
  | 2 => 16384
  | 3 => 32768
  | 4 => 65536
  | _ => 0

/-- k-blocks of `MX.MUL` and `MX.ACC`. -/
def Cmd.blocks (m : Cmd) : Nat := bitsOf 63 57 m.w3.toNat + 1
/-- FA. -/
def Cmd.fa (m : Cmd) : Nat := bitsOf 63 61 m.w1.toNat
/-- FB. -/
def Cmd.fb (m : Cmd) : Nat := bitsOf 63 61 m.w2.toNat

/-- Bytes that `MX.STORE` or `MX.RES` writes (R324). -/
def Cmd.emitBytes (m : Cmd) : Nat := if m.op = 6 ∧ bitOf 57 m.w1.toNat then 65536 else 131072

/-- Bytes of a record of a bulk world command (R335). -/
def Binding.recordBytes (b : Binding) : Nat := 8 * ((b.nf * (if (List.range b.nf).any (fieldF64 b.fields) then 8 else 4) + 7) / 8)

/-- N of a bulk world command. -/
def Cmd.keyCount (m : Cmd) : Nat := bitsOf 63 32 m.w1.toNat
/-- K0. -/
def Cmd.key0 (m : Cmd) : Nat := bitsOf 31 0 m.w1.toNat
/-- INST. -/
def Cmd.inst (m : Cmd) : Nat := bitsOf 62 0 m.w2.toNat
/-- W. -/
def Cmd.wslot (m : Cmd) : BitVec 2 := BitVec.ofNat 2 (bitsOf 63 62 m.w3.toNat)
/-- CMT. -/
def Cmd.cmt (m : Cmd) : Bool := bitOf 61 m.w3.toNat
/-- BUF. -/
def Cmd.buf (m : Cmd) : Place0 := packed m.w3.toNat

/-- The ranges that a command reads and those that it writes (R317). -/
def Cmd.spans (m : Cmd) (modid : Nat) (g : Group) : List Span × List Span :=
  match m.op with
  | 0x04 | 0x05 =>
    ([spanOf m.src (m.blocks * blockBytes m.fa), spanOf m.dst (m.blocks * blockBytes m.fb)],
      if m.op = 4 then [spanOf (packed m.w3.toNat) (m.blocks * 131072)] else [])
  | 0x06 | 0x07 => ([], [spanOf m.src m.emitBytes])
  | 0x20 => ([], match m.bind with | some b => [spanOf m.buf (m.keyCount * b.recordBytes + m.keyCount)] | none => [])
  | 0x21 => (match m.bind with | some b => [spanOf m.buf (m.keyCount * b.recordBytes)] | none => [], [])
  | _ => match m.shape with
    | some h => match m.bankPair modid g with
      | some (a, b) => if h.empty then ([], []) else if m.converts a b then m.bankSpans h a b else m.copySpans modid h
      | none => m.copySpans modid h
    | none => ([], [])

/-- The range of lines that a span locks (R122): pool addresses for the window. -/
def lockOf (core : Nat) (g : Group) (x : Span) : Range :=
  let base : Int := if x.win then (poolAddr g 0 : Nat) else 0
  { pool := if x.win then some core else none
    lo := (x.lo + base).toNat / 128 * 128
    hi := ((x.hi + base).toNat + 127) / 128 * 128 }

/-- Whether the destination of a copy is dense (R123); the streams of `CP.PACK` have gaps between them unless there is one. -/
def Cmd.denseDst (m : Cmd) (h : Shape) : Bool :=
  if m.op = 0x13 then decide (h.lines ≤ 1)
  else m.op != 0x16 && m.dstBits != 0 && denseStrides (h.exts.drop 1) h.dstr (bytesFor m.dstBits h.padded : Nat)

/-- The lowest byte of a dense destination, in the pool of core `core` or virtual (R123). -/
def Cmd.denseFrom (m : Cmd) (modid core : Nat) (g : Group) : Option (Option Nat × Nat) :=
  match m.shape with
  | none => none
  | some h =>
    if h.empty ∨ m.remote modid = 2 ∨ !m.denseDst h then none
    else some (if m.dst.win then some core else none, (m.dst.addr + (if m.dst.win then (poolAddr g 0 : Nat) else 0) : Int).toNat)

/-- The range-lock entry of a command on core `core` with age `ord`. -/
def Cmd.entry (m : Cmd) (modid core ord : Nat) (g : Group) : LockEntry :=
  let r := m.spans modid g
  let real (x : Span) : Bool := decide (x.lo < x.hi)
  { ord := ord
    dense := m.denseFrom modid core g
    reads := (r.1.filter real).map (lockOf core g)
    writes := (r.2.filter real).map (lockOf core g) }

/-! ## `ENQ` (R216, R260, R316) -/

/-- The command of the registers at `a`. -/
def State.newCmd (s : State) (a : SReg) : Cmd :=
  { id := s.nextId
    w0 := s.rd a
    w1 := s.rdNext a 1
    w2 := s.rdNext a 2
    w3 := s.rdNext a 3
    group := s.iss.group
    thread := s.iss.thread
    seq := s.cur.seq
    branch := s.me.branch
    kidx := s.pre.kidx
    user := s.user }

/-- The semaphore index of word 0 that is not one of the group's (R216). -/
def Cmd.semFault (m : Cmd) (sems : Nat) : Option Nat :=
  if m.wthr ≠ 0 ∧ sems ≤ m.wsem then some m.wsem
  else if m.sinc ≠ 0 ∧ sems ≤ m.ssem then some m.ssem
  else none

/-- Whether an opcode names a shape record. -/
def opShaped (op : Nat) : Bool := decide (0x10 ≤ op ∧ op ≤ 0x16)

/-- Whether a shape record is well formed for a command (R330). -/
def Cmd.shapeOk (m : Cmd) (bs : List Byte) : Bool :=
  let h := shapeOfBytes bs
  let indexed := m.op == 0x15 || m.op == 0x16
  shapeReserved bs && (h.pad0 == 0 || decide (h.ext0 ≤ h.pad0)) && (indexed || h.idxlim == 0) && (!indexed || h.daux == 0)
    && (!(m.srcScaled h || m.dstScaled h) || h.padded % h.blk == 0)

/-- The address of the shape record (R332). -/
def Cmd.shapeAddr (m : Cmd) : Nat := 128 * bitsOf 48 0 m.w3.toNat

/-- Runs `k` on a command with the shape record that it keeps (R316). -/
def withShape (s : State) (m : Cmd) (k : Cmd → Out) : Out :=
  if !opShaped m.op then k m
  else withRecord s m.shapeAddr 128 fun ps =>
    if !m.shapeOk (s.descBytes ps) then trapOut s Cause.prot (BitVec.ofNat 64 m.shapeAddr)
    else k { m with shape := some (shapeOfBytes (s.descBytes ps)) }

/-- Runs `k` on a bulk world command with the binding that it keeps, when the checks of R132 pass (R316). -/
def withBulk (s : State) (m : Cmd) (k : Cmd → Out) : Out :=
  if m.op ≠ 0x20 ∧ m.op ≠ 0x21 then k m
  else match s.pre.wslots.getD m.wslot.toNat none with
    | none => trapOut s Cause.prot (slotVal m.wslot)
    | some b =>
      if b.keys < m.key0 + m.keyCount then trapOut s Cause.prot (BitVec.ofNat 64 (max m.key0 b.keys))
      else withInstant s (if m.op = 0x20 then Cause.wfar else Cause.worder) m.w2 (
        if m.op = 0x21 ∧ (s.me.name.toNat ≠ b.writer ∨ b.writer = 0) then trapOut s Cause.prot (slotVal m.wslot)
        else k { m with bind := some b })

/-- The packed address as a thread names it. -/
def Span.named (x : Span) : Nat := (if x.win then 0xFF * 2 ^ 56 else 0) + x.lo.toNat % 2 ^ 56

/-- The operands of a command that name memory of this module (R315, R322, R324, R332, R335). -/
def Cmd.places (m : Cmd) (modid : Nat) : List Place0 :=
  match m.op with
  | 0x04 => [m.src, m.dst, packed m.w3.toNat]
  | 0x05 => [m.src, m.dst]
  | 0x06 | 0x07 => [m.src]
  | 0x20 | 0x21 => [m.buf]
  | _ => match m.shape with
    | none => []
    | some h => (if m.op = 0x12 ∨ m.remote modid = 1 then [] else [m.src]) ++ (if m.remote modid = 2 then [] else [m.dst])
        ++ (if m.op = 0x15 ∨ m.op = 0x16 ∨ m.srcScaled h then [packed h.saux] else []) ++ (if m.dstScaled h then [packed h.daux] else [])

/-- The first operand, or range of one, that must lie in the group's scratchpad and does not (R316, R335). -/
def Cmd.outside (m : Cmd) (modid : Nat) (g : Group) : Option Span :=
  let r := m.spans modid g
  let scratch : Int := (1024 * g.task.scratch : Nat)
  (((m.places modid).map fun p => spanOf p 0) ++ (r.1 ++ r.2).filter fun x => decide (x.lo < x.hi)).find? fun x =>
    (x.win || decide (0x20 ≤ m.op)) && !(x.win && decide (0 ≤ x.lo ∧ x.lo < scratch ∧ x.hi ≤ scratch))

/-- The command joins its queue with its range-lock entry (R122, R260). -/
def State.enqueue (s : State) (q : Nat) (m : Cmd) : State :=
  let core := s.iss.core
  let m := { m with lock := some (m.entry s.modid core m.id s.me) }
  let s := s.onQueue core q fun ms => ms ++ [m]
  (s.onCore core fun c => { c with
    tcmd := c.tcmd + 1#64
    hallCmd := if m.heavy then some m.id else c.hallCmd
    hallState := if m.heavy then 1#2 else c.hallState }).fresh.nextSeq

/-- A checked command takes an entry, or waits for one (R70). -/
def enqueueOut (s : State) (q : Nat) (m : Cmd) : Out :=
  let m := m.withBanks s.modid s.me
  match m.outside s.modid s.me with
  | some x => trapOut s Cause.prot (BitVec.ofNat 64 x.named)
  | none => if Config.locks ≤ s.locksUsed (clusterOf s.iss.core) then waitOut s .lockTable else .next (s.enqueue q m)

/-- `ENQ` (R260). -/
def execEnq (q : BitVec 3) (a : SReg) (s : State) : Out :=
  guarded (.enq q a) s fun s =>
    let m := s.newCmd a
    match m.semFault s.me.task.sems with
    | some i => trapOut s Cause.reglimit (BitVec.ofNat 64 i)
    | none =>
      if q = 0#3 ∧ !s.matrixOn (clusterOf s.iss.core) then unavailOut s true
      else
        let k := withShape s m fun m => withBulk s m fun m => enqueueOut s q.toNat m
        if q = 5#3 then withWorldUnit s k else k

/-! ## Starting (R119, R124) -/

/-- The locks of the commands of a cluster that are older than `ord`. -/
def State.olderLocks (s : State) (cluster ord : Nat) : List (Cmd × LockEntry) :=
  (s.commandsOf cluster).filterMap fun x => match x.2.2.lock with
    | some l => if l.ord < ord then some (x.2.2, l) else none
    | none => none

/-- Whether an older entry of the cluster conflicts with a command (R124). -/
def State.conflicts (s : State) (cluster : Nat) (m : Cmd) : Bool :=
  match m.lock with
  | none => false
  | some l => (s.olderLocks cluster l.ord).any fun o =>
      let w := o.1.writeRanges o.2
      l.writes.any (fun r => (w ++ o.2.reads).any (Range.meets r)) || l.reads.any fun r => w.any (Range.meets r)

/-- Whether what the issuing thread did before the `ENQ` is complete, where a fence orders it (R161, R162). -/
def State.fenceBefore (s : State) (m : Cmd) : Bool :=
  (!m.fence || (s.earlierDone m.group m.thread m.seq .package
      && (s.commandsBy m.group m.thread).all fun x => decide (m.seq ≤ x.seq) || x.remote s.modid == 0))
    && (s.thread m.group m.thread).fences.all fun f => !f.e || decide (m.seq < f.seq) || s.fenceWhole m.group m.thread f

/-- Whether the wait threshold of a command is met (R215). -/
def State.waitMet (s : State) (m : Cmd) : Bool := m.waitMet || m.wthr == 0 || decide (m.wthr ≤ s.sem m.group m.wsem)

/-- Whether the head of a queue may start (R119). -/
def State.mayStart (s : State) (core q : Nat) : Bool :=
  match s.headCmd core q with
  | none => false
  | some m => !m.started && m.haltCause.isNone && m.stopped.isNone && m.lock.isSome && s.waitMet m
      && !s.conflicts (clusterOf core) m && s.fenceBefore m

/-- Whether the lease of a core's array is the group's. -/
def State.holdsLease (s : State) (core g : Nat) : Bool :=
  match (s.cluster (clusterOf core)).lease with
  | some l => l.group == g
  | none => false

/-- The first fault of a command at its queue's head (R218, R30), before its wait is tested; an array command needs its group's lease, or
the saved one that it resumes (R320, R327). DESIGN CHOICE (assumption 89): the lowest cause of several, 15 before 4. -/
def State.headFault (s : State) (core q : Nat) (m : Cmd) : Option Nat :=
  if !opKnown m.op then some 1
  else if !opAccepted q m.op then some 2
  else if m.reserved ≠ 0 then some 3
  else if q = 0 ∧ !s.matrixOn (clusterOf core) then some 15
  else if q = 0 ∧ opArray m.op ∧ !s.holdsLease core m.group ∧ (s.group m.group).imgMatrix.isNone then some 4
  else none

/-- The cores of a cluster in the order in which engine `e` turns to them (R119). -/
def State.engineOrder (s : State) (cluster e : Nat) : List Nat :=
  (List.range Config.coresPerCluster).map fun i =>
    Config.coresPerCluster * cluster + ((s.cluster cluster).engines.getD e 0 + i) % Config.coresPerCluster

/-- Whether the engine of queue `q` is free, and turns to this core first. DESIGN CHOICE (assumption 78): a copy that a page fault has
stopped keeps its engine until the fault is answered. -/
def State.engineFree (s : State) (core q : Nat) : Bool :=
  if q = 0 ∨ q = 5 then true
  else
    let k := clusterOf core
    let order := s.engineOrder k (q - 1)
    !(order.any fun c => match s.headCmd c q with | some m => m.started | none => false)
      && (order.find? fun c => s.mayStart c q && (match s.headCmd c q with
        | some m => !m.heavy || (match m.pass with | .waiting _ => c == core | _ => true)
        | none => false)) == some core

/-- The lease of a group whose saved matrix state waits to be loaded is granted when the array is free (R327). -/
def State.resumeLease (s : State) (core : Nat) (m : Cmd) : Option State :=
  match (s.group m.group).imgMatrix with
  | none => some s
  | some x =>
    if (s.cluster (clusterOf core)).lease.isSome then none
    else some ((s.onGroup m.group fun g => { g with imgMatrix := none }).onCluster (clusterOf core) fun k =>
      { k with acc := x.acc, kc := x.kc, lease := some ⟨m.group, core, x.left⟩, lastLease := core % Config.coresPerCluster })

/-- What the head of a queue has observed as it starts: its wait, met now for the first time, is an acquire of the releases that the
semaphore's count includes (R156, R163). -/
def State.headKnows (s : State) (m : Cmd) : View :=
  if m.wthr = 0 ∨ m.waitMet then m.knows else m.knows.join (Tab.get {} m.wsem (s.group m.group).semView)

/-- The head starts, or asks for its pass (R318). -/
def State.startHead (s : State) (core q : Nat) (m : Cmd) : State :=
  let granted := match m.pass with | .held => true | .half => true | _ => false
  if m.heavy && !granted then
    (s.onHead core q fun x => { x with pass := .waiting s.cycle }).onDie (dieOfCore core) fun d =>
      { d with passQueue := d.passQueue ++ [(core, q)] }
  else
    let s := s.onHead core q fun x => { x with started := true, waitMet := true, knows := s.headKnows m }
    if q = 0 ∨ q = 5 then s
    else s.onCluster (clusterOf core) fun k => { k with engines := modifyNth (q - 1) (fun _ => (core + 1) % Config.coresPerCluster) k.engines }

/-- A command that came back with its group's image takes an entry of its cluster's table (R375). -/
def State.relock (s : State) (core q : Nat) (m : Cmd) : State :=
  (s.onQueue core q fun ms => ms.map fun x =>
    if x.id = m.id then { x with lock := some (m.entry s.modid core s.nextId (s.group m.group)) } else x).fresh

/-- The commands of a cluster that wait for an entry take one, as far as its table has room. -/
def State.relockAll (s : State) (cluster : Nat) : State :=
  let due := (s.commandsOf cluster).filter fun x => x.2.2.lock.isNone
  (due.take (Config.locks - s.locksUsed cluster)).foldl (fun s x => s.relock x.1 x.2.1 x.2.2) s

/-- `COMMAND_START` (R119): a faulty command halts its queue (R218). -/
def execCommandStart (core q : Nat) (s : State) : Out :=
  match s.headCmd core q with
  | none => notNow
  | some m =>
    if m.started ∨ m.haltCause.isSome ∨ m.stopped.isSome then notNow
    else if m.lock.isNone then
      whenOk (decide (s.locksUsed (clusterOf core) < Config.locks)) (.next (s.relockAll (clusterOf core)))
    else match s.headFault core q m with
      | some c => .next (s.haltQueue core q c)
      | none =>
        if !s.mayStart core q ∨ !s.engineFree core q then notNow
        else if (match m.pass with | .waiting _ => true | _ => false) then notNow
        else if q = 0 ∧ m.op ≠ 0 then
          match s.resumeLease core m with
          | none => notNow
          | some s => .next (s.startHead core q m)
        else .next (s.startHead core q m)

/-! ## Completing (R126) -/

/-- The lease after an array command of its holder completes (R320). -/
def countLease (l : Lease) : Option Lease := if l.left ≤ 1 then none else some { l with left := l.left - 1 }

/-- `c.qerr` takes up a halted head when it holds no record (R219, R375). -/
def State.refreshQerr (s : State) (core : Nat) : State :=
  s.onCore core fun c => if c.qerr.getLsbD 0 then c else { c with qerr := nextHalt c.queues }

/-- The head leaves its queue: its lock is released, its pass returned, and it counts against the lease (R126, R320). -/
def State.retireHead (s : State) (core q : Nat) (m : Cmd) : State :=
  let s := (s.dropPass core q).onQueue core q fun ms => ms.drop 1
  let s := if q = 0 then s else s.onCore core fun c =>
    { c with heads := if q ≤ 4 then modifyNth (q - 1) (· + 1#16) c.heads else c.heads }
  let s := s.relockAll (clusterOf core)
  if opArray m.op && !m.toImage && s.holdsLease core m.group then
    s.onCluster (clusterOf core) fun k => { k with lease := k.lease.bind countLease }
  else s

/-- The signal of a command: a release that covers its own writes and what its wait has observed (R126, R157, R163). -/
def State.signalCmd (s : State) (m : Cmd) : State :=
  if m.sinc = 0 then s else s.signalSem m.group m.ssem m.sinc (m.knows.join { ids := [m.id] })

/-- `COMMAND_COMPLETE` (R126): the entry is released, then the semaphore signalled; the signal reaches a saved group's file (R259). -/
def execCommandComplete (core q : Nat) (s : State) : Out :=
  match s.headCmd core q with
  | none => notNow
  | some m =>
    if !m.done then notNow
    else
      .next (((s.retireHead core q m).refreshQerr core).signalCmd m)

end Sys2Proof.Machine
end

