-- ==== Sys2Proof/Machine/Copies.lean ====
section
/-! DEFINITION. The copy commands: one unit of the destination at a time, in linearised order (spec 04 R110, R120; 07 R187-R190;
12 R319, R330-R334; 20 R403). -/

namespace Sys2Proof.Machine

/-! ## Both sides of a copy -/

/-- Bytes of the source side: another module's answer is open (R403). -/
def State.srcRead (s : State) (core : Nat) (m : Cmd) (p : Place0) (n : Nat) : Eng (List Byte) :=
  if m.remote s.modid = 1 then .ok ((List.range n).map fun i => Config.foreignByte (bitsOf 63 52 m.w3.toNat) s.freeCount (p.addr.toNat + i))
  else s.engRead core m p n

/-- Writes of the destination side: those to another module leave this machine. -/
def State.dstPuts (s : State) (core : Nat) (m : Cmd) (ws : List (Place0 × List Byte)) : Eng State :=
  if m.remote s.modid = 2 then .ok s else s.engPuts core m ws

/-- Whether words 1-3 of a copy are malformed beyond their formats (R319, R332). -/
def Cmd.wordsBad (m : Cmd) (modid : Nat) : Bool :=
  (m.op != 0x12 && bitsOf 59 57 m.w1.toNat != 0) || bitsOf 59 57 m.w2.toNat != 0 || bitOf 49 m.w3.toNat || bitsOf 51 50 m.w3.toNat == 3
    || (m.op == 0x13 && m.dfmt != 0) || (m.remote modid == 1 && m.op != 0x12 && m.src.win) || (m.remote modid == 2 && m.dst.win)

/-- The head of a queue after `k` of its units, which wrote `n` bytes of its destination (R120). -/
def State.advance (s : State) (core q k n : Nat) : State := s.onHead core q fun m => { m with units := m.units + k, wp := m.wp + n }

/-- Units of a started copy up to the end of a 128-byte line of its destination, with fuel: a copy stops at a line (R334), and at the
line whose translation faults (R371). `total` is the number of its units, `dest` the address that a unit begins at; `unit` makes units
from a place on, and answers their number and the bytes of the destination that they wrote. -/
def copyGo (core q total : Nat) (dest : Nat → Int) (unit : State → Nat → Eng (State × Nat × Nat)) : Nat → State → Cmd → Out
  | 0, s, _ => .next s
  | fuel + 1, s, m =>
    match unit s m.units with
    | .ok (s, k, n) =>
      let s := s.advance core q k n
      let u := m.units + k
      if u < total ∧ dest m.units / 128 = dest u / 128 then copyGo core q total dest unit fuel s { m with units := u, wp := m.wp + n }
      else .next s
    | .page va ty => .next (s.stopCommand core q m va ty)
    | .halt c => .next (s.haltQueue core q c)
    | .wait => notNow

/-- One step of a started copy: a malformed command halts with cause 7; another module may refuse, and does not answer while the port
of its route is down (cause 14, R400); after the last unit it completes. `bad` is the command's own check, `whole` what WP rises by at
completion. -/
def copyOut (s : State) (core q op : Nat) (bad : Cmd → Shape → Bool) (total : Cmd → Shape → Nat) (dest : Cmd → Shape → Nat → Int)
    (unit : State → Cmd → Shape → Nat → Eng (State × Nat × Nat)) (whole : Cmd → Shape → Nat) : Out :=
  withStarted s core q op fun m => match m.shape with
    | none => notNow
    | some h =>
      if m.wordsBad s.modid || bad m h then .next (s.haltQueue core q 7)
      else if h.empty || decide (total m h ≤ m.units) then
        .next ((s.onHead core q fun x => { x with wp := x.wp + whole m h }).doneHead core q)
      else
        let far := m.remote s.modid != 0
        let v := s.freeVal.1
        let s := if far then s.freeVal.2 else s
        if far && (v.getLsbD 0 || !s.copyRouted (bitsOf 63 52 m.w3.toNat)) then .next (s.haltQueue core q 14)
        else copyGo core q (total m h) (dest m h) (fun s u => unit s m h u) 128 s m

/-! ## Units: elements in linearised order -/

/-- Elements `[lo, hi)` of a line, of which those below `real` are not padding. -/
structure Chunk where
  line : Nat
  lo : Nat
  hi : Nat
  real : Nat
  deriving DecidableEq, Repr

/-- Elements of all lines. -/
def Shape.elems (h : Shape) : Nat := h.lines * h.padded

/-- Elements from number `u` on, `step` at most, in one line. -/
def Shape.chunk (h : Shape) (step u : Nat) : Chunk :=
  let lo := u % h.padded
  let hi := min h.padded (lo + max 1 step)
  { line := u / h.padded, lo := lo, hi := hi, real := max lo (min h.ext0 hi) }

/-- Elements of `bits` bits from an address to the next 128-byte line. -/
def lineRoom (a : Int) (bits : Nat) : Nat := (128 - a % 128).toNat * 8 / bits

/-- Where element `i` of a line of the source lies. -/
def Cmd.srcAt (m : Cmd) (h : Shape) (line i : Nat) : Place0 := m.src.plus (h.srcLine line + (i * m.srcBits / 8 : Nat))
/-- Where element `i` of a line of the destination lies. -/
def Cmd.dstAt (m : Cmd) (h : Shape) (line i : Nat) : Place0 := m.dst.plus (h.dstLine line + (i * m.dstBits / 8 : Nat))
/-- Where element number `u` of the destination lies. -/
def Cmd.dstElem (m : Cmd) (h : Shape) (u : Nat) : Int := (m.dstAt h (u / h.padded) (u % h.padded)).addr
/-- Where element number `u` of the source lies. -/
def Cmd.srcElem (m : Cmd) (h : Shape) (u : Nat) : Int := (m.srcAt h (u / h.padded) (u % h.padded)).addr

/-- The elements of a copy from number `u` on that lie in one 128-byte line of the destination. -/
def Cmd.dstChunk (m : Cmd) (h : Shape) (u : Nat) : Chunk := h.chunk (lineRoom (m.dstElem h u) m.dstBits) u

/-- The real elements of a unit, as the source holds them; the first may begin inside a byte (R178). -/
def State.chunkElems (s : State) (core : Nat) (m : Cmd) (h : Shape) (c : Chunk) : Eng (List Nat) :=
  let n := c.real - c.lo
  let skip := c.lo * m.srcBits % 8 / m.srcBits
  (s.srcRead core m (m.srcAt h c.line c.lo) (bytesFor m.srcBits (skip + n))).bind fun bs =>
    .ok ((unpack m.srcBits (skip + n) (ofBytesLE bs)).drop skip)

/-- The bytes of a unit whose real elements are `els`: padding is zero (R190). -/
def Cmd.chunkBytes (m : Cmd) (c : Chunk) (els : List Nat) : List Byte :=
  denseBytes m.dstBits (els ++ List.replicate (c.hi - c.lo - els.length) 0)

/-- A unit with its elements written. -/
def State.putChunk (s : State) (core : Nat) (m : Cmd) (h : Shape) (c : Chunk) (els : List Nat) : Eng (State × Nat × Nat) :=
  let bs := m.chunkBytes c els
  (s.dstPuts core m [(m.dstAt h c.line c.lo, bs)]).bind fun s => .ok (s, c.hi - c.lo, bs.length)

/-! ## CP.COPY (R110, R333) -/

/-- The bank of a line whose base lies `d` bytes after the one of `k`. -/
def BankRef.moved (k : BankRef) (d : Int) : Option BankRef :=
  let o : Int := k.off + d
  if 0 ≤ o ∧ o < k.bytes then some { k with off := o.toNat } else none

/-- Bytes of several window ranges. -/
def State.readRanges (s : State) (core : Nat) (m : Cmd) (rs : List (Nat × Nat)) : Eng (List (List Byte)) :=
  engAll (fun r => s.engRead core m ⟨true, (windowOff r.1 : Nat)⟩ r.2) rs

/-- The values of the real elements of a line in a bank (R288). -/
def State.bankVals (s : State) (core : Nat) (m : Cmd) (k : BankRef) (n : Nat) : Eng (List FVal) :=
  let w := k.fmt.width 0
  match k.first w with
  | none => .halt 7
  | some e0 => match k.ranges w e0 (e0 + n) with
    | none => .halt 8
    | some rs => (s.readRanges core m rs).bind fun bs =>
        .ok (((List.range n).zip (unpack w n (ofBytesLE (bs.getD 0 [])))).map fun x =>
          k.fmt.scaled (scaleAt k.blk e0 (bs.getD 1 []) (e0 + x.1)) x.2)

/-- A line of `pad` elements as a bank takes it: its element bytes, and the scale bytes that go with them (R289, R190). -/
def State.bankImage (s : State) (core : Nat) (m : Cmd) (k : BankRef) (pad : Nat) (vals : List FVal) : Eng (List Byte × List Byte) :=
  let w := k.fmt.width 0
  match k.first w with
  | none => .halt 7
  | some e0 =>
    if k.fmt.isScaled && k.blk != 0 then
      let vs : List (Option FVal) := vals.map some ++ List.replicate (pad - vals.length) none
      let blocks := (List.range ((pad + k.blk - 1) / k.blk)).map fun j =>
        let els := (List.range k.blk).map fun i => vs.getD (j * k.blk + i) none
        let sc := k.fmt.scaleOf (els.filterMap id)
        (sc, els.map fun x => match x with | some v => k.fmt.quantise sc v | none => 0)
      if e0 % k.blk ≠ 0 then .halt 7
      else match k.ranges w e0 (e0 + blocks.length * k.blk) with
        | some _ => .ok (denseBytes w (blocks.flatMap (·.2)), blocks.map fun x => BitVec.ofNat 8 x.1)
        | none => .halt 8
    else match k.ranges w e0 (e0 + pad) with
      | some [_, b] => (s.engRead core m ⟨true, (windowOff b.1 : Nat)⟩ b.2).bind fun sc =>
          let els := ((List.range vals.length).zip vals).map fun x => (k.fmt.encode (scaleAt k.blk e0 sc (e0 + x.1)) x.2).bits
          .ok (denseBytes w (els ++ List.replicate (pad - els.length) 0), [])
      | _ => .halt 8

/-- Bytes of a line of a copy between banks in the bank that it is stored to. -/
def BankRef.rowBytes (k : BankRef) (h : Shape) : Nat := bytesFor (k.fmt.width 0) (k.rowElems h.padded)

/-- The scale bytes of a line's blocks that begin in its bytes `[lo, hi)`: the number of the first, and the bytes. -/
def BankRef.scalesIn (k : BankRef) (sc : List Byte) (lo hi : Nat) : Nat × List Byte :=
  let z := max 1 (k.blk * k.fmt.width 0 / 8)
  let j := (lo + z - 1) / z
  (j, (sc.drop j).take ((hi + z - 1) / z - j))

/-- The bytes of a copy between two banks from number `u` of its destination on that lie in one 128-byte line, with the scale bytes of the
blocks that begin there. -/
def State.bankUnit (s : State) (core : Nat) (m : Cmd) (h : Shape) (a b : BankRef) (u : Nat) : Eng (State × Nat × Nat) :=
  let n := b.rowBytes h
  let o := u % n
  match a.moved (h.srcLine (u / n)), b.moved (h.dstLine (u / n)) with
  | some a, some b => (s.bankVals core m a h.ext0).bind fun vs => (s.bankImage core m b h.padded vs).bind fun im =>
      let at_ : Int := (b.start + b.off + o : Nat)
      let part := (im.1.drop o).take (lineRoom at_ 8)
      let sc := b.scalesIn im.2 o (o + part.length)
      (s.engPuts core m [(⟨true, at_⟩, part), (⟨true, (b.scales + ((b.first (b.fmt.width 0)).getD 0) / max 1 b.blk + sc.1 : Nat)⟩, sc.2)]).bind fun s =>
        .ok (s, part.length, part.length)
  | _, _ => .halt 8

/-- `CP.COPY` (R333). -/
def execCpCopy (core q : Nat) (s : State) : Out :=
  let pair (m : Cmd) : Option (BankRef × BankRef) := m.bankPair s.modid (s.group m.group)
  copyOut s core q 0x10
    (fun m _ => m.sfmt != m.dfmt || copyBits m.dfmt == 0
      || (match pair m with | some (a, b) => !m.converts a b | none => false))
    (fun m h => match pair m with | some (_, b) => h.lines * b.rowBytes h | none => h.elems)
    (fun m h u => match pair m with
      | some (_, b) => m.dst.addr + h.dstLine (u / b.rowBytes h) + (u % b.rowBytes h : Nat)
      | none => m.dstElem h u)
    (fun s m h u => match pair m with
      | some (a, b) => s.bankUnit core m h a b u
      | none =>
        let c := m.dstChunk h u
        (s.chunkElems core m h c).bind fun els => s.putChunk core m h c els)
    (fun _ _ => 0)

/-! ## CP.CONV (R333) -/

/-- The value of an element of formats 1-10. -/
def convValue (c sc bits : Nat) : FVal := if c = 10 then FFmt.f64.decode bits else (BankFmt.ofCode c).scaled sc bits

/-- An element of formats 1-10 that takes no scale of its own. -/
def convCode (c : Nat) (v : FVal) : Nat := if c = 10 then (toFloat .f64 .rne v).bits else ((BankFmt.ofCode c).encode 127 v).bits

/-- A unit of `CP.CONV`: elements of one 128-byte line of the destination, and of one block where it writes scale bytes. -/
def Cmd.convChunk (m : Cmd) (h : Shape) (u : Nat) : Chunk :=
  let room := lineRoom (m.dstElem h u) m.dstBits
  h.chunk (if m.dstScaled h then min room (h.blk - u % h.padded % h.blk) else room) u

/-- The block that a unit's elements lie in. -/
def Shape.blockOf (h : Shape) (c : Chunk) : Chunk :=
  let lo := c.lo / h.blk * h.blk
  { line := c.line, lo := lo, hi := lo + h.blk, real := max lo (min h.ext0 (lo + h.blk)) }

/-- The scale bytes of the blocks of a unit's real elements. -/
def State.chunkScales (s : State) (core : Nat) (m : Cmd) (h : Shape) (c : Chunk) : Eng (List Byte) :=
  if m.srcScaled h && decide (c.lo < c.real) then
    s.engRead core m ((packed h.saux).plus (c.line * (h.padded / h.blk) + c.lo / h.blk : Nat)) ((c.real - 1) / h.blk + 1 - c.lo / h.blk)
  else .ok []

/-- The values of the real elements of a unit of `CP.CONV`. -/
def State.convVals (s : State) (core : Nat) (m : Cmd) (h : Shape) (c : Chunk) : Eng (List FVal) :=
  (s.chunkScales core m h c).bind fun sc => (s.chunkElems core m h c).bind fun els =>
    let blk := if m.srcScaled h then h.blk else 0
    .ok (((List.range els.length).zip els).map fun x => convValue m.sfmt (scaleAt blk c.lo sc (c.lo + x.1)) x.2)

/-- A unit of `CP.CONV`; the first of a block writes the block's scale byte. -/
def State.convUnit (s : State) (core : Nat) (m : Cmd) (h : Shape) (u : Nat) : Eng (State × Nat × Nat) :=
  let c := m.convChunk h u
  if m.dstScaled h then
    let b := h.blockOf c
    (s.convVals core m h b).bind fun vals =>
      let f := BankFmt.ofCode m.dfmt
      let k := f.scaleOf vals
      let sc : Place0 × List Byte := ((packed h.daux).plus (c.line * (h.padded / h.blk) + c.lo / h.blk : Nat), if c.lo = b.lo then [BitVec.ofNat 8 k] else [])
      (s.engPuts core m [sc]).bind fun s =>
        s.putChunk core m h c (((vals.map (f.quantise k)).drop (c.lo - b.lo)).take (c.real - c.lo))
  else (s.convVals core m h c).bind fun vals => s.putChunk core m h c (vals.map (convCode m.dfmt))

/-- `CP.CONV` (R333). -/
def execCpConv (core q : Nat) (s : State) : Out :=
  copyOut s core q 0x11 (fun m _ => !(decide (1 ≤ m.sfmt ∧ m.sfmt ≤ 10) && decide (1 ≤ m.dfmt ∧ m.dfmt ≤ 10)))
    (fun _ h => h.elems) (fun m h u => m.dstElem h u) (fun s m h u => s.convUnit core m h u) (fun _ _ => 0)

/-! ## CP.FILL (R333) -/

/-- Element `n` of a fill of `value` in format `c`. -/
def fillElem (c bits value n : Nat) : Nat :=
  let x := value / 2 ^ (bits * (n % (64 / bits))) % 2 ^ bits
  if c = 4 then codeOf 32 (signedOf 18 x) else x

/-- `CP.FILL` (R333). -/
def execCpFill (core q : Nat) (s : State) : Out :=
  copyOut s core q 0x12 (fun m _ => m.dstBits == 0) (fun _ h => h.elems) (fun m h u => m.dstElem h u)
    (fun s m h u =>
      let c := m.dstChunk h u
      s.putChunk core m h c ((List.range (c.real - c.lo)).map fun i =>
        fillElem m.dfmt m.dstBits m.w1.toNat (c.line * h.ext0 + c.lo + i)))
    (fun _ _ => 0)

/-! ## CP.PACK and CP.UNPACK (R287, R333) -/

/-- How many of the leading elements equal `v`. -/
def leadCount (v : Nat) : List Nat → Nat
  | [] => 0
  | x :: xs => if x = v then leadCount v xs + 1 else 0

/-- The walk of `CP.PACK`, with fuel: repeats of at least `p` elements, and literals put greedily; runs latest first. -/
def packWalk (p : Nat) : Nat → List Nat → List Run → List Run
  | 0, _, out => out
  | _, [], out => out
  | fuel + 1, v :: vs, out =>
    let n := leadCount v vs + 1
    if p ≤ n then packWalk p fuel (vs.drop (n - 1)) (.rep v n :: out)
    else packWalk p fuel vs (putElem p out v)

/-- The slots of a packed line. -/
def packRuns (t : ElemType) (els : List Nat) : List Run := (packWalk (perSlot t) els.length els []).reverse

/-- Bytes from the start of a stream of `CP.PACK` to the start of the next. -/
def streamStep : Nat := 1040

/-- Where byte number `u` of the streams of `CP.PACK` lies. -/
def Cmd.packAt (m : Cmd) (u : Nat) : Place0 := m.dst.plus (u : Nat)

/-- The bytes of `CP.PACK` from number `u` on, streams and the gaps behind them counted, that lie in one line of the destination. -/
def State.packUnit (s : State) (core : Nat) (m : Cmd) (h : Shape) (t : ElemType) (u : Nat) : Eng (State × Nat × Nat) :=
  (s.srcRead core m (m.srcAt h (u / streamStep) 0) (bytesFor m.srcBits h.ext0)).bind fun bs =>
    let rs := packRuns t (unpack m.srcBits h.ext0 (ofBytesLE bs))
    if 64 < rs.length then .halt 10
    else
      let out := (streamBytes (mkRun t rs)).drop (u % streamStep)
      let part := out.take (lineRoom (m.packAt u).addr 8)
      (s.dstPuts core m [(m.packAt u, part)]).bind fun s =>
        .ok (s, if part.length = out.length then streamStep - u % streamStep else part.length, part.length)

/-- `CP.PACK` (R333). -/
def execCpPack (core q : Nat) (s : State) : Out :=
  copyOut s core q 0x13 (fun m h => (ElemType.ofCode m.sfmt).isNone || decide (4096 < h.ext0)) (fun _ h => streamStep * h.lines)
    (fun m _ u => (m.packAt u).addr)
    (fun s m h u => match ElemType.ofCode m.sfmt with
      | some t => s.packUnit core m h t u
      | none => .halt 7)
    (fun _ _ => 0)

/-- The elements of a stream that `CP.UNPACK` reads. -/
def State.unpackElems (s : State) (core : Nat) (m : Cmd) (h : Shape) (t : ElemType) (line : Nat) : Eng (List Nat) :=
  let base := m.src.plus (streamStep * line : Nat)
  (s.srcRead core m base 16).bind fun hd =>
    let used := bitsOf 46 40 (ofBytesLE (hd.take 8))
    if 64 < used then .halt 10
    else (s.srcRead core m (base.plus 16) (16 * used)).bind fun sl =>
      let r := runFromStream (hd ++ sl)
      if !r.wf || r.type != t.code || r.len != h.ext0 then .halt 10 else .ok (elemsOf (r.runs t))

/-- `CP.UNPACK` (R333). -/
def execCpUnpack (core q : Nat) (s : State) : Out :=
  copyOut s core q 0x14 (fun m _ => (ElemType.ofCode m.dfmt).isNone) (fun _ h => h.elems) (fun m h u => m.dstElem h u)
    (fun s m h u => match ElemType.ofCode m.dfmt with
      | some t =>
        let c := m.dstChunk h u
        (s.unpackElems core m h t c.line).bind fun els => s.putChunk core m h c ((els.drop c.lo).take (c.real - c.lo))
      | none => .halt 7)
    (fun _ _ => 0)

/-! ## CP.GATH and CP.SCAT (R333) -/

/-- Whether the formats of a gather or scatter are equal and of whole bytes. -/
def Cmd.indexedBad (m : Cmd) : Bool := m.sfmt != m.dfmt || m.dstBits == 0 || m.dstBits % 8 != 0

/-- The indices of a unit's real elements: below IDXLIM, else cause 11. -/
def State.chunkIdx (s : State) (core : Nat) (m : Cmd) (h : Shape) (c : Chunk) : Eng (List Nat) :=
  let n := c.real - c.lo
  (s.engRead core m ((packed h.saux).plus (4 * (c.line * h.ext0 + c.lo) : Nat)) (4 * n)).bind fun bs =>
    let ix := unpack 32 n (ofBytesLE bs)
    if ix.any fun i => decide (h.idxlim ≤ i) then .halt 11 else .ok ix

/-- `CP.GATH` (R333). -/
def execCpGath (core q : Nat) (s : State) : Out :=
  copyOut s core q 0x15 (fun m _ => m.indexedBad) (fun _ h => h.elems) (fun m h u => m.dstElem h u)
    (fun s m h u =>
      let c := m.dstChunk h u
      let z := m.srcBits / 8
      (s.chunkIdx core m h c).bind fun ix =>
        (engAll (fun i => s.srcRead core m (m.src.plus (i * z : Nat)) z) ix).bind fun els =>
          s.putChunk core m h c (els.map ofBytesLE))
    (fun _ _ => 0)

/-- `CP.SCAT` (R333): the higher element is written last; WP rises at completion. -/
def execCpScat (core q : Nat) (s : State) : Out :=
  copyOut s core q 0x16 (fun m _ => m.indexedBad) (fun _ h => h.elems) (fun m h u => m.srcElem h u)
    (fun s m h u =>
      let c := h.chunk (lineRoom (m.srcElem h u) m.srcBits) u
      let z := m.srcBits / 8
      (s.chunkIdx core m h c).bind fun ix => (s.chunkElems core m h c).bind fun els =>
        (s.dstPuts core m ((ix.zip els).map fun x => (m.dst.plus (x.1 * z : Nat), toBytesLE z x.2))).bind fun s => .ok (s, c.hi - c.lo, 0))
    (fun m h => bytesFor m.dstBits h.idxlim)

end Sys2Proof.Machine
end

