-- ==== Sys2Proof/Machine/Matrix.lean ====
section
/-! DEFINITION. The matrix array: residues, leases and the array commands (spec 07 R199-R203; 12 R320-R329). -/

namespace Sys2Proof.Machine

/-! ## Residues (R200-R203) -/

/-- The residue of a value: the `x` from 0 to `m - 1` that it is congruent to. -/
def residue (m : Nat) (v : Int) : Nat := (v % (m : Int)).toNat

/-- m1. -/
def mod1 : Nat := 524287
/-- m2. -/
def mod2 : Nat := 524288
/-- m3. -/
def mod3 : Nat := 524289

/-- A cell after one product (R200). -/
def MatCell.mac (c : MatCell) (a b : Int) : MatCell :=
  { x1 := (c.x1 + residue mod1 a * residue mod1 b) % mod1
    x2 := (c.x2 + residue mod2 a * residue mod2 b) % mod2
    x3 := (c.x3 + residue mod3 a * residue mod3 b) % mod3
    xc := (c.xc + residue 31 a * residue 31 b) % 31 }

/-- The value of a cell, or none where the check channel disagrees (R201). -/
def MatCell.value (c : MatCell) : Option Int :=
  let x : Nat := (c.x1 * (2 ^ 38 + 2 ^ 19) * 2 ^ 18 + c.x2 * (2 ^ 38 - 1) * (2 ^ 19 - 1) + c.x3 * (2 ^ 38 - 2 ^ 19) * (2 ^ 18 + 1))
    % (2 ^ 57 - 2 ^ 19)
  let v : Int := if x < 2 ^ 56 - 2 ^ 18 then x else (x : Int) - (2 ^ 57 - 2 ^ 19 : Nat)
  if residue 31 v = c.xc then some v else none

/-- A residue word (R203). -/
def MatCell.word (c : MatCell) : Nat := c.xc % 32 * 2 ^ 58 + c.x3 % 2 ^ 20 * 2 ^ 38 + c.x2 % 2 ^ 19 * 2 ^ 19 + c.x1 % 2 ^ 19

/-- Cells of the array. -/
def cellCount : Nat := 16384

/-- The accumulators of a cluster in cell order. -/
def Cluster.cells (k : Cluster) : List MatCell := (List.range cellCount).map fun i => Tab.get {} i k.acc

/-- Cells as the accumulator set. -/
def tabOf (cs : List MatCell) : Tab MatCell := (((List.range cs.length).zip cs)).filter fun x => x.2 != {}

/-! ## Operands (R199, R322) -/

/-- Bits of an operand element as it lies in memory. -/
def matBits (f : Nat) : Nat := (BankFmt.ofCode f).width 0

/-- The integer that an element enters a cell as: twice its value for f4 (R199). -/
def matValue (f bits : Nat) : Int :=
  if f = 5 then
    let mag : Int := ([0, 1, 2, 3, 4, 6, 8, 12].getD (bits % 8) 0 : Nat)
    if bitOf 3 bits then -mag else mag
  else signedOf (BankFmt.ofCode f).intBits bits

/-- Reads of an operand, which lies in module memory or the scratchpad (R319 cause 8). -/
def State.matRead (s : State) (core : Nat) (m : Cmd) (p : Place0) (n : Nat) : Eng (List Byte) :=
  match s.engPlan core m false p n with
  | .ok ps => if ps.any (·.host) then .halt 8 else s.engRead core m p n
  | _ => s.engRead core m p n

/-- Writes of results. -/
def State.matPut (s : State) (core : Nat) (m : Cmd) (p : Place0) (bs : List Byte) : Eng State :=
  match s.engPlan core m true p bs.length with
  | .ok ps => if ps.any (·.host) then .halt 8 else s.engPut core m p bs
  | .cow l _ => if l.host then .halt 8 else s.engPut core m p bs
  | _ => s.engPut core m p bs

/-- The 16,384 values of k-block `b` of an operand of format `f`. -/
def State.matBlock (s : State) (core : Nat) (m : Cmd) (f : Nat) (p : Place0) (b : Nat) : Eng (List Int) :=
  (s.matRead core m (p.plus (b * blockBytes f : Nat)) (blockBytes f)).bind fun bs =>
    .ok ((unpack (matBits f) cellCount (ofBytesLE bs)).map (matValue f))

/-- A cell with the 128 products of a row of A and a column of B added. -/
def cellRun (c : MatCell) (row col : List Int) : MatCell := (row.zip col).foldl (fun c x => c.mac x.1 x.2) c

/-- Row `i` of a block of A. -/
def rowOf (a : List Int) (i : Nat) : List Int := (a.drop (128 * i)).take 128
/-- Column `j` of a block of B. -/
def colOf (b : List Int) (j : Nat) : List Int := (List.range 128).map fun k => b.getD (128 * k + j) 0

/-- Every cell with a block's products added (R323). -/
def blockRun (cs : List MatCell) (a b : List Int) : List MatCell :=
  ((List.range cs.length).zip cs).map fun x => cellRun x.2 (rowOf a (x.1 / 128)) (colOf b (x.1 % 128))

/-- The values of cells, when every check channel agrees. -/
def cellValues (cs : List MatCell) : Option (List Int) := cs.mapM MatCell.value

/-- Signed 64-bit integers as bytes. -/
def intBytes (vs : List Int) : List Byte := vs.flatMap fun v => toBytesLE 8 (codeOf 64 v)

/-! ## Leases (R320) -/

/-- The rest of words 1-3 of a command with word 1 alone is zero. -/
def Cmd.onlyW1 (m : Cmd) (n : Nat) : Bool := m.w1.toNat == n && m.w2 == 0#64 && m.w3 == 0#64

/-- The first core after the previous holder's whose q0 head is a started `MX.LEASE`. -/
def State.leaseTurn (s : State) (cluster : Nat) : Option Nat :=
  ((List.range Config.coresPerCluster).map fun i =>
    Config.coresPerCluster * cluster + ((s.cluster cluster).lastLease + 1 + i) % Config.coresPerCluster).find? fun c =>
      match s.headCmd c 0 with
      | some m => m.op == 1 && m.started && !m.done && m.haltCause.isNone && (s.group m.group).imgMatrix.isNone
      | none => false

/-- `MX.LEASE` (R320). -/
def execMxLease (core q : Nat) (s : State) : Out :=
  withStarted s core q 1 fun m =>
    let n := m.w1.toNat
    let k := clusterOf core
    if !m.onlyW1 n ∨ n < 1 ∨ 64 < n then .next (s.haltQueue core q 7)
    else if s.holdsLease core m.group then
      .next ((s.onCluster k fun c => { c with lease := some ⟨m.group, core, n⟩ }).doneHead core q)
    else if (s.cluster k).lease.isSome ∨ s.leaseTurn k ≠ some core then notNow
    else .next ((s.onCluster k fun c =>
      { c with lease := some ⟨m.group, core, n⟩, lastLease := core % Config.coresPerCluster }).doneHead core q)

/-- `MX.FREE` (R320): nothing on a deterministic core, or when the group holds no lease. -/
def execMxFree (core q : Nat) (s : State) : Out :=
  withStarted s core q 2 fun m =>
    if !m.onlyW1 0 then .next (s.haltQueue core q 7)
    else if s.holdsLease core m.group && !(s.core core).pool.det then
      .next ((s.onCluster (clusterOf core) fun c => { c with lease := none }).doneHead core q)
    else .next (s.doneHead core q)

/-! ## Array commands -/

/-- `MX.ZERO` (R321). -/
def execMxZero (core q : Nat) (s : State) : Out :=
  withStarted s core q 3 fun m =>
    if !m.onlyW1 0 then .next (s.haltQueue core q 7)
    else .next ((s.onCluster (clusterOf core) fun c => { c with acc := [], kc := 0 }).doneHead core q)

/-- Whether the operand words of `MX.MUL` and `MX.ACC` are malformed (R322). -/
def Cmd.matBad (m : Cmd) : Bool :=
  blockBytes m.fa == 0 || blockBytes m.fb == 0 || bitsOf 60 57 m.w1.toNat != 0 || bitsOf 60 57 m.w2.toNat != 0
    || (m.op == 5 && bitsOf 56 0 m.w3.toNat != 0)

/-- Both operands' values of k-block `b`. -/
def State.matBlocks (s : State) (core : Nat) (m : Cmd) (b : Nat) : Eng (List Int × List Int) :=
  (s.matBlock core m m.fa m.src b).bind fun x => (s.matBlock core m m.fb m.dst b).bind fun y => .ok (x, y)

/-- The tiles of `MX.MUL`. -/
def State.mulBlocks (s : State) (core : Nat) (m : Cmd) : Eng State :=
  (engAll (s.matBlocks core m) (List.range m.blocks)).bind fun bs =>
    match bs.mapM fun x => cellValues (blockRun (List.replicate cellCount {}) x.1 x.2) with
    | none => .halt 6
    | some vs => s.matPut core m (packed m.w3.toNat) (vs.flatMap intBytes)

/-- `MX.MUL` (R323). -/
def execMxMul (core q : Nat) (s : State) : Out :=
  withStarted s core q 4 fun m =>
    if m.matBad then .next (s.haltQueue core q 7)
    else unitOut s core q m ((s.mulBlocks core m).bind fun s => .ok (s.doneHead core q))

/-- The accumulators after `MX.ACC`, each checked before the commit. -/
def State.accBlocks (s : State) (core : Nat) (m : Cmd) : Eng (List MatCell) :=
  (engAll (s.matBlocks core m) (List.range m.blocks)).bind fun bs =>
    let work := bs.foldl (fun cs x => blockRun cs x.1 x.2) (s.cluster (clusterOf core)).cells
    if (cellValues work).isNone then .halt 6 else .ok work

/-- `MX.ACC` (R323). -/
def execMxAcc (core q : Nat) (s : State) : Out :=
  withStarted s core q 5 fun m =>
    let k := clusterOf core
    let kc := (s.cluster k).kc + 128 * m.blocks
    if m.matBad then .next (s.haltQueue core q 7)
    else if 65536 < kc then .next (s.haltQueue core q 5)
    else unitOut s core q m ((s.accBlocks core m).bind fun cs =>
      .ok ((s.onCluster k fun c => { c with acc := tabOf cs, kc := kc }).doneHead core q))

/-- A value times 2^e as f32 (R324). -/
def storeF32 (e : Int) (v : Int) : Nat := (roundTo .f32 .rne (decide (v < 0)) v.natAbs e).bits

/-- Whether the operand words of `MX.STORE` and `MX.RES` are malformed (R324). -/
def Cmd.emitBad (m : Cmd) : Bool :=
  let f := bitOf 57 m.w1.toNat
  bitsOf 63 58 m.w1.toNat != 0 || m.w3 != 0#64 || bitsOf 63 16 m.w2.toNat != 0 || (m.op == 7 && f)
    || (!f && bitsOf 15 0 m.w2.toNat != 0)

/-- `MX.STORE` (R324). -/
def execMxStore (core q : Nat) (s : State) : Out :=
  withStarted s core q 6 fun m =>
    if m.emitBad then .next (s.haltQueue core q 7)
    else match cellValues (s.cluster (clusterOf core)).cells with
      | none => .next (s.haltQueue core q 6)
      | some vs =>
        let bs := if bitOf 57 m.w1.toNat then vs.flatMap fun v => toBytesLE 4 (storeF32 (signedOf 16 m.w2.toNat) v) else intBytes vs
        unitOut s core q m ((s.matPut core m m.src bs).bind fun s => .ok (s.doneHead core q))

/-- `MX.RES` (R324). -/
def execMxRes (core q : Nat) (s : State) : Out :=
  withStarted s core q 7 fun m =>
    if m.emitBad then .next (s.haltQueue core q 7)
    else
      let bs := (s.cluster (clusterOf core)).cells.flatMap fun c => toBytesLE 8 c.word
      unitOut s core q m ((s.matPut core m m.src bs).bind fun s => .ok (s.doneHead core q))

end Sys2Proof.Machine
end

