-- ==== Sys2Proof/Machine/Bulk.lean ====
section
/-! DEFINITION. The bulk world commands, and the ends of waits in the blocking zone (spec 05 R146, R147, R151; 12 R335-R338). -/

namespace Sys2Proof.Machine

/-! ## The ends of a wait (R146, R147) -/

/-- The core whose q5 head is the waiting bulk command `id`. -/
def State.bulkWait (s : State) (id : Nat) : Option (Nat × Cmd) :=
  s.cores.findSome? fun c => match (c.2.queues.getD 5 []).head? with
    | some m => if m.id = id ∧ m.edge.isSome ∧ m.ended.isNone then some (c.1, m) else none
    | none => none

/-- A waiting bulk command's wait ends with a status. -/
def State.endBulkWait (s : State) (core id st : Nat) : State :=
  ({ s with edges := s.edges.filter (·.id != id) } : State).onHead core 5 fun m => { m with ended := some st }

/-- `WLD_CYCLE` (R146): the load or command whose edge closed a cycle ends with status 3. -/
def execWldCycle (id : Nat) (s : State) : Out :=
  match s.worldOp id with
  | some w => whenOk (w.blocked && w.closed) (.next (s.endLoad id (.done 3 [])))
  | none => match s.bulkWait id with
    | some (core, m) => whenOk m.closed (.next (s.endBulkWait core id 3))
    | none => notNow

/-- Whether a wait since cycle `t` has passed the timeout of a binding. -/
def State.timedOut (s : State) (b : Binding) (t : Nat) : Bool := b.timeout != 0 && decide (t + b.timeout ≤ s.cycle)

/-! ## What both commands share (R335) -/

/-- Whether words 1-3 are malformed. -/
def Cmd.bulkBad (m : Cmd) : Bool := bitsOf 60 57 m.w3.toNat != 0 || (m.op == 0x20 && m.cmt) || m.keyCount == 0

/-- The pieces of a range of the region's storage, when its pages translate for a bulk command (R413, R371). -/
def State.bulkPlan (s : State) (core : Nat) (m : Cmd) (va n : Nat) : Eng (List Piece) :=
  let ty : AccessType := { world := true, user := m.user }
  match s.worldPlan true core (s.group m.group).part m.branch ty [(va, n)] with
  | .ok ps => .ok ps
  | .miss va => .page va ty
  | _ => .halt 8

/-- Whether any field of a region is f64: elements are then of 8 bytes. -/
def Binding.wide (b : Binding) : Bool := (List.range b.nf).any (fieldF64 b.fields)

/-- A record in the scratchpad (R335). -/
def Binding.recordImage (b : Binding) (vals : List Word) : List Byte :=
  let z := if b.wide then 8 else 4
  let el (i : Nat) : Nat :=
    let x := (vals.getD i 0#64).toNat
    if b.wide && !fieldF64 b.fields i then (toFloat .f64 .rne (FFmt.f32.decode x)).bits else x
  let bs := (List.range b.nf).flatMap fun i => toBytesLE z (el i)
  bs ++ List.replicate (b.recordBytes - bs.length) 0#8

/-- The fields of a record from its bytes in the scratchpad. -/
def Binding.imageRecord (b : Binding) (bs : List Byte) : List Word :=
  let z := if b.wide then 8 else 4
  recordOf b.fields b.wide (unpack (8 * z) b.nf (ofBytesLE bs))

/-- Whether a world operation that a command's wait came to follow is still to be performed at its instant unit (R134, R150). -/
def State.awaits (s : State) (m : Cmd) : Bool :=
  s.worldOps.any fun w => m.knows.covers w.writer && (match w.kind with | .wcommit => true | .wst _ => true | _ => false)

/-- Runs `k` on a started, well-formed bulk command: its binding, the name of its region and the key of its home. -/
def withBulkCmd (s : State) (core op : Nat) (k : Cmd → Binding → Nat → Nat → Out) : Out :=
  withStarted s core 5 op fun m => match m.bind with
    | none => notNow
    | some b =>
      if m.bulkBad then .next (s.haltQueue core 5 7)
      else match s.bulkPlan core m b.base 128 with
        | .ok ps => k m b (regionName ps) (s.keyAt ps b.base)
        | .page va ty => .next (s.stopCommand core 5 m va ty)
        | .halt c => .next (s.haltQueue core 5 c)
        | .wait => notNow

/-! ## WS.SAMPLE (R336) -/

/-- The keys of a bulk command. -/
def Cmd.keys (m : Cmd) : List Nat := (List.range m.keyCount).map (m.key0 + ·)

/-- The key under which a bulk command reads the block of key `k` of a region whose home it reads under `kb` (R393): that of the block's
page, where it translates. -/
def State.blockKey (s : State) (core : Nat) (m : Cmd) (b : Binding) (kb k : Nat) : Nat :=
  match s.bulkPlan core m (b.keyAddr k) b.block with
  | .ok ps => s.keyAt ps (b.keyAddr k)
  | _ => kb

/-- What ends the wait of a sample (R336). -/
def State.waitEnd (s : State) (core : Nat) (m : Cmd) (b : Binding) (base kb : Nat) : WaitEnd :=
  { region := base, key := kb, bind := b, inst := m.inst, keys := m.keys.map fun k => (k, s.blockKey core m b kb k) }

/-- The region at `base` as a bulk command reads it for key `k`. -/
def State.bulkView (s : State) (core : Nat) (m : Cmd) (b : Binding) (base kb k : Nat) : Region :=
  (s.region base).under base kb (s.blockKey core m b kb k)

/-- The name of a region that a bulk command works on and the key of its home, when its BASE translates. -/
def State.bulkRegion (s : State) (core : Nat) (m : Cmd) (b : Binding) : Option (Nat × Nat) :=
  match s.bulkPlan core m b.base 128 with
  | .ok ps => some (regionName ps, s.keyAt ps b.base)
  | _ => none

/-- `WLD_TIMEOUT` (R147, R336): status 4 for a wait that is not over. DESIGN CHOICE (assumption 79): a bulk command's timeout counts from
the cycle its wait edge was registered. DESIGN CHOICE (assumption 80): a load whose edge closed a cycle may meet its timeout first. -/
def execWldTimeout (id : Nat) (s : State) : Out :=
  match s.worldOp id with
  | some w => whenOk (w.blocked && s.timedOut w.bind w.issued) (.next (s.endLoad id (.done 4 [])))
  | none => match s.bulkWait id with
    | some (core, m) => match m.bind, m.edge with
      | some b, some t =>
        let done := match s.bulkRegion core m b with
          | some (base, kb) => s.nearFor (s.waitEnd core m b base kb) && !m.closed
          | none => false
        whenOk (s.timedOut b t && !done) (.next (s.endBulkWait core id 4))
      | _, _ => notNow
    | none => notNow

/-- The status bytes at the end of a sample's buffer. -/
def Cmd.statusAt (m : Cmd) (b : Binding) : Place0 := m.buf.plus (m.keyCount * b.recordBytes : Nat)

/-- A key's committed entries as the commits up to instant `c` left them. -/
def Region.entriesAt (r : Region) (base : Nat) (b : Binding) (c key : Nat) : List RingEntry :=
  (r.entries base b key).filter fun e => decide (e.stamp ≤ c)

/-- The status byte of a key that has been sampled against the committed instant `c`. -/
def State.statusByte (s : State) (core : Nat) (m : Cmd) (b : Binding) (base kb c key : Nat) : Byte :=
  match zoneOf b c ((s.bulkView core m b base kb key).entriesAt base b c key) m.inst with
  | .data st => BitVec.ofNat 8 st
  | _ => 0#8

/-- The wait edge of a sample (R146, R151), which stands until its wait is over (R336). -/
def State.sampleWait (s : State) (core : Nat) (m : Cmd) (b : Binding) (base kb : Nat) : State :=
  let cl := s.closes m.group b.writer
  let till : Option WaitEnd := if cl then none else some (s.waitEnd core m b base kb)
  ({ s with edges := s.edges ++ [{ id := m.id, src := m.group, dst := b.writer, till := till }] } : State).onHead core 5 fun x =>
    { x with edge := some s.cycle, closed := cl }

/-- The record of one key is written: its block translates when the command reaches it, and an uncorrected error in it halts the queue
(R413, R410). -/
def State.sampleKey (s : State) (core : Nat) (m : Cmd) (b : Binding) (base kb c : Nat) : Eng State :=
  let key := m.key0 + m.units
  (s.bulkPlan core m (b.keyAddr key) b.block).bind fun ps =>
    if ps.any fun p => (s.physPoison p.host p.addr p.len).isSome then .halt 9
    else
      let es := (s.bulkView core m b base kb key).entriesAt base b c key
      if zoneOf b c es m.inst = .gone then .halt 12
      else (s.engPut core m (m.buf.plus (m.units * b.recordBytes : Nat))
          (b.recordImage (recordAt base key b ⟨core, m.kidx.toNat⟩ es m.inst))).bind fun s => .ok (s.advance core 5 1 b.recordBytes)

/-- The records of the keys that remain, with fuel, up to one that faults; then the status bytes. -/
def sampleGo (core : Nat) (b : Binding) (base kb c : Nat) : Nat → State → Cmd → Out
  | 0, s, m =>
    unitOut s core 5 m ((s.engPut core m (m.statusAt b) (m.keys.map (s.statusByte core m b base kb c))).bind fun s =>
      .ok ((s.advance core 5 0 m.keyCount).doneHead core 5))
  | fuel + 1, s, m => match s.sampleKey core m b base kb c with
    | .ok s => sampleGo core b base kb c fuel s { m with units := m.units + 1, wp := m.wp + b.recordBytes }
    | .page va ty => .next (s.stopCommand core 5 m va ty)
    | .halt k => .next (s.haltQueue core 5 k)
    | .wait => .next s

/-- What a sample observes as it reads C (R149, R151): the commit that set C, and those that published its keys' entries at its instant; it
has read their records. -/
def State.sampleView (s : State) (core : Nat) (m : Cmd) (b : Binding) (base kb : Nat) : View :=
  let used := m.keys.flatMap fun k => usedEntries ((s.bulkView core m b base kb k).entries base b k) m.inst
  (takes .package core ((s.region base).rels ++ used.flatMap (·.rels))).join { ids := (used.map (·.src)).eraseDups }

/-- A sample reads C: its edge goes, and its signal passes on what it has observed (R149, R151, R156). -/
def State.sampleAcquire (s : State) (core : Nat) (m : Cmd) (v : View) (c : Nat) : State :=
  ({ s with edges := s.edges.filter (·.id != m.id) } : State).onHead core 5 fun _ =>
    { m with instant := some c, edge := none, knows := m.knows.join v }

/-- `WS.SAMPLE` (R336): C is read once, after the wait and the commits that come before the command (R150). -/
def execWsSample (core : Nat) (s : State) : Out :=
  withBulkCmd s core 0x20 fun m b base kb =>
    let r := (s.region base).under base kb 0
    match m.ended, m.instant with
    | some st, _ => unitOut s core 5 m ((s.engPut core m (m.statusAt b) (List.replicate m.keyCount (BitVec.ofNat 8 st))).bind fun s =>
        .ok ((s.advance core 5 0 m.keyCount).doneHead core 5))
    | none, some c => sampleGo core b base kb c (m.keyCount - m.units) s m
    | none, none =>
      if s.awaits m then notNow
      else if r.clock + b.omega < m.inst then .next (s.haltQueue core 5 12)
      else if !s.nearFor (s.waitEnd core m b base kb) then (if m.edge.isNone then .next (s.sampleWait core m b base kb) else notNow)
      else if m.closed then notNow
      else if m.keys.any (fun k => (s.bulkView core m b base kb k).zone base b k m.inst == .gone) then .next (s.haltQueue core 5 12)
      else
        let v := s.sampleView core m b base kb
        sampleGo core b base kb r.clock m.keyCount (s.sampleAcquire core m v r.clock)
          { m with instant := some r.clock, edge := none, knows := m.knows.join v }

/-! ## WS.SNAP (R337) -/

/-- The entry that a snapshot stages for a key. -/
def State.snapEntry (s : State) (core : Nat) (m : Cmd) (b : Binding) (kb key : Nat) (vals : List Word) : RingEntry :=
  { stamp := m.inst, committed := false, lay := b.layout, vals := vals, group := m.group, ord := s.nextId + 1
    key := s.blockKey core m b kb key, src := m.id }

/-- One record of a snapshot is staged as a `WST` would be (R133, R145); its key's block translates when the command reaches it. -/
def State.snapKey (s : State) (core : Nat) (m : Cmd) (b : Binding) (base kb : Nat) : Eng State :=
  let key := m.key0 + m.units
  (s.bulkPlan core m (b.keyAddr key) b.block).bind fun _ =>
    (s.engRead core m (m.buf.plus (m.units * b.recordBytes : Nat)) b.recordBytes).bind fun bs =>
      match (s.bulkView core m b base kb key).stage base b key m.inst with
      | .stage drop =>
        .ok ((((s.noteCmd core m).onRegion base fun r => r.put (b.keyOff key) drop (s.snapEntry core m b kb key (b.imageRecord bs))).fresh).advance
          core 5 1 b.recordBytes)
      | .refuse _ => .halt 13
      | .wait => .wait

/-- Whether a snapshot's commit must wait: for a `WST` of its thread before the `ENQ`, and, being a release, for what the command's wait
came to follow (R134, R145, R149). -/
def State.snapBehind (s : State) (m : Cmd) : Bool :=
  !s.viewDone m.knows .package || !s.viewPosted m.knows || s.worldOps.any fun w => w.group == m.group && w.thread == m.thread && decide (w.seq < m.seq)
    && (match w.kind with | .wst _ => true | _ => false)

/-- `WS.SNAP` (R337): one record, or the commit at the end. -/
def execWsSnap (core : Nat) (s : State) : Out :=
  withBulkCmd s core 0x21 fun m b base kb =>
    if m.units < m.keyCount then unitOut s core 5 m (s.snapKey core m b base kb)
    else if m.cmt then
      if s.snapBehind m then notNow
      else
        let r := s.commitRegion base m.inst kb [⟨.package, core, m.knows.join { ids := [m.id] }⟩]
        .next (if r.2 then r.1.doneHead core 5 else s.haltQueue core 5 13)
    else .next (s.doneHead core 5)

end Sys2Proof.Machine
end

