-- ==== Sys2Proof/Machine/Csr.lean ====
section
/-! DEFINITION. The control registers (spec 01 R27; 04 R106, R107, R109; 06 R166; 08 R219-R221; 09 R262, R263; 19 R361; 21 R407). -/

namespace Sys2Proof.Machine

/-! ## Reading -/

/-- Usable scalar register entries of a core (R27, R28): its 32 rows of 64 without the disabled ones. -/
def State.regcap (s : State) (core : Nat) : Nat := 64 * (32 - popCount 32 (Tab.get 0 core s.firm.record.regRows))

/-- `c.caps` (R27). -/
def State.caps (s : State) (core : Nat) : Nat :=
  s.modid * 2 ^ 52 + s.firm.step.toNat * 2 ^ 32 + (s.clustersOf (s.partOf core)).length * 2 ^ 16 + bitNat s.port.cxl * 8
    + bitNat (s.matrixOn (clusterOf core)) * 4 + bitNat (s.worldOn (dieOfCore core)) * 2

/-- `c.atomw` (R166): 16, 8, 32, 64 and 64 bytes. -/
def atomwValue : Nat := 16 * 2 ^ 32 + 8 * 2 ^ 24 + 32 * 2 ^ 16 + 64 * 2 ^ 8 + 64

/-- `c.wp0`-`c.wp3` (R120). -/
def State.wpValue (s : State) (core i : Nat) : Nat :=
  let ms := s.queue core (i + 1)
  (((s.core core).heads.getD i 0#16).toNat) * 2 ^ 48 + ms.length % 256 * 2 ^ 40 + (match ms.head? with | some m => m.wp % 2 ^ 40 | none => 0)

/-- Whether a command holds its pass, or half of one (R406). -/
def Cmd.holding (m : Cmd) : Bool := match m.pass with | .held => true | .half => true | _ => false

/-- `c.hall` (R407). -/
def State.hallValue (s : State) (core : Nat) : Nat :=
  let c := s.core core
  c.hallCount.toNat * 2 ^ 32 + (c.queues.filter fun q => q.head?.any Cmd.holding).length * 2 ^ 8 + c.hallState.toNat

/-- The value of control register `n` as the issuing bundle reads it (R262, R263). -/
def State.csrValue (s : State) (n : Nat) : Word :=
  let t := s.pre
  let core := s.iss.core
  match n with
  | 0x000 => BitVec.ofNat 64 s.cycle
  | 0x001 => BitVec.ofNat 64 s.iss.thread
  | 0x002 => s.me.name
  | 0x003 => s.me.parent
  | 0x004 => t.vlen.setWidth 64
  | 0x005 => t.flags.setWidth 64
  | 0x006 => t.round.setWidth 64
  | 0x007 => t.bounce.setWidth 64
  | 0x008 => t.wstat.setWidth 64
  | 0x009 => BitVec.ofNat 64 s.me.branch
  | 0x00A => BitVec.ofNat 64 s.me.prio
  | 0x00B => t.seqbase.setWidth 64
  | 0x00C => t.kidx
  | 0x010 | 0x011 | 0x012 | 0x013 => BitVec.ofNat 64 (s.wpValue core (n - 0x010))
  | 0x014 => (s.core core).qerr
  | 0x030 => BitVec.ofNat 64 (s.core core).pool.run
  | 0x031 => BitVec.ofNat 64 (s.core core).pool.scr
  | 0x032 => BitVec.ofNat 64 (s.core core).pool.l1
  | 0x040 => BitVec.ofNat 64 (s.caps core)
  | 0x041 => BitVec.ofNat 64 atomwValue
  | 0x042 => BitVec.ofNat 64 (s.regcap core)
  | 0x043 => BitVec.ofNat 64 core
  | 0x050 => t.tvec
  | 0x051 => t.tcause
  | 0x052 => t.epc
  | 0x053 => t.tval
  | 0x054 => BitVec.ofNat 64 (bitNat (s.core core).pool.det)
  | 0x060 => BitVec.ofNat 64 (s.hallValue core)
  | n => if 0x020 ≤ n ∧ n ≤ 0x02F then ((s.core core).pool.bankfmt.getD (n - 0x020) 0#12).setWidth 64 else 0#64

/-- What a reader of `c.wp0`-`c.wp3` sees from then on: what the engines of its core have written (R120). -/
def State.seeEngines (s : State) (n : Nat) : State :=
  if 0x010 ≤ n ∧ n ≤ 0x013 then s.mustSee s.iss.group s.iss.thread [0, 0, 0, s.clock] else s

/-- `CSRR` (R262). -/
def execCsrr (d : SReg) (c : BitVec 10) (s : State) : Out :=
  effect (.csrr d c) s fun s => (s.seeEngines c.toNat).wr d (s.csrValue c.toNat)

/-! ## Writing -/

/-- A trap register as a write leaves it: its reserved bits read zero (R361). -/
def trapRegBits (n : Nat) (v : Word) : Word :=
  if n = 0x050 then v &&& ~~~2#64
  else if n = 0x051 then v &&& 0xC0FF#64
  else v

/-- A thread with a trap register written by a bundle that issues at `now`; a change of IN is seen at the end of its seventh cycle
(R222). -/
def Thread.putTrapReg (t : Thread) (now n : Nat) (v : Word) : Thread :=
  match n with
  | 0x050 => { t with tvec := trapRegBits n v }
  | 0x051 => { t with tcause := trapRegBits n v, inTill := now + 7, inWas := t.inHandler }
  | 0x052 => { t with epc := v }
  | _ => { t with tval := v }

/-- Whether a write of a trap register sets a bit that a monitor alone may set (R361). -/
def trapRegPriv (n : Nat) (v : Word) : Bool := (n == 0x050 && v.getLsbD 0) || (n == 0x051 && v.getLsbD 14)

/-- A write of a trap register (R361). -/
def trapRegOut (s : State) (n : Nat) (v : Word) : Out :=
  if trapRegPriv n v && !s.pre.monitor then trapOut s Cause.priv s.wordVal else .next (s.onCur fun t => t.putTrapReg s.cycle n v)

/-- A write of a pool boundary, a bank format or `c.mode`: `PRIV` from user mode; discarded from a monitor's thread, which itself
occupies a slot of the core (R107, R109). -/
def monitorRegOut (s : State) : Out := if s.pre.monitor then .next s else trapOut s Cause.priv s.wordVal

/-- A write of `c.qerr`: 0 discards the halted command, another value is discarded (R219); it takes effect at the end of the seventh
cycle (R222, R263). -/
def State.putQerr (s : State) (v : Word) : State :=
  if v = 0#64 then s.onCore s.iss.core fun c => { c with qerrDue := c.qerrDue ++ [s.cycle + 7] } else s

/-- A write of control register `n` (R220). -/
def csrWrite (s : State) (n : Nat) (v : Word) : Out :=
  match n with
  | 0x004 => setVlen s v
  | 0x005 => .next (s.onCur fun t => { t with flags := v.setWidth 5 })
  | 0x006 => .next (s.onCur fun t => { t with round := v.setWidth 2 })
  | 0x007 => .next (s.onCur fun t => { t with bounceQ := some (s.cycle + 7, v.setWidth 32) })
  | 0x008 => .next (s.onCur fun t => { t with wstat := v.setWidth 3 })
  | 0x00B => .next (s.onCur fun t => { t with seqbase := v.setWidth 32 })
  | 0x00C => .next (s.onCur fun t => { t with kidx := v })
  | 0x014 => .next (s.putQerr v)
  | 0x050 | 0x051 | 0x052 | 0x053 => trapRegOut s n v
  | n => if monitorCsr n then monitorRegOut s else .next s

/-- `CSRW` (R262). -/
def execCsrw (a : SReg) (c : BitVec 10) (s : State) : Out := guarded (.csrw a c) s fun s => csrWrite s c.toNat (s.rd a)

/-- `POOL_BOUNDARY_WRITE` (R107): the issuing thread's write. -/
def execPoolBoundaryWrite (csr : BitVec 10) (_v : Word) (s : State) : Out :=
  whenOk (monitorCsr csr.toNat) (monitorRegOut s)

/-- `TRAP_REGISTER_WRITE` (R361): the issuing thread's write. -/
def execTrapRegisterWrite (csr : BitVec 10) (v : Word) (s : State) : Out :=
  whenOk (decide (0x050 ≤ csr.toNat ∧ csr.toNat ≤ 0x053)) (trapRegOut s csr.toNat v)

end Sys2Proof.Machine
end

