-- ==== Sys2Proof/Machine/Tasks.lean ====
section
/-! DEFINITION. Task records, placement, the creation of groups, and the device task queue (spec 01 R34; 03 R56-R69; 11 R292-R296;
18 R355-R359). -/

namespace Sys2Proof.Machine

/-! ## Task records (R292) -/

/-- Run registers of a VREGS code. -/
def vregCount (c : Nat) : Nat := [0, 2, 4, 8, 16].getD c 0

/-- The fields of a task record. -/
def taskOfBytes (bs : List Byte) : TaskRec :=
  let w := descWord bs 6
  { entry := BitVec.ofNat 64 (descWord bs 0)
    args := (List.range 4).map fun i => BitVec.ofNat 64 (descWord bs (1 + i))
    parent := BitVec.ofNat 64 (descWord bs 5)
    threads := bitsOf 63 58 w + 1
    sregs := 8 * (bitsOf 57 54 w + 1)
    vregs := vregCount (bitsOf 53 51 w)
    scratch := bitsOf 50 41 w
    sems := bitsOf 40 32 w
    prio := bitsOf 31 29 w
    needM := bitOf 28 w
    needW := bitOf 27 w
    det := bitOf 26 w
    doneSig := bitOf 25 w
    dsem := bitsOf 24 17 w
    branch := bitsOf 31 0 (descWord bs 7) }

/-- VALID of a task record. -/
def taskValid (bs : List Byte) : Bool := bitOf 63 (descWord bs 7)

/-- Whether the fields of a record are in range and its reserved fields zero (R294). -/
def taskFormed (bs : List Byte) : Bool :=
  let w := descWord bs 6
  decide (bitsOf 16 0 w = 0) && decide (bitsOf 62 32 (descWord bs 7) = 0) && decide (bitsOf 53 51 w < 5) && decide (bitsOf 40 32 w ≤ 256)
    && decide (bitsOf 1 0 (descWord bs 0) = 0) && decide (bitsOf 63 56 (descWord bs 0) = 0)

/-- Whether a branch id may be named in a partition. -/
def State.branchOk (s : State) (part b : Nat) : Bool := b == 0 || (s.partn part).live b

/-- The checks of R294 on a record that has been read: those that trap `PROT`. -/
def State.taskOk (s : State) (part : Nat) (bs : List Byte) : Bool :=
  let r := taskOfBytes bs
  taskValid bs && taskFormed bs && (r.parent == 0#64 || moduleOf r.parent.toNat == s.modid) && s.branchOk part r.branch

/-! ## Names (R34, R60, R62) -/

/-- The serial after another. -/
def nextSerial (n : Nat) : Nat := if 2 ^ 52 - 1 ≤ n then 1 else n + 1

/-- A serial some way further on. DESIGN CHOICE: the recorded mark wraps with the serials (R34, R62; assumption 76). -/
def serialPlus (n k : Nat) : Nat := (n - 1 + k) % (2 ^ 52 - 1) + 1

/-- The name of a serial of this module. -/
def State.nameOf (s : State) (serial : Nat) : Nat := s.modid * 2 ^ 52 + serial

/-- The next serial that no entry of the roll holds, with fuel; none when serials have reached the recorded mark. -/
def State.freeSerial (s : State) : Nat → Nat → Option Nat
  | 0, _ => none
  | fuel + 1, n =>
    if n = s.firm.mark then none
    else if (Tab.find (s.nameOf n) s.roll).isSome then State.freeSerial s fuel (nextSerial n)
    else some n

/-- A new name, and the state that has issued it; none while creation waits for the mark. -/
def State.newName (s : State) : Option (Nat × State) :=
  (s.freeSerial (s.roll.length + 1) s.firm.nextSerial).map fun n =>
    (s.nameOf n, { s with firm := { s.firm with nextSerial := nextSerial n } })

/-- `SERIAL_MARK_ADVANCE` (R34): each block is twice the last one, up to 2^40. -/
def execSerialMarkAdvance (s : State) : Out :=
  let b := min (2 * s.firm.block) (2 ^ 40)
  whenOk (s.newName.isNone) (.next { s with firm := { s.firm with mark := serialPlus s.firm.mark b, block := b } })

/-! ## Placement (R356) -/

/-- Where a group goes on a core. -/
structure Spot where
  slots : List Nat
  sbase : List Nat
  scrBase : Nat
  semBase : Nat
  deriving DecidableEq, Repr

/-- The slots of a core that hold a thread. -/
def State.usedSlots (s : State) (c : Nat) : List Nat := (s.slotsOf c).map (·.1)

/-- Whether a core has no occupied slot, and no resident group that a thread swap took from one: its boundaries may move (R107, R356). -/
def State.vacant (s : State) (c : Nat) : Bool := (s.groupsOn c).all fun g => g.2.threads.all (·.exited)

/-- The lowest place where `n` units fit below `lim` beside the taken intervals. -/
def firstFit (taken : List (Nat × Nat)) (n lim : Nat) : Option Nat :=
  let ok (a : Nat) : Bool := decide (a + n ≤ lim) && taken.all fun t => decide (a + n ≤ t.1) || decide (t.1 + t.2 ≤ a)
  ((0 :: taken.map fun t => t.1 + t.2).filter ok).min?

/-- Places for `k` pieces of `n` units, one after the other. -/
def fitAll (lim n : Nat) : Nat → List (Nat × Nat) → Option (List Nat)
  | 0, _ => some []
  | k + 1, taken => match firstFit taken n lim with
    | none => none
    | some a => (fitAll lim n k ((a, n) :: taken)).map (a :: ·)

/-- The scalar ranges of a group's threads that stand in the core's file. -/
def Group.scalarRanges (g : Group) : List (Nat × Nat) :=
  ((List.range g.threads.length).zip g.threads).filterMap fun t =>
    if t.2.place = .inSlot ∨ t.2.exited then some (g.sbase.getD t.1 0, g.task.sregs) else none

/-- Run registers that a group holds on its core. -/
def Group.runCount (g : Group) : Nat := g.task.vregs * (g.threads.filter fun t => t.place == .inSlot || t.exited).length

/-- The place of `n` threads of a record's shape on core `c` under a launch's values; with `empty`, as if every slot were free. -/
def State.spot (s : State) (c : Nat) (cfg : PoolCfg) (r : TaskRec) (empty : Bool) : Option Spot :=
  let gs : List Group := if empty then [] else (s.groupsOn c).map (·.2)
  let used : List Nat := if empty then [] else s.usedSlots c
  let free := (List.range Config.slots).filter fun k => !used.contains k
  let same := empty || s.vacant c || (s.core c).pool == cfg
  let runs := (cfg.scr - cfg.run) / 1024
  let unit := (!r.needM || s.matrixOn (clusterOf c)) && (!r.needW || s.worldOn (dieOfCore c)) && r.det == cfg.det
  if !same || !unit || decide (free.length < r.threads) || decide (runs < r.vregs * r.threads + (gs.map Group.runCount).sum) then none
  else match fitAll (min (cfg.run / 8) (s.regcap c)) r.sregs r.threads (gs.flatMap Group.scalarRanges),
      firstFit (gs.map fun g => (g.scrBase, g.task.scratch)) r.scratch ((cfg.l1 - cfg.scr) / 1024),
      firstFit (gs.map fun g => (g.semBase, g.task.sems)) r.sems Config.semaphores with
    | some sb, some sc, some se => some ⟨free.take r.threads, sb, sc, se⟩
    | _, _, _ => none

/-- The fitting core of a cluster with the most free slots, the lowest on a tie. -/
def State.bestCore (s : State) (k : Nat) (cfg : PoolCfg) (r : TaskRec) : Option (Nat × Spot) :=
  if (s.cluster k).moving.isSome then none
  else
    (List.range Config.coresPerCluster).foldl (fun (best : Option (Nat × Spot)) i =>
      let c := Config.coresPerCluster * k + i
      match s.spot c cfg r false, best with
      | some p, none => some (c, p)
      | some p, some b => if (s.usedSlots c).length < (s.usedSlots b.1).length then some (c, p) else some b
      | none, b => b) none

/-- Whether some core of a partition could hold a task with every slot free (R358). -/
def State.holdable (s : State) (part : Nat) (cfg : PoolCfg) (r : TaskRec) : Bool :=
  (s.clustersOf part).any fun k => (List.range Config.coresPerCluster).any fun i =>
    (s.spot (Config.coresPerCluster * k + i) cfg r true).isSome

/-! ## Creation (R56-R58, R63) -/

/-- A thread as it starts (R57), which sees the changes of memory up to `ord`. -/
def startThread (r : TaskRec) (ord slot : Nat) : Thread :=
  { slot := slot
    floor := List.replicate 3 ord
    pc := r.entry
    regs := (List.range r.sregs).map fun i => { val := if 2 ≤ i ∧ i ≤ 5 then r.args.getD (i - 2) 0#64 else 0#64 }
    vregs := List.replicate r.vregs {} }

/-- The core's values as the dispatcher leaves them for a launch: it writes them into a core without an occupied slot (R107, R356).
`high` is the highest slot that the launch binds (R73). -/
def Core.bound (c : Core) (cfg : PoolCfg) (empty : Bool) (slots : List Nat) : Core :=
  { c with pool := if empty then cfg else c.pool
           high := slots.foldl max (if empty then 0 else c.high) }

/-- The change of memory at which a launch started (R351). -/
def State.launchOrd (s : State) (launch : Option Nat) : Nat := ((s.running.find? fun l => launch == some l.id).map (·.startOrd)).getD 0

/-- Creates group `n` of a record resident on core `c`, and starts its threads. -/
def State.makeResident (s : State) (n parent prio part : Nat) (launch : Option Nat) (cfg : PoolCfg) (r : TaskRec) (c : Nat) (p : Spot) : State :=
  let empty := s.vacant c
  let g : Group :=
    { name := BitVec.ofNat 64 n, parent := BitVec.ofNat 64 parent, prio := prio, branch := r.branch, part := part, task := r, pool := cfg
      launch := launch, core := c, sbase := p.sbase, scrBase := p.scrBase, semBase := p.semBase, placedAt := s.cycle
      threads := p.slots.map (startThread r (s.launchOrd launch))
      sems := List.replicate r.sems 0#32 }
  let s := s.onCore c fun co => co.bound cfg empty p.slots
  let held := match Tab.find n s.roll with | some e => e.held | none => []
  let s := { s with
    groups := Tab.put n g s.groups
    roll := Tab.put n { state := .resident, parent := parent, part := part, launch := launch, ran := true } s.roll }
  held.foldl State.arrive s

/-- Creates group `n` in the cancelled state; nothing runs (R92, R295, R358). Under a parent that has ended, it becomes absent (R64). -/
def State.makeCancelled (s : State) (n parent part : Nat) (launch : Option Nat) (status : BitVec 32) : State :=
  ({ s with roll := Tab.put n { state := .cancelled, parent := parent, part := part, launch := launch, status := status } s.roll } : State).pruneRoll

/-- A record of kind 3 about a task that no core can hold (R358). -/
def State.unholdable (s : State) (n part : Nat) : State :=
  let r := s.looseRecord 3 Cause.unavail n part 0
  r.1.queueFault (s.partDie part) r.2

/-- The preferred die of a task: its launch's map at ARG1[15:0] (R357). -/
def State.prefOf (s : State) (launch : Option Nat) (r : TaskRec) : Option Nat :=
  match launch with
  | none => none
  | some l => match s.running.find? (·.id == l) with
    | none => none
    | some x => (x.prefs.getD ((r.args.getD 1 0#64).toNat % 2 ^ 16) none)

/-- Creates a task of name `n` migrating, with no source, and pushes it; or cancelled where no core could hold it (R67, R358). -/
def State.pushTask (s : State) (n parent part : Nat) (launch : Option Nat) (cfg : PoolCfg) (r : TaskRec) : State :=
  if !s.holdable part cfg r then (s.makeCancelled n parent part launch 0xC000000C#32).unholdable n part
  else
    let s := { s with roll := Tab.put n { state := .migrating false, parent := parent, part := part, launch := launch } s.roll }
    s.onPart part fun p => { p with pushes := p.pushes ++
      [{ name := n, level := r.prio, since := s.cycle, task := r, launch := launch, pref := s.prefOf launch r, pool := cfg, saved := false }] }

/-! ## `SPAWN` (R294, R295) -/

/-- `SPAWN` in either form: the record is read and checked, and the creation is on its way. -/
def spawnOut (s : State) (queued : Bool) (d : SReg) (a : Word) : Out :=
  if a.toNat % 64 ≠ 0 then trapOut s Cause.align a
  else if a.toNat / 2 ^ 56 ≠ 0 then trapOut s Cause.prot a
  else withRecord s a.toNat 64 fun ps =>
    match ps.findSome? fun p => s.physPoison p.host p.addr p.len with
    | some l => poisonOut s l a (some (a.toNat, { load := true, user := s.user }))
    | none =>
      let bs := s.descBytes ps
      let r := taskOfBytes bs
      if !s.taskOk s.me.part bs then trapOut s Cause.prot a
      else if r.doneSig ∧ r.parent = 0#64 ∧ s.me.task.sems ≤ r.dsem then trapOut s Cause.reglimit (BitVec.ofNat 64 r.dsem)
      else .next (s.issue (.spawn queued r s.me.launch s.me.part s.me.pool) 0 [] (destOf d false))

/-- `SPAWN` (R295). -/
def execSpawn (d a : SReg) (s : State) : Out := guarded (.spawn d a) s fun s => spawnOut s false d (s.rd a)

/-- `SPAWN.Q` (R295). -/
def execSpawnQ (d a : SReg) (s : State) : Out := guarded (.spawnQ d a) s fun s => spawnOut s true d (s.rd a)

/-- Whether a creation by group `g` with parent `par` is of a group that is cancelled from the start. -/
def State.bornCancelled (s : State) (g par : Nat) : Bool :=
  (match Tab.find g s.roll with | some e => e.marked | none => false)
    || (match Tab.find par s.roll with | some e => e.marked || e.state == .cancelled | none => true)

/-- Whether a cluster may create a group in this cycle: one in 16 cycles (R295). -/
def State.mayCreate (s : State) (k : Nat) : Bool :=
  match (s.cluster k).lastCreate with
  | none => true
  | some t => decide (t + 16 ≤ s.cycle)

/-- A cluster has created a group. -/
def State.created (s : State) (k : Nat) : State := s.onCluster k fun c => { c with lastCreate := some s.cycle }

/-- The creation of a `SPAWN` takes effect: its name, and what becomes of its access; none while it waits. -/
def State.spawnNow (s : State) (a : Access) (queued : Bool) (r : TaskRec) (launch : Option Nat) (part : Nat) (cfg : PoolCfg) : Option State :=
  let par := if r.parent = 0#64 then a.group else r.parent.toNat
  let k := clusterOf a.core
  if !s.mayCreate k then none
  else if s.bornCancelled a.group par then
    s.newName.map fun x => (((x.2.makeCancelled x.1 par part launch 0x80000000#32).created k).deliverValue a (BitVec.ofNat 64 x.1))
  else if queued then
    s.newName.map fun x => ((x.2.pushTask x.1 par part launch cfg r).created k).onAccess a.id fun y => { y with kind := .pushed x.1 }
  else match s.bestCore k cfg r with
    | none => some (s.deliverValue a 0#64)
    | some (c, p) => s.newName.map fun x =>
        ((x.2.makeResident x.1 par r.prio part launch cfg r c p).created k).deliverValue a (BitVec.ofNat 64 x.1)

/-- Whether a pushed task still waits for room (R295, R355). -/
def State.waitsPush (s : State) (n : Nat) : Bool := s.parts.any fun p => p.2.pushes.any (·.name == n)

/-- `LOAD_DATA_RETURN` (R74, R117, R224, R240, R295): piece `p.1` of a load, with what memory held `p.2` changes ago (R155). -/
def execLoadDataReturn (id : Nat) (p : Nat × Nat) (s : State) : Out :=
  match s.access id with
  | none => notNow
  | some a => if !s.mayReturn (s.group a.group).core then notNow else match a.kind with
    | .value v => .next (s.deliverValue a v)
    | .wstat base b k => whenOk (s.fencesAllow a.group a.thread a.seq true) (.next (s.deliverValue a (s.stampOf base a.pieces b k)))
    | .spawn q r l part cfg => match s.spawnNow a q r l part cfg with
      | some s => .next s
      | none => notNow
    | .pushed n => if s.waitsPush n then notNow else .next (s.deliverValue a (BitVec.ofNat 64 n))
    | .wclock b => whenOk (s.fencesAllow a.group a.thread a.seq true) (.next (s.deliverValue a (s.clockOf b a.pieces a.va)))
    | .fork b lo n =>
      if !s.fencesAllow a.group a.thread a.seq true then notNow
      else match s.forkNow a b lo n with
        | some r => .next (r.1.deliverValue a (BitVec.ofNat 64 r.2))
        | none => notNow
    | .load => match a.pieces[p.1]? with
      | none => notNow
      | some pc =>
        if a.retried then notNow
        else if pc.stage = .performed then
          (if a.pieces.all (·.stage == .performed) then .next (s.deliverData a) else notNow)
        else if !s.mayPerform a pc then notNow
        else reach s a pc .shared fun s => afterBind (s.bindPiece ((s.access id).getD a) p.1 p.2) id
    | .amo _ _ _ | .cas _ _ _ => if a.pieces.all (·.stage == .performed) then .next (s.deliverData a) else notNow
    | _ => notNow

/-! ## The device task queue (R355, R356) -/

/-- `TASK_QUEUE_PUSH` (R355): the first push that waits enters the tail of its level, when the queue is in use and has room. -/
def execTaskQueuePush (part : Nat) (s : State) : Out :=
  let p := s.partn part
  match p.pushes with
  | [] => notNow
  | t :: rest =>
    whenOk (p.tqEn && decide (p.tasks.length < 2 ^ p.tqSize))
      (.next (s.onPart part fun p => { p with pushes := rest, tasks := p.tasks ++ [{ t with since := s.cycle }] }))

/-- A queued task at cycle `now`: for every 2^20 cycles that it has waited at a level below 7 it stands at the next, from when that was due
(R96, R355). -/
def Task.aged (now : Nat) (t : Task) : Task :=
  let k := min (7 - t.level) ((now - t.since) / Config.aging)
  { t with level := t.level + k, since := t.since + k * Config.aging }

/-- A task in its place among those of a queue, in the order in which they entered their levels. -/
def insertTask (t : Task) : List Task → List Task
  | [] => [t]
  | x :: xs => if t.since < x.since then t :: x :: xs else x :: insertTask t xs

/-- The queued tasks of a partition as they stand now, in the order in which they entered their levels (R355). -/
def State.tasksNow (s : State) (part : Nat) : List Task :=
  ((s.partn part).tasks.map (Task.aged s.cycle)).foldl (fun ts t => insertTask t ts) []

/-- The dispatcher's window of a partition's queue: of each level, from the highest, the 16 oldest tasks (R356). -/
def State.window (s : State) (part : Nat) : List Task :=
  (List.range 8).flatMap fun i => ((s.tasksNow part).filter fun t => t.level == 7 - i).take 16

/-- `TASK_AGING` (R355): a task that has waited 2^20 cycles at a level below 7 moves to the tail of the next. -/
def execTaskAging (part g : Nat) (s : State) : Out :=
  match (s.partn part).tasks.find? (·.name == g) with
  | none => notNow
  | some t =>
    whenOk (decide (t.level < 7) && decide (t.since + Config.aging ≤ s.cycle))
      (.next (s.onPart part fun p =>
        { p with tasks := p.tasks.filter (·.name != g) ++ [{ t with level := t.level + 1, since := t.since + Config.aging }] }))

/-- A task's shape and needs: an image with commands of q0 or q5, or with matrix state, needs their units (R376). -/
def State.needsOf (s : State) (t : Task) : TaskRec :=
  if !t.saved then t.task
  else
    let g := s.group t.name
    { g.task with
      needM := g.task.needM || g.imgMatrix.isSome || g.imgCmds.any fun c => c.1 == 0
      needW := g.task.needW || g.imgCmds.any fun c => c.1 == 5 }

/-- Whether the `SPAWN.q` that pushed a task has written its name (R67). -/
def State.nameWritten (s : State) (n : Nat) : Bool := !s.acc.any fun a => a.kind == .pushed n

/-- The task that a cluster's dispatcher takes, and its place (R356). -/
def State.pickTask (s : State) (k : Nat) : Option (Task × Nat × Spot) :=
  let p := s.partn (s.cluster k).part
  if !p.tqEn then none
  else (s.window (s.cluster k).part).findSome? fun t =>
      if !s.nameWritten t.name || t.pref.any (· != k / Config.clustersPerDie) && decide (s.cycle < t.since + 65536) then none
      else (s.bestCore k t.pool (s.needsOf t)).map fun c => (t, c.1, c.2)

/-- Whether an entry of the task queue of a partition can be read (R359). No rule says in which of the 2^SIZE entries of its ring a task
stands: a free value decides it (assumption 81). -/
def State.queueReads (s : State) (part : Nat) : Bool :=
  let p := s.partn part
  match s.plan true 0 part 0 (p.tqBase.toNat + 128 * (s.freeVal.1.toNat % 2 ^ p.tqSize)) 128 { load := true, user := false } false true with
  | .ok _ => true
  | _ => false

/-- A queue that faults: a record of kind 6 with the address of the ring (R359). -/
def State.queueGone (s : State) (part addr : Nat) : State :=
  let r := s.looseRecord 6 0 0 part addr
  r.1.queueFault (s.partDie part) r.2

/-- The task queue of a partition cannot be read: dispatch stops. -/
def State.closeTasks (s : State) (part : Nat) : State :=
  (s.onPart part fun p => { p with tqEn := false }).queueGone part (s.partn part).tqBase.toNat

/-- The state without a queued task. -/
def State.takeTask (s : State) (part n : Nat) : State := s.onPart part fun p => { p with tasks := p.tasks.filter (·.name != n) }

/-- `TASK_DISPATCH` (R356): a task that has not run before is taken and created; one whose branch is gone is created cancelled
(R295). -/
def execTaskDispatch (k : Nat) (s : State) : Out :=
  let part := (s.cluster k).part
  match s.pickTask k with
  | none => notNow
  | some (t, c, p) =>
    if t.saved then notNow
    else if !s.queueReads part then .next (s.freeVal.2.closeTasks part)
    else
      let s := s.freeVal.2
      let parent := match Tab.find t.name s.roll with | some e => e.parent | none => 0
      let s := s.takeTask part t.name
      if !s.branchOk part t.task.branch then
        let held := match Tab.find t.name s.roll with | some e => e.held | none => []
        .next (held.foldl (fun s r => s.bounceStore r 2) (s.makeCancelled t.name parent part t.launch 0x80000000#32))
      else .next (s.makeResident t.name parent t.level part t.launch t.pool t.task c p)

end Sys2Proof.Machine
end

