-- ==== Sys2Proof/Machine/Lifecycle.lean ====
section
/-! DEFINITION. The end of a group: by the exit of its threads, or by cancellation (spec 03 R64, R85, R90-R93; 05 R136, R144; 11 R298,
R300; 12 R320, R327, R334, R338). -/

namespace Sys2Proof.Machine

/-! ## What a group leaves behind -/

/-- Arrivals that wait for a group, and those held at the roll's home, bounce (R79, R298). -/
def State.bounceAll (s : State) (g : Nat) : State :=
  let held := match Tab.find g s.roll with | some e => e.held | none => []
  let s := (s.onRoll g fun e => { e with held := [] })
  let arr := (s.group g).arr
  let s := s.onGroup g fun gr => { gr with arr := [] }
  (arr ++ held).foldl (fun s r => s.bounceStore r 2) s

/-- The lease that a group holds ends; the accumulators stay (R320, R327). -/
def State.endLeases (s : State) (g : Nat) : State :=
  { s with clus := s.clus.map fun k => (k.1, if k.2.lease.any (·.group == g) then { k.2 with lease := none } else k.2) }

/-- A core without the commands of group `g`; a halt record of theirs gives way to the next (R218). -/
def Core.discard (c : Core) (g : Nat) : Core :=
  let qs := c.queues.map fun q => q.filter (·.group != g)
  let mine := c.qerr.getLsbD 0 && (match (c.queues.getD (bitsOf 7 5 c.qerr.toNat) []).head? with
    | some m => m.group == g && m.haltCause.isSome
    | none => false)
  { c with queues := qs, qerr := if mine then nextHalt qs else c.qerr }

/-- Whether the head of a queue asks for a pass. -/
def State.asksPass (s : State) (x : Nat × Nat) : Bool :=
  match s.headCmd x.1 x.2 with
  | some m => (match m.pass with | .waiting _ => true | _ => false)
  | none => false

/-- Requests for passes that still have their command at the head of its queue. -/
def State.prunePasses (s : State) : State :=
  { s with dies := s.dies.map fun d => (d.1, { d.2 with passQueue := d.2.passQueue.filter s.asksPass }) }

/-- The accepted commands of a group are discarded (R91, R334, R338). -/
def State.discardCmds (s : State) (g : Nat) : State :=
  let ids := (s.cores.flatMap fun c => c.2.queues.flatMap fun q => q.filter (·.group == g)).map (·.id)
  (({ s with
    cores := s.cores.map fun c => (c.1, c.2.discard g)
    edges := s.edges.filter fun e => !ids.contains e.id } : State).prunePasses).relockAll (clusterOf (s.group g).core)

/-- What leaves every unit when a group is gone: its place, its lease, its walks, its world state. -/
def State.dropGroup (s : State) (g : Nat) : State :=
  let s := (s.endLeases g).dropWorld g
  { s with
    groups := Tab.drop g s.groups
    walks := s.walks.filter (·.group != g) }

/-! ## Exit (R85) -/

/-- Whether everything that a group's threads did is performed: stores, remote stores, world operations, cancels. -/
def State.quiet (s : State) (g : Nat) : Bool :=
  (s.acc.all fun a => a.group != g || !a.kind.writes) && (s.rstores.all fun r => r.sender != g) && (s.cancels.all fun c => c.group != g)

/-- Whether no command and no world operation of a group is under way. -/
def State.noWork (s : State) (g : Nat) : Bool :=
  (s.worldOps.all fun w => w.group != g) && (s.cores.all fun c => c.2.queues.all fun q => q.all fun m => m.group != g)
    && (s.group g).imgCmds.isEmpty

/-- What the exit of a group covers: it is a release of each of its threads (R156, R157). -/
def State.exitView (s : State) (g : Nat) : View :=
  ((List.range (s.group g).threads.length).map fun t => s.cover g t (s.thread g t).seq true).foldl View.join {}

/-- Whether what a group's exit covers is performed (R157). -/
def State.sawDone (s : State) (g : Nat) : Bool :=
  s.viewDone (s.exitView g) .pod && s.viewPosted (s.exitView g)

/-- The completion semaphore of the parent of a group that has exited, a release at pod scope for who waits on it (R85); an index beyond
the parent's is discarded (R294). DESIGN CHOICE: so is the signal to a parent that is still queued and has no semaphores yet
(assumption 75). -/
def State.signalParent (s : State) (gr : Group) (v : View) : State :=
  let p := gr.parent.toNat
  if gr.task.doneSig ∧ !s.endedName p ∧ gr.task.dsem < (s.group p).task.sems then
    s.signalSem p gr.task.dsem 1 v
  else s

/-- A group becomes exited: a release at pod scope of each of its threads (R156); every `JOIN` on its name is released. -/
def State.exitGroup (s : State) (g : Nat) : State :=
  let gr := s.group g
  let v := s.exitView g
  let s := (s.bounceAll g).onRoll g fun e => { e with state := .exited, status := gr.status0, view := v }
  ((s.answerJoins.signalParent gr v).dropGroup g).pruneRoll

/-- `GROUP_EXIT` (R85). -/
def execGroupExit (g : Nat) (s : State) : Out :=
  match Tab.find g s.roll with
  | none => notNow
  | some e =>
    whenOk (e.state == .resident && !e.marked && (s.group g).threads.all (·.exited) && s.quiet g && s.noWork g
        && s.sawDone g)
      (.next (s.exitGroup g))

/-! ## Reclamation (R91) -/

/-- The granules of every branch that a group forked are freed (R90). -/
def State.dropForked (s : State) (g : Nat) : State :=
  (s.parts.flatMap fun p => (p.2.branches.filter fun b => b.2.forker == g && !b.2.dropped).map fun b => (p.1, b.1)).foldl
    (fun s x => s.dropBranch x.1 x.2) s

/-- The status of a cancelled group: as `fatal` or R358 set it, else 0x8000_0000 with thread 0's `EXIT` operand (R300, R362). -/
def cancelledStatus (e : RollEntry) (gr : Group) : BitVec 32 := if e.forced ≠ 0#32 then e.forced else 0x80000000#32 ||| gr.cancelled0

/-- Locker bytes of a group's image (R374). -/
def Group.imageBytes (g : Group) : Nat :=
  32768 * g.threads.length + (g.task.scratch * 1024 + 65535) / 65536 * 65536 + 65536 + (if g.imgMatrix.isSome then 196608 else 0)

/-- Locker bytes of a group's swapped threads (R373). -/
def Group.swapBytes (g : Group) : Nat := 32768 * (g.threads.filter fun t => t.place == .swapped).length

/-- The locker bytes that a group takes are free again. -/
def State.freeImages (s : State) (g : Nat) : State :=
  let gr := s.group g
  let saved : Bool := match Tab.find g s.roll with | some e => e.state == .saved || e.state == .migrating true | none => false
  s.onDie (dieOfCore gr.core) fun d => { d with lkUsed := d.lkUsed - (if saved then gr.imageBytes else gr.swapBytes) }

/-- A marked group becomes cancelled. -/
def State.reclaim (s : State) (g : Nat) : State :=
  match Tab.find g s.roll with
  | none => s
  | some e =>
    let gr := s.group g
    let s := (s.freeImages g).bounceAll g
    let s := ((s.discardCmds g).dropForked g).onRoll g fun e => { e with state := .cancelled, status := cancelledStatus e gr }
    ((s.answerJoins.dropGroup g).takeTask e.part g).pruneRoll

/-- Whether a marked group may be reclaimed: a saved or queued one at once, a resident one when its threads are out, a migrating one when
it is resident (R91). -/
def State.mayReclaim (s : State) (g : Nat) (e : RollEntry) : Bool :=
  match e.state with
  | .migrating true => false
  | .resident => (s.group g).threads.all (·.exited)
  | _ => true

/-- `CANCEL_RECLAIM_COMPLETE` (R91). -/
def execCancelReclaimComplete (g : Nat) (s : State) : Out :=
  match Tab.find g s.roll with
  | none => notNow
  | some e =>
    whenOk (e.marked && !e.ended && s.mayReclaim g e && s.quiet g) (.next (s.reclaim g))

end Sys2Proof.Machine
end

