-- ==== Sys2Proof/Machine/Launch.lean ====
section
/-! DEFINITION. Host launch queues, launches and their completion (spec 18 R346-R354, R357-R359). -/

namespace Sys2Proof.Machine

/-! ## The device's own reads of a partition's memory -/

/-- Bytes of the trunk of a partition, as the device reads them; none when a page faults. -/
def State.deviceRead (s : State) (part va n : Nat) : Option (List Byte) :=
  match s.plan true 0 part 0 va n { load := true, user := false } false true with
  | .ok ps => some (ps.flatMap fun p => s.readPhys p.host p.key p.addr p.len)
  | _ => none

/-! ## The launch record (R346, R350) -/

/-- A 16-bit field of a record. -/
def rec16 (bs : List Byte) (off : Nat) : Nat := ofBytesLE ((bs.drop off).take 2)

/-- The fields of a launch record. -/
def launchOfBytes (bs : List Byte) : LaunchRec :=
  { task := BitVec.ofNat 64 (descWord bs 0)
    done := BitVec.ofNat 64 (descWord bs 1)
    pool := { run := descWord bs 2, scr := descWord bs 3, l1 := descWord bs 4, det := bitOf 0 (descWord bs 5)
              bankfmt := (List.range 16).map fun b => BitVec.ofNat 12 (rec16 bs (136 + 2 * b)) }
    casc := bitOf 1 (descWord bs 5)
    place := BitVec.ofNat 64 (descWord bs 6)
    deps := (List.range 4).map fun i => (BitVec.ofNat 64 (descWord bs (8 + 2 * i)), BitVec.ofNat 32 (descWord bs (9 + 2 * i)))
    ctask := BitVec.ofNat 64 (descWord bs 16) }

/-- Whether pool boundaries meet R106. -/
def PoolCfg.boundsOk (p : PoolCfg) : Bool :=
  decide (p.run % 512 = 0 ∧ 512 ≤ p.run ∧ p.run ≤ 0x4000) && decide (p.scr % 0x1000 = 0 ∧ p.run ≤ p.scr ∧ p.scr ≤ 0x100000)
    && decide (p.l1 % 0x1000 = 0 ∧ p.scr ≤ p.l1 ∧ p.l1 ≤ 0x100000)

/-- Whether a bank format has no reserved code (R109). -/
def bankFmtOk (b : BitVec 12) : Bool := decide (bitsOf 7 6 b.toNat < 2) && decide (b.toNat % 16 < 10)

/-- Whether the reserved fields of a launch record are zero and VALID is set. -/
def launchReserved (bs : List Byte) : Bool :=
  descWord bs 31 == 2 ^ 63 && decide (descWord bs 5 < 4) && descWord bs 7 == 0
    && ((List.range 4).all fun i => decide (descWord bs (9 + 2 * i) < 2 ^ 32)) && ((List.range 16).all fun b => decide (rec16 bs (136 + 2 * b) < 4096))
    && ((bs.drop 168).take 80).all (· == 0#8)

/-- Whether a completion word's address can be used (R350). -/
def State.doneOk (s : State) (part : Nat) (a : Word) : Bool :=
  a.toNat % 8 == 0 && (match s.plan true 0 part 0 a.toNat 8 { store := true, user := false } false true with
    | .ok ps => ps.all fun p => !p.host && decide (p.cc < 3)
    | .cow l _ => !l.host && decide (l.cc < 3)
    | _ => false)

/-- Whether a launch record is accepted (R350). -/
def State.launchOk (s : State) (part : Nat) (bs : List Byte) : Bool :=
  let r := launchOfBytes bs
  launchReserved bs && r.pool.boundsOk && r.pool.bankfmt.all bankFmtOk && r.task.toNat % 64 == 0 && r.ctask.toNat % 64 == 0
    && (r.done == 0#64 || s.doneOk part r.done) && r.deps.all fun d => d.1.toNat % 8 == 0

/-! ## Placement maps (R357) -/

/-- Granules of a range that each die homes. -/
def State.homeCount (s : State) (part base len die : Nat) : Nat :=
  ((List.range (len / Config.granule)).filter fun i => match walkTable s part (base + i * Config.granule) with
    | some e => !e.leaf.host && dieOf e.leaf.base == die
    | none => false).length

/-- The die that homes the most granules of a range; none when no granule counts. -/
def State.prefDie (s : State) (part base len : Nat) : Option Nat :=
  ((List.range Config.dies).foldl (fun (best : Option Nat × Nat) d =>
    let n := s.homeCount part base len d
    if best.2 < n then (some d, n) else best) (none, 0)).1

/-- The preferences of a launch's map, or none when the map does not read. -/
def State.readMap (s : State) (part va : Nat) : Option (List (Option Nat)) :=
  if va = 0 then some []
  else match s.deviceRead part va 8 with
    | none => none
    | some hd =>
      let n := ofBytesLE hd
      if n = 0 ∨ 4096 < n then some []
      else (s.deviceRead part (va + 16) (16 * n)).map fun bs =>
        (List.range n).map fun i => s.prefDie part (descWord bs (2 * i)) (descWord bs (2 * i + 1))

/-! ## Ends of launches (R354) -/

/-- A launch that ends without a root of its own, or before its root exists: it waits for its completion. -/
def State.endLaunch (s : State) (l : Launch) (cancelled refused : Bool) : State :=
  { s with
    pending := s.pending.filter (·.id != l.id)
    running := s.running.filter (·.id != l.id) ++ [{ l with ending := some (cancelled, refused, 0#30) }] }

/-- A launch is refused (R350, R351): LQ.STAT.REFUSED, a record of kind 5, and its completion. -/
def State.refuseLaunch (s : State) (l : Launch) : State :=
  let s := s.onLq l.queue fun q => { q with stat := q.stat ||| 8#4 }
  let r := s.looseRecord 5 0 0 l.part l.addr
  let s := r.1.queueFault (s.partDie l.part) r.2
  s.endLaunch l false true

/-! ## The registers of a launch queue (R348, R349, R359) -/

/-- The address of slot `n` of a queue's ring. -/
def LaunchQueue.slotAddr (q : LaunchQueue) (n : BitVec 32) : Nat := q.base.toNat + 256 * (n.toNat % 2 ^ q.size)

/-- A launch of queue `n` read from a ring address. -/
def State.newLaunch (s : State) (n addr : Nat) (bs : List Byte) : Launch :=
  { id := s.nextId, queue := n, part := (s.lq n).part, addr := addr, record := launchOfBytes bs }

/-- Discards the published records of a queue that has been destroyed, with fuel: those that read complete as cancelled. -/
def State.drainRing : Nat → State → Nat → State
  | 0, s, _ => s
  | fuel + 1, s, n =>
    let q := s.lq n
    if q.head = q.tail then s
    else
      let a := q.slotAddr q.head
      let s' := s.onLq n fun q => { q with head := q.head + 1#32 }
      State.drainRing fuel (match s.deviceRead q.part a 256 with
        | none => s'
        | some bs => (s'.endLaunch (s'.newLaunch n a bs) true false).fresh) n

/-- Destroys queue `n` (R359); with `cancel`, its running roots are cancelled. -/
def State.destroyQueue (s : State) (n : Nat) (cancel : Bool) : State :=
  let s := s.onLq n fun q => { q with en := false }
  let s := s.drainRing 65537 n
  let s := (s.pending.filter (·.queue == n)).foldl (fun s l => s.endLaunch l true false) s
  if !cancel then s
  else
    let roots := (s.running.filter fun l => l.queue == n && l.ending.isNone).filterMap (·.root)
    let s := { s with running := s.running.map fun l => if l.queue = n ∧ l.ending.isNone then { l with killed := true } else l }
    roots.foldl State.markTree s

/-- Whether a value of LQ.CTL breaks its field map. -/
def State.lqCtlBad (s : State) (v : Nat) : Bool :=
  decide (bitsOf 20 16 v < 4 ∨ 16 < bitsOf 20 16 v ∨ 287 < bitsOf 8 0 v) || (bitOf 31 v && (s.clustersOf (bitsOf 8 0 v)).isEmpty)

/-- A write of LQ.CTL (R348): EN 0 destroys the queue; a queue in use keeps SIZE and PART. -/
def State.putLqCtl (s : State) (n : Nat) (w : Word) : State :=
  let v := w.toNat
  if (s.lq n).en then (if bitOf 31 v then s else s.destroyQueue n (bitOf 30 v))
  else if s.lqCtlBad v then s
  else
    let s := s.onLq n fun q => { q with size := bitsOf 20 16 v, part := bitsOf 8 0 v }
    if bitOf 31 v then s.onLq n fun q => { q with en := true, head := 0#32, tail := 0#32 } else s.destroyQueue n (bitOf 30 v)

/-- A write of LQ.BASE. -/
def State.putLqBase (s : State) (n : Nat) (v : Word) : State :=
  if (s.lq n).en ∨ v.toNat % 256 ≠ 0 then s else s.onLq n fun q => { q with base := v }

/-- A write of LQ.TAIL (R349). -/
def State.putLqTail (s : State) (n : Nat) (v : BitVec 32) : State :=
  let q := s.lq n
  let ovf := decide (2 ^ q.size < (v - q.head).toNat)
  let bad := decide (2 ^ 31 < (v - q.tail).toNat)
  if ovf || bad then s.onLq n fun q => { q with stat := q.stat ||| (if ovf then 1#4 else 0#4) ||| (if bad then 2#4 else 0#4) }
  else s.onLq n fun q => { q with tail := v }

/-- A write of LQ.STAT clears the bits written as 1. -/
def State.putLqStat (s : State) (n : Nat) (v : BitVec 4) : State := s.onLq n fun q => { q with stat := q.stat &&& ~~~v }

/-- A write of TQ.BASE. -/
def State.putTqBase (s : State) (n : Nat) (v : Word) : State :=
  if (s.partn n).tqEn ∨ v.toNat % 128 ≠ 0 then s else s.onPart n fun p => { p with tqBase := v }

/-- A write of TQ.CTL (R348): a queue in use keeps SIZE. -/
def State.putTqCtl (s : State) (n : Nat) (w : Word) : State :=
  let v := w.toNat
  if (s.partn n).tqEn then s.onPart n fun p => { p with tqEn := bitOf 31 v }
  else if bitsOf 4 0 v < 10 ∨ 20 < bitsOf 4 0 v then s
  else s.onPart n fun p => { p with tqEn := bitOf 31 v, tqSize := bitsOf 4 0 v }

/-- Whether a number names a launch queue. -/
def lqNamed (q : Nat) : Bool := decide (q < 64)
/-- Whether a number names a partition. -/
def partNamed (n : Nat) : Bool := decide (n < 288)

/-- `LQ_TAIL_WRITE` (R349). -/
def execLqTailWrite (q : Nat) (v : BitVec 32) (s : State) : Out := hostWrite s (lqNamed q) (s.putLqTail q v)

/-- `LQ_ENABLE` (R348). -/
def execLqEnable (q : Nat) (v : Word) (s : State) : Out :=
  hostWrite s (lqNamed q && !(s.lq q).en && v.getLsbD 31) (s.putLqCtl q v)

/-- `LQ_DESTROY` (R359). -/
def execLqDestroy (q : Nat) (s : State) : Out := hostWrite s (lqNamed q) (s.destroyQueue q false)

/-- `LQ_DESTROY_CANCEL` (R359). -/
def execLqDestroyCancel (q : Nat) (s : State) : Out := hostWrite s (lqNamed q) (s.destroyQueue q true)

/-- `LQ_STAT_CLEAR` (R348). -/
def execLqStatClear (q : Nat) (v : BitVec 4) (s : State) : Out := hostWrite s (lqNamed q) (s.putLqStat q v)

/-- `TQ_ENABLE` (R348, R359). -/
def execTqEnable (part : Nat) (v : Word) (s : State) : Out :=
  hostWrite s (partNamed part && !(s.partn part).tqEn && v.getLsbD 31) (s.putTqCtl part v)

/-! ## Reading and starting (R349-R352) -/

/-- A queue whose ring does not read halts as if destroyed, with GONE (R359). -/
def State.goneQueue (s : State) (n : Nat) : State :=
  let q := s.lq n
  ((s.onLq n fun q => { q with stat := q.stat ||| 4#4 }).queueGone q.part q.base.toNat).destroyQueue n false

/-- A record that has been read joins the pending set, or is refused. -/
def State.acceptLaunch (s : State) (n : Nat) (l : Launch) (bs : List Byte) : State :=
  if !s.launchOk l.part bs then s.refuseLaunch l
  else match s.readMap l.part l.record.place.toNat with
    | some ps => { s with pending := s.pending ++ [{ l with prefs := ps }] }
    | none => { s.goneQueue n with pending := s.pending.filter (·.queue != n) ++ [l] }

/-- `LAUNCH_SLOT_READ` (R349-R351). -/
def execLaunchSlotRead (n : Nat) (s : State) : Out :=
  let q := s.lq n
  if s.firm.shutdown ∨ !q.en ∨ q.head = q.tail ∨ Config.pendingLaunches ≤ (s.pending.filter (·.part == q.part)).length then notNow
  else
    let a := q.slotAddr q.head
    match s.deviceRead q.part a 256 with
    | none => .next (s.goneQueue n)
    | some bs =>
      let l := s.newLaunch n a bs
      let s := (s.onLq n fun q => { q with head := q.head + 1#32 }).fresh
      .next (s.acceptLaunch n l bs)

/-- What the dependences of a launch say: not met; a read faults; met, with whether a predecessor ended cancelled or refused. -/
inductive DepState where
  | waits | faults | met (flagged : Bool)
  deriving DecidableEq, Repr

/-- The dependences of a launch (R351). -/
def State.depState (s : State) (l : Launch) : DepState :=
  let ws := (l.record.deps.filter fun d => d.1 != 0#64).map fun d => (s.deviceRead l.part d.1.toNat 8, d.2)
  if ws.any fun w => w.1.isNone then .faults
  else if ws.all fun w => decide (w.2.toNat ≤ ofBytesLE (w.1.getD []) % 2 ^ 32) then
    .met (ws.any fun w => decide (2 ^ 62 ≤ ofBytesLE (w.1.getD [])))
  else .waits

/-- The root of a launch is created from the record at `a`, as `SPAWN.Q` creates (R352); none while serials are not at hand. -/
def State.startRoot (s : State) (l : Launch) (a : Nat) : Option State :=
  let bad : Bool := match s.plan true 0 l.part 0 a 64 { load := true, user := false } false true with
    | .ok ps => ps.any fun p => (s.physPoison p.host p.addr p.len).isSome
    | _ => true
  match s.deviceRead l.part a 64 with
  | none => some (s.refuseLaunch l)
  | some bs =>
    if bad || decide (a % 64 ≠ 0) || !s.taskOk l.part bs || (taskOfBytes bs).parent != 0#64 then some (s.refuseLaunch l)
    else s.newName.map fun x =>
      let s := { x.2 with
        pending := x.2.pending.filter (·.id != l.id)
        running := x.2.running ++ [{ l with root := some x.1, startOrd := s.clock }] }
      s.pushTask x.1 0 l.part (some l.id) l.record.pool (taskOfBytes bs)

/-- `LAUNCH_START` (R351, R352): in the order of reading, among those whose dependences are met. -/
def execLaunchStart (id : Nat) (s : State) : Out :=
  match s.pending.find? (·.id == id) with
  | none => notNow
  | some l =>
    let before := (s.pending.takeWhile (·.id != id)).filter (·.part == l.part)
    if s.firm.shutdown ∨ before.any fun x => s.depState x != .waits then notNow
    else match s.depState l with
      | .waits => notNow
      | .faults => .next (s.refuseLaunch l)
      | .met flagged =>
        if flagged ∧ l.record.casc then .next (s.endLaunch l true false)
        else
          let a := if flagged ∧ l.record.ctask ≠ 0#64 then l.record.ctask else l.record.task
          match s.startRoot l a.toNat with
          | some s => .next s
          | none => notNow

/-! ## Completion (R353, R354) -/

/-- A completion word after a completion (R354). -/
def completionWord (old : Nat) (cancelled refused : Bool) (status : BitVec 30) : Nat :=
  (if cancelled ∨ bitOf 63 old then 2 ^ 63 else 0) + (if refused ∨ bitOf 62 old then 2 ^ 62 else 0) + status.toNat * 2 ^ 32
    + (old + 1) % 2 ^ 32

/-- How a launch has ended: cancelled, refused, status; none while its tree lives. -/
def State.launchEnd (s : State) (l : Launch) : Option (Bool × Bool × BitVec 30) :=
  match l.ending with
  | some e => some e
  | none =>
    let tree := s.roll.filter fun e => e.2.launch == some l.id
    let making := s.acc.any fun a => match a.kind with | .spawn _ _ x _ _ => x == some l.id | _ => false
    match l.root with
    | none => none
    | some r =>
      if making || tree.any fun e => !e.2.ended then none
      else match Tab.find r s.roll with
        | none => none
        | some e => some (l.killed || e.state == .cancelled, false, if e.ran then e.status.setWidth 30 else 0#30)

/-- A launch leaves the device; its root's entry becomes absent (R64). -/
def State.dropLaunch (s : State) (l : Launch) : State :=
  ({ s with
    running := s.running.filter (·.id != l.id)
    roll := s.roll.filter fun e => !(e.2.launch == some l.id && e.2.parent == 0) } : State).pruneRoll

/-- A completion word as the device's atomic reads it, which needs the right of a store alone (R100, R354); none when the page faults. -/
def State.atomicRead (s : State) (part va : Nat) : Option Nat :=
  let old (ps : List Piece) : Nat := ofBytesLE (ps.flatMap fun p => s.readPhys p.host p.key p.addr p.len)
  match s.plan true 0 part 0 va 8 { atomic := true, user := false } false true with
  | .ok ps => some (old ps)
  | .cow l a => some (ofBytesLE (s.readPhys l.host l.key (l.base + a % Config.granule) 8))
  | _ => none

/-- `LAUNCH_COMPLETE` (R354): one access updates the completion word. -/
def execLaunchComplete (id : Nat) (s : State) : Out :=
  match s.running.find? (·.id == id) with
  | none => notNow
  | some l => match s.launchEnd l with
    | none => notNow
    | some (c, r, st) =>
      let a := l.record.done
      if a = 0#64 ∨ !s.doneOk l.part a then .next (s.dropLaunch l)
      else match s.atomicRead l.part a.toNat with
        | none => .next (s.dropLaunch l)
        | some old => match State.deviceWrite 2 s l.part a.toNat (toBytesLE 8 (completionWord old c r st)) with
          | some s => .next (s.dropLaunch l)
          | none => notNow

end Sys2Proof.Machine
end

