-- ==== Sys2Proof/Machine/Faults.lean ====
section
/-! DEFINITION. The fault queue: posting records and acting on their answers (spec 19 R366-R371; 10 R287; 12 R327). -/

namespace Sys2Proof.Machine

/-! ## Posting (R367, R368) -/

/-- The slot of the next record. -/
def Die.fqNext (d : Die) : Nat := d.fqHead.toNat % 2 ^ d.fqSize

/-- ACC of a record. -/
def AccessType.code (t : AccessType) : Nat :=
  bitNat t.load + 2 * bitNat t.store + 4 * bitNat t.fetch + 8 * bitNat t.atomic + 16 * bitNat t.world + 32 * bitNat t.user

/-- The bytes of a record (R368). -/
def FaultRec.bytes (r : FaultRec) : List Byte :=
  toBytesLE 8 (r.kind * 2 ^ 56 + r.cause * 2 ^ 48 + r.type.code * 2 ^ 40 + r.token % 2 ^ 32) ++ toBytesLE 8 r.addr ++ toBytesLE 8 r.name
    ++ toBytesLE 8 (r.part * 2 ^ 32 + r.core * 2 ^ 19 + r.slot * 2 ^ 13 + r.thread * 2 ^ 7 + r.queue * 2 ^ 4)
    ++ toBytesLE 8 r.pc ++ toBytesLE 8 r.detail ++ toBytesLE 8 0 ++ toBytesLE 8 (2 ^ 63)

/-- The last word of a slot of a die's ring. -/
def State.fqWord (s : State) (die k : Nat) : Nat := s.word0 ((s.die die).fqSlot k + 56)

/-- Whether a slot is free (R367): its last word has POSTED = 0 or DONE = 1. -/
def State.fqFree (s : State) (die k : Nat) : Bool := !bitOf 63 (s.fqWord die k) || bitOf 62 (s.fqWord die k)

/-- Whether a group has been marked by a cancellation. -/
def State.markedName (s : State) (g : Nat) : Bool := (Tab.find g s.roll).any (·.marked)

/-- The trap of a machine check whose record has been posted (R379): for the thread that waits for the record at its bundle, or posted to
the thread of a command. -/
def State.checkPosted (s : State) (r : FaultRec) : State :=
  match r.target with
  | .trap g t k x acc =>
    let th := s.thread g t
    if !s.hasThread g t || th.exited || s.markedName g then s
    else if th.wait = some (.post r.id) then (s.onThread g t fun th => { th with wait := none }).deliver g t k x th.pc acc
    else if k = Cause.residue then s.postFault g t k x acc
    else s
  | _ => s

/-- `FAULT_RECORD_POST` (R367): records are posted in slot order. -/
def execFaultRecordPost (die : Nat) (s : State) : Out :=
  let d := s.die die
  match d.fqWait with
  | [] => notNow
  | r :: rest =>
    let k := d.fqNext
    if !d.fqEn ∨ !s.fqFree die k then notNow
    else
      let r := { r with token := d.token }
      let s := s.landPieces s.outside [{ host := false, addr := d.fqSlot k, key := 0, cc := 2, off := 0, len := 64, data := r.bytes }]
      .next ((s.onDie die fun d =>
        { d with fqWait := rest, fqOpen := Tab.put k r d.fqOpen, fqHead := d.fqHead + 1#32, token := (d.token + 1) % 2 ^ 32 }).checkPosted r)

/-! ## Answers (R369-R371) -/

/-- A group is cancelled as fatal(k) cancels it, without a further record. -/
def State.cancelGroup (s : State) (g k : Nat) : State :=
  (s.onRoll g fun e => { e with forced := BitVec.ofNat 32 (0xC0000000 + k) }).markTree g

/-- The answer to the record of a suspended thread. -/
def State.answerThread (s : State) (r : FaultRec) (g t out : Nat) : State :=
  if !s.hasThread g t ∨ (s.thread g t).wait ≠ some (.fault r.id) then s
  else
    let s := s.onThread g t fun th => { th with wait := none }
    if out = 0 then s
    else if out = 2 then (s.endThread g t).cancelGroup g r.cause
    else s.deliver g t r.cause (BitVec.ofNat 64 r.addr) (s.thread g t).pc (some (r.addr, r.type))

/-- The queue whose head is stopped on record `id`. -/
def State.stoppedAt (s : State) (id : Nat) : Option (Nat × Nat) :=
  s.cores.findSome? fun c => ((List.range c.2.queues.length).zip c.2.queues).findSome? fun q =>
    if q.2.head?.any (·.stopped == some id) then some (c.1, q.1) else none

/-- The group whose image holds the command that is stopped on record `id`. -/
def State.stoppedIn (s : State) (id : Nat) : Option Nat :=
  (s.groups.find? fun g => g.2.imgCmds.any fun c => c.2.stopped == some id).map (·.1)

/-- A command in an image with `f` applied where it is stopped on record `id`. -/
def Group.onStopped (g : Group) (id : Nat) (f : Cmd → Cmd) : Group :=
  { g with imgCmds := g.imgCmds.map fun c => (c.1, if c.2.stopped = some id then f c.2 else c.2) }

/-- The thread and cause of a command in an image that halts there. -/
def State.haltImage (s : State) (g id : Nat) : State :=
  let ts := ((s.group g).imgCmds.filter fun c => c.2.stopped == some id).map (·.2.thread)
  let s := s.onGroup g fun gr => gr.onStopped id fun m => { m with stopped := none, haltCause := some 8 }
  ts.foldl (fun s t => s.postTrap g t Cause.engine 0#64) s

/-- The answer to the record of a stopped command (R371): 0 resumes it, 1 and 3 halt its queue, 2 cancels its group. -/
def State.answerCommand (s : State) (r : FaultRec) (out : Nat) : State :=
  match s.stoppedAt r.id with
  | some (core, q) =>
    let s := s.onHead core q fun m => { m with stopped := none }
    if out = 0 then s else if out = 2 then s.cancelGroup r.name r.cause else s.haltQueue core q 8
  | none => match s.stoppedIn r.id with
    | none => s
    | some g =>
      if out = 0 then s.onGroup g fun gr => gr.onStopped r.id fun m => { m with stopped := none }
      else if out = 2 then s.cancelGroup g r.cause
      else s.haltImage g r.id

/-- The answer to the record of a run stream's slots (R287). -/
def State.answerStream (s : State) (r : FaultRec) (id out : Nat) : State :=
  match s.access id with
  | none => s
  | some a => match a.dest with
    | .stream vd t base false =>
      if out = 0 then s.askSlots a vd t base (pieceBytes a.pieces)
      else if out = 2 then (s.endThread a.group a.thread).cancelGroup a.group r.cause
      else s.failStream a vd r.cause (BitVec.ofNat 64 r.addr)
    | _ => s

/-- The answer to a record; for a group that has been cancelled first, it has only freed the slot (R370). -/
def State.answer (s : State) (r : FaultRec) (out : Nat) : State :=
  if s.markedName r.name then s else
  match r.target with
  | .nothing | .trap _ _ _ _ _ => s
  | .thread g t => s.answerThread r g t out
  | .command _ _ => s.answerCommand r out
  | .stream id => s.answerStream r id out

/-- `FAULT_ANSWER` (R369): the answer that the store which set DONE gave takes effect. -/
def execFaultAnswer (die slot : Nat) (s : State) : Out :=
  match (s.die die).answered.find? (·.1 == slot) with
  | none => notNow
  | some (k, r) =>
    .next ((s.onDie die fun d => { d with answered := d.answered.filter fun x => !(x.1 == k && x.2.id == r.id) }).answer r (r.answer.getD 0))

end Sys2Proof.Machine
end

