-- ==== Sys2Proof/Machine/Saving.lean ====
section
/-! DEFINITION. Thread swap, eviction and restore (spec 19 R372-R378; 03 R95; 12 R327, R328). -/

namespace Sys2Proof.Machine

/-! ## Which tasks ask for room -/

/-- The tasks in a partition's windows (R356) that no cluster of it fits. -/
def State.starved (s : State) (part : Nat) : List Task :=
  let p := s.partn part
  if !p.tqEn then []
  else (s.window part).filter fun t =>
    (s.clustersOf part).all fun k => (s.bestCore k t.pool (s.needsOf t)).isNone

/-- The machine as if a thread stood swapped. -/
def State.ifSwapped (s : State) (g t : Nat) : State := s.onThread g t fun th => { th with place := .swapped }

/-- Whether a thread may be a victim for task `t` (R372): its group's priority is below the task's, it is in no handler and waits on no
walk, and without it its core fits the task. -/
def State.victimFor (s : State) (task : Task) (core g t : Nat) : Bool :=
  let th := s.thread g t
  decide ((s.group g).prio < task.level) && !th.inHandler && !th.inCancel && (match th.wait with | some (.walk _) => false | _ => true)
    && ((s.ifSwapped g t).spot core task.pool (s.needsOf task) false).isSome

/-- A possible victim: priority, cycle of placement, slot, core, group, thread. -/
structure Victim where
  prio : Nat
  placed : Nat
  slot : Nat
  core : Nat
  group : Nat
  thread : Nat
  deriving DecidableEq, Repr

/-- Whether `a` is chosen before `b` (R372). -/
def Victim.before (a b : Victim) : Bool :=
  decide (a.prio < b.prio) || (a.prio == b.prio && (decide (b.placed < a.placed) || (a.placed == b.placed && decide (b.slot < a.slot))))

/-- The cores of a partition. -/
def State.coresOf (s : State) (part : Nat) : List Nat :=
  (s.clustersOf part).flatMap fun k => (List.range Config.coresPerCluster).map fun i => Config.coresPerCluster * k + i

/-- The victims that would make room for a one-thread task on the throughput cores of its partition. -/
def State.victims (s : State) (part : Nat) (task : Task) : List Victim :=
  if task.task.threads ≠ 1 then []
  else ((s.coresOf part).filter fun c => !(s.core c).pool.det).flatMap fun c => (s.slotsOf c).filterMap fun x =>
    if s.victimFor task c x.2.1 x.2.2 then some ⟨(s.group x.2.1).prio, (s.group x.2.1).placedAt, x.1, c, x.2.1, x.2.2⟩ else none

/-- The victim for a task. -/
def State.victim (s : State) (part : Nat) (task : Task) : Option Victim :=
  (s.victims part task).foldl (fun (best : Option Victim) v => match best with
    | none => some v
    | some b => if v.before b then some v else some b) none

/-! ## Thread swap (R373) -/

/-- A thread as its image holds it: its waiting bundle is reissued after restore, a `SWAIT` or `JOIN` with it, but a thread that a record
suspends stays so (R95, R259, R370). -/
def Thread.preempted (th : Thread) (p : Place) : Thread :=
  { (match th.wait with
    | some (.fault _) | some (.post _) => th
    | _ => th.unwait) with place := p, yielded := false }

/-- A thread's image is written to the locker of its die. -/
def State.swapOut (s : State) (g t : Nat) : State :=
  (s.onThread g t fun th => th.preempted .swapped).onDie (dieOfCore (s.group g).core) fun d => { d with lkUsed := d.lkUsed + 32768 }

/-- The tasks in a partition's windows that wait for room on core `c` (R301). -/
def State.waitFor (s : State) (part c : Nat) : List Task :=
  let p := s.partn part
  if !p.tqEn then []
  else (s.window part).filter fun t =>
    (s.spot c t.pool (s.needsOf t) false).isNone

/-- A thread in a slot that its `YIELD` offers to a task of higher priority on its core (R301). -/
def State.offered (s : State) (core slot : Nat) : Option (Nat × Nat) :=
  if (s.core core).pool.det then none
  else ((s.slotsOf core).find? fun x => x.1 == slot && (s.thread x.2.1 x.2.2).yielded
    && (s.waitFor (s.partOf core) core).any fun t => decide ((s.group x.2.1).prio < t.level)).map (·.2)

/-- `THREAD_SWAP` (R301, R372, R373): the thread in this slot is the victim of a task that no cluster fits, or has yielded. -/
def execThreadSwap (core slot : Nat) (s : State) : Out :=
  let part := s.partOf core
  match ((s.starved part).findSome? fun t => (s.victim part t).bind fun v =>
      if v.core = core ∧ v.slot = slot then some (v.group, v.thread) else none).or (s.offered core slot) with
  | none => notNow
  | some v => whenOk (!(s.partn part).stop && s.lockerHas (dieOfCore core) 32768 && !(s.thread v.1 v.2).inHandler && !(s.thread v.1 v.2).inCancel)
      (.next (s.swapOut v.1 v.2))

/-- Where a swapped thread of a group can stand again: its slot and scalar base. -/
def State.swapSpot (s : State) (g : Nat) : Option (Nat × Nat) :=
  let gr := s.group g
  let c := gr.core
  let gs := (s.groupsOn c).map (·.2)
  let used := s.usedSlots c
  let pool := (s.core c).pool
  if (pool.scr - pool.run) / 1024 < gr.task.vregs + (gs.map Group.runCount).sum then none
  else match (List.range Config.slots).find? fun k => !used.contains k, firstFit (gs.flatMap Group.scalarRanges) gr.task.sregs (min (pool.run / 8) (s.regcap c)) with
    | some k, some b => some (k, b)
    | _, _ => none

/-- `THREAD_SWAP_RESTORE` (R373): to its group's own core. -/
def execThreadSwapRestore (g t : Nat) (s : State) : Out :=
  let th := s.thread g t
  if !s.hasThread g t ∨ th.place ≠ .swapped ∨ th.exited ∨ !(match Tab.find g s.roll with | some e => e.state == .resident | none => false) then notNow
  else match s.swapSpot g with
    | none => notNow
    | some (k, b) =>
      let s := s.onGroup g fun gr => { gr with
        sbase := modifyNth t (fun _ => b) gr.sbase
        threads := modifyNth t (fun th => { th with place := .inSlot, slot := k }) gr.threads }
      .next ((s.onDie (dieOfCore (s.group g).core) fun d => { d with lkUsed := d.lkUsed - 32768 }).drain g)

/-! ## Eviction (R374, R375) -/

/-- Whether an accepted command of an evicted group runs on where it is: started on q1-q5, or done. -/
def Cmd.runsOn (q : Nat) (m : Cmd) : Bool := m.done || (m.started && q != 0)

/-- A command that runs on into the image gives up its write locks on the pool. -/
def Cmd.intoImage (m : Cmd) : Cmd :=
  { m with toImage := true, lock := m.lock.map fun l =>
      { l with writes := l.writes.filter (·.pool.isNone), dense := l.dense.filter (·.1.isNone) } }

/-- A command as it goes into an image: it runs from its start, but a halted one keeps what it has written (R319, R375). -/
def Cmd.saved (m : Cmd) : Cmd :=
  let m := { m with started := false, pass := .none, lock := none }
  if m.haltCause.isSome then m else { m with wp := 0, units := 0 }

/-- A queue without the commands of group `g` that go into its image. -/
def keepQueue (g q : Nat) (ms : List Cmd) : List Cmd :=
  (ms.filter fun m => m.group != g || m.runsOn q).map fun m => if m.group = g then m.intoImage else m

/-- The commands of group `g` that go from a core's queues into its image. -/
def Core.toImage (c : Core) (g : Nat) : List (Nat × Cmd) :=
  ((List.range c.queues.length).zip c.queues).flatMap fun q => (q.2.filter fun m => m.group == g && !m.runsOn q.1).map fun m => (q.1, m.saved)

/-- A core whose queues group `g` has left; a halt record of its commands gives way to the next (R375). -/
def Core.evict (c : Core) (g : Nat) : Core :=
  let qs := ((List.range c.queues.length).zip c.queues).map fun q => keepQueue g q.1 q.2
  let mine := c.qerr.getLsbD 0 && (match (c.queues.getD (bitsOf 7 5 c.qerr.toNat) []).head? with
    | some m => m.group == g && m.haltCause.isSome
    | none => false)
  { c with queues := qs, qerr := if mine then nextHalt qs else c.qerr }

/-- The array commands of group `g` that are done on a core and have not left q0: they count against the lease now (R328). -/
def Core.doneArray (c : Core) (g : Nat) : Nat := ((c.queues.getD 0 []).filter fun m => m.group == g && m.done && opArray m.op).length

/-- The array commands that the lease of group `g` on a core's cluster still grants, with those that are done counted (R320, R328). -/
def State.leaseLeft (s : State) (g core : Nat) : Nat :=
  match (s.cluster (clusterOf core)).lease with
  | some l => if l.group = g then l.left - (s.core core).doneArray g else 0
  | none => 0

/-- The matrix state of a lease holder goes into its image (R327); a lease whose last command is done ends. -/
def State.saveMatrix (s : State) (g core : Nat) : State :=
  let k := clusterOf core
  match (s.cluster k).lease with
  | some l =>
    if l.group = g then
      let left := s.leaseLeft g core
      (s.onGroup g fun gr => { gr with imgMatrix := if left = 0 then gr.imgMatrix else some ⟨(s.cluster k).acc, (s.cluster k).kc, left⟩ }).onCluster k
        fun c => { c with lease := none }
    else s
  | none => s

/-- A thread of a group whose image is written. -/
def Thread.intoImage (th : Thread) : Thread := if th.exited then th else th.preempted .inImage

/-- A group's image as the locker holds it, before it is written: the bytes that its eviction takes. -/
def State.evictBytes (s : State) (g : Nat) : Nat :=
  let gr := s.group g
  gr.imageBytes + (if decide (0 < s.leaseLeft g gr.core) && gr.imgMatrix.isNone then 196608 else 0) - gr.swapBytes

/-- A saved group that no core could hold is cancelled (R358). -/
def State.cancelSaved (s : State) (g part : Nat) : State :=
  ((s.onRoll g fun e => { e with state := .saved, source := none, forced := 0xC000000C#32 }).markTree g).unholdable g part

/-- The saved group enters its partition's queue at its priority, or is cancelled where no core could hold it (R358, R376). -/
def State.requeue (s : State) (g : Nat) : State :=
  let gr := s.group g
  let t : Task := { name := g, level := gr.prio, since := s.cycle, task := gr.task, launch := gr.launch, pref := s.prefOf gr.launch gr.task, pool := gr.pool, saved := true }
  if s.holdable gr.part gr.pool (s.needsOf t) then s.onPart gr.part fun p => { p with pushes := p.pushes ++ [t] }
  else s.cancelSaved g gr.part

/-- Whether a group waits for a unit that its cluster or die lacks, and can be moved to one that has it (R31, R377). -/
def State.lacksUnit (s : State) (g : Nat) : Bool :=
  (s.group g).threads.any fun th => match th.wait with | some (.unavail m) => s.movable g m | _ => false

/-- The needs of a group that waits for units: its image is marked with them (R31, R377). -/
def Group.unitNeeds (g : Group) : TaskRec :=
  g.threads.foldl (fun t th => match th.wait with | some (.unavail m) => t.needing m | _ => t) g.task

/-- Group `g` is saved, or, when it waits for a unit elsewhere, begins to migrate there (R63, R378). DESIGN CHOICE: its image stands above
what its locker already holds (assumption 82). -/
def State.evict (s : State) (g : Nat) : State :=
  let moves := s.lacksUnit g
  let s := if moves then s.onGroup g fun gr => { gr with task := gr.unitNeeds } else s
  let gr := s.group g
  let d := s.die (dieOfCore gr.core)
  let n := s.evictBytes g
  let s := s.saveMatrix g gr.core
  let cmds := s.cores.flatMap fun c => c.2.toImage g
  let s := ({ s with cores := s.cores.map fun c => (c.1, c.2.evict g) } : State).prunePasses
  let s := s.onGroup g fun gr => { gr with imgCmds := gr.imgCmds ++ cmds, threads := gr.threads.map Thread.intoImage }
  let s := s.onRoll g fun e => { e with state := if moves then .migrating true else .saved, source := if moves then some gr.core else none
                                        image := some (d.locker + d.lkUsed) }
  (s.onDie (dieOfCore gr.core) fun d => { d with lkUsed := d.lkUsed + n }).requeue g

/-- The machine as if group `g` were saved. -/
def State.ifSaved (s : State) (g : Nat) : State := s.onRoll g fun e => { e with state := .saved }

/-- Whether evicting group `g` makes room for a task of higher priority for which no victim thread is found (R374). -/
def State.makesRoom (s : State) (g : Nat) : Bool :=
  let gr := s.group g
  (s.starved gr.part).any fun t => decide (gr.prio < t.level) && (s.victim gr.part t).isNone
    && ((s.ifSaved g).spot gr.core t.pool (s.needsOf t) false).isSome

/-- `GROUP_EVICT` (R374, R377): when the locker of its die can hold its image. -/
def execGroupEvict (g : Nat) (s : State) : Out :=
  match Tab.find g s.roll with
  | none => notNow
  | some e =>
    whenOk (e.state == .resident && !e.marked && !(s.partn (s.partOf (s.group g).core)).stop && (s.lacksUnit g || s.makesRoom g)
        && decide ((s.die (dieOfCore (s.group g).core)).lkSize ≠ 0) && s.lockerHas (dieOfCore (s.group g).core) (s.evictBytes g))
      (.next (s.evict g))

/-! ## Restore (R375, R376) -/

/-- Whether a command that stands in a queue has been at its head: it runs, has halted, or is to be restarted. -/
def Cmd.leads (m : Cmd) : Bool := m.started || m.haltCause.isSome || m.waitMet

/-- A command that comes back: a halted one, and one that is run again, stand at the head of their queue, behind others that do (R328,
R375). -/
def putBack (ms : List Cmd) (m : Cmd) : List Cmd :=
  if m.leads then ms.takeWhile Cmd.leads ++ m :: ms.dropWhile Cmd.leads else ms ++ [m]

/-- A thread as it stands in its slot again, maybe of another core, from which it must see what it had to see before (R95). -/
def Thread.backIn (th : Thread) (slot : Nat) : Thread :=
  if th.exited then { th with slot := slot }
  else { th with place := .inSlot, slot := slot, floor := if th.floor = [] then [] else List.replicate 4 (th.floor.foldl max 0) }

/-- Group `g` resides on core `c` again: its commands take range-lock entries as far as there are some (R375), and arrivals that the
roll's home held are forwarded (R79); a group that has been marked while it migrated is cancelled as a resident one (R91). DESIGN CHOICE:
arrivals of its image stay in its buffer where the core's has no room (assumption 77). -/
def State.restoreOn (s : State) (g prio : Nat) (c : Nat) (p : Spot) : State :=
  let gr := s.group g
  let empty := s.vacant c
  let held := match Tab.find g s.roll with | some e => e.held | none => []
  let s := s.freeImages g
  let s := s.onCore c fun co => co.bound gr.pool empty p.slots
  let s := gr.imgCmds.foldl (fun s x => s.onQueue c x.1 fun ms => putBack ms x.2) s
  let s := s.onGroup g fun gr => { gr with
    core := c, prio := prio, sbase := p.sbase, scrBase := p.scrBase, semBase := p.semBase, placedAt := s.cycle, imgCmds := []
    threads := ((List.range gr.threads.length).zip gr.threads).map fun x => x.2.backIn (p.slots.getD x.1 0) }
  let s := (s.onRoll g fun e => { e with state := .resident, source := none, image := none, held := [] }).refreshQerr c
  let s := held.foldl State.arrive ((s.relockAll (clusterOf c)).drain g)
  if (Tab.find g s.roll).any (·.marked) then s.cancelThreads g else s

/-- `GROUP_RESTORE` (R376). -/
def execGroupRestore (k g : Nat) (s : State) : Out :=
  let part := (s.cluster k).part
  match s.pickTask k with
  | none => notNow
  | some (t, c, p) =>
    if !t.saved ∨ t.name ≠ g then notNow
    else if !s.queueReads part then .next (s.freeVal.2.closeTasks part)
    else .next ((s.freeVal.2.takeTask part g).restoreOn g t.level c p)

end Sys2Proof.Machine
end

