-- ==== Sys2Proof/Machine/Partitions.lean ====
section
/-! DEFINITION. The registers of a partition, shootdowns, gang stop and resume, and moves of clusters between partitions (spec 18 R358;
19 R365, R366, R380-R382; 21 R404). -/

namespace Sys2Proof.Machine

/-! ## Registers (R365) -/

/-- Whether HOME of a HOME and OFF pair names a die, and OFF is a multiple of `al` (R365, R367). -/
def homeOk (v al : Nat) : Bool := decide (bitsOf 44 40 v < Config.dies) && decide (bitsOf 39 0 v % al = 0)

/-- The writable bits of a HOME and OFF register. -/
def homeBits (v : Word) : Word := v &&& BitVec.ofNat 64 (2 ^ 45 - 1)

/-- Whether a group of a partition lives. -/
def State.livesIn (s : State) (n : Nat) : Bool := s.roll.any fun e => e.2.part == n && !e.2.ended

/-- A write of PR.ROOT. -/
def State.putPrRoot (s : State) (n : Nat) (v : Word) : State :=
  if s.livesIn n || !homeOk v.toNat (2 ^ 20) || decide (Config.dieBytes ≤ bitsOf 39 0 v.toNat) then s else s.onPart n fun p => { p with root := homeBits v }

/-- A write of PR.MVEC. -/
def State.putPrMvec (s : State) (n : Nat) (v : Word) : State := s.onPart n fun p => { p with mvec := v &&& ~~~3#64 }

/-- The bytes of a shootdown's range. -/
def shootSize (k : Nat) : Nat := if k = 0 then 2 ^ 16 else if k = 1 then 2 ^ 21 else 2 ^ 30

/-- The range that a value of PR.SHOOT names: its base and its length. -/
def shootRange (v : Nat) : Nat × Nat := if bitsOf 3 0 v = 15 then (0, 2 ^ 56) else (bitsOf 55 16 v * 65536, shootSize (bitsOf 3 0 v))

/-- A write of PR.SHOOT (R366): discarded while one runs, or with a reserved SIZE. -/
def State.putPrShoot (s : State) (n : Nat) (v : Word) : State :=
  if (s.partn n).shoot.isSome ∨ (3 ≤ bitsOf 3 0 v.toNat ∧ bitsOf 3 0 v.toNat ≤ 14) then s
  else s.onPart n fun p => { p with shoot := some (shootRange v.toNat) }

/-- A write of PR.BBASE. -/
def State.putPrBbase (s : State) (n : Nat) (v : Word) : State :=
  if v.toNat % 4096 ≠ 0 then s else s.onPart n fun p => { p with bbase := v }

/-- A write of PR.BCTL. -/
def State.putPrBctl (s : State) (n : Nat) (v : Word) : State :=
  let k := bitsOf 4 0 v.toNat
  if k < 7 ∨ 16 < k then s else s.onPart n fun p => { p with ben := v.getLsbD 31, bsize := k }

/-- A write of PR.BTAIL. -/
def State.putPrBtail (s : State) (n : Nat) (v : Word) : State := s.onPart n fun p => { p with btail := v.setWidth 32 }

/-- A write of PR.DBG. -/
def State.putPrDbg (s : State) (n : Nat) (v : Word) : State :=
  if v.toNat % 4096 ≠ 0 then s else s.onPart n fun p => { p with dbg := v }

/-! ## Shootdown (R366) -/

/-- `PR_SHOOT` (R366). -/
def execPrShoot (part : Nat) (v : Word) (s : State) : Out := hostWrite s (partNamed part) (s.putPrShoot part v)

/-- Whether a TLB entry meets a range. -/
def TlbEntry.meets (e : TlbEntry) (r : Nat × Nat) : Bool := decide (e.va < r.1 + r.2) && decide (r.1 < e.va + e.size)

/-- The cores of a partition. -/
def State.coresIn (s : State) (part : Nat) : List Nat :=
  (s.clustersOf part).flatMap fun k => (List.range Config.coresPerCluster).map fun i => Config.coresPerCluster * k + i

/-- Whether a piece of memory was translated through an entry that meets a range (R366). -/
def Piece.within (p : Piece) (r : Nat × Nat) : Bool := !p.pool && decide (p.page < r.1 + r.2 ∧ r.1 < p.page + p.pageSize)

/-- Whether an access or a world operation of a partition that was translated within a range has not been performed, whichever TLB still
holds the translation (R366, R413). -/
def State.stillUses (s : State) (part : Nat) (r : Nat × Nat) : Bool :=
  (s.acc.any fun a => (s.group a.group).part == part && a.pieces.any fun p => p.stage != .performed && p.within r)
    || s.worldOps.any fun w => (s.group w.group).part == part && w.spots.any (·.within r)

/-- `SHOOTDOWN_COMPLETE` (R366): every TLB of the partition drops the range. -/
def execShootdownComplete (part : Nat) (s : State) : Out :=
  match (s.partn part).shoot with
  | none => notNow
  | some r =>
    if s.stillUses part r then notNow
    else
      let keep (es : List TlbEntry) : List TlbEntry := es.filter fun e => !e.meets r
      let s := (s.coresIn part).foldl (fun s c => s.onCore c fun co => { co with tlb := keep co.tlb }) s
      let s := (s.clustersOf part).foldl (fun s k => s.onCluster k fun cl => { cl with tlb := keep cl.tlb }) s
      .next (s.onPart part fun p => { p with shoot := none })

/-! ## Gang stop (R380-R382) -/

/-- Bits set at the listed places. -/
def bitsAt (ks : List Nat) : Nat := ((List.range 64).map fun k => if ks.contains k then 2 ^ k else 0).sum

/-- The record of a core, whose counts are those of this cycle (R382). -/
def State.coreRecord (s : State) (c : Nat) : List Byte :=
  let co := s.core c
  let sl := s.slotsOf c
  toBytesLE 8 s.cycle ++ toBytesLE 8 co.rsent.toNat ++ toBytesLE 8 co.rrecv.toNat ++ toBytesLE 8 co.tcmd.toNat
    ++ toBytesLE 8 (bitsAt (sl.map (·.1)))
    ++ toBytesLE 8 (bitsAt ((sl.filter fun x => (s.thread x.2.1 x.2.2).halted).map (·.1)))
    ++ toBytesLE 8 0 ++ toBytesLE 8 1

/-- A write of PR.STOP with STOP = 1: the cores stop issuing, each with its record as it stands now. -/
def State.stopPart (s : State) (n : Nat) (dump : Bool) : State :=
  let snaps := (s.coresIn n).foldl (fun m c => Tab.put c (s.coreRecord c) m) []
  s.onPart n fun p => { p with stop := true, dump := dump, stopped := false, stopAt := if p.stop then p.stopAt else s.cycle
                               snaps := if p.stop then p.snaps else snaps }

/-- A write of PR.STOP with STOP = 0. -/
def State.resumePart (s : State) (n : Nat) : State :=
  s.onPart n fun p => { p with stop := false, dump := false, stopped := false, snaps := [] }

/-- `GANG_STOP` (R380). -/
def execGangStop (part : Nat) (s : State) : Out := hostWrite s (partNamed part) (s.stopPart part false)

/-- `GANG_STOP_DUMP` (R382). -/
def execGangStopDump (part : Nat) (s : State) : Out := hostWrite s (partNamed part) (s.stopPart part true)

/-- `GANG_RESUME` (R380). -/
def execGangResume (part : Nat) (s : State) : Out := hostWrite s (partNamed part) (s.resumePart part)

/-- `n` bytes that the manual does not state. -/
def State.freeBytes (s : State) (n : Nat) : List Byte × State :=
  ((List.range n).map fun i => (Config.freeWord (s.freeCount + i)).setWidth 8, { s with freeCount := s.freeCount + n })

/-- A device write that is dropped when it faults; none while it waits for room in a locker (R89). -/
def State.tryWrite (s : State) (part va : Nat) (bs : List Byte) : Option State :=
  if State.deviceWaits 3 s part va bs.length then none else some ((State.deviceWrite 3 s part va bs).getD s)

/-- The image of the thread in a slot of a core, in the locker's layout, which is the device's own. -/
def State.dumpSlot (s : State) (part base c k : Nat) : Option State :=
  let f := s.freeBytes 32768
  f.2.tryWrite part (base + 0x48000 + 32768 * (64 * c + k)) f.1

/-- The record of a core, and with DUMP the images of its threads. -/
def State.writeStop (s : State) (part c : Nat) : Option State :=
  let p := s.partn part
  let base := p.dbg.toNat
  let dumped := if p.dump then (s.slotsOf c).foldl (fun o x => o.bind fun s => s.dumpSlot part base c x.1) (some s) else some s
  dumped.bind fun s => s.tryWrite part (base + 64 * c) ((Tab.find c p.snaps).getD (s.coreRecord c))

/-- `GANG_STOP_COMPLETE` (R380): every core's record is written and STOPPED is set. -/
def execGangStopComplete (part : Nat) (s : State) : Out :=
  let p := s.partn part
  if !p.stop ∨ p.stopped then notNow
  else match (s.coresIn part).foldl (fun o c => o.bind fun s => s.writeStop part c) (some s) with
    | some s => .next (s.onPart part fun p => { p with stopped := true })
    | none => notNow

/-- A write of PR.RESUME (R381): discarded unless the slot's thread is stopped by `HALT` on a core of the partition. -/
def State.putPrResume (s : State) (n : Nat) (v : Word) : State :=
  let c := bitsOf 12 0 v.toNat
  let k := bitsOf 18 13 v.toNat
  if Config.cores ≤ c ∨ s.partOf c ≠ n then s
  else match (s.slotsOf c).find? fun x => x.1 == k with
    | none => s
    | some x => s.onThread x.2.1 x.2.2 fun th => { th with halted := false }

/-- `PR_RESUME` (R381). -/
def execPrResume (part : Nat) (v : Word) (s : State) : Out := hostWrite s (partNamed part) (s.putPrResume part v)

/-! ## Moves of clusters (R404) -/

/-- A write of PT.MAP: discarded while a move of the cluster waits; the present partition is no move. -/
def State.putPtMap (s : State) (k : Nat) (v : BitVec 9) : State :=
  if (s.cluster k).moving.isSome ∨ 288 ≤ v.toNat ∨ v.toNat = (s.cluster k).part then s
  else s.onCluster k fun c => { c with moving := some v.toNat }

/-- `PARTITION_MOVE_REQUEST` (R404). -/
def execPartitionMoveRequest (cluster : Nat) (v : BitVec 9) (s : State) : Out :=
  hostWrite s (decide (cluster < Config.clusters)) (s.putPtMap cluster v)

/-- Whether a cluster has no occupied slot and no accepted command; a swapped thread occupies none (R373). -/
def State.emptyCluster (s : State) (k : Nat) : Bool :=
  (s.commandsOf k).isEmpty && (List.range Config.coresPerCluster).all fun i => (s.slotsOf (Config.coresPerCluster * k + i)).isEmpty

/-- A queued task that no core of its partition could hold is removed (R358). -/
def State.dropUnholdable (s : State) (part : Nat) (t : Task) : State :=
  if s.holdable part t.pool (s.needsOf t) then s
  else if t.saved then s.cancelSaved t.name part
  else
    let parent := match Tab.find t.name s.roll with | some e => e.parent | none => 0
    let held := match Tab.find t.name s.roll with | some e => e.held | none => []
    let s := s.onPart part fun p => { p with tasks := p.tasks.filter (·.name != t.name), pushes := p.pushes.filter (·.name != t.name) }
    held.foldl (fun s r => s.bounceStore r 2) ((s.makeCancelled t.name parent part t.launch 0xC000000C#32).unholdable t.name part)

/-- The check of R358 on every queued task of a partition. -/
def State.sweepTasks (s : State) (part : Nat) : State :=
  ((s.partn part).tasks ++ (s.partn part).pushes).foldl (fun s t => s.dropUnholdable part t) s

/-- A cluster joins another partition: its TLBs hold nothing of the old one's page table. -/
def State.moveCluster (s : State) (k part : Nat) : State :=
  let s := s.onCluster k fun c => { c with part := part, moving := none, tlb := [] }
  (List.range Config.coresPerCluster).foldl (fun s i => s.onCore (Config.coresPerCluster * k + i) fun c => { c with tlb := [] }) s

/-- `PARTITION_MOVE_COMPLETE` (R404): once the cluster is empty. -/
def execPartitionMoveComplete (cluster : Nat) (s : State) : Out :=
  match (s.cluster cluster).moving with
  | none => notNow
  | some p =>
    let old := (s.cluster cluster).part
    whenOk (s.emptyCluster cluster) (.next (((s.moveCluster cluster p).sweepTasks old).sweepTasks p))

end Sys2Proof.Machine
end

