-- ==== Sys2Proof/Machine/Fleet.lean ====
section
/-! DEFINITION. Skelpimir links, housekeeping, soft errors, telemetry and cooling (spec 03 R61; 20 R399-R402; 21 R408-R412). -/

namespace Sys2Proof.Machine

/-! ## What arrives from other modules (R61, R399-R401) -/

/-- The answer of another module's roll reaches the thread that asked under its token. -/
def State.takeStatus (s : State) (token : Nat) (v : Word) : State :=
  let got (th : Thread) : Thread := match th.far with
    | some (n, k, none) => if k = token then { th with far := some (n, k, some v) } else th
    | _ => th
  { s with groups := s.groups.map fun g => (g.1, { g.2 with threads := g.2.threads.map got }) }

/-- The earliest store of a pair that has left for another module is done: the state, and its place in its thread (R81). -/
def State.takeBack (s : State) (y : Config.PodStore) : State × Nat :=
  match s.away.find? fun x => x.sender == y.sender && x.sthread == y.thread && x.target == y.target with
  | some x => ({ s with away := s.away.filter (·.id != x.id) }, x.seq)
  | none => (s, 0)

/-- A message of another module takes effect: it acts on the names of this one (R61). -/
def State.takeMessage (s : State) (x : Config.PodMessage) : State :=
  match x with
  | .store y => ({ s with rstores := s.rstores ++ [podStore y s.nextId] } : State).fresh
  | .taken y => (s.takeBack y).1
  | .bounce y reason =>
    let x := s.takeBack y
    ({ x.1 with bounces := x.1.bounces ++ [{ id := s.nextId, store := { podStore y s.nextId with seq := x.2 }, reason := reason }] } : State).fresh
  | .join by_ token name => ({ s with joins := s.joins ++ [{ group := by_, token := token, name := name }] } : State).answerJoins
  | .status token v => s.takeStatus token v
  | .cancel by_ part name => s.cancelName by_ part name

/-- The messages that the units of a port's latest flit complete take effect in order. -/
def State.takeUnits (s : State) (port : Nat) : State :=
  if pods ≤ port then s
  else
    let vc := (s.portn port).vc.toNat
    let r := Config.podMessages (Tab.get [] vc (s.portn port).rest)
    r.1.foldl State.takeMessage (s.onPort port fun q => { q with rest := Tab.set [] vc r.2 q.rest })

/-- `FLIT_RECEIVE` (R399-R401): only the flit that follows the last accepted one, with a good CRC, is accepted; any other is answered
with NAK. -/
def execFlitReceive (port flit : Nat) (s : State) : Out :=
  let p := s.portn port
  if !portNamed port ∨ !p.up ∨ s.firm.shutdown then notNow
  else if flitSeq flit = p.rxLast + 1#12 ∧ flitOk flit then
    let s := s.onPort port fun q => q.accept flit
    let s := if flitNakBit flit then s.takeNak port (flitAck flit) else s.takeAck port (flitAck flit)
    .next (s.takeUnits port)
  else .next (s.onPort port fun q => { q with nak := true })

/-- `FLIT_NAK` (R400). -/
def execFlitNak (port : Nat) (ack : BitVec 12) (s : State) : Out :=
  whenOk (portNamed port && (s.portn port).up && !s.firm.shutdown) (.next (s.takeNak port ack))

/-- `RESEND_TIMEOUT` (R400): ACK has not advanced for 4,800 cycles. -/
def execResendTimeout (port : Nat) (s : State) : Out :=
  whenOk (portNamed port && (s.portn port).up && (decide (pods ≤ port) || !(s.portn port).unacked.isEmpty) && decide ((s.portn port).ackAt + 4800 ≤ s.cycle)) (.next (s.resend port))

/-- `PORT_RETRAIN` (R400): after eight resends without progress. -/
def execPortRetrain (port : Nat) (s : State) : Out :=
  whenOk (portNamed port && (s.portn port).up && decide (8 ≤ (s.portn port).resends)) (.next (s.onPort port fun q => { q with up := false }))

/-- `PORT_TRAINING_COMPLETE` (R400); a module whose boot stopped trains no port (R32). -/
def execPortTrainingComplete (port : Nat) (s : State) : Out :=
  whenOk (portNamed port && !(s.portn port).up && s.firm.recordValid && s.firm.imageValid)
    (.next ((s.onPort port fun q => { q with up := true, resends := 0, ackAt := s.cycle }).flushPort port))

/-! ## Housekeeping (R408, R409) -/

/-- `HBM_REFRESH` (R408): in period 15 of every frame; it changes nothing that a program sees. -/
def execHbmRefresh (s : State) : Out := whenOk s.period15 (.next s)

/-- Errors that a die has corrected (R410). -/
def State.corrected (s : State) (die n : Nat) : State :=
  s.onDie die fun d => { d with live := { d.live with ce := d.live.ce + BitVec.ofNat 64 n } }

/-- `RETENTION_SWEEP` (R408): it corrects as the scrub does, and changes no value that a program sees. Which die sweeps and how many
errors it corrects are a free value (assumption 6). -/
def execRetentionSweep (s : State) : Out :=
  whenOk (s.housekeeping 2)
    (let w := s.freeVal.1.toNat
     .next (s.freeVal.2.corrected (w % Config.dies) (w / Config.dies)))

/-- Scrub periods in which a slice covers its 6 GiB (R409). -/
def scrubPeriods : Nat := 393216

/-- Full passes of a die's HBM: every slice has covered its part. -/
def Die.passes (d : Die) : Nat := (((List.range 16).map fun k => Tab.get 0 k d.scrubbed / scrubPeriods).min?).getD 0

/-- An uncorrectable error in a line of a die is counted (R410). -/
def State.lineLost (s : State) (die : Nat) : State := s.onDie die fun d => { d with live := { d.live with ue := d.live.ue + 1#64 } }

/-- A line of memory becomes poisoned by an error in a unit, and is counted once (R410). -/
def State.poisonLine (s : State) (die unit l : Nat) : State :=
  if (Tab.find l s.poison).isSome then s else { s.lineLost die with poison := Tab.put l unit s.poison }

/-- Whether a line of HBM is one that a slice homes. -/
def lineOf (die slice l : Nat) : Bool := dieOf (l * Config.line) == die && sliceOf (l * Config.line % Config.dieBytes) == slice

/-- Whether a line of a slice lies in the 16 KiB of its `n`-th scrub period. DESIGN CHOICE: a slice covers its lines in ascending order
(assumption 83). -/
def inPeriod (n l : Nat) : Bool := l * Config.line % (48 * 2 ^ 30) / 1024 / 128 == n % scrubPeriods

/-- The registers and the scratchpad of a group that the 128 bytes at pool address `a` hold are poisoned. DESIGN CHOICE: the run registers
of a core stand in its run area in the order of its groups, their threads and their numbers, `first` before this group's
(assumption 84). -/
def Group.poisonPool (g : Group) (pool : PoolCfg) (first detail a : Nat) : Group :=
  let off := a - poolAddr g 0
  let g := if poolAddr g 0 ≤ a ∧ off < 1024 * g.task.scratch then { g with bad := Tab.put (off / 128) detail g.bad } else g
  let hitS (t r : Nat) : Bool := decide (a ≤ 8 * (g.sbase.getD t 0 + r) ∧ 8 * (g.sbase.getD t 0 + r) < a + 128) && decide (a < pool.run) && r != 0
  let hitV (t r : Nat) : Bool := decide (pool.run ≤ a ∧ a < pool.scr ∧ (a - pool.run) / 1024 = first + g.task.vregs * t + r)
  { g with threads := ((List.range g.threads.length).zip g.threads).map fun x =>
      if x.2.place != .inSlot || x.2.exited then x.2
      else { x.2 with
        regs := ((List.range x.2.regs.length).zip x.2.regs).map fun y => if hitS x.1 y.1 && y.2.full then { y.2 with poison := some detail } else y.2
        vregs := ((List.range x.2.vregs.length).zip x.2.vregs).map fun y => if hitV x.1 y.1 && y.2.full then { y.2 with poison := some detail } else y.2 } }

/-- An uncorrectable error in the 128 bytes at pool address `a` of a core: what its groups hold there, or the line that its L1 holds. -/
def State.poisonPool (s : State) (core a : Nat) : State :=
  let die := dieOfCore core
  let pool := (s.core core).pool
  if pool.l1 ≤ a then
    (match (((s.cluster (clusterOf core)).l2.filter fun l => l.cores.contains core && !l.host)[(a - pool.l1) / 128]?) with
      | some l => s.poisonLine die 0 l.line
      | none => s)
  else
    let detail := detailOf die 0 a
    ((s.groupsOn core).foldl (fun (x : State × Nat) g =>
      (x.1.onGroup g.1 fun gr => gr.poisonPool pool x.2 detail a, x.2 + g.2.task.vregs * g.2.threads.length)) (s.lineLost die, 0)).1

/-- Whether a unit of a die that is scrubbed holds a place: 0 the pool of a core, its address after the core number; 1 a line in an L2;
2 a line at the slice; 3 a line of the slice's 16 KiB of HBM (R379, R409). -/
def State.scrubs (s : State) (die slice unit place : Nat) : Bool :=
  match unit with
  | 0 => dieOfCore (place / 2 ^ 20) == die && place % 128 == 0
  | 1 => (s.clus.any fun c => c.1 / Config.clustersPerDie == die && c.2.l2.any fun l => !l.host && l.line == place)
  | 2 => lineOf die slice place
  | 3 => lineOf die slice place && inPeriod (Tab.get 0 slice (s.die die).scrubbed) place
  | _ => false

/-- An uncorrectable error in a unit. -/
def State.poisonAt (s : State) (die : Nat) (x : Nat × Nat) : State :=
  if x.1 = 0 then s.poisonPool (x.2 / 2 ^ 20) (x.2 % 2 ^ 20) else s.poisonLine die x.1 x.2

/-- `SCRUB` (R409, R410): the scrub period of a slice in this frame; corrected errors are counted, an uncorrectable line is poisoned;
data stand. -/
def execScrub (die slice corrected : Nat) (bad : List (Nat × Nat)) (s : State) : Out :=
  let frame := s.cycle / 4096
  whenOk (s.housekeeping 0 && decide (die < Config.dies) && decide (slice < 16) && decide (Tab.get 0 slice (s.die die).scrubAt ≤ frame)
      && bad.all fun x => s.scrubs die slice x.1 x.2)
    (let s' := (s.corrected die corrected).onDie die fun d => { d with
        scrubbed := Tab.put slice (Tab.get 0 slice d.scrubbed + 1) d.scrubbed
        scrubAt := Tab.put slice (frame + 1) d.scrubAt }
     let s' := s'.onDie die fun d => { d with live := { d.live with scrub := BitVec.ofNat 64 d.passes } }
     .next (bad.foldl (fun s x => s.poisonAt die x) s'))

/-! ## Telemetry and cooling (R411, R412) -/

/-- The junction temperature of a die changes. -/
def State.setTj (s : State) (die : Nat) (tj : BitVec 16) (hot : Bool) : State :=
  s.onDie die fun d => { d with inhibit := hot, live := { d.live with tj := tj } }

/-- Whether a temperature is one that a die goes on with: at 110 °C the module is stopped first (R412). -/
def State.mayRead (s : State) (tj : BitVec 16) : Bool := s.firm.shutdown || decide (tj.toNat < 1760)

/-- `TELEMETRY` (R411): the die copies its counters, with TJ as its sensor reads it; the estimate is in watts. From 100 to below 95 °C it
grants no array pass (R412). -/
def execTelemetry (die : Nat × BitVec 16) (s : State) : Out :=
  let (die, tj) := die
  whenOk (s.housekeeping 3 && decide (die < Config.dies) && s.mayRead tj)
    (let hot := decide (1600 ≤ tj.toNat) || ((s.die die).inhibit && decide (1520 ≤ tj.toNat))
     .next ((s.setTj die tj hot).onDie die fun d => { d with copy := { d.live with est := s.estimate die / 2, cap := d.cap } }))

/-- `THERMAL_LIMIT` (R412): TJ, in 1/16 °C, has reached 100 °C: no new array pass is granted. -/
def execThermalLimit (die : Nat) (tj : BitVec 16) (s : State) : Out :=
  whenOk (decide (die < Config.dies) && decide (1600 ≤ tj.toNat) && s.mayRead tj) (.next (s.setTj die tj true))

/-- `THERMAL_RECOVER` (R412): TJ has fallen below 95 °C. -/
def execThermalRecover (die : Nat) (tj : BitVec 16) (s : State) : Out :=
  whenOk (decide (die < Config.dies) && decide (tj.toNat < 1520)) (.next (s.setTj die tj false))

/-- Every partition is stopped as PR.STOP = 1 does, until the next cold reset. -/
def State.shutDown (s : State) : State :=
  let s := (List.range 288).foldl (fun s n => s.stopPart n false) s
  { s with firm := { s.firm with shutdown := true } }

/-- `THERMAL_SHUTDOWN` (R412): TJ has reached 110 °C. -/
def execThermalShutdown (die : Nat) (tj : BitVec 16) (s : State) : Out :=
  whenOk (decide (die < Config.dies) && decide (1760 ≤ tj.toNat)) (.next (s.setTj die tj true).shutDown)

end Sys2Proof.Machine
end

