-- ==== Sys2Proof/Machine/Fp.lean ====
section
/-! DEFINITION. Scalar floating point (spec 09 R252-R256). -/

namespace Sys2Proof.Machine

/-- The f64 operand in a register. -/
def State.rdD (s : State) (r : SReg) : Nat := (s.rd r).toNat

/-- The f32 operand in bits [31:0] of a register (R252). -/
def State.rdS (s : State) (r : SReg) : Nat := (s.rd r).toNat % 2 ^ 32

/-- Writes a floating-point result; an f32 result leaves bits [63:32] zero (R252). -/
def State.wrF (s : State) (d : SReg) (r : FRes) : State := (s.wr d (BitVec.ofNat 64 r.bits)).orFlags r.flags

/-- `FADD_D` (R253). -/
def execFaddD (d a b : SReg) (s : State) : Out :=
  effect (.faddD d a b) s fun s => s.wrF d (fAdd .f64 s.mode s.nanTag (s.rdD a) (s.rdD b))

/-- `FSUB_D` (R253). -/
def execFsubD (d a b : SReg) (s : State) : Out :=
  effect (.fsubD d a b) s fun s => s.wrF d (fSub .f64 s.mode s.nanTag (s.rdD a) (s.rdD b))

/-- `FMUL_D` (R253). -/
def execFmulD (d a b : SReg) (s : State) : Out :=
  effect (.fmulD d a b) s fun s => s.wrF d (fMul .f64 s.mode s.nanTag (s.rdD a) (s.rdD b))

/-- `FDIV_D` (R253). -/
def execFdivD (d a b : SReg) (s : State) : Out :=
  effect (.fdivD d a b) s fun s => s.wrF d (fDiv .f64 s.mode s.nanTag (s.rdD a) (s.rdD b))

/-- `FMIN_D` (R253). -/
def execFminD (d a b : SReg) (s : State) : Out :=
  effect (.fminD d a b) s fun s => s.wrF d (fMin .f64 (s.rdD a) (s.rdD b))

/-- `FMAX_D` (R253). -/
def execFmaxD (d a b : SReg) (s : State) : Out :=
  effect (.fmaxD d a b) s fun s => s.wrF d (fMax .f64 (s.rdD a) (s.rdD b))

/-- `FSQRT_D` (R253). -/
def execFsqrtD (d a : SReg) (s : State) : Out :=
  effect (.fsqrtD d a) s fun s => s.wrF d (fSqrt .f64 s.mode s.nanTag (s.rdD a))

/-- `FSGN_D` (R253): no flag. -/
def execFsgnD (d a b : SReg) (s : State) : Out :=
  effect (.fsgnD d a b) s fun s => s.wr d (BitVec.ofNat 64 (fSgn .f64 (s.rdD a) (s.rdD b)))

/-- `FADD_S` (R253). -/
def execFaddS (d a b : SReg) (s : State) : Out :=
  effect (.faddS d a b) s fun s => s.wrF d (fAdd .f32 s.mode s.nanTag (s.rdS a) (s.rdS b))

/-- `FSUB_S` (R253). -/
def execFsubS (d a b : SReg) (s : State) : Out :=
  effect (.fsubS d a b) s fun s => s.wrF d (fSub .f32 s.mode s.nanTag (s.rdS a) (s.rdS b))

/-- `FMUL_S` (R253). -/
def execFmulS (d a b : SReg) (s : State) : Out :=
  effect (.fmulS d a b) s fun s => s.wrF d (fMul .f32 s.mode s.nanTag (s.rdS a) (s.rdS b))

/-- `FDIV_S` (R253). -/
def execFdivS (d a b : SReg) (s : State) : Out :=
  effect (.fdivS d a b) s fun s => s.wrF d (fDiv .f32 s.mode s.nanTag (s.rdS a) (s.rdS b))

/-- `FMIN_S` (R253). -/
def execFminS (d a b : SReg) (s : State) : Out :=
  effect (.fminS d a b) s fun s => s.wrF d (fMin .f32 (s.rdS a) (s.rdS b))

/-- `FMAX_S` (R253). -/
def execFmaxS (d a b : SReg) (s : State) : Out :=
  effect (.fmaxS d a b) s fun s => s.wrF d (fMax .f32 (s.rdS a) (s.rdS b))

/-- `FSQRT_S` (R253). -/
def execFsqrtS (d a : SReg) (s : State) : Out :=
  effect (.fsqrtS d a) s fun s => s.wrF d (fSqrt .f32 s.mode s.nanTag (s.rdS a))

/-- `FSGN_S` (R253): no flag. -/
def execFsgnS (d a b : SReg) (s : State) : Out :=
  effect (.fsgnS d a b) s fun s => s.wr d (BitVec.ofNat 64 (fSgn .f32 (s.rdS a) (s.rdS b)))

/-- The operand of a precision. -/
def State.rdF (s : State) (sgl : Bool) (r : SReg) : Nat := if sgl then s.rdS r else s.rdD r

/-- The format of a precision. -/
def fmtSgl (sgl : Bool) : FFmt := if sgl then .f32 else .f64

/-- `FFMA` (R254). -/
def execFfma (sgl neg : Bool) (d a b : SReg) (s : State) : Out :=
  effect (.ffma sgl neg d a b) s fun s =>
    s.wrF d (fFma (fmtSgl sgl) s.mode s.nanTag neg (s.rdF sgl a) (s.rdF sgl b) (s.rdF sgl d))

/-- A conversion of `FCVT` (R255). -/
def fcvtResult (c : FConv) (mode : Mode) (a : Word) : FRes :=
  match c with
  | .f64i64 => toFloat .f64 mode (.fin (decide (a.toInt < 0)) a.toInt.natAbs 0)
  | .i64f64 => floatToInt mode 64 true (FFmt.f64.decode a.toNat)
  | .i64f64rtz => floatToInt .rtz 64 true (FFmt.f64.decode a.toNat)
  | .f64f32 => toFloat .f64 mode (FFmt.f32.decode (a.toNat % 2 ^ 32))
  | .f32f64 => toFloat .f32 mode (FFmt.f64.decode a.toNat)
  | .f32i64 => toFloat .f32 mode (.fin (decide (a.toInt < 0)) a.toInt.natAbs 0)
  | .i64f32 => floatToInt mode 64 true (FFmt.f32.decode (a.toNat % 2 ^ 32))
  | .i64f32rtz => floatToInt .rtz 64 true (FFmt.f32.decode (a.toNat % 2 ^ 32))

/-- `FCVT` (R255). -/
def execFcvt (c : FConv) (d a : SReg) (s : State) : Out :=
  effect (.fcvt c d a) s fun s => s.wrF d (fcvtResult c s.mode (s.rd a))

/-- `FCMP` (R256). -/
def execFcmp (pd : PReg) (c : FCond) (sgl : Bool) (a b : SReg) (s : State) : Out :=
  effect (.fcmp pd c sgl a b) s fun s =>
    let x := (fmtSgl sgl).decode (s.rdF sgl a)
    let y := (fmtSgl sgl).decode (s.rdF sgl b)
    (s.wrP pd (fcondHolds c x y)).orFlags (fcondFlags c x y)

end Sys2Proof.Machine
end

