-- ==== Sys2Proof/Machine/HostPort.lean ====
section
/-! DEFINITION. The host port: the register block, the module-memory window, host memory, training, and copies that another module
makes (spec 05 R129; 18 R348; 19 R365, R367, R381; 20 R383-R391, R395, R403; 21 R404, R411). -/

namespace Sys2Proof.Machine

/-! ## Registers of a die (R367, R411) -/

/-- A write of FQ.BASE. -/
def State.putFqBase (s : State) (d : Nat) (v : Word) : State :=
  if !homeOk v.toNat 4096 then s else s.onDie d fun x => { x with fqBase := homeBits v }

/-- A write of FQ.CTL. -/
def State.putFqCtl (s : State) (d : Nat) (v : Word) : State :=
  let k := bitsOf 4 0 v.toNat
  if k < 6 ∨ 16 < k then s else s.onDie d fun x => { x with fqEn := v.getLsbD 31, fqSize := k }

/-- A write of LK.BASE. -/
def State.putLkBase (s : State) (d : Nat) (v : Word) : State :=
  if !homeOk v.toNat (2 ^ 20) then s else s.onDie d fun x => { x with lkBase := homeBits v }

/-- A write of LK.SIZE. -/
def State.putLkSize (s : State) (d : Nat) (v : Word) : State :=
  let n := bitsOf 39 0 v.toNat
  if n % 2 ^ 20 ≠ 0 then s else s.onDie d fun x => { x with lkSize := n }

/-- A write of TM.POWER: CAP alone can be written, from 300 to 645 W. -/
def State.putTmPower (s : State) (d : Nat) (v : Word) : State :=
  let c := bitsOf 31 16 v.toNat
  if c < 300 ∨ 645 < c then s else s.onDie d fun x => { x with cap := c }

/-- A write of the register at offset `o` of a die's fault registers. -/
def State.putFault (s : State) (d o : Nat) (v : Word) : State :=
  match o with
  | 0 => s.putFqBase d v
  | 8 => s.putFqCtl d v
  | 16 => s.putLkBase d v
  | 24 => s.putLkSize d v
  | _ => s

/-! ## The register block (R348, R365, R381, R383, R403, R404) -/

/-- A write of PR.STOP. -/
def State.putPrStop (s : State) (n : Nat) (v : Word) : State := if v.getLsbD 0 then s.stopPart n (v.getLsbD 1) else s.resumePart n

/-- A write of the register at offset `o` of partition `n`'s block. -/
def State.putPart (s : State) (n o : Nat) (v : Word) : State :=
  match o with
  | 0 => s.putPrRoot n v
  | 8 => s.putPrMvec n v
  | 16 => s.putPrShoot n v
  | 24 => s.putPrBbase n v
  | 32 => s.putPrBctl n v
  | 40 => s.putPrBtail n v
  | 48 => s.putPrStop n v
  | 56 => s.putPrDbg n v
  | _ => s

/-- A write of the register at offset `o` of launch queue `q`. -/
def State.putQueue (s : State) (q o : Nat) (v : Word) : State :=
  match o with
  | 0 => s.putLqBase q v
  | 8 => s.putLqCtl q v
  | 24 => s.putLqTail q (v.setWidth 32)
  | 32 => s.putLqStat q (v.setWidth 4)
  | _ => s

/-- A write of the register at offset `o` of partition `n`'s task queue. -/
def State.putTaskQueue (s : State) (n o : Nat) (v : Word) : State :=
  match o with
  | 0 => s.putTqBase n v
  | 8 => s.putTqCtl n v
  | _ => s

/-- A write of POD.BASE. -/
def State.putPodBase (s : State) (v : Word) : State :=
  if v.toNat % 32768 ≠ 0 then s else { s with port := { s.port with podBase := v } }

/-- A write of POD.CTL. -/
def State.putPodCtl (s : State) (v : Word) : State := { s with port := { s.port with podEn := v.getLsbD 0 } }

/-- A write at offset `off` of the compute function's BAR0; reserved offsets discard it. -/
def State.putBar0 (s : State) (off : Nat) (v : Word) : State :=
  if off < 0x1000 then s.putQueue (off / 64) (off % 64) v
  else if off < 0x1000 + 32 * 288 then s.putTaskQueue ((off - 0x1000) / 32) ((off - 0x1000) % 32) v
  else if off < 0x4000 then s
  else if off < 0x4000 + 64 * 288 then s.putPart ((off - 0x4000) / 64) ((off - 0x4000) % 64) v
  else if off < 0x9000 then s
  else if off < 0x9000 + 64 * 24 then s.putFault ((off - 0x9000) / 64) ((off - 0x9000) % 64) v
  else if off = 0xA000 then s.putPodBase v
  else if off = 0xA008 then s.putPodCtl v
  else if off < 0xB000 then s
  else if off < 0xB000 + 8 * 288 then (if off % 8 = 0 then s.putPtMap ((off - 0xB000) / 8) (v.setWidth 9) else s)
  else if off < 0xC000 then s
  else if off < 0xC000 + 128 * 24 then (if (off - 0xC000) % 128 = 0 then s.putTmPower ((off - 0xC000) / 128) v else s)
  else if off < 0xD000 then s
  else if off < 0xD000 + 8 * 288 then (if off % 8 = 0 then s.putPrResume ((off - 0xD000) / 8) v else s)
  else s

/-- A write of MB.BASE (R395). -/
def State.putMbBase (s : State) (v : Word) : State :=
  if v.toNat % 4096 ≠ 0 then s else { s with firm := { s.firm with mbBase := v } }

/-- The offset at which `REGISTER_WRITE` names MB.BASE of the management function (assumption 12). -/
def mbOffset : Nat := 0x10000
/-- The offset at which `REGISTER_WRITE` names the port's Device Control 2 (assumption 12). -/
def devCtl2Offset : Nat := 0x20000

/-- A write of Device Control 2 (R390, R391): AtomicOp Requester Enable is bit 6, Completion Timeout Value bits 3 to 0. -/
def State.putDevCtl2 (s : State) (v : Word) : State :=
  { s with port := { s.port with atomicReq := v.getLsbD 6, timeout := v.setWidth 4 } }

/-- `REGISTER_WRITE` (R220, R348, R365, R367, R381, R395, R403, R404, R411). -/
def execRegisterWrite (off : Nat) (v : Word) (s : State) : Out :=
  if off = mbOffset then .next (s.putMbBase v)
  else if off = devCtl2Offset then .next (s.putDevCtl2 v)
  else hostWrite s true (s.putBar0 off v)

/-! ## The module-memory window (R384, R385) -/

/-- The lines of HBM that a range meets. -/
def linesOf (a n : Nat) : List Nat := (List.range (n / Config.line + 2)).filterMap fun i =>
  let l := a / Config.line + i
  if l * Config.line < a + n ∧ a < (l + 1) * Config.line then some l else none

/-- Whether a transaction is open on one of the lines. -/
def State.linesBusy (s : State) (ls : List Nat) : Bool := ls.any fun l => (Tab.get {} l s.dir).busy.isSome || !(Tab.get {} l s.dir).queue.isEmpty

/-- The number of the host port among the directory's agents (R113). -/
def hostAgent : Nat := 288

/-- A line after a host read: modified copies are recalled; the host itself may hold the line under CXL. -/
def DirLine.hostRead (d : DirLine) (cxl : Bool) : DirLine :=
  { d with owner := none, sharers := if cxl ∧ !d.sharers.contains hostAgent then d.sharers ++ [hostAgent] else d.sharers }

/-- The directory with the lines of a host access changed by `f`. -/
def State.onLines (s : State) (ls : List Nat) (f : DirLine → DirLine) : State :=
  { s with dir := ls.foldl (fun t l => Tab.set {} l (f (Tab.get {} l t)) t) s.dir }

/-- Whether a range meets the storage of a region that holds something: its layout there is the device's own (R129). -/
def State.meetsWorld (s : State) (a n : Nat) : Bool :=
  s.regions.any fun r => r.1 % 2 == 0 && (
    let base := r.1 / 2
    let top := (r.2.keys.flatMap fun k => k.2.map fun e => 512 + k.1 + e.lay.block).foldl max 512
    decide (base < a + n) && decide (a < base + top))

/-- `HOST_WINDOW_READ` (R384, R385): under key 0; above the module's memory there is no data. -/
def execHostWindowRead (off n : Nat) (s : State) : Out :=
  let answer (s : State) (r : Option (List Byte)) : State := { s with port := { s.port with reply := r } }
  if !s.serving ∨ Config.hbmBytes < off + n then .next (answer s none)
  else if s.linesBusy (linesOf off n) ∨ s.shownAt false off n then notNow
  else
    let s := s.onLines (linesOf off n) fun d => d.hostRead s.port.cxl
    if s.meetsWorld off n then (let f := s.freeBytes n; .next (answer f.2 (some f.1)))
    else .next (answer s (some (s.readPhys false 0 off n)))

/-- Zeros written over the start of a region's storage, or of a key's block, empty it (R129). -/
def Region.zeroed (r : Region) (base a n : Nat) : Region :=
  let hit (x : Nat) : Bool := decide (a ≤ x) && decide (x < a + n)
  let r := if hit base then { r with committed := none, horizons := [] } else r
  { r with keys := r.keys.map fun k => (k.1, k.2.filter fun _ =>
      !hit (base + 512 + k.1)) }

/-- The regions after a host write. -/
def State.zeroWorld (s : State) (a : Nat) (bs : List Byte) : State :=
  if bs.all (· == 0#8) then
    { s with regions := s.regions.map fun r => (r.1, if r.1 % 2 = 0 then r.2.zeroed (r.1 / 2) a bs.length else r.2) }
  else s

/-- A line after a host write: no module cache holds it; under CXL the host may hold it, writable (R385). -/
def DirLine.hostWrite (d : DirLine) (cxl : Bool) : DirLine :=
  { d with owner := if cxl then some hostAgent else none, sharers := if cxl then [hostAgent] else [] }

/-- `HOST_WINDOW_WRITE` (R384, R385): every module copy is invalidated; bytes above the module's memory are dropped. -/
def execHostWindowWrite (off n data : Nat) (s : State) : Out :=
  let bs := (toBytesLE n data).take (Config.hbmBytes - off)
  if !s.serving then .next s
  else if s.linesBusy (linesOf off bs.length) ∨ s.shownAt false off bs.length then notNow
  else
    let s := s.landPieces s.outside [{ host := false, addr := off, key := 0, cc := 2, off := 0, len := bs.length, data := bs }]
    .next ((s.onLines (linesOf off bs.length) fun d => d.hostWrite s.port.cxl).zeroWorld off bs)

/-! ## Host memory (R387, R389) -/

/-- `HOST_INVALIDATION` (R387): a host agent's write completes; the bridge and the module's caches have given up the lines, and no device
load misses the write from now on. -/
def execHostInvalidation (a n data : Nat) (s : State) : Out :=
  if s.shownAt true a n then notNow
  else
    let gone (half : Nat) : Bool := decide (half * 64 < a + n) && decide (a < half * 64 + 64)
    let s := (s.recallLines true a n none none)
    let s := { s with
      port := { s.port with halves := limitHalves none (s.port.halves.filter fun h => !gone h.1) }
      past := s.past.flatMap fun (p : Past) => p.cut true a n }
    .next (s.writePhys true 0 a (toBytesLE n data))

/-! ## Training (R388) -/

/-- `LINK_TRAINING` (R388): as CXL, or as PCIe when that fails. -/
def execLinkTraining (cxl : Bool) (s : State) : Out :=
  whenOk (!s.port.trained) (.next { s with port := { s.port with trained := true, cxl := cxl } })

/-! ## Copies of another module (R403) -/

/-- The pod access entry of a module. -/
def State.podEntry (s : State) (m : Nat) : Nat := s.word0 (s.port.podBase.toNat + 8 * m)

/-- Whether the pod table lets module `m` make an access. -/
def State.podAllows (s : State) (m : Nat) (write : Bool) : Bool :=
  s.port.podEn && bitOf 63 (s.podEntry m) && bitOf (if write then 61 else 62) (s.podEntry m)

/-- A user write in the trunk of a partition, with fuel for the copies of shared granules; `none` when it is denied. -/
def State.podWrite : Nat → State → Nat → Nat → List Byte → Option State
  | 0, _, _, _, _ => none
  | fuel + 1, s, part, va, bs =>
    match s.plan true 0 part 0 va bs.length { store := true } false true with
    | .ok ps => some (s.landPieces s.outside (withData ps bs))
    | .cow l a =>
      let d := if l.host then s.partDie part else dieOf l.base
      State.podWrite fuel (s.copyNow part 0 (a / Config.granule) (d * Config.coresPerCluster * Config.clustersPerDie) l) part va bs
    | _ => none

/-- Whether an access waits: for stores that only their own cluster sees there, or for room in the locker that the copy of a granule
needs (R89, R165). -/
def State.podWaits (s : State) (part va n : Nat) (write : Bool) : Bool :=
  match s.plan true 0 part 0 va n { store := write, load := !write } false true with
  | .cow l _ => !s.lockerHas (if l.host then s.partDie part else dieOf l.base) Config.granule
  | .ok ps => ps.any fun p => s.shownAt p.host p.addr p.len
  | _ => false

/-- The answer of a read: none when it is denied. -/
def State.podRead (s : State) (part va n : Nat) : Option (List Byte) :=
  match s.plan true 0 part 0 va n { load := true } false true with
  | .ok ps => some (ps.flatMap fun p => s.readPhys p.host p.key p.addr p.len)
  | _ => none

/-- `REMOTE_COPY_ACCESS` (R167, R403): up to 32 bytes of one aligned block at once, served through the pod table, or refused. -/
def execRemoteCopyAccess (m va : Nat) (write : Bool) (data : Nat × Nat) (s : State) : Out :=
  let n := data.1
  let answer (s : State) (r : Option (List Byte)) : State := { s with port := { s.port with podReply := r } }
  let part := bitsOf 8 0 (s.podEntry m)
  if 4096 ≤ m ∨ !s.serving ∨ n = 0 ∨ 32 < va % 32 + n then notNow
  else if !s.podAllows m write then .next (answer s none)
  else if s.podWaits part va n write then notNow
  else if write then
    match State.podWrite 3 s part va (toBytesLE n data.2) with
    | some s => .next (answer s (some []))
    | none => .next (answer s none)
  else .next (answer s (s.podRead part va n))

end Sys2Proof.Machine
end

