-- ==== Sys2Proof/Machine/Management.lean ====
section
/-! DEFINITION. The management function, module encryption keys, boot and the cold reset (spec 01 R28-R34; 20 R393-R398). -/

namespace Sys2Proof.Machine

/-! ## The command slot (R395) -/

/-- Bytes of host memory. -/
def State.hostBytes (s : State) (a n : Nat) : List Byte := memBytes s.hostMem a n

/-- A word of the command slot. -/
def State.slotWord (s : State) (off : Nat) : Nat := ofBytesLE (s.hostBytes (s.firm.mbBase.toNat + off) 8)

/-- VALID = 1 and DONE = 0. -/
def State.commandThere (s : State) : Bool := s.firm.mbBase != 0#64 && bitOf 63 (s.slotWord 0) && !bitOf 62 (s.slotWord 0)

/-- OPCODE of the command in the slot. -/
def State.slotOpcode (s : State) : Nat := s.slotWord 0 % 65536

/-- Host memory with a byte string written by the device. -/
def State.putHost (s : State) (a : Nat) (bs : List Byte) : State := s.writePhys true 0 a bs

/-- The answer to a command: STATUS, then DONE. -/
def State.answerSlot (s : State) (status : Word) : State :=
  let w := s.slotWord 0
  let s := s.putHost (s.firm.mbBase.toNat + 8) (toBytesLE 8 status.toNat)
  let s := s.putHost s.firm.mbBase.toNat (toBytesLE 8 (setBits 62 62 1 w))
  { s with firm := { s.firm with taken := none } }

/-- Whether a command is accepted in the state that boot left (R32, R396, R397): a refused image leaves UPDATE alone, a refused
record UPDATE and RECORD. -/
def Firmware.accepts (f : Firmware) (op : Nat) : Bool :=
  if !f.imageValid then op == 1 else if !f.recordValid then op == 1 || op == 2 else true

/-- `MANAGEMENT_POLL` (R395, R396): a command is taken, or refused in this state; the status of an opcode that the table does not
list is not stated. -/
def execManagementPoll (s : State) : Out :=
  let op := s.slotOpcode
  if s.firm.taken.isSome ∨ !s.commandThere then .next s
  else if !s.firm.accepts op then .next (s.answerSlot 3#64)
  else if op = 0 ∨ 6 < op then (let f := s.freeVal; .next (f.2.answerSlot f.1))
  else .next { s with firm := { s.firm with taken := some op } }

/-- Runs `k` on the taken command of opcode `op`. -/
def withCommand (s : State) (op : Nat) (k : Out) : Out := if s.firm.taken = some op then k else notNow

/-- The buffer that a command names. -/
def State.slotBuffer (s : State) : List Byte := s.hostBytes (s.slotWord 16) (s.slotWord 24)

/-! ## Images and records (R396, R397) -/

/-- Whether boot ROM takes an image. -/
def Firmware.takes (f : Firmware) (image : List Byte) : Bool := Config.verifies image && decide (f.minVersion ≤ Config.imageVersion image)

/-- `UPDATE` (R396): verified as boot ROM would, then written to flash. -/
def execUpdateFw (s : State) : Out :=
  withCommand s 1 (
    let image := s.slotBuffer
    if !Config.verifies image then .next (s.answerSlot 1#64)
    else if !s.firm.takes image then .next (s.answerSlot 4#64)
    else .next (({ s with firm := { s.firm with newImage := some image } } : State).answerSlot 0#64))

/-- `RECORD` (R396): the serial mark stays the current one (R34). -/
def execRecordFw (s : State) : Out :=
  withCommand s 2 (
    let bytes := s.slotBuffer
    if !Config.verifies bytes then .next (s.answerSlot 1#64)
    else .next (({ s with firm := { s.firm with newRecord := some bytes } } : State).answerSlot 0#64))

/-! ## Identity (R396, R398) -/

/-- The SHAKE256 digest of 64 bytes. -/
def digest (bs : List Byte) : List Byte := shake256 bs 64

/-- The identity public key. -/
def identityBytes : List Byte := (List.range 1793).map Config.identityKey

/-- Bytes +0 to +255 of a report. -/
def State.reportHead (s : State) (nonce : List Byte) (sigLen : Nat) : List Byte :=
  toBytesLE 8 1 ++ nonce ++ digest s.firm.image ++ digest s.firm.recordBytes
    ++ toBytesLE 8 (s.modid * 2 ^ 52 + s.firm.step.toNat * 2 ^ 32) ++ digest identityBytes ++ toBytesLE 16 sigLen

/-- An attestation report: the signature, of at most 1,280 bytes, is over the digest of the head, padded with zeros. -/
def State.report (s : State) (nonce : List Byte) : List Byte :=
  let n := min 1280 (Config.signLength s.firm.image nonce).toNat
  let head := s.reportHead nonce n
  head ++ (List.range 1280).map fun i => if i < n then Config.sign (digest head) i else 0#8

/-- Writes a result at ARG0; a buffer that is too short is a bad argument. -/
def State.putResult (s : State) (bs : List Byte) : State :=
  if s.slotWord 24 < bs.length then s.answerSlot 2#64 else (s.putHost (s.slotWord 16) bs).answerSlot 0#64

/-- `ATTEST` (R398). -/
def execAttest (s : State) : Out :=
  withCommand s 3 (.next (s.putResult (s.report (s.hostBytes (s.firm.mbBase.toNat + 64) 32))))

/-- `IDKEY` (R396). -/
def execIdkey (s : State) : Out := withCommand s 4 (.next (s.putResult identityBytes))

/-! ## Keys (R393, R394) -/

/-- Whether a cache of the module holds a line of key slot `k` that has not been written back. -/
def State.dirtyKey (s : State) (k : Nat) : Bool := s.acc.any fun a => a.pieces.any fun p => p.key == k && !p.pool && !p.host && p.stage == .visible

/-- Whether an access through key slot `k` has been performed in part: it uses one key (R394). -/
def State.midKey (s : State) (k : Nat) : Bool := s.acc.any fun a =>
  let ps := a.pieces.filter fun p => p.key == k && !p.pool && !p.host
  ps.any (·.stage == .performed) && ps.any (·.stage != .performed)

/-- The caches without their copies that are tagged with key slot `k`: they are invalidated. -/
def State.dropKeyLines (s : State) (k : Nat) : State :=
  let mine (l : L2Line) : Bool := !l.host && l.key == k
  let lines := s.clus.flatMap fun c => (c.2.l2.filter mine).map (·.line)
  { s with
    clus := s.clus.map fun c => (c.1, { c.2 with l2 := c.2.l2.filter fun l => !mine l })
    dir := s.dir.map fun d => (d.1, if lines.contains d.1 then { d.2 with sharers := [], owner := none } else d.2) }

/-- A key is loaded into a slot: the lines of the old key are written back and invalidated first. -/
def loadKey (s : State) (key : BitVec 512) : Out :=
  let k := s.slotWord 64 % 256
  if k = 0 then .next (s.answerSlot 2#64)
  else if s.dirtyKey k || s.midKey k then notNow
  else
    let s := s.dropKeyLines k
    .next (({ s with firm := { s.firm with keys := Tab.set 0#512 k key s.firm.keys } } : State).answerSlot 0#64)

/-- `SETKEY` (R394): both 256-bit XTS keys. -/
def execSetkey (s : State) : Out :=
  withCommand s 5 (loadKey s (BitVec.ofNat 512 (ofBytesLE (s.hostBytes (s.firm.mbBase.toNat + 72) 64))))

/-- `CLRKEY` (R396): as `SETKEY` with an all-zero key. -/
def execClrkey (s : State) : Out := withCommand s 6 (loadKey s 0#512)

/-! ## Cold reset (R33, R34, R397) -/

/-- What boot makes of flash: the image and the record that the last commands wrote, the serials, no keys. -/
def Firmware.boot (f : Firmware) : Firmware :=
  let image := f.newImage.getD f.image
  let bytes := f.newRecord.getD f.recordBytes
  { record := match f.newRecord with | some b => Config.recordOf b | none => f.record
    recordValid := match f.newRecord with | some b => Config.verifies b | none => f.recordValid
    recordBytes := bytes
    imageValid := match f.newImage with | some b => f.takes b | none => f.imageValid
    image := image
    minVersion := f.minVersion
    step := f.step
    nextSerial := if f.mark = 0 then 1 else f.mark
    mark := if f.mark = 0 then 2 ^ 24 else serialPlus f.mark (2 ^ 24) }

/-- The Skelpimir ports after boot: trained, or down where boot stopped before (R32, R397). -/
def bootPorts (ok : Bool) : Tab Port := if ok then [] else (List.range 32).map fun p => (p, { up := false })

/-- `COLD_RESET` (R33): host memory and flash stay. -/
def execColdReset (s : State) : Out :=
  let f := s.firm.boot
  .next { State.reset with
    hostMem := s.hostMem
    agenda := s.agenda
    nextId := s.nextId
    freeCount := s.freeCount
    firm := f
    ports := bootPorts (f.imageValid && f.recordValid) }

end Sys2Proof.Machine
end

