-- ==== Sys2Proof/Machine/Dispatch.lean ====
section
/-! DEFINITION. The meaning of every instruction: one arm for each row of the opcode table. -/

namespace Sys2Proof.Machine

open Sys2Proof

/-- The outcome of an instruction or of a step of the device. -/
def exec (i : Instr) (s : State) : Host.Outcome State Fault Refusal :=
  match i with
  | .add d a b => Sys2Proof.Machine.execAdd d a b s
  | .sub d a b => Sys2Proof.Machine.execSub d a b s
  | .and d a b => Sys2Proof.Machine.execAnd d a b s
  | .or d a b => Sys2Proof.Machine.execOr d a b s
  | .xor d a b => Sys2Proof.Machine.execXor d a b s
  | .andn d a b => Sys2Proof.Machine.execAndn d a b s
  | .shl d a b => Sys2Proof.Machine.execShl d a b s
  | .shr d a b => Sys2Proof.Machine.execShr d a b s
  | .sra d a b => Sys2Proof.Machine.execSra d a b s
  | .rot d a b => Sys2Proof.Machine.execRot d a b s
  | .min d a b => Sys2Proof.Machine.execMin d a b s
  | .max d a b => Sys2Proof.Machine.execMax d a b s
  | .minu d a b => Sys2Proof.Machine.execMinu d a b s
  | .maxu d a b => Sys2Proof.Machine.execMaxu d a b s
  | .mul d a b => Sys2Proof.Machine.execMul d a b s
  | .mulh d a b => Sys2Proof.Machine.execMulh d a b s
  | .mulhu d a b => Sys2Proof.Machine.execMulhu d a b s
  | .div d a b => Sys2Proof.Machine.execDiv d a b s
  | .divu d a b => Sys2Proof.Machine.execDivu d a b s
  | .rem d a b => Sys2Proof.Machine.execRem d a b s
  | .remu d a b => Sys2Proof.Machine.execRemu d a b s
  | .clz d a => Sys2Proof.Machine.execClz d a s
  | .ctz d a => Sys2Proof.Machine.execCtz d a s
  | .popc d a => Sys2Proof.Machine.execPopc d a s
  | .sxb d a => Sys2Proof.Machine.execSxb d a s
  | .sxh d a => Sys2Proof.Machine.execSxh d a s
  | .sxw d a => Sys2Proof.Machine.execSxw d a s
  | .zxb d a => Sys2Proof.Machine.execZxb d a s
  | .zxh d a => Sys2Proof.Machine.execZxh d a s
  | .zxw d a => Sys2Proof.Machine.execZxw d a s
  | .bext d a b => Sys2Proof.Machine.execBext d a b s
  | .bins d a b => Sys2Proof.Machine.execBins d a b s
  | .lea d a b f => Sys2Proof.Machine.execLea d a b f s
  | .cmp pd c a b => Sys2Proof.Machine.execCmp pd c a b s
  | .cmpi pd c a imm => Sys2Proof.Machine.execCmpi pd c a imm s
  | .sel d p a b => Sys2Proof.Machine.execSel d p a b s
  | .addi d a imm => Sys2Proof.Machine.execAddi d a imm s
  | .andi d a imm => Sys2Proof.Machine.execAndi d a imm s
  | .ori d a imm => Sys2Proof.Machine.execOri d a imm s
  | .xori d a imm => Sys2Proof.Machine.execXori d a imm s
  | .shfi k d a n => Sys2Proof.Machine.execShfi k d a n s
  | .movi d imm => Sys2Proof.Machine.execMovi d imm s
  | .lui d imm => Sys2Proof.Machine.execLui d imm s
  | .pand pd pa pb => Sys2Proof.Machine.execPand pd pa pb s
  | .por pd pa pb => Sys2Proof.Machine.execPor pd pa pb s
  | .pxor pd pa pb => Sys2Proof.Machine.execPxor pd pa pb s
  | .pandn pd pa pb => Sys2Proof.Machine.execPandn pd pa pb s
  | .pnot pd pa => Sys2Proof.Machine.execPnot pd pa s
  | .pset pd => Sys2Proof.Machine.execPset pd s
  | .pclr pd => Sys2Proof.Machine.execPclr pd s
  | .ldb d a off => Sys2Proof.Machine.execLdb d a off s
  | .ldh d a off => Sys2Proof.Machine.execLdh d a off s
  | .ldw d a off => Sys2Proof.Machine.execLdw d a off s
  | .ldd d a off => Sys2Proof.Machine.execLdd d a off s
  | .ldbu d a off => Sys2Proof.Machine.execLdbu d a off s
  | .ldhu d a off => Sys2Proof.Machine.execLdhu d a off s
  | .ldwu d a off => Sys2Proof.Machine.execLdwu d a off s
  | .ldq d a off => Sys2Proof.Machine.execLdq d a off s
  | .stb r a off => Sys2Proof.Machine.execStb r a off s
  | .sth r a off => Sys2Proof.Machine.execSth r a off s
  | .stw r a off => Sys2Proof.Machine.execStw r a off s
  | .std r a off => Sys2Proof.Machine.execStd r a off s
  | .stq r a off => Sys2Proof.Machine.execStq r a off s
  | .ldx wd d a b => Sys2Proof.Machine.execLdx wd d a b s
  | .stx wd r a b => Sys2Proof.Machine.execStx wd r a b s
  | .amoC op d a b => Sys2Proof.Machine.execAmoC op d a b s
  | .amoG op d a b => Sys2Proof.Machine.execAmoG op d a b s
  | .cas g q d a b => Sys2Proof.Machine.execCas g q d a b s
  | .faadd dbl ord d a b => Sys2Proof.Machine.execFaadd dbl ord d a b s
  | .fence scope kind e => Sys2Proof.Machine.execFence scope kind e s
  | .br p n disp => Sys2Proof.Machine.execBr p n disp s
  | .call disp => Sys2Proof.Machine.execCall disp s
  | .jmpr d a => Sys2Proof.Machine.execJmpr d a s
  | .faddD d a b => Sys2Proof.Machine.execFaddD d a b s
  | .fsubD d a b => Sys2Proof.Machine.execFsubD d a b s
  | .fmulD d a b => Sys2Proof.Machine.execFmulD d a b s
  | .fdivD d a b => Sys2Proof.Machine.execFdivD d a b s
  | .fminD d a b => Sys2Proof.Machine.execFminD d a b s
  | .fmaxD d a b => Sys2Proof.Machine.execFmaxD d a b s
  | .fsqrtD d a => Sys2Proof.Machine.execFsqrtD d a s
  | .fsgnD d a b => Sys2Proof.Machine.execFsgnD d a b s
  | .faddS d a b => Sys2Proof.Machine.execFaddS d a b s
  | .fsubS d a b => Sys2Proof.Machine.execFsubS d a b s
  | .fmulS d a b => Sys2Proof.Machine.execFmulS d a b s
  | .fdivS d a b => Sys2Proof.Machine.execFdivS d a b s
  | .fminS d a b => Sys2Proof.Machine.execFminS d a b s
  | .fmaxS d a b => Sys2Proof.Machine.execFmaxS d a b s
  | .fsqrtS d a => Sys2Proof.Machine.execFsqrtS d a s
  | .fsgnS d a b => Sys2Proof.Machine.execFsgnS d a b s
  | .ffma sgl neg d a b => Sys2Proof.Machine.execFfma sgl neg d a b s
  | .fcvt c d a => Sys2Proof.Machine.execFcvt c d a s
  | .fcmp pd c sgl a b => Sys2Proof.Machine.execFcmp pd c sgl a b s
  | .spawn d a => Sys2Proof.Machine.execSpawn d a s
  | .spawnQ d a => Sys2Proof.Machine.execSpawnQ d a s
  | .rss d a b => Sys2Proof.Machine.execRss d a b s
  | .rssT d a b => Sys2Proof.Machine.execRssT d a b s
  | .rsv vs a b => Sys2Proof.Machine.execRsv vs a b s
  | .rsvT vs a b => Sys2Proof.Machine.execRsvT vs a b s
  | .self d => Sys2Proof.Machine.execSelf d s
  | .parent d => Sys2Proof.Machine.execParent d s
  | .lane d => Sys2Proof.Machine.execLane d s
  | .exit a => Sys2Proof.Machine.execExit a s
  | .join d a => Sys2Proof.Machine.execJoin d a s
  | .cancel a => Sys2Proof.Machine.execCancel a s
  | .barg => Sys2Proof.Machine.execBarg s
  | .yield => Sys2Proof.Machine.execYield s
  | .take d a => Sys2Proof.Machine.execTake d a s
  | .hold a => Sys2Proof.Machine.execHold a s
  | .test pd a => Sys2Proof.Machine.execTest pd a s
  | .vtake vd va => Sys2Proof.Machine.execVtake vd va s
  | .vhold va => Sys2Proof.Machine.execVhold va s
  | .wld vd w key inst pd => Sys2Proof.Machine.execWld vd w key inst pd s
  | .wldN vd w key inst pd => Sys2Proof.Machine.execWldN vd w key inst pd s
  | .wst vs w key inst => Sys2Proof.Machine.execWst vs w key inst s
  | .wbind w a => Sys2Proof.Machine.execWbind w a s
  | .wcommit w a => Sys2Proof.Machine.execWcommit w a s
  | .whor w a => Sys2Proof.Machine.execWhor w a s
  | .wstat d w a => Sys2Proof.Machine.execWstat d w a s
  | .wclock d w => Sys2Proof.Machine.execWclock d w s
  | .fork d a b => Sys2Proof.Machine.execFork d a b s
  | .brset a => Sys2Proof.Machine.execBrset a s
  | .brdrop a => Sys2Proof.Machine.execBrdrop a s
  | .swait r sem => Sys2Proof.Machine.execSwait r sem s
  | .sadd r sem => Sys2Proof.Machine.execSadd r sem s
  | .sset r sem => Sys2Proof.Machine.execSset r sem s
  | .sread r sem => Sys2Proof.Machine.execSread r sem s
  | .enq q a => Sys2Proof.Machine.execEnq q a s
  | .csrr d csr => Sys2Proof.Machine.execCsrr d csr s
  | .csrw a csr => Sys2Proof.Machine.execCsrw a csr s
  | .nop => Sys2Proof.Machine.execNop s
  | .trap a => Sys2Proof.Machine.execTrap a s
  | .eret => Sys2Proof.Machine.execEret s
  | .halt => Sys2Proof.Machine.execHalt s
  | .time d => Sys2Proof.Machine.execTime d s
  | .brk => Sys2Proof.Machine.execBrk s
  | .vsetl a => Sys2Proof.Machine.execVsetl a s
  | .kidx a => Sys2Proof.Machine.execKidx a s
  | .vadd vd va vb vm t => Sys2Proof.Machine.execVadd vd va vb vm t s
  | .vsub vd va vb vm t => Sys2Proof.Machine.execVsub vd va vb vm t s
  | .vmul vd va vb vm t => Sys2Proof.Machine.execVmul vd va vb vm t s
  | .vdiv vd va vb vm t => Sys2Proof.Machine.execVdiv vd va vb vm t s
  | .vmin vd va vb vm t => Sys2Proof.Machine.execVmin vd va vb vm t s
  | .vmax vd va vb vm t => Sys2Proof.Machine.execVmax vd va vb vm t s
  | .vand vd va vb vm t => Sys2Proof.Machine.execVand vd va vb vm t s
  | .vor vd va vb vm t => Sys2Proof.Machine.execVor vd va vb vm t s
  | .vxor vd va vb vm t => Sys2Proof.Machine.execVxor vd va vb vm t s
  | .vandn vd va vb vm t => Sys2Proof.Machine.execVandn vd va vb vm t s
  | .vshl vd va vb vm t => Sys2Proof.Machine.execVshl vd va vb vm t s
  | .vshr vd va vb vm t => Sys2Proof.Machine.execVshr vd va vb vm t s
  | .vsra vd va vb vm t => Sys2Proof.Machine.execVsra vd va vb vm t s
  | .vabsd vd va vb vm t => Sys2Proof.Machine.execVabsd vd va vb vm t s
  | .vcpsgn vd va vb vm t => Sys2Proof.Machine.execVcpsgn vd va vb vm t s
  | .vaddS vd va r t rev => Sys2Proof.Machine.execVaddS vd va r t rev s
  | .vsubS vd va r t rev => Sys2Proof.Machine.execVsubS vd va r t rev s
  | .vmulS vd va r t rev => Sys2Proof.Machine.execVmulS vd va r t rev s
  | .vdivS vd va r t rev => Sys2Proof.Machine.execVdivS vd va r t rev s
  | .vminS vd va r t rev => Sys2Proof.Machine.execVminS vd va r t rev s
  | .vmaxS vd va r t rev => Sys2Proof.Machine.execVmaxS vd va r t rev s
  | .vandS vd va r t rev => Sys2Proof.Machine.execVandS vd va r t rev s
  | .vorS vd va r t rev => Sys2Proof.Machine.execVorS vd va r t rev s
  | .vxorS vd va r t rev => Sys2Proof.Machine.execVxorS vd va r t rev s
  | .vandnS vd va r t rev => Sys2Proof.Machine.execVandnS vd va r t rev s
  | .vshlS vd va r t rev => Sys2Proof.Machine.execVshlS vd va r t rev s
  | .vshrS vd va r t rev => Sys2Proof.Machine.execVshrS vd va r t rev s
  | .vsraS vd va r t rev => Sys2Proof.Machine.execVsraS vd va r t rev s
  | .vabsdS vd va r t rev => Sys2Proof.Machine.execVabsdS vd va r t rev s
  | .vcpsgnS vd va r t rev => Sys2Proof.Machine.execVcpsgnS vd va r t rev s
  | .vfma vd va vb vm t => Sys2Proof.Machine.execVfma vd va vb vm t s
  | .vfmaN vd va vb vm t => Sys2Proof.Machine.execVfmaN vd va vb vm t s
  | .vfmaE vd va vb vm t => Sys2Proof.Machine.execVfmaE vd va vb vm t s
  | .vneg vd va vm t => Sys2Proof.Machine.execVneg vd va vm t s
  | .vabs vd va vm t => Sys2Proof.Machine.execVabs vd va vm t s
  | .vnot vd va vm t => Sys2Proof.Machine.execVnot vd va vm t s
  | .vsqrt vd va vm t => Sys2Proof.Machine.execVsqrt vd va vm t s
  | .vrsq vd va vm t => Sys2Proof.Machine.execVrsq vd va vm t s
  | .vrcp vd va vm t => Sys2Proof.Machine.execVrcp vd va vm t s
  | .vexp2 vd va vm t => Sys2Proof.Machine.execVexp2 vd va vm t s
  | .vlog2 vd va vm t => Sys2Proof.Machine.execVlog2 vd va vm t s
  | .vfloor vd va vm t => Sys2Proof.Machine.execVfloor vd va vm t s
  | .vround vd va vm t => Sys2Proof.Machine.execVround vd va vm t s
  | .vclz vd va vm t => Sys2Proof.Machine.execVclz vd va vm t s
  | .vpopc vd va vm t => Sys2Proof.Machine.execVpopc vd va vm t s
  | .vcmp c vd va vb vm t => Sys2Proof.Machine.execVcmp c vd va vb vm t s
  | .vsel vd va vb vm t => Sys2Proof.Machine.execVsel vd va vb vm t s
  | .vcvt vd va src vm t r => Sys2Proof.Machine.execVcvt vd va src vm t r s
  | .vspl vd r t => Sys2Proof.Machine.execVspl vd r t s
  | .viota vd t => Sys2Proof.Machine.execViota vd t s
  | .vclr vd t => Sys2Proof.Machine.execVclr vd t s
  | .vmask vd r => Sys2Proof.Machine.execVmask vd r s
  | .vred op r va t => Sys2Proof.Machine.execVred op r va t s
  | .vcoal vd va t => Sys2Proof.Machine.execVcoal vd va t s
  | .vlen r va t => Sys2Proof.Machine.execVlen r va t s
  | .vnrun r va t => Sys2Proof.Machine.execVnrun r va t s
  | .vextr r va t => Sys2Proof.Machine.execVextr r va t s
  | .vexpand vd va t => Sys2Proof.Machine.execVexpand vd va t s
  | .vsldu vd va r t => Sys2Proof.Machine.execVsldu vd va r t s
  | .vsldd vd va r t => Sys2Proof.Machine.execVsldd vd va r t s
  | .vslice vd va r t => Sys2Proof.Machine.execVslice vd va r t s
  | .vcat vd va vb t => Sys2Proof.Machine.execVcat vd va vb t s
  | .vmov vd va t => Sys2Proof.Machine.execVmov vd va t s
  | .vrev vd va t => Sys2Proof.Machine.execVrev vd va t s
  | .vldDense vd b t => Sys2Proof.Machine.execVldDense vd b t s
  | .vldStr vd b r t => Sys2Proof.Machine.execVldStr vd b r t s
  | .vldRuns vd b t => Sys2Proof.Machine.execVldRuns vd b t s
  | .vldBank vd b e t => Sys2Proof.Machine.execVldBank vd b e t s
  | .vstDense vs b t => Sys2Proof.Machine.execVstDense vs b t s
  | .vstStr vs b r t => Sys2Proof.Machine.execVstStr vs b r t s
  | .vstRuns vs b t => Sys2Proof.Machine.execVstRuns vs b t s
  | .vstBank vs b e t => Sys2Proof.Machine.execVstBank vs b e t s
  | .vgth vd b vi t elem => Sys2Proof.Machine.execVgth vd b vi t elem s
  | .vsct vs b vi t elem => Sys2Proof.Machine.execVsct vs b vi t elem s
  | .unassignedEncoding w => Sys2Proof.Machine.execUnassignedEncoding w s
  | .postedTrapTaken g t => Sys2Proof.Machine.execPostedTrapTaken g t s
  | .loadDataReturn id p => Sys2Proof.Machine.execLoadDataReturn id p s
  | .storePerform id p all => Sys2Proof.Machine.execStorePerform id p all s
  | .atomicPerform id => Sys2Proof.Machine.execAtomicPerform id s
  | .faaddApply id => Sys2Proof.Machine.execFaaddApply id s
  | .faaddRetry id => Sys2Proof.Machine.execFaaddRetry id s
  | .pageWalkComplete id => Sys2Proof.Machine.execPageWalkComplete id s
  | .cowCopyComplete id => Sys2Proof.Machine.execCowCopyComplete id s
  | .remoteStoreArrival id => Sys2Proof.Machine.execRemoteStoreArrival id s
  | .bounceReturn id => Sys2Proof.Machine.execBounceReturn id s
  | .wldClassify id => Sys2Proof.Machine.execWldClassify id s
  | .wldComplete id => Sys2Proof.Machine.execWldComplete id s
  | .wldCycle id => Sys2Proof.Machine.execWldCycle id s
  | .wldTimeout id => Sys2Proof.Machine.execWldTimeout id s
  | .wstStage id => Sys2Proof.Machine.execWstStage id s
  | .wstRingWaitEnd id => Sys2Proof.Machine.execWstRingWaitEnd id s
  | .wcommitPerform id => Sys2Proof.Machine.execWcommitPerform id s
  | .whorPerform id => Sys2Proof.Machine.execWhorPerform id s
  | .groupExit g => Sys2Proof.Machine.execGroupExit g s
  | .cancelMarked id => Sys2Proof.Machine.execCancelMarked id s
  | .cancelHandlerLimit g t => Sys2Proof.Machine.execCancelHandlerLimit g t s
  | .cancelReclaimComplete g => Sys2Proof.Machine.execCancelReclaimComplete g s
  | .taskQueuePush part => Sys2Proof.Machine.execTaskQueuePush part s
  | .taskAging part g => Sys2Proof.Machine.execTaskAging part g s
  | .taskDispatch cluster => Sys2Proof.Machine.execTaskDispatch cluster s
  | .threadSwap core slot => Sys2Proof.Machine.execThreadSwap core slot s
  | .threadSwapRestore g t => Sys2Proof.Machine.execThreadSwapRestore g t s
  | .groupEvict g => Sys2Proof.Machine.execGroupEvict g s
  | .groupRestore cluster g => Sys2Proof.Machine.execGroupRestore cluster g s
  | .faultRecordPost die => Sys2Proof.Machine.execFaultRecordPost die s
  | .faultAnswer die slot => Sys2Proof.Machine.execFaultAnswer die slot s
  | .commandStart core q => Sys2Proof.Machine.execCommandStart core q s
  | .commandComplete core q => Sys2Proof.Machine.execCommandComplete core q s
  | .hallPassGrant die => Sys2Proof.Machine.execHallPassGrant die s
  | .hallPassTimeout core q => Sys2Proof.Machine.execHallPassTimeout core q s
  | .nopc core q => Sys2Proof.Machine.execNopc core q s
  | .mxLease core q => Sys2Proof.Machine.execMxLease core q s
  | .mxFree core q => Sys2Proof.Machine.execMxFree core q s
  | .mxZero core q => Sys2Proof.Machine.execMxZero core q s
  | .mxMul core q => Sys2Proof.Machine.execMxMul core q s
  | .mxAcc core q => Sys2Proof.Machine.execMxAcc core q s
  | .mxStore core q => Sys2Proof.Machine.execMxStore core q s
  | .mxRes core q => Sys2Proof.Machine.execMxRes core q s
  | .cpCopy core q => Sys2Proof.Machine.execCpCopy core q s
  | .cpConv core q => Sys2Proof.Machine.execCpConv core q s
  | .cpFill core q => Sys2Proof.Machine.execCpFill core q s
  | .cpPack core q => Sys2Proof.Machine.execCpPack core q s
  | .cpUnpack core q => Sys2Proof.Machine.execCpUnpack core q s
  | .cpGath core q => Sys2Proof.Machine.execCpGath core q s
  | .cpScat core q => Sys2Proof.Machine.execCpScat core q s
  | .cpSig core q => Sys2Proof.Machine.execCpSig core q s
  | .wsSample core => Sys2Proof.Machine.execWsSample core s
  | .wsSnap core => Sys2Proof.Machine.execWsSnap core s
  | .remoteCopyAccess m va write data => Sys2Proof.Machine.execRemoteCopyAccess m va write data s
  | .qerrClear core => Sys2Proof.Machine.execQerrClear core s
  | .vlenWrite v => Sys2Proof.Machine.execVlenWrite v s
  | .poolBoundaryWrite csr v => Sys2Proof.Machine.execPoolBoundaryWrite csr v s
  | .trapRegisterWrite csr v => Sys2Proof.Machine.execTrapRegisterWrite csr v s
  | .registerWrite off v => Sys2Proof.Machine.execRegisterWrite off v s
  | .lqTailWrite q v => Sys2Proof.Machine.execLqTailWrite q v s
  | .lqEnable q v => Sys2Proof.Machine.execLqEnable q v s
  | .lqDestroy q => Sys2Proof.Machine.execLqDestroy q s
  | .lqDestroyCancel q => Sys2Proof.Machine.execLqDestroyCancel q s
  | .lqStatClear q v => Sys2Proof.Machine.execLqStatClear q v s
  | .tqEnable part v => Sys2Proof.Machine.execTqEnable part v s
  | .launchSlotRead q => Sys2Proof.Machine.execLaunchSlotRead q s
  | .launchStart id => Sys2Proof.Machine.execLaunchStart id s
  | .launchComplete id => Sys2Proof.Machine.execLaunchComplete id s
  | .prShoot part v => Sys2Proof.Machine.execPrShoot part v s
  | .shootdownComplete part => Sys2Proof.Machine.execShootdownComplete part s
  | .gangStop part => Sys2Proof.Machine.execGangStop part s
  | .gangStopDump part => Sys2Proof.Machine.execGangStopDump part s
  | .gangStopComplete part => Sys2Proof.Machine.execGangStopComplete part s
  | .gangResume part => Sys2Proof.Machine.execGangResume part s
  | .prResume part v => Sys2Proof.Machine.execPrResume part v s
  | .partitionMoveRequest cluster v => Sys2Proof.Machine.execPartitionMoveRequest cluster v s
  | .partitionMoveComplete cluster => Sys2Proof.Machine.execPartitionMoveComplete cluster s
  | .managementPoll => Sys2Proof.Machine.execManagementPoll s
  | .updateFw => Sys2Proof.Machine.execUpdateFw s
  | .recordFw => Sys2Proof.Machine.execRecordFw s
  | .attest => Sys2Proof.Machine.execAttest s
  | .idkey => Sys2Proof.Machine.execIdkey s
  | .setkey => Sys2Proof.Machine.execSetkey s
  | .clrkey => Sys2Proof.Machine.execClrkey s
  | .coldReset => Sys2Proof.Machine.execColdReset s
  | .serialMarkAdvance => Sys2Proof.Machine.execSerialMarkAdvance s
  | .hostWindowRead off n => Sys2Proof.Machine.execHostWindowRead off n s
  | .hostWindowWrite off n data => Sys2Proof.Machine.execHostWindowWrite off n data s
  | .hostSnoop half => Sys2Proof.Machine.execHostSnoop half s
  | .hostInvalidation a n data => Sys2Proof.Machine.execHostInvalidation a n data s
  | .atomicopCompletion id ok => Sys2Proof.Machine.execAtomicopCompletion id ok s
  | .atomicopTimeout id => Sys2Proof.Machine.execAtomicopTimeout id s
  | .linkTraining cxl => Sys2Proof.Machine.execLinkTraining cxl s
  | .flitReceive port flit => Sys2Proof.Machine.execFlitReceive port flit s
  | .flitNak port ack => Sys2Proof.Machine.execFlitNak port ack s
  | .resendTimeout port => Sys2Proof.Machine.execResendTimeout port s
  | .portRetrain port => Sys2Proof.Machine.execPortRetrain port s
  | .directoryForward line => Sys2Proof.Machine.execDirectoryForward line s
  | .hbmRefresh => Sys2Proof.Machine.execHbmRefresh s
  | .scrub die slice corrected bad => Sys2Proof.Machine.execScrub die slice corrected bad s
  | .directorySweep line agent => Sys2Proof.Machine.execDirectorySweep line agent s
  | .retentionSweep => Sys2Proof.Machine.execRetentionSweep s
  | .telemetry die => Sys2Proof.Machine.execTelemetry die s
  | .thermalLimit die tj => Sys2Proof.Machine.execThermalLimit die tj s
  | .thermalRecover die tj => Sys2Proof.Machine.execThermalRecover die tj s
  | .thermalShutdown die tj => Sys2Proof.Machine.execThermalShutdown die tj s
  | .portTrainingComplete port => Sys2Proof.Machine.execPortTrainingComplete port s

end Sys2Proof.Machine
end

