-- ==== Sys2Proof/Machine/Issue.lean ====
section
/-! DEFINITION. One core's turn: which thread has it, the fetch, and the bundle (spec 03 R70-R73, R92; 08 R205, R206, R214,
R224; 19 R364, R380). -/

namespace Sys2Proof.Machine

/-! ## Whose turn it is -/

/-- Whether the wait of a `JOIN` of name `n` has ended: for a name of another module, its answer has come, or it is still to be asked
(R61, R70, R299). -/
def State.joinOver (s : State) (g t n : Nat) : Bool :=
  !s.cancelsName g t n && (if n ≠ 0 ∧ moduleOf n ≠ s.modid then
    (match (s.thread g t).far with | some (m, _, v) => m != n || v.isSome | none => true)
  else (s.joinAnswer g n).isSome)

/-- Whether thread `t` of group `g` may be let past the barrier: the last to arrive, once what the bracketing fences order is complete;
where an exit has made the barrier whole, any of its threads (R87, R164). -/
def State.barrierOver (s : State) (g : Nat) (last : Bool) : Bool :=
  s.barrierReady g none && (last || !(s.group g).threads.any fun th => th.wait == some (.barrier true))

/-- Whether nothing of thread `t` of group `g` that a load of the pool waits for is under way (R289). -/
def State.poolQuiet (s : State) (g t : Nat) : Bool :=
  let seq := (s.thread g t).seq
  s.fencesAllow g t seq false && s.acc.all fun a => !(a.of g t && decide (a.seq < seq)) || a.pieces.all fun q => !q.pool || q.stage == .performed

/-- Whether the wait of thread `t` of group `g` has ended (R70). -/
def State.waitOver (s : State) (g t : Nat) : Wait → Bool
  | .scalar r => ((s.thread g t).reg r.toNat).full
  | .run r => ((s.thread g t).vreg r.toNat).full
  | .mapped u r isRun => if isRun then !((s.thread g u).vreg r).mark else !((s.thread g u).reg r).mark
  | .sem i thr => decide (thr ≤ s.sem g i)
  | .join n _ => s.joinOver g t n
  | .barrier last => s.barrierOver g last
  | .world => (s.thread g t).loads.isEmpty
  | .lockTable => decide (s.locksUsed (clusterOf (s.group g).core) < Config.locks)
  | .walk id => s.walks.all fun w => w.id != id
  | .cow id => s.cows.all fun c => c.id != id
  | .fault _ => false
  | .order => s.fencesAllow g t (s.thread g t).seq false
  | .pool => s.poolQuiet g t
  | .creation => true
  | .unavail m => !s.movable g m
  | .post _ => false

/-- Whether a thread is ready: it stands in a slot, is not halted, and no wait holds it; a pending posted trap is taken even in a
wait. -/
def State.ready (s : State) (g t : Nat) : Bool :=
  let th := s.thread g t
  !th.exited && th.place == .inSlot && !th.halted
    && (th.trapPending || (match th.wait with | none => true | some w => s.waitOver g t w))

/-- The thread in slot `k` of core `c`. -/
def State.slotThread (s : State) (c k : Nat) : Option (Nat × Nat) :=
  ((s.slotsOf c).find? fun x => x.1 == k).map (·.2)

/-- The first ready slot after `last`, in ascending order, wrapping (R72). -/
def State.firstReady (s : State) (c : Nat) (last : Option Nat) : Option (Nat × Nat) :=
  let start := match last with | none => 0 | some l => l + 1
  (List.range Config.slots).findSome? fun i =>
    match s.slotThread c ((start + i) % Config.slots) with
    | some (g, t) => if s.ready g t then some (g, t) else none
    | none => none

/-- The period of deterministic mode (R73). -/
def detPeriod (high : Nat) : Nat := max 8 (8 * ((high + 8) / 8))

/-- The thread that issues on core `c` in this cycle (R72, R73); none on an empty turn, or while its partition is stopped (R380). -/
def State.pick (s : State) (c : Nat) : Option (Nat × Nat) :=
  let co := s.core c
  if (s.partn (s.partOf c)).stop ∨ s.firm.shutdown then none
  else if co.pool.det then
    match s.slotThread c (s.cycle % detPeriod co.high) with
    | some (g, t) => if s.ready g t then some (g, t) else none
    | none => none
  else match s.firstReady c co.last with
    | some (g, t) => match Tab.find (s.thread g t).slot co.turns with
      | some l => if l + 8 ≤ s.cycle then some (g, t) else none
      | none => some (g, t)
    | none => none

/-- The lowest core from `c` on that a group occupies. -/
def State.nextCore (s : State) (c : Nat) : Option Nat :=
  ((s.groups.filter fun g => decide (c ≤ g.2.core) && (match Tab.find g.1 s.roll with
    | some e => e.state == .resident
    | none => false)).map fun g => g.2.core).min?

/-! ## What earlier cycles left to take effect -/

/-- A thread without the old contents of writes that have taken effect, and without the acquire fences that have. -/
def State.tidy (s : State) (th : Thread) : Thread :=
  { th.settleBounce (s.cycle - 1) with
    oldRegs := th.oldRegs.filter fun o => decide (s.cycle ≤ o.2.1)
    oldRuns := th.oldRuns.filter fun o => decide (s.cycle ≤ o.2.1)
    fences := th.fences.filter fun f => !(f.kind == .acq && f.view.isSome) }

/-- The updates of semaphores and branches that are due before this cycle, for the groups of core `c`, and tidier threads. -/
def State.settle (s : State) (c : Nat) : State :=
  (s.groupsOn c).foldl (fun s g =>
    let s := (s.settleSems g.1 (s.cycle - 1)).settleBranch g.1 (s.cycle - 1)
    (List.range g.2.threads.length).foldl (fun s t =>
      let s := s.settleFences g.1 t
      s.onThread g.1 t s.tidy) s) s

/-- The writes of `c.qerr` that take effect by the end of this cycle (R219, R222). -/
def State.settleQerr (s : State) : State :=
  s.cores.foldl (fun s c => (c.2.qerrDue.filter fun d => decide (d ≤ s.cycle)).foldl (fun s d =>
    (s.clearQerr c.1).onCore c.1 fun x => { x with qerrDue := x.qerrDue.filter (· != d) }) s) s

/-! ## Fetching (R204, R205) -/

/-- What the fetch of one word decides. -/
inductive Fetched where
  | word (w : Code)
  | trap (cause : Nat) (va : Nat)
  /-- An uncorrectable error, with the DETAIL of its machine check (R410). -/
  | poison (detail : Nat) (va : Nat)
  | miss (va : Nat)
  deriving DecidableEq, Repr

/-- The type of a fetch. -/
def State.fetchType (s : State) : AccessType := { fetch := true, user := s.user }

/-- The word at an address, for the issuing thread. -/
def State.fetch (s : State) (va : Nat) : Fetched :=
  let gr := s.me
  match s.plan false s.iss.core gr.part gr.branch va 4 s.fetchType false false with
  | .trap k _ _ => .trap k va
  | .miss a => .miss a
  | .cow _ _ => .trap Cause.prot va
  | .ok ps => match ps.findSome? fun p => s.physPoison p.host p.addr p.len with
    | some d => .poison d va
    | none => .word (BitVec.ofNat 32 (ofBytesLE (ps.flatMap fun p =>
        (List.range p.len).map fun i => (s.readByte s.iss.group s.iss.thread s.iss.core s.cur.seq s.clock p.host p.key (p.addr + i)).1)))

/-- The outcome of a fetch that gives no word. -/
def fetchOut (s : State) : Fetched → Out
  | .word _ => .next s
  | .trap k va => trapOut (s.touch va s.fetchType) k (BitVec.ofNat 64 va)
  | .poison d va => poisonOut s d (BitVec.ofNat 64 va) (some (va, s.fetchType))
  | .miss va => walkOut s va s.fetchType

/-- P of a word (R204). -/
def pBit (w : Code) : Bool := w.getLsbD 31
/-- V of a word (R204). -/
def vBit (w : Code) : Bool := w.getLsbD 30

/-! ## The bundle (R206, R214) -/

/-- The instruction of a word; a word that no encoding assigns is `UNASSIGNED_ENCODING`. -/
def instrOf (w : Code) : Instr := (decodeWord w).getD (.unassignedEncoding w)

/-- Whether a word traps `ILLEGAL` by its bits alone. -/
def illegalWord (w : Code) : Bool := (decodeWord w).isNone || ((decodeWord w).getD .nop).illFormed.isSome

/-- The issuing state with the word `w` in hand as S-word or V-word. -/
def State.hold (s : State) (v : Bool) : State := { s with iss := { s.iss with inV := v } }

/-- Whether an instruction is `ILLEGAL` in this state: `ERET` outside a handler (R363). -/
def illegalNow (i : Instr) (s : State) : Bool :=
  match i with
  | .eret => !s.pre.inHandler
  | _ => false

/-- Whether the value that an instruction writes makes it `PRIV`: of a register that is there and readable (R361). -/
def privNow (i : Instr) (s : State) : Bool :=
  match i with
  | .csrw a c => trapRegPriv c.toNat (s.rd a) && !s.pre.monitor && decide (a.toNat < s.pre.regs.length) && (s.pre.reg a.toNat).full
      && (s.pre.reg a.toNat).poison.isNone
  | _ => false

/-- The first fault of a two-word bundle before the instructions' own checks: cause and value (R214). DESIGN CHOICE (assumption 92): REGLIMIT
of a semaphore index is one of those checks, and comes after the V-word's register limits. -/
def pairFault (s : State) (i j : Instr) : Option (Nat × Word) :=
  if illegalWord s.iss.sWord || illegalNow i s then some (Cause.illegal, s.iss.sWord.setWidth 64)
  else if illegalWord s.iss.vWord then some (Cause.illegal, s.iss.vWord.setWidth 64)
  else if clash (regUse i) (regUse j) then some (Cause.bundle, s.iss.vWord.setWidth 64)
  else if privNow i s then some (Cause.priv, s.iss.sWord.setWidth 64)
  else match staticCheck i (s.hold false) with
    | .trap k x => some (k, x)
    | _ => match staticCheck j (s.hold true) with
      | .trap k x => some (k, x)
      | _ => none

/-- The outcome of the bundle when the V-word ends it: on the state before the S-word, which has no effect. -/
def vEnds (s0 s2 : State) : Out :=
  match s2.iss.trapped with
  | some (k, x) => trapOut { s0 with iss := { s0.iss with touched := s2.iss.touched } } k x
  | none => match s2.cur.wait with
    | some w => waitOut s0 w
    | none => .next s2

/-- Both words of a bundle, whose static checks have passed. -/
def pairRun (s : State) (i j : Instr) : Out :=
  match regWait (regUse i) s, regWait (regUse j) s with
  | some w, _ => waitOut s w
  | none, some w => waitOut s w
  | none, none =>
    match exec i (s.hold false) with
    | .next s1 =>
      if s1.iss.ended then .next s1
      else match exec j (s.hold true) with
        | .next sv =>
          if sv.iss.ended then .next sv
          else match exec j (s1.hold true) with
            | .next s2 => if s2.iss.ended then vEnds (s.hold true) s2 else .next s2
            | o => o
        | o => o
    | o => o

/-- A two-word bundle. -/
def pairOut (s : State) (i j : Instr) : Out :=
  match pairFault s i j with
  | some (k, x) => trapOut s k x
  | none => pairRun s i j

/-- The issuing state with the words of its bundle, its program counter at the bundle that follows. -/
def State.loaded (s : State) (words : Nat) (w v : Code) : State :=
  let s := { s with iss := { s.iss with words := words, sWord := w, vWord := v, inV := words == 1 && vBit w } }
  let s := if words = 1 ∧ vBit w then { s with iss := { s.iss with vWord := w } } else s
  s.jump s.link

/-- The first read of registers that arrivals have filled is an acquire at pod scope (R81, R156). -/
def State.meetArrivals (s : State) (u : RegUse) : State :=
  let v := ((u.reads.map fun r => (s.pre.reg r).acq) ++ u.vreads.map fun r => (s.pre.vreg r).acq).foldl View.join {}
  if v = {} then s
  else (s.learn s.iss.group s.iss.thread s.cur.seq v).onCur fun t =>
    let t := u.reads.foldl (fun t r => t.setReg r { t.reg r with acq := {} }) t
    u.vreads.foldl (fun t r => t.setVReg r { t.vreg r with acq := {} }) t

/-- The bundle at the issuing thread's program counter. -/
def bundle (s : State) : Out :=
  let pc := s.iss.pc.toNat
  match s.fetch pc with
  | .word w =>
    if !pBit w then (let i := instrOf w; exec i ((s.loaded 1 w 0#32).meetArrivals (regUse i)))
    else match s.fetch (pc + 4) with
      | .word v =>
        if vBit w then trapOut s Cause.bundle (w.setWidth 64)
        else if !vBit v || pBit v then trapOut s Cause.bundle (v.setWidth 64)
        else
          let i := instrOf w
          let j := instrOf v
          pairOut (((s.loaded 2 w v).meetArrivals (regUse i)).meetArrivals (regUse j)) i j
      | f => fetchOut s f
  | f => fetchOut s f

/-! ## A turn -/

/-- Thread `t` of group `g` of core `c` becomes the issuing thread: its wait, if it had one, is over. -/
def State.begin (s : State) (c g t : Nat) : State :=
  let th := { (s.thread g t).unwait with yielded := false }
  { s with
    cur := th
    pre := th
    iss := { live := true, core := c, group := g, thread := t, pc := th.pc } }

/-- The exit status of the issuing thread: thread 0's is its group's (R85); in a cancel handler it is the status of the cancelled
entry (R93). -/
def State.noteStatus (s : State) (v : Word) : State :=
  if s.iss.thread ≠ 0 then s
  else if s.pre.inCancel then s.onGroup s.iss.group fun g => { g with cancelled0 := v.setWidth 32 &&& 0x7FFFFFFF#32 }
  else s.onGroup s.iss.group fun g => { g with status0 := v.setWidth 32 }

/-- A bundle of a cancel handler is counted; the 4,096th ends the thread (R92). -/
def State.countCancel (s : State) : State :=
  if !s.pre.inCancel || s.cur.exited then s
  else
    let s := s.onCur fun t => { t with cancelBundles := t.cancelBundles + 1 }
    if 4096 ≤ s.cur.cancelBundles then s.forceOut s.iss.group s.iss.thread else s

/-- What follows a bundle that took effect: the end of the thread (R206, R298), or `SWTRAP` and `BREAK` (R265). -/
def State.afterBundle (s : State) : State :=
  match s.iss.leave with
  | some st =>
    let s := match st with | some v => s.noteStatus v | none => s
    s.endThread s.iss.group s.iss.thread
  | none =>
    let s := s.countCancel
    if s.cur.exited then s
    else match s.iss.after with
      | some (k, x) => s.deliver s.iss.group s.iss.thread k x s.cur.pc none
      | none => s

/-- The issuing thread goes back into its slot; the core's turn of this cycle is over. -/
def State.finish (s : State) : State :=
  let g := s.iss.group
  let t := s.iss.thread
  let th := s.cur
  let s := s.onCore s.iss.core fun c => { c with last := some th.slot, turns := Tab.put th.slot s.cycle c.turns }
  let s := { s with cur := {}, pre := {}, iss := {} }
  s.onGroup g fun gr => { gr with threads := modifyNth t (fun _ => th) gr.threads }

/-- The turn of the issuing thread: a posted trap (R364), else its bundle. -/
def threadTurn (s : State) : Out :=
  if s.cur.trapPending then .next (s.takePosted s.iss.group s.iss.thread).finish
  else match bundle s with
    | .next s => .next (if s.iss.ended then s else s.afterBundle).finish
    | o => o

/-- The turn of core `c`. -/
def coreTurn (s : State) (c : Nat) : Out :=
  let s := { s with turnPtr := c + 1 }
  match s.pick c with
  | none => .next s
  | some (g, t) => if s.hasThread g t then threadTurn (s.begin c g t) else .fault .lostThread

/-- The next turn: of the next occupied core in this cycle, else the cycle ends. -/
def turn (s : State) : Out :=
  match s.nextCore s.turnPtr with
  | none => .next { s.settleQerr with cycle := s.cycle + 1, turnPtr := 0 }
  | some c => coreTurn (s.settle c) c

/-- Whether an instruction is a step of the device or the host, not a word, and not a part of a thread's own turn. -/
def isEvent (i : Instr) : Bool :=
  match i with
  | .vlenWrite _ | .poolBoundaryWrite _ _ | .trapRegisterWrite _ _ | .unassignedEncoding _ | .qerrClear _ => false
  | i => (encode i).isNone

/-! ## A placed instruction -/

/-- The address at which `placed` puts an instruction: program and physical. -/
def placeAddr : Nat := 0x1000

/-- A thread whose program counter is `placeAddr`, with every register full and zero. -/
def placedThread : Thread :=
  { pc := BitVec.ofNat 64 placeAddr, regs := List.replicate 128 {}, vregs := List.replicate 16 {} }

/-- The group of that thread. -/
def placedGroup : Group :=
  { name := 1#64
    task := { sregs := 128, vregs := 16, scratch := 1, sems := 8 }
    threads := [placedThread]
    sems := List.replicate 8 0#32
    sbase := [0] }

/-- The translation of its page: the first 64 KiB of die 0, with every right. -/
def placedPage : TlbEntry :=
  { va := 0, size := 65536, leaf := { key := 0, host := false, base := 0, cc := 0, world := false, cow := false, user := true, exec := true, store := true, load := true } }

/-- The machine with one thread on core 0 whose next bundle is the bytes `bs`: what a launch of a one-thread group leaves when its
program is in memory (assumption 9). -/
def State.placed (s : State) (bs : List Byte) : State :=
  let s := s.writePhys false 0 placeAddr bs
  let s := s.onPart (s.partOf 0) fun p => { p with stop := false }
  let s := s.onCore 0 fun c => { c with tlb := [placedPage], last := none, turns := [], pool := {} }
  { s with
    agenda := []
    turnPtr := 0
    cur := {}
    pre := {}
    iss := {}
    firm := { s.firm with shutdown := false }
    groups := [(1, placedGroup)]
    roll := Tab.put 1 { state := .resident, parent := 0, part := s.partOf 0, launch := none } s.roll }

end Sys2Proof.Machine
end

