-- ==== Sys2Proof/Machine/Step.lean ====
section
/-! DEFINITION. One step of the machine: the next entry of the agenda, or the next core's turn (assumption 1). -/

namespace Sys2Proof.Machine

/-- One step. -/
def step (s : State) : Host.Outcome State Fault Refusal :=
  match s.agenda with
  | [] => turn s
  | .turn :: rest => turn { s with agenda := rest }
  | .event i :: rest => if isEvent i then exec i { s with agenda := rest } else .refused .notEnabled

/-- The machine with an opcode-table word where the next step fetches. -/
def State.withFetchWord (s : State) (nbits w : Nat) : State := s.placed (toBytesLE 8 (w % 2 ^ nbits))

end Sys2Proof.Machine
end

