-- ==== Sys2Proof/Safety.lean ====
section
/-! DEFINITION. The terms in which claims about the machine are made: what stands against an instruction before it runs, what a
step leaves alone, and what every state keeps (spec 01 R26, R33; 03 R70, R74, R77; 08 R206, R207, R214, R221; 09 R242). -/

namespace Sys2Proof.Machine

/-! ## When an instruction runs -/

/-- Nothing that all instructions share stands against instruction `i`: no trap of R214 that its word or its registers raise, no wait of
R70 and R77, no poisoned operand (R242). -/
structure Clear (i : Instr) (s : State) : Prop where
  /-- Its fields break no condition (R207, R210, R212, R220). -/
  formed : i.illFormed = none
  /-- A privileged instruction is issued by a monitor (R210, R220). -/
  mode : privileged i = true → s.pre.monitor = true
  /-- Its scalar registers lie below the thread's limit (R207). -/
  limit : ∀ r ∈ (regUse i).fields, r < s.pre.regs.length
  /-- Its run registers lie below the thread's count (R207). -/
  vlimit : ∀ r ∈ (regUse i).vfields, r < s.pre.vregs.length
  /-- Every register that it reads is full (R70, R77). -/
  full : ∀ r ∈ (regUse i).reads, (s.pre.reg r).full = true
  vfull : ∀ r ∈ (regUse i).vreads, (s.pre.vreg r).full = true
  /-- Every register that it writes is full (R70, R77). -/
  ready : ∀ r ∈ (regUse i).writes ++ (regUse i).hidden, (s.pre.reg r).full = true
  vready : ∀ r ∈ (regUse i).vwrites, (s.pre.vreg r).full = true
  /-- No register that it empties carries a pending-load mark (R302). -/
  free : ∀ r ∈ (regUse i).empties, (s.pre.reg r).mark = false
  vfree : ∀ r ∈ (regUse i).vempties, (s.pre.vreg r).mark = false
  /-- No world load of the thread holds a predicate of it, or `c.wstat` (R141). -/
  world : s.pre.loads = [] ∨ (regUse i).wstat = false ∧ ∀ p ∈ (regUse i).preads ++ (regUse i).pwrites, p ∉ s.loadPreds
  /-- No register that it reads is poisoned (R242). -/
  clean : ∀ r ∈ (regUse i).reads, (s.pre.reg r).poison = none
  vclean : ∀ r ∈ (regUse i).vreads, (s.pre.vreg r).poison = none

/-- Instruction `i`, when nothing stands against it, writes `d` with a value that meets `P` and does nothing else. -/
def Gives (i : Instr) (d : SReg) (P : State → Word → Prop) : Prop :=
  ∀ s : State, Clear i s → ∃ v, exec i s = .next (s.wr d v) ∧ P s v

/-- Instruction `i`, when nothing stands against it, has exactly the effect `f`. -/
def Does (i : Instr) (f : State → State) : Prop := ∀ s : State, Clear i s → exec i s = .next (f s)

/-- Nothing is under way that an access of the issuing thread must follow, or that holds it back: no access, no world operation, no write of
which is recorded what comes before it, no fence, nothing that comes before the thread's own accesses (R153, R157, R159). -/
structure Unhurried (s : State) : Prop where
  live : s.iss.live = true
  acc : s.acc = []
  world : s.worldOps = []
  wrote : s.wrote = []
  fences : s.cur.fences = []
  knows : s.cur.knows = []

/-- The `n` bytes at `va` are memory that the issuing thread may reach with an access of type `ty`: they translate to the pieces `ps`,
and no command of its cluster holds a range lock that they meet (R100, R125, R167). -/
structure Reaches (s : State) (ty : AccessType) (va n : Nat) (ps : List Piece) : Prop where
  kind : isWindow va = false
  plan : s.planAll false s.iss.group s.me.branch s.iss.core ty (n == 16) 0 [(va, n)] = .ok ps
  some : ps ≠ []
  fresh : ∀ p ∈ ps, p.pool = false ∧ p.stage = .pending
  unlocked : s.lockedAt s.iss.group s.iss.core (ty.store || ty.atomic) [(va, n)] = none

/-- The access to `ps` that the issuing thread makes next, as it is recorded while it is under way. -/
def State.accessOf (s : State) (kind : AccKind) (va : Nat) (ps : List Piece) (d : Dest) : Access :=
  { id := s.nextId, kind := kind, group := s.iss.group, thread := s.iss.thread, core := s.iss.core, seq := s.cur.seq, va := va
    pieces := ps, dest := d, user := !s.pre.monitor, pc := s.iss.pc.toNat, branch := s.me.branch }

/-- The machine with access `a` under way, and the issuing thread as `f` of it with the next place in its program order. -/
def State.sent (s : State) (a : Access) (f : Thread → Thread) : State :=
  { s with acc := s.acc ++ [a], nextId := s.nextId + 1, cur := f { s.cur with seq := s.cur.seq + 1 } }

/-- The same for several ranges of a memory form: they translate to `ps`, and no lock of the cluster meets them (R125, R290). -/
structure ReachesAll (s : State) (ty : AccessType) (rs : List (Nat × Nat)) (ps : List Piece) : Prop where
  plan : s.planAll false s.iss.group s.me.branch s.iss.core ty false 0 (rs.filter fun r => r.2 != 0) = .ok ps
  some : ps ≠ []
  fresh : ∀ p ∈ ps, p.pool = false ∧ p.stage = .pending
  unlocked : s.lockedAt s.iss.group s.iss.core (ty.store || ty.atomic) (rs.filter fun r => r.2 != 0) = none

/-- Every register of `rs` is a well-formed run register of its type and of `n` elements (R267, R268). -/
def Sources (s : State) (n : Nat) (rs : List (VReg × ElemType)) : Prop :=
  ∀ r ∈ rs, (s.rdV r.1).wf = true ∧ (s.rdV r.1).type = r.2.code ∧ (s.rdV r.1).len = n

/-- Instruction `i` puts the runs `r.1` with the flags `r.2` into `vd`, or traps `RUNOVF` with the index of the first element beyond
slot 64 when they are more than 64 (R268, R271). -/
def PutsRuns (s : State) (i : Instr) (vd : VReg) (t : ElemType) (r : List Run × Flags) : Prop :=
  exec i s = if r.1.length ≤ 64 then .next ((s.wrV vd (mkRun t r.1)).orFlags r.2)
    else .next (s.takeTrap Cause.runovf (BitVec.ofNat 64 (runsLen (r.1.take 64))))

/-- The world operation that the issuing thread makes next, as it is recorded while it is under way. -/
def State.worldOpOf (s : State) (kind : WorldKind) (region : Nat) (ps : List Piece) (b : Binding) (key inst : Nat) : WorldOp :=
  { id := s.nextId, kind := kind, group := s.iss.group, thread := s.iss.thread, core := s.iss.core, kidx := s.pre.kidx, seq := s.cur.seq
    region := region, bind := b, key := key, inst := inst, issued := s.cycle, spots := ps }

/-- The machine with world operation `w` under way, and the issuing thread as `f` of it with the next place in its program order. -/
def State.sentWorld (s : State) (w : WorldOp) (f : Thread → Thread) : State :=
  { s with worldOps := s.worldOps ++ [w], nextId := s.nextId + 1, cur := f { s.cur with seq := s.cur.seq + 1 } }

/-- Slot `w` of the issuing thread is bound to `b`, its die serves world instructions, and the page at the region's base and that of the
key block of `key`, when one is named, translate to `ps` (R31, R132, R413). -/
structure Bound (s : State) (w : BitVec 2) (b : Binding) (key : Option Nat) (ps : List Piece) : Prop where
  unit : s.worldOn (dieOfCore s.iss.core) = true
  slot : s.pre.wslots.getD w.toNat none = some b
  below : ∀ k, key = some k → k < b.keys
  plan : s.worldPlan false s.iss.core s.me.part s.me.branch { world := true, user := !s.pre.monitor }
    ((b.base, 128) :: (match key with | some k => [(b.keyAddr k, b.block)] | none => [])) = .ok ps

/-- The offset of a window address lies in the scratchpad of the issuing group, `n` bytes long, and no command of its core locks it
(R102, R103, R125). -/
structure InScratch (s : State) (store : Bool) (va n : Nat) : Prop where
  kind : isWindow va = true
  low : windowOff va < 2 ^ 24
  fits : windowOff va + n ≤ 1024 * s.me.task.scratch
  unlocked : s.lockedAt s.iss.group s.iss.core store [(va, n)] = none

/-! ## Whose turn the next step is -/

/-- A turn that a thread has on its core, up to its bundle: `b` is the machine in which thread `t` of group `g` of core `c` is the issuing
thread of the next step. -/
def StepIssues (s b : State) : Prop := ∃ c g t,
  (s.agenda = [] ∨ s.agenda.head? = some .turn) ∧ s.nextCore s.turnPtr = some c ∧
  let r : State := { ({ s with agenda := s.agenda.tail } : State).settle c with turnPtr := c + 1 }
  r.pick c = some (g, t) ∧ r.hasThread g t = true ∧
  b = { r with cur := { (r.thread g t).unwait with yielded := false }, pre := { (r.thread g t).unwait with yielded := false }
               iss := { live := true, core := c, group := g, thread := t, pc := (r.thread g t).pc } } ∧
  b.cur.trapPending = false

/-! ## Where an access is performed -/

/-- The place where piece `p` of access `a` is performed is reached in one step, and `t` is the machine as it is then: the pool, host memory
without and with the bridge's copy, or a line of HBM whose directory serves the request (R113-R117, R389, R390). -/
inductive Grants (s : State) (a : Access) (p : Piece) (r : Reach) : State → Prop
  | pool : p.pool = true → Grants s a p r s
  | uncached : p.pool = false → p.host = true → p.cc = 3 → Grants s a p r s
  | bridge : p.pool = false → p.host = true → p.cc ≠ 3 → Grants s a p r ((s.bridge p.addr p.cc (r != .shared)).cacheLine a p r)
  | slice (t : State) : p.pool = false → p.host = false →
      s.request (p.addr / 128) (clusterOf a.core) a.id (if p.cc = 2 then .home else r) = some (t, true) → Grants s a p r (t.cacheLine a p r)

/-! ## Commands of the tile engines -/

/-- Command `m` of opcode `op` stands started at the head of queue `q` of a core, and nothing has ended or stopped it. -/
structure Running (s : State) (core q op : Nat) (m : Cmd) : Prop where
  head : s.headCmd core q = some m
  op : m.op = op
  started : m.started = true
  going : m.done = false
  free : m.stopped = none
  sound : m.haltCause = none

/-- Step `i` halts the queue of its head `m` with cause `c` (R218, R219, R319): the command keeps the cause, `c.qerr` takes the record
unless it holds one, the command's edge and pass are given up, and its thread has the trap `ENGINE` pending; for cause 6 a machine-check
record waits whose posting raises `RESIDUE` in its thread (R379). -/
def Halts (i : Instr) (s : State) (core q : Nat) (m : Cmd) (c : Nat) : Prop := ∃ u, exec i s = .next u ∧
  u.headCmd core q = some { m with haltCause := some c, started := false, pass := .none, edge := none, closed := false } ∧
  (u.core core).qerr = (if (s.core core).qerr.getLsbD 0 then (s.core core).qerr else qerrOf m.op q c) ∧
  u.edges = s.edges.filter (fun e => e.id != m.id) ∧ u.hbm = s.hbm ∧ u.hostMem = s.hostMem ∧
  (s.hasThread m.group m.thread = true → (s.thread m.group m.thread).exited = false → (s.thread m.group m.thread).inCancel = false →
    c ≠ 6 → (u.thread m.group m.thread).posted = (s.thread m.group m.thread).posted ++ [{ cause := Cause.engine, tval := 0#64 }]) ∧
  (c = 6 → ∃ r, (u.die (dieOfCore core)).fqWait = (s.die (dieOfCore core)).fqWait ++ [r] ∧ r.kind = 4 ∧ r.cause = Cause.residue ∧
    r.target = .trap m.group m.thread Cause.residue 0#64 none)

/-- Step `i` ends the head of a queue: it is done, and the machine is otherwise `t` (R126). -/
def Ends (i : Instr) (s : State) (core q : Nat) (t : State) : Prop := exec i s = .next (t.doneHead core q)

/-- The event `i` writes `bs` at place `p` for command `m`, as the next `k` units of its destination, and stops there: no unit is left, or
the next begins in another 128-byte line (R120, R334). -/
def UnitPuts (i : Instr) (s : State) (core q : Nat) (m : Cmd) (k : Nat) (last : Prop) (p : Place0) (bs : List Byte) : Prop :=
  last → ∀ t, s.engPut core m p bs = .ok t → exec i s = .next (t.advance core q k bs.length)

/-! ## One rounding of an exact result (R183, R185) -/

/-- 2 to the power of `e`. -/
def pow2 (e : Int) : Rat := if 0 ≤ e then ((2 ^ e.toNat : Nat) : Rat) else 1 / ((2 ^ (-e).toNat : Nat) : Rat)

/-- A finite value. -/
def finVal (s : Bool) (m : Nat) (e : Int) : Rat := (if s then -1 else 1) * (m : Rat) * pow2 e

/-- The magnitude of code `c` of a format, its sign aside; that of infinity's code is the power of two above every finite one. -/
def FFmt.mag (f : FFmt) (c : Nat) : Rat :=
  if c / 2 ^ f.fw = 0 then (c % 2 ^ f.fw : Nat) * pow2 (1 - (f.bias : Int) - f.fw)
  else ((2 ^ f.fw + c % 2 ^ f.fw : Nat) : Rat) * pow2 ((c / 2 ^ f.fw : Nat) - (f.bias : Int) - f.fw)

/-- Whether a mode rounds a magnitude of sign `s` down, towards zero. -/
def Mode.down (mode : Mode) (s : Bool) : Bool := mode == .rtz || (mode == .rup && s) || (mode == .rdn && !s)
/-- Whether a mode rounds a magnitude of sign `s` up. -/
def Mode.up (mode : Mode) (s : Bool) : Bool := (mode == .rup && !s) || (mode == .rdn && s)

/-- Code `c` is the rounded magnitude of a positive exact result in a mode, where `le y` says that `y` is not above the exact result and
`ge y` that it is not below: the nearest code below, the nearest above, or the nearest of all, of two as near the even one. -/
structure Nearest (f : FFmt) (mode : Mode) (s : Bool) (le ge : Rat → Prop) (c : Nat) : Prop where
  range : c ≤ f.infCode
  down : mode.down s = true → c < f.infCode ∧ le (f.mag c) ∧ (c + 1 < f.infCode → ¬ le (f.mag (c + 1)))
  up : mode.up s = true → (c < f.infCode → ge (f.mag c)) ∧ (0 < c → ¬ ge (f.mag (c - 1)))
  above : mode = .rne → c < f.infCode → ge ((f.mag c + f.mag (c + 1)) / 2) ∧ (le ((f.mag c + f.mag (c + 1)) / 2) → c % 2 = 0)
  below : mode = .rne → 0 < c → le ((f.mag (c - 1) + f.mag c) / 2) ∧ (ge ((f.mag (c - 1) + f.mag c) / 2) → c % 2 = 0)

/-- Whether a positive exact result, rounded with the exponent unbounded below, lies below the least normal number. -/
def Tiny (f : FFmt) (mode : Mode) (s : Bool) (le ge : Rat → Prop) : Prop :=
  let n := f.mag (2 ^ f.fw)
  let u := pow2 (-(f.bias : Int) - f.fw)
  if mode.down s then ¬ le n else if mode.up s then ge (n - u) else ¬ le (n - u / 2)

/-- `r` is a positive exact result under sign `s`, rounded once, with the flags of that rounding: NX when inexact, OF when it overflows, UF
when it is tiny and inexact. -/
def RoundedOnce (f : FFmt) (mode : Mode) (s : Bool) (le ge : Rat → Prop) (r : FRes) : Prop := ∃ c, Nearest f mode s le ge c ∧
  r.bits = bitNat s * 2 ^ f.signBit + c ∧
  (let inexact : Prop := c = f.infCode ∨ ¬ (le (f.mag c) ∧ ge (f.mag c))
   (r.flags.getLsbD 0 = true ↔ inexact) ∧ (r.flags.getLsbD 1 = true ↔ inexact ∧ Tiny f mode s le ge) ∧
   (r.flags.getLsbD 2 = true ↔ c = f.infCode ∨ c + 1 = f.infCode ∧ le (f.mag f.infCode))) ∧
  r.flags.getLsbD 3 = false ∧ r.flags.getLsbD 4 = false

/-- `r` is the rational number `x` rounded once; an exact zero has sign `zs` and sets no flag. -/
def RoundsTo (f : FFmt) (mode : Mode) (zs : Bool) (x : Rat) (r : FRes) : Prop :=
  (x = 0 → r = ⟨f.zero zs, 0#5⟩) ∧
  (x ≠ 0 → RoundedOnce f mode (decide (x < 0)) (fun y => y ≤ if x < 0 then -x else x) (fun y => (if x < 0 then -x else x) ≤ y) r)

/-! ## What stays -/

/-- Both memories, and the record of the key of every line, are in canonical form: equal contents are equal data. -/
def State.MemOk (s : State) : Prop :=
  Memory.wf s.hbm = true ∧ Memory.wf s.hostMem = true ∧ Tab.canonical bootKey s.lineKeys = true

/-- The program counter of the issuing thread is a multiple of 4 and `c.vlen` is at most 4,096, before the bundle and as it changes
(R205, R221). -/
def State.ThreadOk (s : State) : Prop :=
  (s.iss.pc.toNat % 4 = 0 ∧ s.cur.pc.toNat % 4 = 0 ∧ s.pre.pc.toNat % 4 = 0) ∧ s.cur.vlen.toNat ≤ 4096 ∧ s.pre.vlen.toNat ≤ 4096

/-- What only the device and the host change: the two memories with their keys and poison, the directory, the world store, the ports, and
what boot fixed (R25, R33). -/
structure SameDevice (s t : State) : Prop where
  hbm : t.hbm = s.hbm
  hostMem : t.hostMem = s.hostMem
  keys : t.lineKeys = s.lineKeys
  poison : t.poison = s.poison
  dir : t.dir = s.dir
  regions : t.regions = s.regions
  ports : t.ports = s.ports
  port : t.port = s.port
  firm : t.firm = s.firm
  clus : t.clus = s.clus
  lqs : t.lqs = s.lqs
  cycle : t.cycle = s.cycle

end Sys2Proof.Machine
end

