-- ==== Sys2Proof/Certificates/Slice0/Obligations.lean ====
section
/-! DEFINITION. What the manual says the machine does, as statements to be proved: encodings, the turn, traps, the effect of every
instruction and of every step of the device and the host, and what every step keeps. -/

open Sys2Proof Sys2Proof.Machine

/-! ## Scalar arithmetic (spec 09) -/

/-- R228: every function of the four ALU majors writes `d` with the value of the table and changes nothing else. -/
def Obligations.IntegerAlu : Prop := ∀ d a b : SReg,
  Gives (.add d a b) d (fun s v => v.toNat = ((s.rd a).toNat + (s.rd b).toNat) % 2 ^ 64) ∧
  Gives (.sub d a b) d (fun s v => (v.toNat : Int) = ((s.rd a).toNat - (s.rd b).toNat : Int) % 2 ^ 64) ∧
  Gives (.and d a b) d (fun s v => ∀ i, v.getLsbD i = ((s.rd a).getLsbD i && (s.rd b).getLsbD i)) ∧
  Gives (.or d a b) d (fun s v => ∀ i, v.getLsbD i = ((s.rd a).getLsbD i || (s.rd b).getLsbD i)) ∧
  Gives (.xor d a b) d (fun s v => ∀ i, v.getLsbD i = ((s.rd a).getLsbD i ^^ (s.rd b).getLsbD i)) ∧
  Gives (.andn d a b) d (fun s v => ∀ i, v.getLsbD i = ((s.rd a).getLsbD i && !(s.rd b).getLsbD i)) ∧
  Gives (.shl d a b) d (fun s v => v.toNat = (s.rd a).toNat * 2 ^ ((s.rd b).toNat % 64) % 2 ^ 64) ∧
  Gives (.shr d a b) d (fun s v => v.toNat = (s.rd a).toNat / 2 ^ ((s.rd b).toNat % 64)) ∧
  Gives (.sra d a b) d (fun s v => v.toInt = (s.rd a).toInt / 2 ^ ((s.rd b).toNat % 64)) ∧
  Gives (.rot d a b) d (fun s v => ∀ i < 64, v.getLsbD i = (s.rd a).getLsbD ((i + (s.rd b).toNat) % 64)) ∧
  Gives (.min d a b) d (fun s v => v.toInt = min (s.rd a).toInt (s.rd b).toInt) ∧
  Gives (.max d a b) d (fun s v => v.toInt = max (s.rd a).toInt (s.rd b).toInt) ∧
  Gives (.minu d a b) d (fun s v => v.toNat = min (s.rd a).toNat (s.rd b).toNat) ∧
  Gives (.maxu d a b) d (fun s v => v.toNat = max (s.rd a).toNat (s.rd b).toNat) ∧
  Gives (.mul d a b) d (fun s v => v.toNat = (s.rd a).toNat * (s.rd b).toNat % 2 ^ 64) ∧
  Gives (.mulh d a b) d (fun s v => v.toInt = (s.rd a).toInt * (s.rd b).toInt / 2 ^ 64) ∧
  Gives (.mulhu d a b) d (fun s v => v.toNat = (s.rd a).toNat * (s.rd b).toNat / 2 ^ 64) ∧
  Gives (.clz d a) d (fun s v => if s.rd a = 0#64 then v = 64#64
    else v.toNat < 64 ∧ 2 ^ (63 - v.toNat) ≤ (s.rd a).toNat ∧ (s.rd a).toNat < 2 ^ (64 - v.toNat)) ∧
  Gives (.ctz d a) d (fun s v => if s.rd a = 0#64 then v = 64#64
    else (s.rd a).getLsbD v.toNat = true ∧ ∀ i < v.toNat, (s.rd a).getLsbD i = false) ∧
  Gives (.popc d a) d (fun s v => v.toNat = (List.range 64).countP fun i => (s.rd a).getLsbD i) ∧
  Gives (.sxb d a) d (fun s v => v.toInt = ((s.rd a).setWidth 8).toInt) ∧
  Gives (.sxh d a) d (fun s v => v.toInt = ((s.rd a).setWidth 16).toInt) ∧
  Gives (.sxw d a) d (fun s v => v.toInt = ((s.rd a).setWidth 32).toInt) ∧
  Gives (.zxb d a) d (fun s v => v.toNat = (s.rd a).toNat % 2 ^ 8) ∧
  Gives (.zxh d a) d (fun s v => v.toNat = (s.rd a).toNat % 2 ^ 16) ∧
  Gives (.zxw d a) d (fun s v => v.toNat = (s.rd a).toNat % 2 ^ 32)

/-- R229: the quotient rounds toward zero and the remainder is a - b * q; a zero divisor gives q = 0, r = a and sets DZ, without a
trap; the one overflowing case gives q = a, r = 0 and no flag. -/
def Obligations.Division : Prop := ∀ (d a b : SReg) (s : State),
  (Clear (.div d a b) s → ∃ q, exec (.div d a b) s = .next ((s.wr d q).orFlags (if s.rd b = 0#64 then dz else 0#5)) ∧
    q.toInt = if s.rd b = 0#64 then 0 else if (s.rd a).toInt = -2 ^ 63 ∧ (s.rd b).toInt = -1 then -2 ^ 63
      else (s.rd a).toInt.tdiv (s.rd b).toInt) ∧
  (Clear (.divu d a b) s → ∃ q, exec (.divu d a b) s = .next ((s.wr d q).orFlags (if s.rd b = 0#64 then dz else 0#5)) ∧
    q.toNat = (s.rd a).toNat / (s.rd b).toNat) ∧
  (Clear (.rem d a b) s → ∃ r, exec (.rem d a b) s = .next ((s.wr d r).orFlags (if s.rd b = 0#64 then dz else 0#5)) ∧
    r.toInt = if s.rd b = 0#64 then (s.rd a).toInt else (s.rd a).toInt - (s.rd b).toInt * (s.rd a).toInt.tdiv (s.rd b).toInt) ∧
  (Clear (.remu d a b) s → ∃ r, exec (.remu d a b) s = .next ((s.wr d r).orFlags (if s.rd b = 0#64 then dz else 0#5)) ∧
    r.toNat = (s.rd a).toNat % (s.rd b).toNat)

/-- R230, R231: with pos = b[5:0] and w = b[11:6] (64 when 0), `BEXT` gives the field, `BINS` replaces it, and bits beyond 63 are
dropped; `LEA` gives a + b * 2^f.
R232, R233, R234: the immediates are sign-extended, for the logical forms too; `SHFI` shifts by n; `LUI` multiplies by 2^17. -/
def Obligations.FieldsLeaAndImmediates : Prop :=
  (∀ d a b : SReg,
  Gives (.bext d a b) d (fun s v => ∀ i < 64, v.getLsbD i =
    (decide (i < fieldWidth (s.rd b)) && (s.rd a).getLsbD ((s.rd b).toNat % 64 + i))) ∧
  Gives (.bins d a b) d (fun s v => ∀ i < 64, v.getLsbD i =
    if (s.rd b).toNat % 64 ≤ i ∧ i < (s.rd b).toNat % 64 + fieldWidth (s.rd b) then (s.rd a).getLsbD (i - (s.rd b).toNat % 64)
    else (s.rd d).getLsbD i) ∧
  ∀ f : BitVec 3, Gives (.lea d a b f) d (fun s v => v.toNat = ((s.rd a).toNat + (s.rd b).toNat * 2 ^ f.toNat) % 2 ^ 64)) ∧
  (∀ d a : SReg,
  (∀ imm : BitVec 10,
    Gives (.addi d a imm) d (fun s v => (v.toNat : Int) = ((s.rd a).toNat + imm.toInt) % 2 ^ 64) ∧
    Gives (.andi d a imm) d (fun s v => ∀ i < 64, v.getLsbD i = ((s.rd a).getLsbD i && imm.getLsbD (min i 9))) ∧
    Gives (.ori d a imm) d (fun s v => ∀ i < 64, v.getLsbD i = ((s.rd a).getLsbD i || imm.getLsbD (min i 9))) ∧
    Gives (.xori d a imm) d (fun s v => ∀ i < 64, v.getLsbD i = ((s.rd a).getLsbD i ^^ imm.getLsbD (min i 9)))) ∧
  (∀ n : BitVec 6,
    Gives (.shfi .shl d a n) d (fun s v => v.toNat = (s.rd a).toNat * 2 ^ n.toNat % 2 ^ 64) ∧
    Gives (.shfi .shr d a n) d (fun s v => v.toNat = (s.rd a).toNat / 2 ^ n.toNat) ∧
    Gives (.shfi .sra d a n) d (fun s v => v.toInt = (s.rd a).toInt / 2 ^ n.toNat) ∧
    Gives (.shfi .rot d a n) d (fun s v => ∀ i < 64, v.getLsbD i = (s.rd a).getLsbD ((i + n.toNat) % 64))) ∧
  ∀ imm : BitVec 17,
    Gives (.movi d imm) d (fun _ v => v.toInt = imm.toInt) ∧
    Gives (.lui d imm) d (fun _ v => v.toInt = imm.toInt * 2 ^ 17))

/-- R235, R236, R237: compares and the predicate functions write one predicate; a write of `p0` is discarded; `SEL` chooses by its
predicate. -/
def Obligations.ComparesAndPredicates : Prop :=
  (∀ (pd : PReg) (a b : SReg) (imm : BitVec 10) (s : State) (c : Cond),
    let holds (x y : Word) : Prop := match c with
      | .eq => x = y | .ne => x ≠ y | .lt => x.toInt < y.toInt | .ge => y.toInt ≤ x.toInt
      | .ltu => x.toNat < y.toNat | .geu => y.toNat ≤ x.toNat
      | .tst => ∃ i, x.getLsbD i = true ∧ y.getLsbD i = true
      | .tstn => ∀ i, ¬ (x.getLsbD i = true ∧ y.getLsbD i = true)
    (Clear (.cmp pd c a b) s → ∃ r, exec (.cmp pd c a b) s = .next (s.wrP pd r) ∧ (r = true ↔ holds (s.rd a) (s.rd b))) ∧
    (Clear (.cmpi pd c a imm) s → ∃ r, exec (.cmpi pd c a imm) s = .next (s.wrP pd r) ∧
      (r = true ↔ holds (s.rd a) (BitVec.ofInt 64 imm.toInt)))) ∧
  (∀ (pd pa pb : PReg),
    Does (.pand pd pa pb) (fun s => s.wrP pd (s.rdP pa && s.rdP pb)) ∧ Does (.por pd pa pb) (fun s => s.wrP pd (s.rdP pa || s.rdP pb)) ∧
    Does (.pxor pd pa pb) (fun s => s.wrP pd (s.rdP pa ^^ s.rdP pb)) ∧ Does (.pandn pd pa pb) (fun s => s.wrP pd (s.rdP pa && !s.rdP pb)) ∧
    Does (.pnot pd pa) (fun s => s.wrP pd (!s.rdP pa)) ∧ Does (.pset pd) (fun s => s.wrP pd true) ∧ Does (.pclr pd) (fun s => s.wrP pd false)) ∧
  (∀ (d a b : SReg) (p : PReg), Gives (.sel d p a b) d (fun s v => v = if s.rdP p then s.rd a else s.rd b)) ∧
  ∀ (s : State) (pd : PReg) (r : Bool), (s.wrP pd r).pre = s.pre ∧ (s.wrP pd r).cur = (s.cur.setPred pd.toNat r) ∧
    ∀ q, q < 8 → ((s.wrP pd r).cur.pred q = if q = pd.toNat ∧ q ≠ 0 then r else s.cur.pred q)

/-! ## Loads, stores and atomics (spec 09) -/

/-- R238, R239, R240: a load of memory outside the window that does not find all its bytes in the core's L1 is sent: it is recorded with the
pieces of its effective address, its destination is emptied under a pending-load mark, both registers for a 16-byte form, and nothing else
changes. A load into `s0` performs the access and has no destination. R108, R240: one that finds them there, with nothing under way that
it must follow, has the bytes that memory holds at once, and changes nothing else but its place in the program order.
R238, R239, R240: a store to memory outside the window is posted: it is recorded with the little-endian bytes of its source, both
registers for a 16-byte form; no register and no byte of memory changes at issue. -/
def Obligations.LoadsAndStores : Prop :=
  (∀ (d a b : SReg) (off : BitVec 10) (s : State) (ps : List Piece) (ea : Nat),
    let sends (i : Instr) (n : Nat) (dest : Dest) (marks : Thread → Thread) : Prop :=
      Clear i s → Reaches s { load := true, user := !s.pre.monitor } ea n ps → (n = 16 → ea % 16 = 0) → (∃ p ∈ ps, s.l1Hit p = false) →
        exec i s = .next (s.sent (s.accessOf .load ea ps dest) marks)
    let sm (n : Nat) : Prop := (ea : Int) = ((s.rd a).toNat + off.toInt * n) % 2 ^ 64
    let dst (signed : Bool) : Dest := if d = 0#7 then .none else .scalar d signed
    let one (t : Thread) : Thread := t.mark d.toNat
    let two (t : Thread) : Thread := (t.mark d.toNat).mark (d.toNat + 1)
    (sm 1 → sends (.ldb d a off) 1 (dst true) one) ∧ (sm 2 → sends (.ldh d a off) 2 (dst true) one) ∧
    (sm 4 → sends (.ldw d a off) 4 (dst true) one) ∧ (sm 8 → sends (.ldd d a off) 8 (dst false) one) ∧
    (sm 1 → sends (.ldbu d a off) 1 (dst false) one) ∧ (sm 2 → sends (.ldhu d a off) 2 (dst false) one) ∧
    (sm 4 → sends (.ldwu d a off) 4 (dst false) one) ∧ (sm 16 → sends (.ldq d a off) 16 (.pair d) two) ∧
    (ea = ((s.rd a).toNat + (s.rd b).toNat) % 2 ^ 64 →
      sends (.ldx .b d a b) 1 (dst true) one ∧ sends (.ldx .h d a b) 2 (dst true) one ∧ sends (.ldx .w d a b) 4 (dst true) one ∧
      sends (.ldx .d d a b) 8 (dst false) one ∧ sends (.ldx .bu d a b) 1 (dst false) one ∧ sends (.ldx .hu d a b) 2 (dst false) one ∧
      sends (.ldx .wu d a b) 4 (dst false) one ∧ sends (.ldx .q d a b) 16 (.pair d) two)) ∧
  (∀ (d a b : SReg) (off : BitVec 10) (s : State) (ps : List Piece) (ea : Nat), Unhurried s → s.past = [] →
    (∀ e ∈ s.dir, s.nextId ∉ e.2.busy ∧ ∀ q ∈ e.2.queue, q.2.2 ≠ s.nextId) → (∀ p ∈ ps, s.l1Hit p = true ∧ s.physPoison p.host p.addr p.len = none) →
    let bytes : List Byte := ps.flatMap fun p => s.readPhys p.host p.key p.addr p.len
    let hits (i : Instr) (n : Nat) (r : State → State) : Prop :=
      Clear i s → Reaches s { load := true, user := !s.pre.monitor } ea n ps → (n = 16 → ea % 16 = 0) →
        exec i s = .next (r { s with nextId := s.nextId + 1, cur := { s.cur with seq := s.cur.seq + 1 } })
    let sm (n : Nat) : Prop := (ea : Int) = ((s.rd a).toNat + off.toInt * n) % 2 ^ 64
    let one (n : Nat) (signed : Bool) (u : State) : State :=
      u.wr d (BitVec.ofInt 64 (if signed then signedOf (8 * n) (ofBytesLE bytes) else (ofBytesLE bytes : Nat)))
    let two (u : State) : State :=
      (u.wr d (BitVec.ofNat 64 (ofBytesLE (bytes.take 8)))).wrNext d 1 (BitVec.ofNat 64 (ofBytesLE (bytes.drop 8)))
    (sm 1 → hits (.ldb d a off) 1 (one 1 true) ∧ hits (.ldbu d a off) 1 (one 1 false)) ∧
    (sm 2 → hits (.ldh d a off) 2 (one 2 true) ∧ hits (.ldhu d a off) 2 (one 2 false)) ∧
    (sm 4 → hits (.ldw d a off) 4 (one 4 true) ∧ hits (.ldwu d a off) 4 (one 4 false)) ∧
    (sm 8 → hits (.ldd d a off) 8 (one 8 false)) ∧ (sm 16 → hits (.ldq d a off) 16 two) ∧
    (ea = ((s.rd a).toNat + (s.rd b).toNat) % 2 ^ 64 →
      hits (.ldx .b d a b) 1 (one 1 true) ∧ hits (.ldx .h d a b) 2 (one 2 true) ∧ hits (.ldx .w d a b) 4 (one 4 true) ∧
      hits (.ldx .d d a b) 8 (one 8 false) ∧ hits (.ldx .bu d a b) 1 (one 1 false) ∧ hits (.ldx .hu d a b) 2 (one 2 false) ∧
      hits (.ldx .wu d a b) 4 (one 4 false) ∧ hits (.ldx .q d a b) 16 two)) ∧
  (∀ (r a b : SReg) (off : BitVec 10) (s : State) (ps : List Piece) (ea : Nat),
    let posts (i : Instr) (n : Nat) (bs : List Byte) : Prop :=
      Clear i s → Reaches s { store := true, user := !s.pre.monitor } ea n ps → (n = 16 → ea % 16 = 0) →
        exec i s = .next (s.sent (s.accessOf .store ea (ps.map fun p => { p with data := (bs.drop p.off).take p.len }) .none) id)
    let sm (n : Nat) : Prop := (ea : Int) = ((s.rd a).toNat + off.toInt * n) % 2 ^ 64
    let low (n : Nat) : List Byte := toBytesLE n (s.rd r).toNat
    let both : List Byte := toBytesLE 8 (s.rd r).toNat ++ toBytesLE 8 (s.pre.reg (r.toNat + 1)).val.toNat
    (sm 1 → posts (.stb r a off) 1 (low 1)) ∧ (sm 2 → posts (.sth r a off) 2 (low 2)) ∧ (sm 4 → posts (.stw r a off) 4 (low 4)) ∧
    (sm 8 → posts (.std r a off) 8 (low 8)) ∧ (sm 16 → posts (.stq r a off) 16 both) ∧
    (ea = ((s.rd a).toNat + (s.rd b).toNat) % 2 ^ 64 →
      posts (.stx .b r a b) 1 (low 1) ∧ posts (.stx .h r a b) 2 (low 2) ∧ posts (.stx .w r a b) 4 (low 4) ∧
      posts (.stx .d r a b) 8 (low 8) ∧ posts (.stx .q r a b) 16 both))

/-- R102, R103, R239, R240: in the scratchpad a load has its bytes at once, extended as R238 lays down, with the poison of its line, and a
store writes them at once and changes no other byte of the scratchpad and no other state.
R102, R104: at the offsets of R102 an access of the size that the table gives reads or writes the value of a scalar register, of a slot, of
the header of a run register, as the window shows it in the cycle (R224), or of a semaphore; presence stays, and an access to a register with
a pending-load mark waits. R103: an index at or beyond its limit traps `REGLIMIT` with the offset, any other access the table does not list
`PROT`. With no access and no semaphore update under way. -/
def Obligations.ScratchpadAccess : Prop :=
  (∀ (r a b : SReg) (off : BitVec 10) (s : State) (ea : Nat), Unhurried s → (Tab.find s.iss.group s.groups).isSome →
    Tab.canonical 0#8 s.me.scratch = true →
    let sm (n : Nat) : Prop := (ea : Int) = ((s.rd a).toNat + off.toInt * n) % 2 ^ 64
    let ix : Prop := ea = ((s.rd a).toNat + (s.rd b).toNat) % 2 ^ 64
    let x (k n : Nat) : Nat := ofBytesLE (memBytes s.me.scratch (windowOff ea + k) n)
    let bad (n : Nat) : Option Nat := s.winPoison s.iss.group (windowOff ea) n
    let loads (i : Instr) (n : Nat) (signed : Bool) : Prop := Clear i s → InScratch s false ea n → ∃ v,
      exec i s = .next ((s.wr r v).poisonDest (.scalar r signed) (bad n)) ∧
      v.toInt = if signed then signedOf (8 * n) (x 0 n) else signedOf 64 (x 0 n)
    let pair (i : Instr) : Prop := Clear i s → InScratch s false ea 16 → ea % 16 = 0 →
      exec i s = .next (((s.wr r (BitVec.ofNat 64 (x 0 8))).wrNext r 1 (BitVec.ofNat 64 (x 8 8))).poisonDest (.pair r) (bad 16))
    let stores (i : Instr) (n : Nat) (bs : List Byte) : Prop := Clear i s → InScratch s true ea n → (n = 16 → ea % 16 = 0) →
      ∃ m, exec i s = .next (s.onGroup s.iss.group fun g => { g with scratch := m }) ∧
        ∀ y, memByte m y = if windowOff ea ≤ y ∧ y < windowOff ea + n then bs.getD (y - windowOff ea) 0#8 else memByte s.me.scratch y
    let low (n : Nat) : List Byte := toBytesLE n (s.rd r).toNat
    let both : List Byte := toBytesLE 8 (s.rd r).toNat ++ toBytesLE 8 (s.pre.reg (r.toNat + 1)).val.toNat
    (sm 1 → loads (.ldb r a off) 1 true ∧ loads (.ldbu r a off) 1 false ∧ stores (.stb r a off) 1 (low 1)) ∧
    (sm 2 → loads (.ldh r a off) 2 true ∧ loads (.ldhu r a off) 2 false ∧ stores (.sth r a off) 2 (low 2)) ∧
    (sm 4 → loads (.ldw r a off) 4 true ∧ loads (.ldwu r a off) 4 false ∧ stores (.stw r a off) 4 (low 4)) ∧
    (sm 8 → loads (.ldd r a off) 8 false ∧ stores (.std r a off) 8 (low 8)) ∧
    (sm 16 → pair (.ldq r a off) ∧ stores (.stq r a off) 16 both) ∧
    (ix → loads (.ldx .b r a b) 1 true ∧ loads (.ldx .h r a b) 2 true ∧ loads (.ldx .w r a b) 4 true ∧ loads (.ldx .d r a b) 8 false ∧
      loads (.ldx .bu r a b) 1 false ∧ loads (.ldx .hu r a b) 2 false ∧ loads (.ldx .wu r a b) 4 false ∧ pair (.ldx .q r a b) ∧
      stores (.stx .b r a b) 1 (low 1) ∧ stores (.stx .h r a b) 2 (low 2) ∧ stores (.stx .w r a b) 4 (low 4) ∧
      stores (.stx .d r a b) 8 (low 8) ∧ stores (.stx .q r a b) 16 both)) ∧
  ∀ (r a b : SReg) (off : BitVec 10) (s : State) (ea : Nat), isWindow ea = true →
    let o := windowOff ea
    let form (n : Nat) (i sm x : Instr) : Prop := (i = sm ∧ (ea : Int) = ((s.rd a).toNat + off.toInt * n) % 2 ^ 64) ∨
      (i = x ∧ ea = ((s.rd a).toNat + (s.rd b).toNat) % 2 ^ 64)
    let reads (i : Instr) (v : Int) (bad : Option Nat) : Prop := Clear i s →
      exec i s = .next ((s.wr r (BitVec.ofInt 64 v)).poisonDest (.scalar r false) bad)
    let writes (i : Instr) (t : Nat) (f : Thread → Thread) : Prop := Clear i s → exec i s = .next (s.onThread s.iss.group t f)
    let waits (i : Instr) (w : Wait) : Prop := Clear i s → exec i s = waitOut s w
    (Unhurried s → s.me.semQ = [] →
      (∀ t k l st, t < s.me.threads.length → k < s.me.task.sregs → k < 8192 → t < 256 → o = 0x1000000 + 65536 * t + 8 * k →
        form 8 l (.ldd r a off) (.ldx .d r a b) → form 8 st (.std r a off) (.stx .d r a b) →
        let c := (s.thread s.iss.group t).regAt s.cycle k
        if ((s.thread s.iss.group t).reg k).mark = true then waits l (.mapped t k false) ∧ waits st (.mapped t k false)
        else reads l c.val.toNat c.poison ∧
          writes st t fun th => th.putAt s.cycle k { th.regAt s.cycle k with val := s.rd r, poison := none }) ∧
      (∀ t j l st, t < s.me.threads.length → j < s.me.task.vregs → t < 128 →
        let c := (s.thread s.iss.group t).vregAt s.cycle j
        let put (run : RunReg → RunReg) (th : Thread) : Thread :=
          th.putVAt s.cycle j { th.vregAt s.cycle j with poison := none, run := run (th.vregAt s.cycle j).run }
        let both (does : Prop) : Prop := if ((s.thread s.iss.group t).vreg j).mark = true
          then waits l (.mapped t j true) ∧ waits st (.mapped t j true) else does
        (∀ k, j < 64 → k < 64 →
          let sl := c.run.slots.getD k {}
          let slot (f : VSlot → VSlot) : Thread → Thread := put fun x => { x with slots := modifyNth k f x.slots }
          (o = 0x2000000 + 65536 * t + 0x400 * j + 16 * k →
            (form 8 l (.ldd r a off) (.ldx .d r a b) → form 8 st (.std r a off) (.stx .d r a b) → both
              (reads l sl.payload.toNat c.poison ∧ writes st t (slot fun x => { x with payload := s.rd r }))) ∧
            (form 16 l (.ldq r a off) (.ldx .q r a b) → form 16 st (.stq r a off) (.stx .q r a b) → ea % 16 = 0 → both
              ((Clear l s → exec l s = .next (((s.wr r sl.payload).wrNext r 1 (sl.hdr.setWidth 64)).poisonDest (.pair r) c.poison)) ∧
                writes st t (slot fun _ => { payload := s.rd r, hdr := (s.pre.reg (r.toNat + 1)).val.setWidth 16 })))) ∧
          (o = 0x2000000 + 65536 * t + 0x400 * j + 16 * k + 8 → form 2 st (.sth r a off) (.stx .h r a b) →
            let puts : Prop := writes st t (slot fun x => { x with hdr := (s.rd r).setWidth 16 })
            (form 2 l (.ldhu r a off) (.ldx .hu r a b) → both (reads l sl.hdr.toNat c.poison ∧ puts)) ∧
            (form 2 l (.ldh r a off) (.ldx .h r a b) → both (reads l sl.hdr.toInt c.poison ∧ puts)))) ∧
        (j < 8192 → o = 0x2800000 + 65536 * t + 8 * j → form 8 l (.ldd r a off) (.ldx .d r a b) → form 8 st (.std r a off) (.stx .d r a b) →
          both (reads l c.run.hdr.toNat c.poison ∧ writes st t (put fun x => { x with hdr := s.rd r })))) ∧
      ∀ n i, n < s.me.task.sems → o = 0x3000000 + 4 * n →
        (form 4 i (.ldwu r a off) (.ldx .wu r a b) → reads i (s.sem s.iss.group n) none) ∧
        (form 4 i (.ldw r a off) (.ldx .w r a b) → reads i (BitVec.ofNat 32 (s.sem s.iss.group n)).toInt none) ∧
        (form 4 i (.stw r a off) (.stx .w r a b) → Clear i s → (Tab.find s.iss.group s.groups).isSome → n < s.me.sems.length →
          ∃ u, exec i s = .next u ∧ (∀ m, u.sem s.iss.group m = if m = n then (s.rd r).toNat % 2 ^ 32 else s.sem s.iss.group m) ∧
          u.me.threads = s.me.threads.map fun th => match th.wait with
            | some (.sem m thr) => if m = n ∧ thr ≤ (s.rd r).toNat % 2 ^ 32 then { th with wait := none } else th
            | _ => th)) ∧
    let limits : Prop :=
      (0x1000000 ≤ o ∧ o < 0x2000000 ∧ (s.me.threads.length ≤ (o - 0x1000000) / 65536 ∨ s.me.task.sregs ≤ o % 65536 / 8)) ∨
      (0x2000000 ≤ o ∧ o < 0x2800000 ∧ (s.me.threads.length ≤ (o - 0x2000000) / 65536 ∨ s.me.task.vregs ≤ o % 65536 / 1024)) ∨
      (0x2800000 ≤ o ∧ o < 0x3000000 ∧ (s.me.threads.length ≤ (o - 0x2800000) / 65536 ∨ s.me.task.vregs ≤ o % 65536 / 8)) ∨
      (0x3000000 ≤ o ∧ s.me.task.sems ≤ (o - 0x3000000) / 4)
    let listed (n : Nat) : Prop :=
      (o < 0x1000000 ∧ o + n ≤ 1024 * s.me.task.scratch) ∨ (0x1000000 ≤ o ∧ o < 0x2000000 ∧ n = 8 ∧ o % 8 = 0) ∨
      (0x2000000 ≤ o ∧ o < 0x2800000 ∧ ((o % 16 = 0 ∧ (n = 8 ∨ n = 16)) ∨ (o % 16 = 8 ∧ n = 2))) ∨
      (0x2800000 ≤ o ∧ o < 0x3000000 ∧ n = 8 ∧ o % 8 = 0) ∨ (0x3000000 ≤ o ∧ n = 4 ∧ o % 4 = 0)
    ∀ i n store,
      (store = false ∧ ((n = 1 ∧ (form n i (.ldb r a off) (.ldx .b r a b) ∨ form n i (.ldbu r a off) (.ldx .bu r a b))) ∨
        (n = 2 ∧ (form n i (.ldh r a off) (.ldx .h r a b) ∨ form n i (.ldhu r a off) (.ldx .hu r a b))) ∨
        (n = 4 ∧ (form n i (.ldw r a off) (.ldx .w r a b) ∨ form n i (.ldwu r a off) (.ldx .wu r a b))) ∨
        (n = 8 ∧ form n i (.ldd r a off) (.ldx .d r a b)) ∨ (n = 16 ∧ form n i (.ldq r a off) (.ldx .q r a b)))) ∨
      (store = true ∧ ((n = 1 ∧ form n i (.stb r a off) (.stx .b r a b)) ∨ (n = 2 ∧ form n i (.sth r a off) (.stx .h r a b)) ∨
        (n = 4 ∧ form n i (.stw r a off) (.stx .w r a b)) ∨ (n = 8 ∧ form n i (.std r a off) (.stx .d r a b)) ∨
        (n = 16 ∧ form n i (.stq r a off) (.stx .q r a b)))) →
      Clear i s → (n = 16 → ea % 16 = 0) →
      let u := s.touch ea { load := !store, store := store, user := !s.pre.monitor }
      (limits → exec i s = .next (u.takeTrap Cause.reglimit (BitVec.ofNat 64 o))) ∧
      (¬ limits → ¬ listed n → exec i s = .next (u.takeTrap Cause.prot s.wordVal))

/-- R244, R245, R247: an atomic or an addition at a naturally aligned address of memory is sent to its place with its operands; the
registers that its old value returns to are held; nothing else changes. An `FAADD` returns nothing; an ordered one carries the
number (c.seqbase + d[31:0]) mod 2^32 and d[63].
R241, R246, R247: a 16-byte load or store, an atomic and an addition that are not naturally aligned trap `ALIGN`; an atomic or an
addition to the window traps `PROT`. The trap carries the instruction word, and its record the address. -/
def Obligations.AtomicsAndAlignment : Prop :=
  (∀ (d a b : SReg) (op : AmoOp) (g : Bool) (s : State) (ps : List Piece),
    let ea := (s.rd a).toNat
    let ready (i : Instr) (n : Nat) (kind : AccKind) : Prop := Clear i s ∧ Reaches s { atomic := true, user := !s.pre.monitor } ea n ps ∧
      ea % n = 0 ∧ ((∀ p ∈ ps, ¬ (p.host = true ∧ p.cc = 3)) ∨ s.port.atomicReq = true ∧ overPcie kind = true)
    let one (t : Thread) : Thread := t.mark d.toNat
    let two (t : Thread) : Thread := (t.mark d.toNat).mark (d.toNat + 1)
    let wide (r : SReg) : Nat := (s.rd r).toNat + (s.pre.reg (r.toNat + 1)).val.toNat * 2 ^ 64
    let dst : Dest := if d = 0#7 then .none else .scalar d false
    (ready (.amoC op d a b) 8 (.amo op (s.rd b) false) →
      exec (.amoC op d a b) s = .next (s.sent (s.accessOf (.amo op (s.rd b) false) ea ps dst) one)) ∧
    (ready (.amoG op d a b) 8 (.amo op (s.rd b) true) →
      exec (.amoG op d a b) s = .next (s.sent (s.accessOf (.amo op (s.rd b) true) ea ps dst) one)) ∧
    (ready (.cas g false d a b) 8 (.cas (s.rd d).toNat (s.rd b).toNat g) →
      exec (.cas g false d a b) s = .next (s.sent (s.accessOf (.cas (s.rd d).toNat (s.rd b).toNat g) ea ps dst) one)) ∧
    (ready (.cas g true d a b) 16 (.cas (wide d) (wide b) g) →
      exec (.cas g true d a b) s = .next (s.sent (s.accessOf (.cas (wide d) (wide b) g) ea ps (.pair d)) two)) ∧
    ∀ dbl : Bool, Reaches s { atomic := true, user := !s.pre.monitor } ea (if dbl then 8 else 4) ps → ea % (if dbl then 8 else 4) = 0 →
      (∀ p ∈ ps, p.host = false) →
      let kind (num : Option (Nat × Bool)) : AccKind := .faadd dbl (s.rd b) num s.iss.core s.pre.kidx
      (Clear (.faadd dbl false d a b) s → exec (.faadd dbl false d a b) s = .next (s.sent (s.accessOf (kind none) ea ps .none) id)) ∧
      (Clear (.faadd dbl true d a b) s → exec (.faadd dbl true d a b) s = .next (s.sent (s.accessOf
        (kind (some ((s.pre.seqbase.toNat + (s.rd d).toNat % 2 ^ 32) % 2 ^ 32, (s.rd d).getLsbD 63))) ea ps .none) id))) ∧
  (∀ (d a b : SReg) (off : BitVec 10) (op : AmoOp) (g dbl ord : Bool) (s : State),
    let stops (i : Instr) (ea n k : Nat) (ty : AccessType) : Prop := Clear i s → (if k = Cause.align then ea % n ≠ 0 else ea % n = 0 ∧ isWindow ea = true) →
      exec i s = .next ((s.touch ea ty).takeTrap k s.wordVal)
    let u := !s.pre.monitor
    let q : Nat := (s.rd a + off.signExtend 64 * 16#64).toNat
    let x : Nat := (s.rd a + s.rd b).toNat
    stops (.ldq d a off) q 16 Cause.align { load := true, user := u } ∧ stops (.stq d a off) q 16 Cause.align { store := true, user := u } ∧
    stops (.ldx .q d a b) x 16 Cause.align { load := true, user := u } ∧ stops (.stx .q d a b) x 16 Cause.align { store := true, user := u } ∧
    ∀ k, (k = Cause.align ∨ k = Cause.prot) →
      stops (.amoC op d a b) (s.rd a).toNat 8 k { atomic := true, user := u } ∧
      stops (.amoG op d a b) (s.rd a).toNat 8 k { atomic := true, user := u } ∧
      stops (.cas g false d a b) (s.rd a).toNat 8 k { atomic := true, user := u } ∧
      stops (.cas g true d a b) (s.rd a).toNat 16 k { atomic := true, user := u } ∧
      stops (.faadd dbl ord d a b) (s.rd a).toNat (if dbl then 8 else 4) k { atomic := true, user := u })

/-- R384, R393 and the model's own form of memory: a byte string written under a key slot reads back under that slot, every other byte
of the same memory reads under that slot as before, and the other memory is untouched. -/
def Obligations.WritesReadBack : Prop := ∀ (s : State) (k a : Nat) (bs : List Byte), s.MemOk →
  (∀ x, (s.writePhys false k a bs).hbmByte k x = if a ≤ x ∧ x < a + bs.length then bs.getD (x - a) 0#8 else s.hbmByte k x) ∧
  (∀ j x, (∀ y, a ≤ y → y < a + bs.length → y / 128 ≠ x / 128) → (s.writePhys false k a bs).hbmByte j x = s.hbmByte j x) ∧
  (s.writePhys false k a bs).hostMem = s.hostMem ∧
  (∀ x, memByte (s.writePhys true k a bs).hostMem x = if a ≤ x ∧ x < a + bs.length then bs.getD (x - a) 0#8 else memByte s.hostMem x) ∧
  (s.writePhys true k a bs).hbm = s.hbm

/-! ## Control, system and floating-point instructions (spec 09, 19) -/

/-- R249, R250, R251: where a branch, a call and an indirect jump go, and the link they leave; a misaligned target of `JMPR` traps
`ALIGN`. `s.iss.pc` is the address of the bundle's first word, and the target of `JMPR` is read before the link is written. -/
def Obligations.ControlFlow : Prop :=
  ∀ (s : State) (p : PReg) (n : Bool) (disp : BitVec 20) (far : BitVec 24) (d a : SReg),
    let next : Nat := (s.iss.pc.toNat + 4 * s.iss.words) % 2 ^ 64
    (Clear (.br p n disp) s → ∃ t : Word, exec (.br p n disp) s = .next (s.onCur fun th => { th with pc := t }) ∧
      (t.toNat : Int) = if (s.rdP p ^^ n) = true then ((s.iss.pc.toNat : Int) + 4 * disp.toInt) % 2 ^ 64 else (next : Int)) ∧
    (Clear (.call far) s → ∃ l t : Word, exec (.call far) s = .next ((s.wr 1#7 l).onCur fun th => { th with pc := t }) ∧
      l.toNat = next ∧ (t.toNat : Int) = (s.iss.pc.toNat + 4 * far.toInt) % 2 ^ 64) ∧
    (Clear (.jmpr d a) s → (s.rd a).toNat % 4 = 0 → ∃ l : Word,
      exec (.jmpr d a) s = .next ((s.wr d l).onCur fun th => { th with pc := s.rd a }) ∧ l.toNat = next) ∧
    (Clear (.jmpr d a) s → (s.rd a).toNat % 4 ≠ 0 → exec (.jmpr d a) s = .next (s.takeTrap Cause.align (s.rd a)))

/-- R264, R221, R248: the system instructions and the fence. `NOP` does nothing; `TRAP` and `BREAK` leave their trap for after the bundle;
`HALT` stops the thread's issue; `TIME` reads `c.cycle`; `VSETL` above 4,096 traps `LENGTH` and writes nothing; a fence issues in one
turn and records where it divides the thread's accesses.
R363, R92: the return from a handler goes to `c.epc` in the mode that PM saved, with IN clear, as the others meet it from the end of
cycle c + 7 on; outside a handler it is illegal, at a
misaligned `c.epc` it traps `ALIGN`, and in a cancel handler it ends the thread. -/
def Obligations.SystemInstructions : Prop :=
  (∀ (d a : SReg) (scope : FenceScope) (kind : FenceKind) (e : Bool),
  Does .nop (fun s => s) ∧
  Does (.trap a) (fun s => { s with iss := { s.iss with after := some (0x16, s.rd a) } }) ∧
  Does .brk (fun s => { s with iss := { s.iss with after := some (0x17, 0#64) } }) ∧
  Does .halt (fun s => s.onCur fun t => { t with halted := true }) ∧
  Does (.time d) (fun s => s.wr d (BitVec.ofNat 64 s.cycle)) ∧
  Does (.kidx a) (fun s => s.onCur fun t => { t with kidx := s.rd a }) ∧
  (∀ s, Clear (.vsetl a) s → (s.rd a).toNat ≤ 4096 →
    exec (.vsetl a) s = .next (s.onCur fun t => { t with vlen := BitVec.ofNat 13 (s.rd a).toNat })) ∧
  (∀ s, Clear (.vsetl a) s → 4096 < (s.rd a).toNat → exec (.vsetl a) s = .next (s.takeTrap Cause.length (s.rd a))) ∧
  (∀ s v, exec (.vlenWrite v) s = .next (if 4096 < v.toNat then s.takeTrap Cause.length v
    else s.onCur fun t => { t with vlen := BitVec.ofNat 13 v.toNat })) ∧
  Does (.fence scope kind e) (fun s => s.onCur fun t =>
    { t with fences := t.fences ++ [{ seq := t.seq, scope := scope, kind := kind, e := e }] })) ∧
  (∀ s : State, Clear .eret s →
  (s.pre.tcause.getLsbD 15 = true → s.pre.inCancel = false → s.pre.epc.toNat % 4 = 0 → exec .eret s = .next (s.onCur fun t =>
    { t with pc := t.epc, monitor := t.tcause.getLsbD 14, tcause := t.tcause &&& ~~~0x8000#64, inTill := s.cycle + 7, inWas := t.inHandler })) ∧
  (s.pre.tcause.getLsbD 15 = false → exec .eret s = .next (s.takeTrap Cause.illegal s.wordVal)) ∧
  (s.pre.tcause.getLsbD 15 = true → s.pre.inCancel = false → s.pre.epc.toNat % 4 ≠ 0 →
    exec .eret s = .next (s.takeTrap Cause.align s.pre.epc)) ∧
  (s.pre.tcause.getLsbD 15 = true → s.pre.inCancel = true →
    exec .eret s = .next { s with iss := { s.iss with leave := some none } }))

/-- R252-R256, in the model's exact arithmetic: every scalar floating-point instruction writes the result of its operation and sets the
flags of that result alone; an f32 result leaves the upper half of `d` zero; `FSGN` sets no flag; `FCMP` writes one predicate. -/
def Obligations.FloatingPoint : Prop := ∀ (d a b : SReg) (pd : PReg),
  let gives (i : Instr) (r : State → FRes) : Prop :=
    Does i fun s => (s.wr d (BitVec.ofNat 64 (r s).bits)).onCur fun t => { t with flags := t.flags ||| (r s).flags }
  let x (sgl : Bool) (s : State) (r : SReg) : Nat := if sgl then (s.rd r).toNat % 2 ^ 32 else (s.rd r).toNat
  let tag (s : State) : NanTag := ⟨s.iss.core, s.pre.kidx.toNat⟩
  let mode (s : State) : Mode := Mode.ofCode s.pre.round.toNat
  let two (sgl : Bool) (i : Instr) (f : FFmt → Mode → NanTag → Nat → Nat → FRes) : Prop :=
    gives i fun s => f (if sgl then .f32 else .f64) (mode s) (tag s) (x sgl s a) (x sgl s b)
  (two false (.faddD d a b) fAdd ∧ two false (.fsubD d a b) fSub ∧ two false (.fmulD d a b) fMul ∧ two false (.fdivD d a b) fDiv ∧
    two false (.fminD d a b) (fun f _ _ => fMin f) ∧ two false (.fmaxD d a b) (fun f _ _ => fMax f) ∧
    gives (.fsqrtD d a) (fun s => fSqrt .f64 (mode s) (tag s) (x false s a))) ∧
  (two true (.faddS d a b) fAdd ∧ two true (.fsubS d a b) fSub ∧ two true (.fmulS d a b) fMul ∧ two true (.fdivS d a b) fDiv ∧
    two true (.fminS d a b) (fun f _ _ => fMin f) ∧ two true (.fmaxS d a b) (fun f _ _ => fMax f) ∧
    gives (.fsqrtS d a) (fun s => fSqrt .f32 (mode s) (tag s) (x true s a))) ∧
  Gives (.fsgnD d a b) d (fun s v => ∀ i < 64, v.getLsbD i = if i = 63 then (s.rd b).getLsbD 63 else (s.rd a).getLsbD i) ∧
  Gives (.fsgnS d a b) d (fun s v => ∀ i < 64, v.getLsbD i =
    if i = 31 then (s.rd b).getLsbD 31 else (decide (i < 31) && (s.rd a).getLsbD i)) ∧
  (∀ sgl neg, gives (.ffma sgl neg d a b) fun s =>
    fFma (if sgl then .f32 else .f64) (mode s) (tag s) neg (x sgl s a) (x sgl s b) (x sgl s d)) ∧
  (∀ c, gives (.fcvt c d a) fun s => fcvtResult c (mode s) (s.rd a)) ∧
  ∀ c sgl, Does (.fcmp pd c sgl a b) fun s =>
    let u := (if sgl then FFmt.f32 else .f64).decode (x sgl s a)
    let v := (if sgl then FFmt.f32 else .f64).decode (x sgl s b)
    (s.wrP pd (fcondHolds c u v)).onCur fun t => { t with flags := t.flags ||| fcondFlags c u v }

/-- R183: what one rounding of m * 2^e to a multiple of 2^q does in each mode: the multiple n it picks, whether it is inexact, and how
far n * 2^q lies from the exact value. With q > e, k = q - e bits are dropped. R183, R185, R253, R254: of finite operands, sum, difference,
product, quotient, square root and c ± a × b are the exact result rounded once, with the flags of that rounding; an exact zero has the sign
that IEEE 754 gives it; a finite number over zero is an infinity with DZ, and 0/0 and the root of a negative number are a new NaN with NV. -/
def Obligations.RoundingBrackets : Prop :=
  (∀ (mode : Mode) (neg : Bool) (m : Nat) (e q : Int),
  let r := roundAt mode neg m e q false
  (q ≤ e → r = (m * 2 ^ (e - q).toNat, false)) ∧
  (e < q →
    let k := (q - e).toNat
    (r.2 = true ↔ m % 2 ^ k ≠ 0) ∧ (m % 2 ^ k = 0 → r.1 * 2 ^ k = m) ∧
    (mode = .rtz ∨ (mode = .rup ∧ neg = true) ∨ (mode = .rdn ∧ neg = false) → r.1 * 2 ^ k ≤ m ∧ m < (r.1 + 1) * 2 ^ k) ∧
    ((mode = .rup ∧ neg = false) ∨ (mode = .rdn ∧ neg = true) → m ≤ r.1 * 2 ^ k ∧ r.1 * 2 ^ k < m + 2 ^ k) ∧
    (mode = .rne → 2 * ((r.1 * 2 ^ k : Nat) - m : Int).natAbs ≤ 2 ^ k ∧
      (2 * ((r.1 * 2 ^ k : Nat) - m : Int).natAbs = 2 ^ k → r.1 % 2 = 0)))) ∧
  (∀ (f : FFmt) (mode : Mode) (t : NanTag) (a b : Nat) (sa sb : Bool) (ma mb : Nat) (ea eb : Int), (f = .f64 ∨ f = .f32) →
    f.decode a = .fin sa ma ea → f.decode b = .fin sb mb eb →
    let x := finVal sa ma ea
    let y := finVal sb mb eb
    RoundsTo f mode (if ma = 0 ∧ mb = 0 ∧ sa = sb then sa else decide (mode = .rdn)) (x + y) (fAdd f mode t a b) ∧
    RoundsTo f mode (if ma = 0 ∧ mb = 0 ∧ sa ≠ sb then sa else decide (mode = .rdn)) (x - y) (fSub f mode t a b) ∧
    RoundsTo f mode (sa != sb) (x * y) (fMul f mode t a b) ∧
    (mb ≠ 0 → RoundsTo f mode (sa != sb) (x / y) (fDiv f mode t a b)) ∧
    (mb = 0 → fDiv f mode t a b = if ma = 0 then ⟨f.newNan t, 16#5⟩ else ⟨f.inf (sa != sb), 8#5⟩) ∧
    (ma = 0 → fSqrt f mode t a = ⟨f.zero sa, 0#5⟩) ∧ (ma ≠ 0 → sa = true → fSqrt f mode t a = ⟨f.newNan t, 16#5⟩) ∧
    (ma ≠ 0 → sa = false → RoundedOnce f mode false (fun r => r * r ≤ x) (fun r => x ≤ r * r) (fSqrt f mode t a)) ∧
    (∀ (neg : Bool) (c : Nat) (sc : Bool) (mc : Nat) (ec : Int), f.decode c = .fin sc mc ec →
      RoundsTo f mode (if mc = 0 ∧ (ma = 0 ∨ mb = 0) ∧ sc = ((sa != sb) != neg) then sc else decide (mode = .rdn))
        (finVal sc mc ec + (if neg then -1 else 1) * (x * y)) (fFma f mode t neg a b c)))

/-! ## Semaphores, presence, remote stores, groups and branches (spec 09, 11) -/

/-- R257: an index at or beyond the group's count traps `REGLIMIT`; `SWAIT` goes on when the count has reached its threshold and waits
otherwise; `SADD` and `SSET` put an update on its way that takes effect at the end of cycle c + 7; `SREAD` reads the count.
A met `SWAIT` is an acquire at cluster scope and changes no register but what its thread has come to see.
R76, R77, R302: `TAKE` and `VTAKE` copy a register and empty it, `HOLD` and `VHOLD` empty it, and then the arrivals that wait may take
effect; `TEST` reads presence. `s0` stays full. With no arrival waiting, nothing else changes. -/
def Obligations.SemaphoresAndPresence : Prop :=
  (∀ (r : SReg) (i : BitVec 8) (s : State),
  let beyond := s.me.task.sems ≤ i.toNat
  let n := s.sem s.iss.group i.toNat
  let thr := (s.rd r).toNat % 2 ^ 32
  let traps : State := s.takeTrap Cause.reglimit (i.setWidth 64)
  let update (set : Bool) : State :=
    (s.onGroup s.iss.group fun g => { g with semQ := g.semQ ++
      [{ due := s.cycle + 7, idx := i.toNat, set := set, val := thr, thread := s.iss.thread, seq := s.cur.seq }] }).onCur
      fun t => { t with seq := t.seq + 1 }
  (Clear (.swait r i) s → exec (.swait r i) s = if beyond then .next traps
    else if thr ≤ n then .next (s.followSem i.toNat) else waitOut s (.sem i.toNat thr)) ∧
  (s.iss.live = true → ∃ knows, s.followSem i.toNat = s.onCur fun t => { t with knows := knows }) ∧
  (Clear (.sadd r i) s → exec (.sadd r i) s = .next (if beyond then traps else update false)) ∧
  (Clear (.sset r i) s → exec (.sset r i) s = .next (if beyond then traps else update true)) ∧
  (Clear (.sread r i) s → exec (.sread r i) s = .next (if beyond then traps else s.wr r (BitVec.ofNat 64 n)))) ∧
  (∀ (d a : SReg) (vd va : VReg) (pd : PReg) (s : State),
  let emptied : State := s.onCur fun t => t.setReg a.toNat { t.reg a.toNat with full := false }
  let emptiedV : State := s.onCur fun t => t.setVReg va.toNat { t.vreg va.toNat with full := false }
  (Clear (.take d a) s → exec (.take d a) s = .next ((if d = a then emptied else emptied.wr d (s.rd a)).drain s.iss.group)) ∧
  (Clear (.hold a) s → exec (.hold a) s = .next (emptied.drain s.iss.group)) ∧
  (Clear (.test pd a) s → exec (.test pd a) s = .next (s.wrP pd ((s.pre.reg a.toNat).full && !(s.pre.reg a.toNat).mark))) ∧
  (Clear (.vtake vd va) s → exec (.vtake vd va) s = .next ((if vd = va then emptiedV else emptiedV.wrV vd (s.rdV va)).drain s.iss.group)) ∧
  (Clear (.vhold va) s → exec (.vhold va) s = .next (emptiedV.drain s.iss.group)) ∧
  (∀ t : State, (t.group s.iss.group).arr = [] → t.drain s.iss.group = t) ∧
  (∀ t : Thread, (t.setReg 0 { t.reg 0 with full := false }) = t))

/-- R304, R305, R80: a remote store goes on its way to the named group, or bounces at the sender: with reason SELECTOR when the selector
does not suit the instruction, with reason GONE when the name is 0. `RSV` sends the slots of its source without the bits above their
elements (R197); a source that is not well formed traps `RUNBAD`. -/
def Obligations.RemoteStores : Prop := ∀ (d a b : SReg) (vs : VReg) (trap : Bool) (s : State),
  let store (val : Word) (run : Option RunReg) : RStore :=
    { id := s.nextId, sender := s.iss.group, sthread := s.iss.thread, seq := s.cur.seq, target := (s.rd a).toNat, selector := s.rd b
      run := run, val := val, trap := trap, kind := run.isSome }
  let moved : State := { s with nextId := s.nextId + 1, cur := { s.cur with seq := s.cur.seq + 1 } }
  let bounced (r : RStore) (reason : Nat) : State :=
    { moved with bounces := s.bounces ++ [{ id := s.nextId + 1, store := r, reason := reason }], nextId := s.nextId + 2 }
  let result (ok : Prop) (r : RStore) (t : State) : Prop :=
    (¬ ok → t = bounced r 3) ∧ (ok → s.rd a = 0#64 → t = bounced r 2) ∧
    (ok → s.rd a ≠ 0#64 → t = ({ moved with rstores := s.rstores ++ [r] } : State).onCore s.iss.core fun c => { c with rsent := c.rsent + 1#64 })
  let sel := (s.rd b).toNat
  let scalar := if trap then Instr.rssT d a b else .rss d a b
  let vector := if trap then Instr.rsvT vs a b else .rsv vs a b
  (Clear scalar s → ∃ t, exec scalar s = .next t ∧
    result (sel < 2 ^ 14 ∧ (s.rd b).getLsbD 7 = false ∧ sel % 128 ≠ 0) (store (s.rd d) none) t) ∧
  (∀ ty : ElemType, Clear vector s → (s.rdV vs).type = ty.code → (s.rdV vs).wf = true → ∃ t, exec vector s = .next t ∧
    result (sel < 2 ^ 14 ∧ (s.rd b).getLsbD 7 = true ∧ sel / 16 % 8 = 0) (store 0#64 (some ((s.rdV vs).trim ty))) t) ∧
  (Clear vector s → (s.rdV vs).wf = false → exec vector s = .next (s.takeTrap Cause.runbad (vs.setWidth 64)))

/-- R58, R86, R87, R297-R301: a group's own names; the end of a thread after its bundle; `JOIN` of a group of this module that has exited
or been cancelled, or that the roll does not hold, and the wait for one that lives, or whose subtree a canceller waits for, with its register
held; the posting of `CANCEL`; `YIELD`, a `NOP` in deterministic mode; the barrier: the last thread to arrive lets the others past and goes
on. What a thread comes to follow by its `JOIN` (`learn`) or at a fenced barrier (`passBarrier`) is the model's own record of R156 and R164. -/
def Obligations.GroupInstructions : Prop := ∀ (d a : SReg),
  Does (.self d) (fun s => s.wr d s.me.name) ∧ Does (.parent d) (fun s => s.wr d s.me.parent) ∧
  Does (.lane d) (fun s => s.wr d (BitVec.ofNat 64 s.iss.thread)) ∧
  Does .yield (fun s => if (s.core s.iss.core).pool.det = true then s else s.onCur fun t => { t with yielded := true }) ∧
  Does (.exit a) (fun s => { s with iss := { s.iss with leave := some (some (s.rd a)) } }) ∧
  Does (.cancel a) (fun s => { s with nextId := s.nextId + 1, cancels := s.cancels ++
    [{ id := s.nextId, group := s.iss.group, thread := s.iss.thread, target := (s.rd a).toNat }] }) ∧
  (∀ s : State, Clear (.join d a) s → (s.rd a = 0#64 ∨ (s.rd a).toNat / 2 ^ 52 = s.firm.record.modid.toNat) →
    (∀ c ∈ s.cancels, ¬ (c.group = s.iss.group ∧ c.thread = s.iss.thread ∧ c.target = (s.rd a).toNat)) →
    let n := (s.rd a).toNat
    let met (v : View) : State := s.learn s.iss.group s.iss.thread s.cur.seq v
    let waits : Prop := s.pre.inCancel = false →
      exec (.join d a) s = .next ((s.beginWait (.join n d)).onCur fun t => t.mark d.toNat)
    (Tab.find n s.roll = none → exec (.join d a) s = .next (s.wr d 0xFFFFFFFF#64)) ∧
    ∀ e, Tab.find n s.roll = some e →
      (e.state = .exited ∨ e.state = .cancelled → (s.iss.group ∉ e.cancellers ∨
          ∀ x ∈ s.roll, n ∈ x.2.roots → x.2.state = .exited ∨ x.2.state = .cancelled) →
        exec (.join d a) s = .next ((met e.view).wr d (BitVec.ofNat 64 e.status.toNat))) ∧
      (e.state ≠ .exited → e.state ≠ .cancelled → waits) ∧
      (s.iss.group ∈ e.cancellers → (∃ x ∈ s.roll, n ∈ x.2.roots ∧ x.2.state ≠ .exited ∧ x.2.state ≠ .cancelled) → waits)) ∧
  ∀ s : State, Clear .barg s →
    (s.pre.barPass = some s.iss.pc → exec .barg s = .next (s.onCur fun t => { t with barPass := none })) ∧
    (s.pre.barPass ≠ some s.iss.pc → s.barrierReady s.iss.group (some s.iss.thread) = true → ∃ u, exec .barg s = .next u ∧
      u = ((s.passBarrier s.iss.group).onGroup s.iss.group fun g => { g with threads := g.threads.map fun t =>
        match t.wait with | some (.barrier _) => { t with wait := none, barPass := some t.pc } | _ => t }) ∧ (s.iss.live = true → u.cur.pc = s.cur.pc)) ∧
    (s.pre.barPass ≠ some s.iss.pc → s.barrierReady s.iss.group (some s.iss.thread) = false →
      exec .barg s = waitOut s (.barrier (s.allArrived s.iss.group (some s.iss.thread))))

/-- R312, R313, R314: `FORK` of whole granules that the page table maps with store rights and no world data is sent, and its
destination held; a range that is not of whole granules, is empty, or is too long or too high traps `ALIGN`. `BRSET` takes effect at the
end of cycle c + 7 for branch 0 or a live branch, else traps `PROT`; `BRDROP` of branch 0 traps `PROT`, of a live branch drops it, of
another id does nothing.
R294, R295: `SPAWN` and `SPAWN.q` of a record that passes its checks put its creation on the way, and the register of the name is
held; an address that is not a multiple of 64 traps `ALIGN`. -/
def Obligations.BranchesAndSpawning : Prop :=
  (∀ (d a b : SReg) (s : State),
  let x := (s.rd a).toNat
  let n := (s.rd b).toNat
  let whole : Prop := x % 65536 = 0 ∧ n % 65536 = 0 ∧ n ≠ 0 ∧ n ≤ 2 ^ 40 ∧ x + n ≤ 2 ^ 56
  (Clear (.fork d a b) s → whole → s.forkCheck (x / 65536) (n / 65536) = none → s.lockedAt s.iss.group s.iss.core true [(x, n)] = none →
    exec (.fork d a b) s = .next (s.sent (s.accessOf (.fork s.me.branch (x / 65536) (n / 65536)) x []
      (if d = 0#7 then .none else .scalar d false)) fun t => t.mark d.toNat)) ∧
  (Clear (.fork d a b) s → ¬ whole → exec (.fork d a b) s = .next (s.takeTrap Cause.align (s.rd a))) ∧
  (Clear (.brset a) s → (x = 0 ∨ (s.partn s.me.part).live x = true) →
    exec (.brset a) s = .next (s.onGroup s.iss.group fun g => { g with brQ := g.brQ ++ [(s.cycle + 7, x)] })) ∧
  (Clear (.brset a) s → x ≠ 0 → (s.partn s.me.part).live x = false → exec (.brset a) s = .next (s.takeTrap Cause.prot (s.rd a))) ∧
  (Clear (.brdrop a) s → x = 0 → exec (.brdrop a) s = .next (s.takeTrap Cause.prot (s.rd a))) ∧
  (Clear (.brdrop a) s → x ≠ 0 → (s.partn s.me.part).live x = false → exec (.brdrop a) s = .next s) ∧
  (Clear (.brdrop a) s → x ≠ 0 → (s.partn s.me.part).live x = true → ∃ t, exec (.brdrop a) s = .next t ∧
    (t.partn s.me.part).live x = false ∧ (∀ y, y ≠ x → (t.partn s.me.part).live y = (s.partn s.me.part).live y) ∧
    t.cur = s.cur ∧ t.groups = s.groups ∧ t.hbm = s.hbm ∧ t.hostMem = s.hostMem)) ∧
  (∀ (queued : Bool) (d a : SReg) (s : State) (ps : List Piece),
  let i := if queued then Instr.spawnQ d a else .spawn d a
  let bs := s.descBytes ps
  let r := taskOfBytes bs
  Clear i s →
    ((s.rd a).toNat % 64 = 0 → (s.rd a).toNat < 2 ^ 56 →
      s.planAll false s.iss.group s.me.branch s.iss.core { load := true, user := !s.pre.monitor } false 0 [((s.rd a).toNat, 64)] = .ok ps →
      s.lockedAt s.iss.group s.iss.core false [((s.rd a).toNat, 64)] = none →
      s.fencesAllow s.iss.group s.iss.thread s.cur.seq false = true →
      (∀ p ∈ ps, s.physPoison p.host p.addr p.len = none) → s.taskOk s.me.part bs = true →
      (r.doneSig = true → r.parent = 0#64 → r.dsem < s.me.task.sems) →
      exec i s = .next (s.sent (s.accessOf (.spawn queued r s.me.launch s.me.part s.me.pool) 0 []
        (if d = 0#7 then .none else .scalar d false)) fun t => t.mark d.toNat)) ∧
    ((s.rd a).toNat % 64 ≠ 0 → exec i s = .next (s.takeTrap Cause.align (s.rd a))))

/-! ## World, tile-command and control-register instructions (spec 09, 11) -/

/-- R132-R134, R137, R141, R144, R308, R309: with a bound slot, a key of the region and an instant whose bit 63 is clear, every world
operation is sent: a load empties its register under a pending-load mark; `WST` and `WCOMMIT` need the region's writer; `WSTAT` and
`WCLOCK` hold their register. `WBIND` of 0 unbinds the slot.
R130: `WBIND` reads the 128-byte descriptor as an ordinary load does, but for range locks, and copies it into the slot when its reserved
fields are zero, its fields lie in their ranges and its page is a world page; a descriptor whose fields break a rule traps `PROT` with its
address, and binds nothing. R103: an address in the window traps `PROT`. -/
def Obligations.WorldInstructions : Prop :=
  (∀ (vd : VReg) (w : BitVec 2) (k i : SReg) (pd : PReg) (d : SReg) (s : State) (b : Binding) (ps : List Piece),
    let key := (s.rd k).toNat
    let inst := (s.rd i).toNat
    let early : Prop := (s.rd i).getLsbD 63 = false
    let owner : Prop := s.me.name.toNat = b.writer ∧ b.writer ≠ 0
    let region := regionName ps
    let loads (noWait : Bool) (j : Instr) : Prop := Clear j s → Bound s w b (some key) ps → early → exec j s = .next
      (s.sentWorld (s.worldOpOf (.wld noWait vd pd) region ps b key inst) fun t => { t.markV vd.toNat with loads := t.loads ++ [s.nextId] })
    let dst : Dest := if d = 0#7 then .none else .scalar d false
    loads false (.wld vd w k i pd) ∧ loads true (.wldN vd w k i pd) ∧
    (∀ t, (t = ElemType.f32 ∨ t = ElemType.f64) → Clear (.wst vd w k i) s → Bound s w b (some key) ps → early → owner →
      (s.rdV vd).type = t.code → (s.rdV vd).len = b.nf → (s.rdV vd).wf = true → exec (.wst vd w k i) s = .next
        (s.sentWorld (s.worldOpOf (.wst (recordOf b.fields (t == .f64) (elemsOf ((s.rdV vd).runs t)))) region ps b key inst) id)) ∧
    (Clear (.wcommit w i) s → Bound s w b none ps → early → owner →
      exec (.wcommit w i) s = .next (s.sentWorld (s.worldOpOf .wcommit region ps b 0 inst) id)) ∧
    (Clear (.whor w i) s → Bound s w b none ps → early → exec (.whor w i) s = .next (s.sentWorld (s.worldOpOf .whor region ps b 0 inst) id)) ∧
    (Clear (.wstat d w k) s → Bound s w b (some key) ps →
      exec (.wstat d w k) s = .next (s.sent (s.accessOf (.wstat region b key) 0 ps dst) fun t => t.mark d.toNat)) ∧
    (Clear (.wclock d w) s → Bound s w b none ps →
      exec (.wclock d w) s = .next (s.sent (s.accessOf (.wclock region) b.base ps dst) fun t => t.mark d.toNat)) ∧
    (Clear (.wbind w i) s → s.worldOn (dieOfCore s.iss.core) = true → s.rd i = 0#64 →
      exec (.wbind w i) s = .next (s.onCur fun t => { t with wslots := modifyNth w.toNat (fun _ => none) t.wslots }))) ∧
  (∀ (w : BitVec 2) (a : SReg) (s : State) (ps qs : List Piece),
  let va := (s.rd a).toNat
  let ty : AccessType := { load := true, user := !s.pre.monitor }
  Clear (.wbind w a) s → s.worldOn (dieOfCore s.iss.core) = true → s.rd a ≠ 0#64 →
  (isWindow va = true → exec (.wbind w a) s = .next ((s.touch va ty).takeTrap Cause.prot s.wordVal)) ∧
  (isWindow va = false → s.plan false s.iss.core s.me.part s.me.branch va 128 ty false false = .ok ps →
  s.fencesAllow s.iss.group s.iss.thread s.cur.seq false = true → (∀ p ∈ ps, p.pool = false ∧ s.physPoison p.host p.addr p.len = none) →
    let bs := s.descBytes ps
    let b := descBinding bs
    (descReserved bs = true → b.ok = true →
      s.plan false s.iss.core s.me.part s.me.branch b.base 1 { world := true, user := !s.pre.monitor } false true = .ok qs →
      exec (.wbind w a) s = .next (s.onCur fun t => { t with wslots := modifyNth w.toNat (fun _ => some b) t.wslots })) ∧
    (descReserved bs = false ∨ b.ok = false → exec (.wbind w a) s = .next (s.takeTrap Cause.prot (s.rd a)))))

/-- R215, R216, R260, R122: `ENQ` of a command that names no shape record and no world slot appends it, with its range-lock entry, to
the queue of the issuing core, when its semaphores are the group's and its window ranges lie in the scratchpad; it waits while the
cluster's table is full; a semaphore beyond the group's count traps `REGLIMIT`. -/
def Obligations.Enqueue : Prop := ∀ (q : BitVec 3) (a : SReg) (s : State),
  let m := (s.newCmd a).withBanks s.modid s.me
  let core := s.iss.core
  let full := { m with lock := some (m.entry s.modid core m.id s.me) }
  Clear (.enq q a) s →
    (∀ n, m.semFault s.me.task.sems = some n → exec (.enq q a) s = .next (s.takeTrap Cause.reglimit (BitVec.ofNat 64 n))) ∧
    (m.semFault s.me.task.sems = none → (q = 0#3 → s.matrixOn (clusterOf core) = true) → (q = 5#3 → s.worldOn (dieOfCore core) = true) →
      (m.op < 0x10 ∨ 0x16 < m.op) → m.op ≠ 0x20 → m.op ≠ 0x21 → m.outside s.modid s.me = none →
      if Config.locks ≤ s.locksUsed (clusterOf core) then exec (.enq q a) s = waitOut s .lockTable
      else ∃ t, exec (.enq q a) s = .next t ∧ t.nextId = s.nextId + 1 ∧ t.cur = { s.cur with seq := s.cur.seq + 1 } ∧
        (t.core core).queues = modifyNth q.toNat (fun ms => ms ++ [full]) (s.core core).queues ∧
        (t.core core).tcmd = (s.core core).tcmd + 1#64 ∧ (∀ c, c ≠ core → t.core c = s.core c) ∧
        t.groups = s.groups ∧ t.hbm = s.hbm ∧ t.hostMem = s.hostMem ∧ t.acc = s.acc ∧ t.clus = s.clus ∧ t.dies = s.dies)

/-- R120, R166, R220, R221, R262: what `CSRR` reads; a read of `c.wp0`-`c.wp3` comes to see what the engines have written (`seeEngines`, the
model's own record).
R107, R220, R221, R262, R361: what `CSRW` writes: the field bits of the register alone; a write of a read-only register is discarded,
and so is a monitor's write of a core's pool registers (the model's reading of R107, assumption 41); a write of `c.bounce`, of `c.qerr`, and
of IN of `c.tcause`, is seen by others at the end of cycle c + 7 (R222); `c.vlen` above 4,096 traps `LENGTH`;
a user's write of a bit that a monitor alone may set traps `PRIV`.
R107, R361 (the value that a monitor's write leaves is the model's reading, assumption 41): a write of a trap register, as a step of
its own, keeps the reserved bits zero; a user thread that sets M or PM traps `PRIV`, and so does its write of a register of a core's pool,
bank format or mode. -/
def Obligations.ControlRegisters : Prop :=
  (∀ (d : SReg) (c : BitVec 10),
  (∀ i < 4, c.toNat = 0x010 + i → ∀ s : State, Clear (.csrr d c) s → ∃ v, exec (.csrr d c) s = .next ((s.seeEngines c.toNat).wr d v) ∧
    v.toNat / 2 ^ 48 = ((s.core s.iss.core).heads.getD i 0#16).toNat ∧ v.toNat / 2 ^ 40 % 256 = (s.queue s.iss.core (i + 1)).length % 256 ∧
    v.toNat % 2 ^ 40 = (match (s.queue s.iss.core (i + 1)).head? with | some m => m.wp % 2 ^ 40 | none => 0)) ∧
  ((c.toNat < 0x010 ∨ 0x013 < c.toNat) → Gives (.csrr d c) d fun s v =>
    (c = 0x000#10 → v = BitVec.ofNat 64 s.cycle) ∧ (c = 0x001#10 → v = BitVec.ofNat 64 s.iss.thread) ∧ (c = 0x002#10 → v = s.me.name) ∧
    (c = 0x003#10 → v = s.me.parent) ∧ (c = 0x004#10 → v.toNat = s.pre.vlen.toNat) ∧ (c = 0x005#10 → v.toNat = s.pre.flags.toNat) ∧
    (c = 0x006#10 → v.toNat = s.pre.round.toNat) ∧ (c = 0x007#10 → v.toNat = s.pre.bounce.toNat) ∧
    (c = 0x008#10 → v.toNat = s.pre.wstat.toNat) ∧ (c = 0x009#10 → v = BitVec.ofNat 64 s.me.branch) ∧
    (c = 0x00A#10 → v = BitVec.ofNat 64 s.me.prio) ∧ (c = 0x00B#10 → v.toNat = s.pre.seqbase.toNat) ∧ (c = 0x00C#10 → v = s.pre.kidx) ∧
    (c = 0x014#10 → v = (s.core s.iss.core).qerr) ∧ (c = 0x030#10 → v = BitVec.ofNat 64 (s.core s.iss.core).pool.run) ∧
    (c = 0x031#10 → v = BitVec.ofNat 64 (s.core s.iss.core).pool.scr) ∧ (c = 0x032#10 → v = BitVec.ofNat 64 (s.core s.iss.core).pool.l1) ∧
    (c = 0x043#10 → v = BitVec.ofNat 64 s.iss.core) ∧ (c = 0x050#10 → v = s.pre.tvec) ∧ (c = 0x051#10 → v = s.pre.tcause) ∧
    (c = 0x052#10 → v = s.pre.epc) ∧ (c = 0x053#10 → v = s.pre.tval) ∧
    (c = 0x054#10 → v.toNat = if (s.core s.iss.core).pool.det then 1 else 0) ∧
    (c = 0x041#10 → v = 0x1008204040#64) ∧ (c = 0x042#10 → v = BitVec.ofNat 64 (s.regcap s.iss.core)) ∧
    (c = 0x040#10 → v.toNat = s.firm.record.modid.toNat * 2 ^ 52 + s.firm.step.toNat * 2 ^ 32 +
      ((List.range 288).countP fun k => decide ((s.cluster k).part = s.partOf s.iss.core)) * 2 ^ 16 + (if s.port.cxl then 8 else 0) +
      (if s.matrixOn (clusterOf s.iss.core) then 4 else 0) + (if s.worldOn (dieOfCore s.iss.core) then 2 else 0)) ∧
    (c = 0x060#10 → (s.core s.iss.core).queues.length = 6 → v.toNat / 2 ^ 32 = (s.core s.iss.core).hallCount.toNat ∧
      v.toNat / 256 % 2 ^ 24 = ((s.core s.iss.core).queues.countP fun q => q.head?.any fun m => m.pass == .held || m.pass == .half) ∧
      v.toNat % 256 = (s.core s.iss.core).hallState.toNat) ∧
    ∀ i < 16, c.toNat = 0x020 + i → v.toNat = ((s.core s.iss.core).pool.bankfmt.getD i 0#12).toNat)) ∧
  (∀ (a : SReg) (c : BitVec 10) (s : State), Clear (.csrw a c) s →
  let v := s.rd a
  let sets (f : Thread → Thread) : Prop := exec (.csrw a c) s = .next (s.onCur f)
  (c = 0x004#10 → (if v.toNat ≤ 4096 then sets (fun t => { t with vlen := BitVec.ofNat 13 v.toNat })
    else exec (.csrw a c) s = .next (s.takeTrap Cause.length v))) ∧
  (c = 0x005#10 → sets fun t => { t with flags := BitVec.ofNat 5 v.toNat }) ∧ (c = 0x006#10 → sets fun t => { t with round := BitVec.ofNat 2 v.toNat }) ∧
  (c = 0x007#10 → sets fun t => { t with bounceQ := some (s.cycle + 7, BitVec.ofNat 32 v.toNat) }) ∧ (c = 0x008#10 → sets fun t => { t with wstat := BitVec.ofNat 3 v.toNat }) ∧
  (c = 0x00B#10 → sets fun t => { t with seqbase := BitVec.ofNat 32 v.toNat }) ∧ (c = 0x00C#10 → sets fun t => { t with kidx := v }) ∧
  (c = 0x050#10 → (if v.getLsbD 0 = true ∧ s.pre.monitor = false then exec (.csrw a c) s = .next (s.takeTrap Cause.priv s.wordVal)
    else sets (fun t => { t with tvec := v &&& ~~~2#64 }))) ∧
  (c = 0x051#10 → (if v.getLsbD 14 = true ∧ s.pre.monitor = false then exec (.csrw a c) s = .next (s.takeTrap Cause.priv s.wordVal)
    else sets (fun t => { t with tcause := v &&& 0xC0FF#64
                                 inTill := s.cycle + 7, inWas := t.inHandler }))) ∧
  (c = 0x052#10 → sets fun t => { t with epc := v }) ∧ (c = 0x053#10 → sets fun t => { t with tval := v }) ∧
  (c ∈ [0x000#10, 0x001#10, 0x002#10, 0x003#10, 0x009#10, 0x00A#10, 0x010#10, 0x011#10, 0x012#10, 0x013#10, 0x040#10, 0x041#10, 0x042#10,
      0x043#10, 0x060#10] → exec (.csrw a c) s = .next s) ∧
  ((0x020 ≤ c.toNat ∧ c.toNat ≤ 0x02F) ∨ (0x030 ≤ c.toNat ∧ c.toNat ≤ 0x032) ∨ c = 0x054#10 → exec (.csrw a c) s = .next s) ∧
  (c = 0x014#10 → v ≠ 0#64 → exec (.csrw a c) s = .next s) ∧
  (c = 0x014#10 → v = 0#64 → exec (.csrw a c) s = .next (s.onCore s.iss.core fun x => { x with qerrDue := x.qerrDue ++ [s.cycle + 7] }))) ∧
  (∀ (s : State) (v : Word),
  ((v.getLsbD 0 = false ∨ s.pre.monitor = true) → exec (.trapRegisterWrite 0x050#10 v) s = .next { s with cur := { s.cur with tvec := v &&& ~~~2#64 } }) ∧
  ((v.getLsbD 14 = false ∨ s.pre.monitor = true) → exec (.trapRegisterWrite 0x051#10 v) s = .next { s with cur := { s.cur with
    tcause := v &&& 0xC0FF#64, inTill := s.cycle + 7, inWas := s.cur.inHandler } }) ∧
  exec (.trapRegisterWrite 0x052#10 v) s = .next { s with cur := { s.cur with epc := v } } ∧
  exec (.trapRegisterWrite 0x053#10 v) s = .next { s with cur := { s.cur with tval := v } } ∧
  (s.pre.monitor = false → (v.getLsbD 0 = true → exec (.trapRegisterWrite 0x050#10 v) s = .next (s.takeTrap Cause.priv s.wordVal)) ∧
    (v.getLsbD 14 = true → exec (.trapRegisterWrite 0x051#10 v) s = .next (s.takeTrap Cause.priv s.wordVal))) ∧
  (∀ c : BitVec 10, (0x020 ≤ c.toNat ∧ c.toNat ≤ 0x02F) ∨ (0x030 ≤ c.toNat ∧ c.toNat ≤ 0x032) ∨ c = 0x054#10 →
    exec (.poolBoundaryWrite c v) s = .next (if s.pre.monitor then s else s.takeTrap Cause.priv s.wordVal)))

/-! ## Run registers and the run-vector instructions (spec 07, 10) -/

/-- R195-R198, R271: a register built from at most 64 runs that fit their type is well formed, has their total as its length and gives
the same runs back. -/
def Obligations.RunRegisters : Prop := ∀ (t : ElemType) (rs : List Run), rs.length ≤ 64 → runsLen rs ≤ 4096 →
  (∀ r ∈ rs, 1 ≤ r.len ∧ (∀ v ∈ r.elems, v < 2 ^ widthOf t) ∧ (r.isRep = false → r.len ≤ perSlot t)) →
  (mkRun t rs).wf = true ∧ (mkRun t rs).type = t.code ∧ (mkRun t rs).len = runsLen rs ∧ (mkRun t rs).used = rs.length ∧
    (mkRun t rs).runs t = rs

/-- R269, R270: the walk over several sequences of runs of one length computes, at every index, the function of the elements that stand
there, however they are compressed; the flags are those of all the elements; a literal slot takes at most `p` elements. -/
def Obligations.RunsArePointwise : Prop := ∀ (p n : Nat) (f : List Nat → FRes) (ins : List (List Run)), 1 ≤ p → ins ≠ [] →
  (∀ rs ∈ ins, runsLen rs = n ∧ ∀ r ∈ rs, 1 ≤ r.len ∧ r.len ≤ 4096) →
    let r := buildRuns p f (walkRuns ins)
    let at_ (i : Nat) : FRes := f (ins.map fun rs => (elemsOf rs).getD i 0)
    elemsOf r.1 = (List.range n).map (fun i => (at_ i).bits) ∧
    r.2 = (List.range n).foldl (fun fl i => fl ||| (at_ i).flags) 0#5 ∧
    ∀ x ∈ r.1, 1 ≤ x.len ∧ (x.isRep = false → x.len ≤ p)

/-- R267-R270, R275-R280: with well-formed sources of the instruction's type and of one length, every elementwise instruction puts into
`vd` the walk's result of its element function and sets its flags; a masked element keeps the old one; a source that is not well formed
traps `RUNBAD`. -/
def Obligations.Elementwise : Prop :=
  ∀ (vd va vb vm : VReg) (x : SReg) (t src : ElemType) (rev : Bool) (c : VCond) (rnd : RoundSel) (n : Nat) (s : State),
    let mode := Mode.ofCode s.pre.round.toNat
    let tag : NanTag := ⟨s.iss.core, s.pre.kidx.toNat⟩
    let walk (p : Nat) (ins : List (VReg × ElemType)) (f : List Nat → FRes) : List Run × Flags :=
      buildRuns p f (walkRuns (ins.map fun r => (s.rdV r.1).runs r.2))
    let mask (u : ElemType) : List (VReg × ElemType) := if vm = 0#4 then [] else [(vm, .b1), (vd, u)]
    let keep (k : Nat) (f : List Nat → FRes) (args : List Nat) : FRes :=
      if vm = 0#4 ∨ args.getD k 0 = 1 then f (args.take k) else ⟨args.getD (k + 1) 0, 0#5⟩
    let two (f : Nat → Nat → FRes) : List Nat → FRes := keep 2 fun as => f (as.getD 0 0) (as.getD 1 0)
    let one (f : Nat → FRes) : List Nat → FRes := keep 1 fun as => f (as.getD 0 0)
    let puts (i : Instr) (u : ElemType) (ins : List (VReg × ElemType)) (f : List Nat → FRes) : Prop :=
      Clear i s → (Sources s n ins → PutsRuns s i vd u (walk (perSlot u) ins f)) ∧
        ((s.rdV va).wf = false → exec i s = .next (s.takeTrap Cause.runbad (va.setWidth 64)))
    (∀ e ∈ [(Instr.vadd vd va vb vm t, VOp.add), (.vsub vd va vb vm t, .sub), (.vmul vd va vb vm t, .mul), (.vdiv vd va vb vm t, .div),
        (.vmin vd va vb vm t, .min), (.vmax vd va vb vm t, .max), (.vand vd va vb vm t, .and), (.vor vd va vb vm t, .or),
        (.vxor vd va vb vm t, .xor), (.vandn vd va vb vm t, .andn), (.vshl vd va vb vm t, .shl), (.vshr vd va vb vm t, .shr),
        (.vsra vd va vb vm t, .sra), (.vabsd vd va vb vm t, .absd), (.vcpsgn vd va vb vm t, .cpsgn)],
      puts e.1 t ([(va, t), (vb, t)] ++ mask t) (two (vopElem e.2 t mode tag))) ∧
    (∀ e ∈ [(Instr.vaddS vd va x t rev, VOp.add), (.vsubS vd va x t rev, .sub), (.vmulS vd va x t rev, .mul), (.vdivS vd va x t rev, .div),
        (.vminS vd va x t rev, .min), (.vmaxS vd va x t rev, .max), (.vandS vd va x t rev, .and), (.vorS vd va x t rev, .or),
        (.vxorS vd va x t rev, .xor), (.vandnS vd va x t rev, .andn), (.vshlS vd va x t rev, .shl), (.vshrS vd va x t rev, .shr),
        (.vsraS vd va x t rev, .sra), (.vabsdS vd va x t rev, .absd), (.vcpsgnS vd va x t rev, .cpsgn)],
      puts e.1 t [(va, t)] fun as => if rev then vopElem e.2 t mode tag ((s.rd x).toNat % 2 ^ widthOf t) (as.getD 0 0)
        else vopElem e.2 t mode tag (as.getD 0 0) ((s.rd x).toNat % 2 ^ widthOf t)) ∧
    (∀ e ∈ [(Instr.vfma vd va vb vm t, FmaForm.add), (.vfmaN vd va vb vm t, .sub), (.vfmaE vd va vb vm t, .rev)],
      puts e.1 t ([(va, t), (vb, t), (vd, t)] ++ mask t) (keep 3 fun as => vfmaElem e.2 t mode tag (as.getD 0 0) (as.getD 1 0) (as.getD 2 0))) ∧
    (∀ e ∈ [(Instr.vneg vd va vm t, VUn.neg), (.vabs vd va vm t, .abs), (.vnot vd va vm t, .not), (.vsqrt vd va vm t, .sqrt),
        (.vrsq vd va vm t, .rsq), (.vrcp vd va vm t, .rcp), (.vexp2 vd va vm t, .exp2), (.vlog2 vd va vm t, .log2),
        (.vfloor vd va vm t, .floor), (.vround vd va vm t, .round), (.vclz vd va vm t, .clz), (.vpopc vd va vm t, .popc)],
      puts e.1 t ([(va, t)] ++ mask t) (one (vunElem e.2 t mode tag))) ∧
    puts (.vcmp c vd va vb vm t) .b1 ([(va, t), (vb, t)] ++ mask .b1) (two (vcmpElem c t)) ∧
    puts (.vsel vd va vb vm t) t [(va, t), (vb, t), (vm, .b1)] (fun as => ⟨if as.getD 2 0 = 1 then as.getD 0 0 else as.getD 1 0, 0#5⟩) ∧
    puts (.vcvt vd va src vm t rnd) t ([(va, src)] ++ mask t) (one (convElem src t (roundMode rnd mode)))

/-- R281: the generators make L elements of `c.vlen`: a splat, indices, zeros, a prefix mask.
R282, R283, R284: reductions and register lengths reach a scalar register, and the restructuring instructions put the runs whose
elements and slots the manual gives: coalescing turns literal slots of equal elements into repeats, merges equal neighbours and keeps every
other literal slot; expanding packs all elements greedily into literal slots; slides shift in one repeat of zeros, and they and a slice keep
the repeats of the range, clipped, and pack its literal elements greedily between them; a catenation joins, a copy keeps every slot, and `VREV`
reverses the slots and the elements of each. -/
def Obligations.GeneratorsAndRestructuring : Prop :=
  (∀ (vd : VReg) (x : SReg) (t : ElemType) (s : State),
  let l := s.pre.vlen.toNat
  let rep (v n : Nat) : List Run := if n = 0 then [] else [.rep v n]
  let m := min (s.rd x).toNat l
  (Clear (.vspl vd x t) s → PutsRuns s (.vspl vd x t) vd t (rep ((s.rd x).toNat % 2 ^ widthOf t) l, 0#5)) ∧
  (Clear (.vclr vd t) s → PutsRuns s (.vclr vd t) vd t (rep 0 l, 0#5)) ∧
  (Clear (.vmask vd x) s → PutsRuns s (.vmask vd x) vd .b1 (rep 1 m ++ rep 0 (l - m), 0#5)) ∧
  (Clear (.viota vd t) s → ∃ rs, PutsRuns s (.viota vd t) vd t (rs, 0#5) ∧ elemsOf rs = (List.range l).map (iotaElem t) ∧
    (∀ r ∈ rs, r.isRep = false ∧ r.len ≤ perSlot t) ∧ ∀ r ∈ rs.dropLast, r.len = perSlot t)) ∧
  (∀ (vd va vb : VReg) (x : SReg) (op : RedOp) (t : ElemType) (n k : Nat) (s : State),
  let rs := (s.rdV va).runs t
  let es := elemsOf rs
  let gives (i : Instr) (ok : Prop) (els : List Nat) (slots : List Run → Prop) : Prop :=
    Clear i s → Sources s n [(va, t)] → ok → ∃ out, PutsRuns s i vd t (out, 0#5) ∧ elemsOf out = els ∧ slots out
  let equal (r : Run) : Prop := r.elems = List.replicate r.len (r.elems.headD 0)
  let coalesced (out : List Run) : Prop := out.length ≤ rs.length ∧ (∀ r ∈ out, r.isRep = false → ¬ equal r) ∧
    out.filter (fun r => !r.isRep) = rs.filter (fun r => !r.isRep && decide (¬ equal r)) ∧
    ∀ k v l w m, out[k]? = some (.rep v l) → out[k + 1]? = some (.rep w m) → v ≠ w
  let full (out : List Run) : Prop := (∀ r ∈ out, 1 ≤ r.len ∧ (r.isRep = false → r.len ≤ perSlot t)) ∧
    ∀ k r q, out[k]? = some r → out[k + 1]? = some q → r.isRep = false → q.isRep = false → r.len = perSlot t
  let reps (xs : List Run) : List (Nat × Nat × Nat) := (List.range xs.length).filterMap fun k => match (xs[k]? : Option Run) with
    | some (Run.rep v l) => some (runsLen (xs.take k), v, l)
    | _ => none
  let taken (i j : Nat) (out : List Run) : Prop := full out ∧ reps out = (reps rs).filterMap fun r =>
    if max r.1 i < min (r.1 + r.2.2) j then some (max r.1 i - i, r.2.1, min (r.1 + r.2.2) j - max r.1 i) else none
  let zero (l : Nat) : List Run := if l = 0 then [] else [.rep 0 l]
  let reads (i : Instr) (v : Word) : Prop := Clear i s → Sources s n [(va, t)] → exec i s = .next (s.wr x v)
  let m := min (s.rd x).toNat n
  let start := (s.rd x).toNat % 2 ^ 13
  let len := (s.rd x).toNat / 2 ^ 16 % 2 ^ 13
  (Clear (.vred op x va t) s → Sources s n [(va, t)] → exec (.vred op x va t) s =
    .next ((s.wr x (BitVec.ofNat 64 (reduce op t ⟨s.iss.core, s.pre.kidx.toNat⟩ rs).1)).orFlags (reduce op t ⟨s.iss.core, s.pre.kidx.toNat⟩ rs).2)) ∧
  reads (.vlen x va t) (BitVec.ofNat 64 n) ∧ reads (.vnrun x va t) (BitVec.ofNat 64 (s.rdV va).used) ∧
  ((s.rd x).toNat < n → reads (.vextr x va t) (BitVec.ofNat 64 (if t.isInt then ext64 t (es.getD (s.rd x).toNat 0) else es.getD (s.rd x).toNat 0))) ∧
  (Clear (.vextr x va t) s → Sources s n [(va, t)] → n ≤ (s.rd x).toNat → exec (.vextr x va t) s = .next (s.takeTrap Cause.length (s.rd x))) ∧
  gives (.vcoal vd va t) True es coalesced ∧
  gives (.vexpand vd va t) True es (fun out => full out ∧ ∀ r ∈ out, r.isRep = false) ∧
  gives (.vmov vd va t) True es (fun out => out = rs) ∧
  gives (.vrev vd va t) True es.reverse (fun out => out = rs.reverse.map fun r => match r with | .rep v l => .rep v l | .lit vs => .lit vs.reverse) ∧
  gives (.vsldu vd va x t) True (List.replicate m 0 ++ es.take (n - m)) (fun out => ∃ part, out = zero m ++ part ∧ taken 0 (n - m) part) ∧
  gives (.vsldd vd va x t) True (es.drop m ++ List.replicate m 0) (fun out => ∃ part, out = part ++ zero m ∧ taken m n part) ∧
  gives (.vslice vd va x t) (start + len ≤ n) ((es.drop start).take len) (taken start (start + len)) ∧
  (Clear (.vslice vd va x t) s → Sources s n [(va, t)] → n < start + len →
    exec (.vslice vd va x t) s = .next (s.takeTrap Cause.length (BitVec.ofNat 64 (start + len)))) ∧
  (Clear (.vcat vd va vb t) s → Sources s n [(va, t)] → Sources s k [(vb, t)] →
    if n + k ≤ 4096 then PutsRuns s (.vcat vd va vb t) vd t (rs ++ (s.rdV vb).runs t, 0#5)
    else exec (.vcat vd va vb t) s = .next (s.takeTrap Cause.length (BitVec.ofNat 64 (n + k)))))

/-- R252-R257, R267-R284, R76, R302: with nothing against it, and on operands that its own rule admits, every instruction of these families
completes. A scalar floating-point form writes one register and sticky flags, an f32 result in the low half alone; `FSGN` keeps the magnitude
and sets no flag; `FCMP` writes one predicate and sets no flag but NV. A vector form whose sources are well formed and of one length n, at
most 64, writes a well-formed register of its type and of n elements, and sticky flags; so do the generators for `c.vlen` elements, and the
restructuring forms for the lengths that the manual gives. Reductions and register lengths write one scalar register. A semaphore form
completes with an index below the group's count, `SWAIT` once its threshold is reached; the presence forms always do. -/
def Obligations.FormsComplete : Prop :=
  (∀ (d a b : SReg) (pd : PReg) (s : State),
  let gives (i : Instr) (sgl : Bool) : Prop := Clear i s →
    ∃ v fl, exec i s = .next ((s.wr d v).orFlags fl) ∧ (sgl = true → v.toNat < 2 ^ 32)
  (∀ i ∈ [Instr.faddD d a b, .fsubD d a b, .fmulD d a b, .fdivD d a b, .fminD d a b, .fmaxD d a b, .fsqrtD d a], gives i false) ∧
  (∀ i ∈ [Instr.faddS d a b, .fsubS d a b, .fmulS d a b, .fdivS d a b, .fminS d a b, .fmaxS d a b, .fsqrtS d a], gives i true) ∧
  (Clear (.fsgnD d a b) s → ∃ v, exec (.fsgnD d a b) s = .next (s.wr d v) ∧ v.toNat % 2 ^ 63 = (s.rd a).toNat % 2 ^ 63) ∧
  (Clear (.fsgnS d a b) s → ∃ v, exec (.fsgnS d a b) s = .next (s.wr d v) ∧ v.toNat < 2 ^ 32 ∧ v.toNat % 2 ^ 31 = (s.rd a).toNat % 2 ^ 31) ∧
  (∀ sgl neg, gives (.ffma sgl neg d a b) sgl) ∧
  (∀ c, gives (.fcvt c d a) (decide (c = .f32f64 ∨ c = .f32i64))) ∧
  (∀ c sgl, Clear (.fcmp pd c sgl a b) s → ∃ v fl, exec (.fcmp pd c sgl a b) s = .next ((s.wrP pd v).orFlags fl) ∧ (fl = 0#5 ∨ fl = nv))) ∧
  (∀ (vd va vb vm : VReg) (x : SReg) (t src : ElemType) (rev : Bool) (c : VCond) (rnd : RoundSel) (n k : Nat) (s : State), n ≤ 64 →
  let puts (i : Instr) (u : ElemType) (m : Nat) : Prop := ∃ r fl, exec i s = .next ((s.wrV vd r).orFlags fl) ∧
    r.wf = true ∧ r.type = u.code ∧ r.len = m
  let mask (u : ElemType) : List (VReg × ElemType) := if vm = 0#4 then [] else [(vm, .b1), (vd, u)]
  let from_ (ins : List (VReg × ElemType)) (i : Instr) (u : ElemType) (m : Nat) : Prop := Clear i s → Sources s n ins → puts i u m
  (∀ i ∈ [Instr.vadd vd va vb vm t, .vsub vd va vb vm t, .vmul vd va vb vm t, .vdiv vd va vb vm t, .vmin vd va vb vm t, .vmax vd va vb vm t,
      .vand vd va vb vm t, .vor vd va vb vm t, .vxor vd va vb vm t, .vandn vd va vb vm t, .vshl vd va vb vm t, .vshr vd va vb vm t,
      .vsra vd va vb vm t, .vabsd vd va vb vm t, .vcpsgn vd va vb vm t], from_ ([(va, t), (vb, t)] ++ mask t) i t n) ∧
  (∀ i ∈ [Instr.vaddS vd va x t rev, .vsubS vd va x t rev, .vmulS vd va x t rev, .vdivS vd va x t rev, .vminS vd va x t rev,
      .vmaxS vd va x t rev, .vandS vd va x t rev, .vorS vd va x t rev, .vxorS vd va x t rev, .vandnS vd va x t rev, .vshlS vd va x t rev,
      .vshrS vd va x t rev, .vsraS vd va x t rev, .vabsdS vd va x t rev, .vcpsgnS vd va x t rev], from_ [(va, t)] i t n) ∧
  (∀ i ∈ [Instr.vfma vd va vb vm t, .vfmaN vd va vb vm t, .vfmaE vd va vb vm t], from_ ([(va, t), (vb, t), (vd, t)] ++ mask t) i t n) ∧
  (∀ i ∈ [Instr.vneg vd va vm t, .vabs vd va vm t, .vnot vd va vm t, .vsqrt vd va vm t, .vrsq vd va vm t, .vrcp vd va vm t,
      .vexp2 vd va vm t, .vlog2 vd va vm t, .vfloor vd va vm t, .vround vd va vm t, .vclz vd va vm t, .vpopc vd va vm t],
    from_ ([(va, t)] ++ mask t) i t n) ∧
  from_ ([(va, t), (vb, t)] ++ mask .b1) (.vcmp c vd va vb vm t) .b1 n ∧
  from_ [(va, t), (vb, t), (vm, .b1)] (.vsel vd va vb vm t) t n ∧
  from_ ([(va, src)] ++ mask t) (.vcvt vd va src vm t rnd) t n ∧
  (s.pre.vlen.toNat = n → (∀ i ∈ [Instr.vspl vd x t, .viota vd t, .vclr vd t], Clear i s → puts i t n) ∧
    (Clear (.vmask vd x) s → puts (.vmask vd x) .b1 n)) ∧
  (∀ i ∈ [Instr.vcoal vd va t, .vexpand vd va t, .vmov vd va t, .vrev vd va t, .vsldu vd va x t, .vsldd vd va x t], from_ [(va, t)] i t n) ∧
  (let start := (s.rd x).toNat % 2 ^ 13
   let len := (s.rd x).toNat / 2 ^ 16 % 2 ^ 13
   start + len ≤ n → from_ [(va, t)] (.vslice vd va x t) t len) ∧
  (Clear (.vcat vd va vb t) s → Sources s n [(va, t)] → Sources s k [(vb, t)] → n + k ≤ 64 → puts (.vcat vd va vb t) t (n + k))) ∧
  (∀ (x : SReg) (va : VReg) (op : RedOp) (t : ElemType) (n : Nat) (s : State), Sources s n [(va, t)] →
  let writes (i : Instr) : Prop := Clear i s → ∃ v, exec i s = .next (s.wr x v)
  (Clear (.vred op x va t) s → ∃ v fl, exec (.vred op x va t) s = .next ((s.wr x v).orFlags fl)) ∧
  writes (.vlen x va t) ∧ writes (.vnrun x va t) ∧ ((s.rd x).toNat < n → writes (.vextr x va t))) ∧
  (∀ (r : SReg) (j : BitVec 8) (s : State), j.toNat < s.me.task.sems → s.iss.live = true →
  let sent (set : Bool) (i : Instr) : Prop := Clear i s → ∃ u, exec i s = .next ((s.onGroup s.iss.group fun g => { g with
    semQ := g.semQ ++ [u] }).onCur fun t => { t with seq := t.seq + 1 }) ∧
      u.due = s.cycle + 7 ∧ u.idx = j.toNat ∧ u.set = set ∧ u.val = (s.rd r).toNat % 2 ^ 32
  (Clear (.swait r j) s → (s.rd r).toNat % 2 ^ 32 ≤ s.sem s.iss.group j.toNat →
    ∃ knows, exec (.swait r j) s = .next (s.onCur fun t => { t with knows := knows })) ∧
  sent false (.sadd r j) ∧ sent true (.sset r j) ∧
  (Clear (.sread r j) s → exec (.sread r j) s = .next (s.wr r (BitVec.ofNat 64 (s.sem s.iss.group j.toNat))))) ∧
  (∀ (d a : SReg) (vd va : VReg) (pd : PReg) (s : State), s.iss.live = true → s.me.arr = [] →
  let empty (t : Thread) : Thread := t.setReg a.toNat { t.reg a.toNat with full := false }
  let emptyV (t : Thread) : Thread := t.setVReg va.toNat { t.vreg va.toNat with full := false }
  (Clear (.take d a) s → exec (.take d a) s = .next (if d = a then s.onCur empty else (s.onCur empty).wr d (s.rd a))) ∧
  (Clear (.hold a) s → exec (.hold a) s = .next (s.onCur empty)) ∧
  (Clear (.test pd a) s → ∃ v, exec (.test pd a) s = .next (s.wrP pd v)) ∧
  (Clear (.vtake vd va) s → exec (.vtake vd va) s = .next (if vd = va then s.onCur emptyV else (s.onCur emptyV).wrV vd (s.rdV va))) ∧
  (Clear (.vhold va) s → exec (.vhold va) s = .next (s.onCur emptyV)))

/-- R286, R287: the loads of dense, strided, gathered and stream forms are sent with the ranges of their elements and empty their register
under a pending-load mark; the stores are posted with the bytes of their source; no byte of memory changes at issue. A gather makes one
access for a repeated index. A stream that is not 16-byte aligned traps `ALIGN`. -/
def Obligations.VectorMemory : Prop :=
  ∀ (v vi : VReg) (b x : SReg) (t u : ElemType) (elem : Bool) (n : Nat) (s : State) (ps : List Piece),
    let base := (s.rd b).toNat
    let w := widthOf t
    let l := s.pre.vlen.toNat
    let rd : AccessType := { load := true, user := !s.pre.monitor }
    let wr : AccessType := { store := true, user := !s.pre.monitor }
    let sends (i : Instr) (plan : List (Bool × Nat)) (rs : List (Nat × Nat)) : Prop := Clear i s → ReachesAll s rd rs ps →
      (shapeOf t plan).length ≤ 64 → exec i s = .next (s.sent (s.accessOf .load base ps (.run v t plan)) fun th => th.markV v.toNat)
    let posts (i : Instr) (rs : List (Nat × Nat)) (bs : List Byte) : Prop := Clear i s → ReachesAll s wr rs ps →
      exec i s = .next (s.sent (s.accessOf .store base (ps.map fun p => { p with data := (bs.drop p.off).take p.len }) .none) id)
    let strided (k : Nat) : List (Nat × Nat) := (List.range k).map fun i => ((s.rd b + s.rd x * BitVec.ofNat 64 i).toNat, w / 8)
    let els := elemsOf ((s.rdV v).runs t)
    let dense := toBytesLE ((w * els.length + 7) / 8) (pack w els)
    let stream := toBytesLE 16 (s.rdV v).hdr.toNat ++
      ((s.rdV v).slots.take (s.rdV v).used).flatMap fun y => toBytesLE 16 (y.payload.toNat + y.hdr.toNat * 2 ^ 64)
    let index (y : Nat) : Nat := (s.rd b + BitVec.ofInt 64 (intOf u y) * BitVec.ofNat 64 (if elem then w / 8 else 1)).toNat
    sends (.vldDense v b t) (if l = 0 then [] else [(false, l)]) [(base, (w * l + 7) / 8)] ∧
    sends (.vldStr v b x t) (if l = 0 then [] else [(false, l)]) (strided l) ∧
    (Clear (.vldDense v b t) s → l = 0 → exec (.vldDense v b t) s = .next (s.wrV v (mkRun t []))) ∧
    (Sources s n [(v, t)] → posts (.vstDense v b t) [(base, (w * els.length + 7) / 8)] dense ∧
      posts (.vstStr v b x t) (strided els.length) (els.flatMap (toBytesLE (w / 8)))) ∧
    (base % 16 = 0 → (Clear (.vldRuns v b t) s → ReachesAll s rd [(base, 16)] ps →
        exec (.vldRuns v b t) s = .next (s.sent (s.accessOf .load base ps (.stream v t base false)) fun th => th.markV v.toNat)) ∧
      (Sources s n [(v, t)] → posts (.vstRuns v b t) [(base, stream.length)] stream)) ∧
    (base % 16 ≠ 0 → (Clear (.vldRuns v b t) s → exec (.vldRuns v b t) s = .next (s.takeTrap Cause.align s.wordVal)) ∧
      (Clear (.vstRuns v b t) s → Sources s n [(v, t)] → exec (.vstRuns v b t) s = .next (s.takeTrap Cause.align s.wordVal))) ∧
    (u.isInt = true → Sources s n [(vi, u)] →
      (let rs := (s.rdV vi).runs u
       sends (.vgth v b vi t elem) (rs.map fun r => (r.isRep, r.len)) ((gatherIdx rs).map fun y => (index y, w / 8))) ∧
      (Sources s n [(v, t)] → let prs := scatterPairs ((s.rdV vi).runs u) ((s.rdV v).runs t)
       posts (.vsct v b vi t elem) (prs.map fun p => (index p.1, w / 8)) (prs.flatMap fun p => toBytesLE (w / 8) p.2)))

/-- R288, R289: a bank-decoded form reaches the bank of the group's scratchpad that its base lies in. A load of n whole elements below the
extent decodes the bank's bytes at once. A store to a bank of a q format or f4 with scales writes whole blocks and their scales; one to a raw
bank its elements; one to a q format or f4 without scales its elements converted under scale 2^0; one to a bank of a floating-point format its
elements under the scales that the bank holds, with the flags of those roundings. No other byte of the scratchpad changes, no other register,
and no memory or access. That a block-scaled store, of an f4 bank too, leaves `c.flags` alone is the model's own reading (assumption 24);
R187 sets flags for a conversion to f4. -/
def Obligations.BankForms : Prop := ∀ (v : VReg) (b e : SReg) (t : ElemType) (k : BankRef) (e0 n : Nat) (rs : List (Nat × Nat)) (s : State),
  Unhurried s → (Tab.find s.iss.group s.groups).isSome → s.me.bad = [] → s.bankOf (s.rd b).toNat = some k →
  k.first (k.fmt.width (widthOf t)) = some e0 → (k.fmt = .raw ∨ t.isFloat = true) →
  (∀ r ∈ rs, r.2 ≠ 0 → InScratch s false r.1 r.2 ∧ InScratch s true r.1 r.2) →
    let w := k.fmt.width (widthOf t)
    let aux := (s.rd e).toNat
    let held := rs.flatMap fun r => memBytes s.me.scratch (windowOff r.1) r.2
    let puts (i : Instr) (m : List Host.Cell) (flags : Flags) : Prop := ∃ u, exec i s = .next u ∧
      u.groups = (s.onGroup s.iss.group fun g => { g with scratch := m }).groups ∧
      u.cur = { s.cur with flags := s.cur.flags ||| flags } ∧ u.acc = s.acc ∧ u.hbm = s.hbm ∧ u.hostMem = s.hostMem ∧ u.roll = s.roll
    let past (i : Nat) : Prop := aux ≠ 0 ∧ aux ≤ e0 + i
    (Clear (.vldBank v b e t) s → (n = if aux = 0 then s.pre.vlen.toNat else min s.pre.vlen.toNat (aux - e0)) → n ≤ 64 * perSlot t → 0 < n →
      k.ranges w e0 (e0 + n) = some rs →
      let els := bankElems t (k.reg % 16) s.pre.round.toNat n e0 k.blk held
      exec (.vldBank v b e t) s = .next ((s.wrV v (mkRun t (packLits t (els.map (·.bits))))).orFlags
        (flagsOf els))) ∧
    (Clear (.vstBank v b e t) s → Sources s n [(v, t)] → 0 < n → k.fmt.isScaled = true → k.blk ≠ 0 → e0 % k.blk = 0 →
      let blocks := storeBlocks k.fmt k.blk e0 aux (s.sourceVals t v)
      k.ranges (k.fmt.width 0) e0 (e0 + blocks.length * k.blk) = some rs →
      puts (.vstBank v b e t) (memPuts (memPuts s.me.scratch (windowOff (rs.getD 0 (0, 0)).1)
        (denseBytes (k.fmt.width 0) (blocks.flatMap (·.2)))) (windowOff (rs.getD 1 (0, 0)).1) (blocks.map fun x => BitVec.ofNat 8 x.1)) 0#5) ∧
    (Clear (.vstBank v b e t) s → Sources s n [(v, t)] → 0 < n → k.fmt = .raw → k.ranges w e0 (e0 + n) = some rs →
      puts (.vstBank v b e t) (memPuts s.me.scratch (windowOff (rs.getD 0 (0, 0)).1)
        (denseBytes w (((List.range n).zip (elemsOf ((s.rdV v).runs t))).map fun x => if past x.1 then 0 else x.2))) 0#5) ∧
    (Clear (.vstBank v b e t) s → Sources s n [(v, t)] → 0 < n → k.fmt ≠ .raw → (k.fmt.isScaled = false ∨ k.blk = 0) →
      k.ranges w e0 (e0 + n) = some rs →
      let scales := if k.blk = 0 then [] else memBytes s.me.scratch (windowOff (rs.getD 1 (0, 0)).1) (rs.getD 1 (0, 0)).2
      let out := ((List.range n).zip (s.sourceVals t v)).map fun x => if past x.1 then (⟨0, 0#5⟩ : FRes)
        else if k.fmt = .f4 then toF4 x.2 else k.fmt.encode (scaleAt k.blk e0 scales (e0 + x.1)) x.2
      puts (.vstBank v b e t) (memPuts s.me.scratch (windowOff (rs.getD 0 (0, 0)).1) (denseBytes w (out.map (·.bits)))) (flagsOf out))

/-! ## Encodings (spec 08) -/

/-- R204, R207-R212: the decoder gives back every instruction that the encoder has a word for, with every operand. -/
def Obligations.DecodeEncode : Prop := ∀ (i : Instr) (w : Code), encode i = some w → decodeWord w = some i

/-- R204, R213: no word is given a meaning but the one whose word it is: what the decoder accepts is, with P clear, the word that the
encoder gives to what it decodes to; no bit of a word but P is ignored. Every word that no encoding assigns traps `ILLEGAL` with the word
in `c.tval`. -/
def Obligations.EncodeDecode : Prop :=
  (∀ (w : Code) (i : Instr), decodeWord w = some i → encode i = some (w &&& 0x7FFFFFFF#32)) ∧
  ∀ (w : Code) (s : State), decodeWord w = none → instrOf w = .unassignedEncoding w ∧
    exec (instrOf w) s = .next (s.takeTrap Cause.illegal (w.setWidth 64))

/-- R204, R209-R212: words that the manual writes out, and what they stand for. -/
def Obligations.DecodeSamples : Prop :=
  decodeWord 0x0E1C1FC0#32 = some (.lui 14 0x1FC0) ∧ decodeWord 0x17100802#32 = some (.ldq 8 2 2) ∧
  decodeWord 0x24500019#32 = some (.br 2 true 25) ∧ decodeWord 0x88180004#32 = some (.addi 12 0 4) ∧
  decodeWord 0x47400042#32 = some (.viota 4 .i32) ∧ decodeWord 0x2C0C3001#32 = some (.spawnQ 6 12) ∧
  decodeWord 0x313400DA#32 = some (.wldN 3 1 0 13 2) ∧ decodeWord 0x33003501#32 = some (.wcommit 1 13) ∧
  decodeWord 0x00000006#32 = some (.shl 0 0 0) ∧ decodeWord 0x3F000000#32 = none ∧ decodeWord 0x39000010#32 = none

/-- R207, R210, R213, R214, R70, R77, R242: before an instruction of a word has any effect, in this order: fields that break a condition
trap `ILLEGAL` with the word; a privileged instruction of a user traps `PRIV`; a register at or above the thread's limit traps `REGLIMIT`
with its number, scalar fields in their order before run registers (which of several is the model's choice, assumption 92); an empty register
that it reads or writes, a marked one that it empties, and a predicate or `c.wstat` that a world load holds keep it back; for a poisoned one that
it reads, a machine-check record is queued and the thread waits until its posting, and then traps `POISON` with the register's number; in a
handler that trap is fatal. A word that no encoding assigns traps `ILLEGAL`. -/
def Obligations.SharedChecks : Prop := ∀ (i : Instr) (s : State), (encode i).isSome →
  (i.illFormed.isSome → exec i s = .next (s.takeTrap Cause.illegal s.wordVal)) ∧
  (i.illFormed = none → privileged i = true → s.pre.monitor = false → exec i s = .next (s.takeTrap Cause.priv s.wordVal)) ∧
  (i.illFormed = none → (privileged i = true → s.pre.monitor = true) →
    let u := regUse i
    (∀ r, u.fields.find? (fun r => decide (s.pre.regs.length ≤ r)) = some r →
      exec i s = .next (s.takeTrap Cause.reglimit (BitVec.ofNat 64 r))) ∧
    ((∀ r ∈ u.fields, r < s.pre.regs.length) →
      (∀ r, u.vfields.find? (fun r => decide (s.pre.vregs.length ≤ r)) = some r →
        exec i s = .next (s.takeTrap Cause.reglimit (BitVec.ofNat 64 r))) ∧
      ((∀ r ∈ u.vfields, r < s.pre.vregs.length) →
      (∀ r, u.reads.find? (fun r => !(s.pre.reg r).full) = some r → exec i s = waitOut s (.scalar (BitVec.ofNat 7 r))) ∧
      ((∀ r ∈ u.reads, (s.pre.reg r).full = true) →
        (∀ r, u.vreads.find? (fun r => !(s.pre.vreg r).full) = some r → exec i s = waitOut s (.run (BitVec.ofNat 4 r))) ∧
        ((∀ r ∈ u.vreads, (s.pre.vreg r).full = true) →
          (∀ r rest, (u.writes ++ u.hidden).filter (fun r => !(s.pre.reg r).full) ++ u.empties.filter (fun r => (s.pre.reg r).mark) = r :: rest →
            exec i s = waitOut s (.scalar (BitVec.ofNat 7 r))) ∧
          ((∀ r ∈ u.writes ++ u.hidden, (s.pre.reg r).full = true) → (∀ r ∈ u.empties, (s.pre.reg r).mark = false) →
            (∀ r rest, u.vwrites.filter (fun r => !(s.pre.vreg r).full) ++ u.vempties.filter (fun r => (s.pre.vreg r).mark) = r :: rest →
              exec i s = waitOut s (.run (BitVec.ofNat 4 r))) ∧
            ((∀ r ∈ u.vwrites, (s.pre.vreg r).full = true) → (∀ r ∈ u.vempties, (s.pre.vreg r).mark = false) → s.pre.loads ≠ [] →
              (u.wstat = true ∨ ∃ p ∈ u.preads ++ u.pwrites, p ∈ s.loadPreds) → exec i s = waitOut s .world)))) ∧
      (∀ r l, regWait u s = none → ((u.reads.findSome? fun r => (s.pre.reg r).poison.map fun l => (r, l)).or
          (u.vreads.findSome? fun r => (s.pre.vreg r).poison.map fun l => (r, l))) = some (r, l) → s.iss.live = true →
        (s.pre.inHandler = true → ∃ u, exec i s = .next u ∧ u.cur.exited = true) ∧
        (s.pre.inHandler = false → s.pre.inCancel = false → ∃ u f, exec i s = .next u ∧
          u.cur = { s.pre with pc := s.iss.pc, wait := some (.post s.nextId) } ∧
          (u.die (dieOfCore s.iss.core)).fqWait = (s.die (dieOfCore s.iss.core)).fqWait ++ [f] ∧ f.id = s.nextId ∧ f.kind = 4 ∧
          f.cause = Cause.poison ∧ f.detail = l ∧ f.pc = s.iss.pc.toNat ∧
          f.target = .trap s.iss.group s.iss.thread Cause.poison (BitVec.ofNat 64 r) none))))) ∧
  ∀ w : Code, exec (.unassignedEncoding w) s = .next (s.takeTrap Cause.illegal (w.setWidth 64))

/-! ## Turns, steps and bundles (spec 03, 08) -/

/-- R204, R205, R206, R213: a step of a core whose thread stands at a word with P = 0 runs the instruction that the word decodes to, with
the program counter at the address that follows; a word that no encoding assigns runs as `UNASSIGNED_ENCODING`. What follows the bundle
is `afterBundle`, and the thread goes back into its slot. Its first read of registers that arrivals filled is an acquire (R81), which
changes what the thread has come to see and nothing else (`meetArrivals`). -/
def Obligations.StepRunsBundle : Prop := ∀ (s b : State) (w : Code), StepIssues s b → b.fetch b.iss.pc.toNat = .word w → w.getLsbD 31 = false →
  let l : State := { b with cur := { b.cur with pc := b.iss.pc + 4#64 }
                            iss := { b.iss with words := 1, sWord := w, vWord := if w.getLsbD 30 then w else 0#32, inV := w.getLsbD 30 } }
  ∀ i, (decodeWord w = some i ∨ (decodeWord w = none ∧ i = .unassignedEncoding w)) →
    let m : State := l.meetArrivals (regUse i)
    ((∀ r, (l.pre.reg r).acq = {}) → (∀ r, (l.pre.vreg r).acq = {}) → m = l) ∧
    (∀ u, exec i m = .next u → step s = .next (if u.iss.ended then u else u.afterBundle).finish) ∧
    (∀ f, exec i m = .fault f → step s = .fault f) ∧ (∀ f, exec i m = .refused f → step s = .refused f)

/-- R205, R206, R214: a two-word bundle. Both words read the registers as they stand before the bundle, and the V-word's effect follows
the S-word's; where the S-word traps or waits, the V-word has no effect; a word sequence that is no bundle traps `BUNDLE` with the
offending word; a word that is no instruction, and an `ERET` outside a handler, traps `ILLEGAL`; two words that name one destination trap
`BUNDLE` with the V-word. -/
def Obligations.TwoWordBundles : Prop := ∀ (s b : State) (w v : Code), StepIssues s b →
  b.fetch b.iss.pc.toNat = .word w → w.getLsbD 31 = true → b.fetch (b.iss.pc.toNat + 4) = .word v →
  let both : State := { b with cur := { b.cur with pc := b.iss.pc + 8#64 }
                               iss := { b.iss with words := 2, sWord := w, vWord := v, inV := false } }
  let met : State := (both.meetArrivals (regUse (instrOf w))).meetArrivals (regUse (instrOf v))
  let l (inV : Bool) : State := { met with iss := { met.iss with inV := inV } }
  (w.getLsbD 30 = true → step s = .next (b.takeTrap Cause.bundle (w.setWidth 64)).finish) ∧
  (w.getLsbD 30 = false → v.getLsbD 30 = false ∨ v.getLsbD 31 = true → step s = .next (b.takeTrap Cause.bundle (v.setWidth 64)).finish) ∧
  (w.getLsbD 30 = false → v.getLsbD 30 = true → v.getLsbD 31 = false →
    (decodeWord w = none → step s = .next ((l false).takeTrap Cause.illegal (w.setWidth 64)).finish) ∧
    (decodeWord w = some .eret → b.pre.tcause.getLsbD 15 = false → step s = .next ((l false).takeTrap Cause.illegal (w.setWidth 64)).finish) ∧
    ∀ i, decodeWord w = some i → i.illFormed = none → (i = .eret → b.pre.tcause.getLsbD 15 = true) →
      (decodeWord v = none → step s = .next ((l false).takeTrap Cause.illegal (v.setWidth 64)).finish) ∧
      ∀ j, decodeWord v = some j → j.illFormed = none →
        (clash (regUse i) (regUse j) = true → step s = .next ((l false).takeTrap Cause.bundle (v.setWidth 64)).finish) ∧
        (clash (regUse i) (regUse j) = false → Clear i (l false) → Clear j (l true) → ∀ s1, exec i (l false) = .next s1 →
          (s1.iss.ended = true → step s = .next s1.finish) ∧
          (s1.iss.ended = false → ∀ sv s2, exec j (l true) = .next sv → sv.iss.ended = false →
            exec j ({ s1 with iss := { s1.iss with inV := true } }) = .next s2 → s2.iss.ended = false → step s = .next s2.afterBundle.finish)))

/-- R70-R73, R380: whose turn it is. A core picks no thread while its partition is stopped or the device is shut down; in throughput mode
it picks the first ready thread after the slot that issued last, and only when its slot's last turn lies at least 8 cycles back; in
deterministic mode the thread in slot `c.cycle` mod P when that one is ready. A turn without a thread changes the turn pointer alone; when
every core has had its turn, the cycle ends, with the writes of `c.qerr` that are due. An event that the agenda names is that event's
step. The agenda, and the order of the cores' turns within a cycle, are the model's choice (assumption 1). -/
def Obligations.Turns : Prop := ∀ (s : State) (c : Nat),
  (∀ g t, s.pick c = some (g, t) → (s.partn (s.partOf c)).stop = false ∧ s.firm.shutdown = false ∧ s.ready g t = true ∧
    ∃ k, s.slotThread c k = some (g, t) ∧
      ((s.core c).pool.det = true → k = s.cycle % detPeriod (s.core c).high) ∧
      ((s.core c).pool.det = false → (∀ l, Tab.find (s.thread g t).slot (s.core c).turns = some l → l + 8 ≤ s.cycle) ∧
        let first := match (s.core c).last with | none => 0 | some l => l + 1
        ∃ n, n < 64 ∧ k = (first + n) % 64 ∧ ∀ m < n, ∀ g' t', s.slotThread c ((first + m) % 64) = some (g', t') → s.ready g' t' = false)) ∧
  (s.agenda = [] → s.nextCore s.turnPtr = none → ∃ u, step s = .next u ∧ u.cycle = s.cycle + 1 ∧ u.turnPtr = 0 ∧
    ((∀ x ∈ s.cores, x.2.qerrDue = []) → u = { s with cycle := s.cycle + 1, turnPtr := 0 })) ∧
  (s.agenda = [] → s.nextCore s.turnPtr = some c → (s.settle c).pick c = none → step s = .next { s.settle c with turnPtr := c + 1 }) ∧
  ∀ i rest, s.agenda = .event i :: rest → isEvent i = true → step s = exec i { s with agenda := rest }

/-- R72, R85, R92, R93, R206, R265: what ends a turn. A bundle that ends its thread leaves the status of thread 0; `TRAP` and `BREAK` trap
with the following bundle's address; the 4,096th bundle of a cancel handler ends the thread; the thread goes back into its slot, whose
last turn is this cycle, and every other thread of the group stays as it is. -/
def Obligations.TurnEnds : Prop := ∀ s : State, s.iss.live = true →
  (s.iss.leave = none → s.iss.after = none → s.pre.inCancel = false → s.afterBundle = s) ∧
  (∀ k x, s.iss.leave = none → s.iss.after = some (k, x) → s.pre.inCancel = false →  s.cur.exited = false →
    s.afterBundle = s.deliver s.iss.group s.iss.thread k x s.cur.pc none) ∧
  (∀ v gr, s.iss.leave = some (some v) → s.iss.thread = 0 → s.pre.inCancel = false → Tab.find s.iss.group s.groups = some gr →
    s.afterBundle = ({ s with groups := Tab.put s.iss.group { gr with status0 := v.setWidth 32 } s.groups } : State).endThread s.iss.group 0) ∧
  (s.iss.leave = none → s.pre.inCancel = true → s.cur.exited = false →
    (s.cur.cancelBundles + 1 < 4096 → s.iss.after = none → s.afterBundle = { s with cur := { s.cur with cancelBundles := s.cur.cancelBundles + 1 } }) ∧
    (4096 ≤ s.cur.cancelBundles + 1 → s.afterBundle.cur.exited = true)) ∧
  (∀ gr, Tab.find s.iss.group s.groups = some gr → s.iss.thread < gr.threads.length →
    (s.finish.group s.iss.group).threads = gr.threads.set s.iss.thread s.cur ∧
    (s.finish.core s.iss.core).turns = Tab.put s.cur.slot s.cycle (s.core s.iss.core).turns ∧
    (∀ n, n ≠ s.iss.group → s.finish.group n = s.group n) ∧ (s.finish.core s.iss.core).last = some s.cur.slot ∧
    s.finish.iss.live = false ∧ s.finish.cycle = s.cycle ∧ s.finish.hbm = s.hbm ∧ s.finish.acc = s.acc)

/-! ## Taking a trap (spec 19) and writing a register (spec 01, 03) -/

/-- R206, R362: a precise trap of cause `k` and value `x`. The thread's registers are those from before the bundle; `c.epc` names the
bundle, `c.tval` holds `x`, `c.tcause` holds IN, the mode in PM and the cause; the thread goes to `c.tvec`, or to the partition's PR.MVEC
with M = 1 when that address is 0. A wait that it had is over (`unwait`). -/
def Obligations.TrapEntry : Prop := ∀ (s : State) (k : Nat) (x vec : Word) (m : Bool), s.iss.live = true → s.pre.inHandler = false →
  (let own := s.pre.tvec &&& ~~~3#64
   let all := (s.partn s.me.part).mvec &&& ~~~3#64
   (own ≠ 0#64 ∧ vec = own ∧ m = s.pre.tvec.getLsbD 0) ∨ (own = 0#64 ∧ all ≠ 0#64 ∧ vec = all ∧ m = true)) →
  s.takeTrap k x = { s with
    cur := { s.pre.unwait with
      epc := s.iss.pc, tval := x, tcause := BitVec.ofNat 64 (2 ^ 15 + (if s.pre.monitor then 2 ^ 14 else 0) + k), inTill := 0, monitor := m, pc := vec }
    iss := { s.iss with ended := true, trapped := some (k, x) } }

/-- R362, R368, R91: a precise trap in a handler, or with no vector at all, is fatal: the thread has ended, a fault record of kind 3 with
the cause waits at its die, and the roll entry of its group is marked with status 0xC000_0000 or'd with the cause. -/
def Obligations.FatalTraps : Prop := ∀ (s : State) (k : Nat) (x : Word) (e : RollEntry), s.iss.live = true → k < 2 ^ 8 →
  (s.pre.inHandler = true ∨ (s.pre.tvec &&& ~~~3#64 = 0#64 ∧ (s.partn s.me.part).mvec &&& ~~~3#64 = 0#64)) →
  Tab.find s.iss.group s.roll = some e → e.marked = false →
    let t := s.takeTrap k x
    t.cur.exited = true ∧
    (∃ r, r.kind = 3 ∧ r.cause = k ∧ r.name = s.iss.group ∧ r.thread = s.iss.thread ∧
      (t.die (dieOfCore s.me.core)).fqWait = (s.die (dieOfCore s.me.core)).fqWait ++ [r]) ∧
    Tab.find s.iss.group t.roll = some { e with marked := true, forced := BitVec.ofNat 32 (0xC0000000 + k) } ∧ t.hbm = s.hbm

/-- R26, R74, R207: a bundle's write of a scalar register leaves it full, with the value, without mark or poison, and leaves every other
register as it was; a write of `s0` is discarded, and `s0` reads zero. A write of `p0` is discarded, and `p0` reads true. -/
def Obligations.RegisterWrites : Prop := ∀ (s : State) (d : SReg) (v : Word) (p : PReg) (b : Bool), d.toNat < s.cur.regs.length →
  (s.wr 0#7 v = s ∧ (s.cur.reg 0).val = 0#64 ∧ (s.cur.reg 0).full = true) ∧
  (d ≠ 0#7 → (s.wr d v).cur.reg d.toNat = { val := v } ∧ (∀ r, r ≠ d.toNat → (s.wr d v).cur.reg r = s.cur.reg r) ∧
    (s.wr d v).cur.vregs = s.cur.vregs ∧ (s.wr d v).cur.preds = s.cur.preds ∧ (s.wr d v).cur.flags = s.cur.flags ∧
    (s.wr d v).cur.pc = s.cur.pc ∧ (s.wr d v).hbm = s.hbm ∧ (s.wr d v).groups = s.groups) ∧
  (s.wrP 0#3 b = s ∧ s.cur.pred 0 = true) ∧
  (p ≠ 0#3 → (s.wrP p b).cur.pred p.toNat = b ∧ (∀ q, q < 8 → q ≠ p.toNat → (s.wrP p b).cur.pred q = s.cur.pred q) ∧
    (s.wrP p b).cur.regs = s.cur.regs)

/-! ## The device's own steps: accesses (spec 04, 06, 09) -/

/-- R74, R77, R117, R224, R238-R240, R242, R244, R307, R309: the data of a load reaches its register, which becomes full, with the poison of
its line; the access is over; no other register and no byte of memory changes. A load of one piece reads what memory held for its thread as of
some change. R153: that is not before a store of its own thread that is performed; R154, R157: nor before a write that happens before it. That
it is not before another write of its own core either, nor before the thread's floor (what its fences with its reads, and the records of the
device, have shown it) is the model's choice (assumptions 10 and 15). Where no write has changed its bytes and no store to them is under way, it
reads what memory holds. A run register is filled with the runs of the load's plan. A `WSTAT` gives the latest committed stamp of its key, a
`WCLOCK` the committed instant of its region, as the pages' key shows them. -/
def Obligations.DataReturns : Prop := ∀ (s t : State) (id back : Nat) (a : Access) (pc : Piece) (d : SReg) (sg : Bool),
  s.access id = some a → a.id = id → s.mayReturn (s.group a.group).core = true → s.hasThread a.group a.thread = true → d ≠ 0#7 →
  d.toNat + 1 < (s.thread a.group a.thread).regs.length →
  let th := s.thread a.group a.thread
  let filled (u : State) (c : Reg) : Prop := (u.thread a.group a.thread).reg d.toNat = c ∧
    (∀ r, r ≠ d.toNat → (u.thread a.group a.thread).reg r = th.reg r) ∧ (u.thread a.group a.thread).vregs = th.vregs ∧
    u.acc = s.acc.filter (fun x => x.id != id) ∧ u.hbm = s.hbm ∧ u.hostMem = s.hostMem
  (a.kind = .load → a.dest = .scalar d sg → a.retried = false → a.pieces = [pc] → pc.stage = .pending → pc.data = [] → a.poison = none →
    s.mayPerform a pc = true → Grants s a pc .shared t →
      ∃ u now, exec (.loadDataReturn id (0, back)) s = .next u ∧
        filled u { val := loadedValue sg (s.readPiece a now pc), poison := s.piecePoison a.group pc } ∧ s.nextId - back ≤ now ∧
        (∀ q ∈ s.pastOf pc, (q.by_.thread = some (threadKey a.group a.thread) ∧ q.by_.engine = false ∨ (th.knownAt a.seq).covers q.by_ = true ∨
            q.by_.core = a.core ∧ q.by_.engine = false ∨ q.level a.core ≠ 0 ∧ q.ordFor a.core ≤ th.floor.getD (q.level a.core - 1) 0) →
          q.ordFor a.core ≤ now) ∧
        (pc.pool = false → s.pastOf pc = [] → (∀ b ∈ s.acc, b.kind = .store → ∀ q ∈ b.pieces, q.meets pc = false) →
          s.readPiece a now pc = s.readPhys pc.host pc.key pc.addr pc.len)) ∧
  (a.kind = .load → a.retried = false → (∀ p ∈ a.pieces, p.stage = .performed) → a.pieces ≠ [] →
    (a.dest = .scalar d sg → ∃ u, exec (.loadDataReturn id (0, back)) s = .next u ∧
      filled u { val := loadedValue sg (a.pieces.flatMap (·.data)), poison := a.poison }) ∧
    (∀ (vd : VReg) (ty : ElemType) (plan : List (Bool × Nat)), a.dest = .run vd ty plan → vd.toNat < th.vregs.length →
      ∃ u, exec (.loadDataReturn id (0, back)) s = .next u ∧
        (u.thread a.group a.thread).vreg vd.toNat = { run := runFromBytes ty plan (a.pieces.flatMap (·.data)), poison := a.poison } ∧
        (∀ r, r ≠ vd.toNat → (u.thread a.group a.thread).vreg r = th.vreg r) ∧ (u.thread a.group a.thread).regs = th.regs ∧
        u.acc = s.acc.filter (fun x => x.id != id) ∧ u.hbm = s.hbm ∧ u.hostMem = s.hostMem)) ∧
  (∀ v, a.kind = .value v → a.dest = .scalar d sg → ∃ u, exec (.loadDataReturn id (0, back)) s = .next u ∧ filled u { val := v }) ∧
  (∀ base b key, a.kind = .wstat base b key → a.dest = .scalar d sg → s.fencesAllow a.group a.thread a.seq true = true →
    let stamps := (((s.regionFor base a.pieces b key).entries base b key).map (·.stamp))
    ∃ u v, exec (.loadDataReturn id (0, back)) s = .next u ∧ filled u { val := v } ∧ (stamps = [] → v = 0x8000000000000000#64) ∧
      (stamps ≠ [] → ∃ x ∈ stamps, (∀ y ∈ stamps, y ≤ x) ∧ v = BitVec.ofNat 64 x)) ∧
  (∀ base, a.kind = .wclock base → a.dest = .scalar d sg → s.fencesAllow a.group a.thread a.seq true = true →
    let r := s.region base
    ∃ u v, exec (.loadDataReturn id (0, back)) s = .next u ∧ filled u { val := v } ∧ (r.committed = none → v = 0#64) ∧
      (r.key = s.keyAt a.pieces a.va → v = BitVec.ofNat 64 (r.committed.getD 0))) ∧
  (∀ op x g, a.kind = .amo op x g → a.dest = .scalar d sg → (∀ p ∈ a.pieces, p.stage = .performed) →
    ∃ u, exec (.loadDataReturn id (0, back)) s = .next u ∧ filled u { val := loadedValue sg (a.pieces.flatMap (·.data)), poison := a.poison })

/-- R165, R166, R240, R170, R171, R244, R245, R390-R392: a store is performed for every party when nothing that its thread did before holds
it back: its bytes are in memory, every other byte stays, and the store is over. Seen by its cluster alone, it changes no memory. An atomic
reads and writes its location in one step and keeps the old value for its register; a failed comparison writes nothing. An AtomicOp that
the root complex refuses, or whose completion has not come within the timeout from its sending, writes nothing and traps `PROT` at its
thread; its destination register becomes full again with its old value. -/
def Obligations.StoresAndAtomics : Prop := ∀ (s t : State) (id : Nat) (a : Access) (p : Piece), s.access id = some a → a.id = id → a.pieces = [p] →
  let written (u : State) (bs : List Byte) : Prop := u.hbm = (s.writePhys p.host p.key p.addr bs).hbm ∧
    u.hostMem = (s.writePhys p.host p.key p.addr bs).hostMem ∧ u.lineKeys = (s.writePhys p.host p.key p.addr bs).lineKeys
  let kept (u : State) : Prop := u.hbm = s.hbm ∧ u.hostMem = s.hostMem ∧ u.lineKeys = s.lineKeys
  let ends (u : State) : Prop := u.acc = s.acc.filter fun x => x.id != id
  (a.kind = .store → p.stage ≠ .performed → s.mayPerform a p = true →
    (s.seenFirst a p = false → Grants s a p .own t → ∃ u, exec (.storePerform id 0 true) s = .next u ∧
      (p.pool = false → ends u ∧ written u p.data) ∧ (p.pool = true → kept u)) ∧
    (p.stage = .pending → p.pool = false → p.cc < 2 → ∃ u, exec (.storePerform id 0 false) s = .next u ∧ kept u ∧
      u.access id = some { a with pieces := [{ p with stage := .visible, ord := s.nextId + 1 }] })) ∧
  (p.stage = .pending → s.mayPerform a p = true → s.seenFirst a p = false → p.pool = false → ¬ (p.host = true ∧ p.cc = 3) →
    let old := s.readPhys p.host p.key p.addr p.len
    let holds (u : State) : Prop := if a.dest = .none then ends u
      else ∃ f, u.access id = some { a with
        fill := f, poison := s.physPoison p.host p.addr p.len, pieces := [{ p with stage := .performed, data := old }] }
    (∀ op x g, a.kind = .amo op x g → Grants s a p (if g then .home else .own) t → ∃ u, exec (.atomicPerform id) s = .next u ∧ holds u ∧
      written u (toBytesLE p.len (amoResult op (BitVec.ofNat 64 (ofBytesLE old)) x).toNat)) ∧
    (∀ c v g, a.kind = .cas c v g → Grants s a p (if g then .home else .own) t → ∃ u, exec (.atomicPerform id) s = .next u ∧ holds u ∧
      (if ofBytesLE old = c % 2 ^ (8 * p.len) then written u (toBytesLE p.len v) else kept u))) ∧
  (p.stage = .pending → p.host = true → p.cc = 3 → overPcie a.kind = true → s.hasThread a.group a.thread = true →
    let th := s.thread a.group a.thread
    let again (r : Reg) : Reg := { r with full := true, mark := false }
    let refused (u : State) : Prop := kept u ∧ ends u ∧
      (∀ d sg, a.dest = .scalar d sg → d ≠ 0#7 → d.toNat < th.regs.length → (u.thread a.group a.thread).reg d.toNat = again (th.reg d.toNat)) ∧
      (∀ d, a.dest = .pair d → d ≠ 0#7 → d.toNat + 1 < th.regs.length → (u.thread a.group a.thread).reg d.toNat = again (th.reg d.toNat) ∧
        (u.thread a.group a.thread).reg (d.toNat + 1) = again (th.reg (d.toNat + 1))) ∧
      ((s.thread a.group a.thread).exited = false → (s.thread a.group a.thread).inCancel = false → (u.thread a.group a.thread).posted =
        (s.thread a.group a.thread).posted ++ [{ cause := Cause.prot, tval := BitVec.ofNat 64 a.va
                                                 access := some (a.va, { atomic := true, user := a.user }) }])
    let back := s.mayReturn (s.group a.group).core
    (s.mayPerform a p = true → s.seenFirst a p = false → back = true → ∃ u, exec (.atomicopCompletion id false) s = .next u ∧ refused u) ∧
    (s.mayPerform a p = true → s.seenFirst a p = false → a.sent = none →
      exec (.atomicopTimeout id) s = .next (s.onAccess id fun x => { x with sent := some s.cycle })) ∧
    (∀ c, a.sent = some c → (c + timeoutCycles s.port.timeout.toNat ≤ s.cycle → back = true → ∃ u, exec (.atomicopTimeout id) s = .next u ∧ refused u) ∧
      (s.port.timeout = 0#4 → timeoutCycles s.port.timeout.toNat = 120000)) ∧
    (∀ x g, a.kind = .amo .add x g → s.mayPerform a p = true → s.seenFirst a p = false → back = true → a.dest = .none → p.pool = false → ∃ u, exec (.atomicopCompletion id true) s = .next u ∧
      ends u ∧ written u (toBytesLE p.len (BitVec.ofNat 64 (ofBytesLE (s.readPhys p.host p.key p.addr p.len)) + x).toNat)))

/-- R172-R175, R247: an addition at its home slice. Unordered, at a location without an open sequence, it rounds the sum of the location and
its addend once, to nearest, and the access is over. The number that an ordered sequence awaits is applied at once; a later number waits
in the slice and changes no memory; an addition for which the slice has no room is retried. -/
def Obligations.AdditionsAtHome : Prop := ∀ (s t : State) (id : Nat) (a : Access) (p : Piece) (dbl : Bool) (x : Word) (num : Option (Nat × Bool))
    (core : Nat) (k : Word),
  s.access id = some a → a.id = id → a.pieces = [p] → a.kind = .faadd dbl x num core k → p.stage = .pending → p.host = false → p.pool = false →
  let sum := (fAdd (if dbl then FFmt.f64 else .f32) .rne ⟨core, k.toNat⟩ (ofBytesLE (s.readPhys false p.key p.addr p.len)) (x.toNat % 2 ^ (8 * p.len))).bits
  let added (u : State) : Prop := u.hbm = (s.writePhys false p.key p.addr (toBytesLE p.len sum)).hbm ∧
    u.acc = s.acc.filter fun y => y.id != id
  (s.mayPerform a p = true → s.seenFirst a p = false → s.hasRoom p.addr num = true → Grants s a p .home t →
    (num = none → s.seqAt p.addr = none → ∃ u, exec (.faaddApply id) s = .next u ∧ added u ∧ u.seqs = s.seqs) ∧
    (num = some (0, true) → s.seqAt p.addr = none → ∃ u, exec (.faaddApply id) s = .next u ∧ added u ∧ u.seqAt p.addr = none) ∧
    (∀ n, num = some (n + 1, false) → s.seqAt p.addr = none → ∃ u, exec (.faaddApply id) s = .next u ∧ u.hbm = s.hbm ∧
      u.seqAt p.addr = some { addr := p.addr, next := 0, pending := [(n + 1, id)], arrived := [id] })) ∧
  (s.hasRoom p.addr num = false → exec (.faaddRetry id) s = .next (s.onAccess id fun y => { y with retried := true }))

/-! ## The device's own steps: walks, copies, directory, bridge (spec 03, 04, 10, 20) -/

/-- R100, R366, R369, R241, R89, R115, R116, R389: a page walk that has a walker ends: the translation stands first in the TLB of the core
and of its cluster and the thread's wait is over, or the thread is suspended on a record of kind 1 with cause `PAGE`. A granule copy takes
a granule of the locker and the writer's branch maps it; the locker has the room of the old one again where no view maps that any longer. The
oldest queued request has a line next, of two of one cycle that of the lower agent, and the line leaves the other clusters' caches. A sweep
removes a sharer that does not hold the line, and never an owner that holds it. A snoop takes a half line of host memory from the bridge and its
line from every cache, after a store to it that a cluster alone sees; of the half-held lines 4,096 at most stay. -/
def Obligations.WalksCopiesDirectory : Prop := ∀ s : State,
  (∀ (id : Nat) (w : Walk), s.walks.find? (fun x => x.id == id) = some w → s.hasWalker w = true → s.hasThread w.group w.thread = true →
    (s.thread w.group w.thread).wait = some (.walk id) →
    let rest (u : State) : Prop := u.walks = s.walks.filter (fun x => x.id != id) ∧ u.hbm = s.hbm ∧ u.hostMem = s.hostMem
    (∀ e, walkTable s (s.group w.group).part w.va = some e → ∃ u, exec (.pageWalkComplete id) s = .next u ∧ rest u ∧
      (u.thread w.group w.thread).wait = none ∧ (u.core w.core).tlb.head? = some e ∧ (u.cluster (clusterOf w.core)).tlb.head? = some e) ∧
    (walkTable s (s.group w.group).part w.va = none → ∃ u, exec (.pageWalkComplete id) s = .next u ∧ rest u ∧
      (u.thread w.group w.thread).wait = some (.fault s.nextId) ∧ ∃ r, (u.die (dieOfCore w.core)).fqWait = (s.die (dieOfCore w.core)).fqWait ++ [r] ∧
        r.id = s.nextId ∧ r.kind = 1 ∧ r.cause = Cause.page ∧ r.type = w.type ∧ r.addr = w.va ∧ r.name = w.group ∧ r.thread = w.thread)) ∧
  (∀ (id : Nat) (c : CowCopy), s.cows.find? (fun x => x.id == id) = some c →
    let d := if c.leaf.host then dieOfCore c.core else dieOf c.leaf.base
    s.lockerHas d 65536 = true →
    let dst := s.lockerGranule d
    let leaf : Leaf := { c.leaf with host := false, base := dst, cow := false, cc := if c.leaf.cc = 3 then 0 else c.leaf.cc }
    ∃ u, exec (.cowCopyComplete id) s = .next u ∧ u.cows = s.cows.filter (fun x => x.id != id) ∧
      u.hbm = (s.writePhys false c.leaf.key dst (s.readPhys c.leaf.host c.leaf.key c.leaf.base 65536)).hbm ∧ u.hostMem = s.hostMem ∧
      (u.die d).lkUsed = (s.die d).lkUsed + (if u.freesCopy c.leaf then 0 else 65536) ∧ u.partn c.part = (s.partn c.part).putGranule (s.ownerOf c.part c.branch c.granule) c.granule leaf) ∧
  (∀ line, (Tab.get {} line s.dir).busy = none → (Tab.get {} line s.dir).queue ≠ [] →
    let d := Tab.get {} line s.dir
    ∃ e ∈ d.queue, (∀ x ∈ d.queue, e.1 < x.1 ∨ (e.1 = x.1 ∧ e.2.1 ≤ x.2.1)) ∧ ∃ u, exec (.directoryForward line) s = .next u ∧ u.hbm = s.hbm ∧
      u.dir = Tab.set {} line { d with busy := some e.2.2, queue := d.queue.filter (· != e), sharers := d.sharers.filter (· == e.2.1), owner := none } s.dir ∧
      ∀ k ∈ u.clus, k.1 ≠ e.2.1 → ∀ l ∈ k.2.l2, ¬ (l.host = false ∧ l.line = line)) ∧
  (∀ line agent, 3840 ≤ s.cycle % 4096 → s.cycle / 4096 % 4 = 1 → (Tab.get {} line s.dir).sharers.contains agent = true →
    let d := Tab.get {} line s.dir
    let holds : Prop := agent = 288 ∨ ∃ l ∈ (s.cluster agent).l2, l.host = false ∧ l.line = line
    let gone (u : State) : Prop := u.dir = Tab.set {} line { d with
      sharers := d.sharers.filter (· != agent), owner := if d.owner = some agent then none else d.owner } s.dir
    ∃ u, exec (.directorySweep line agent) s = .next u ∧ u.hbm = s.hbm ∧ (u.dir = s.dir ∨ gone u) ∧ (¬ holds → gone u) ∧
      (holds → d.owner = some agent → u.dir = s.dir)) ∧
  (∀ half w, Tab.find half s.port.halves = some w → s.shownAt true (half * 64) 64 = false → ∃ u, exec (.hostSnoop half) s = .next u ∧
    u.port = { s.port with halves := limitHalves none (Tab.drop half s.port.halves) } ∧
    ((halfHeld (Tab.drop half s.port.halves)).length ≤ 4096 → u.port.halves = Tab.drop half s.port.halves) ∧ u.hbm = s.hbm ∧ u.hostMem = s.hostMem ∧ u.groups = s.groups ∧
    ∀ k ∈ u.clus, ∀ l ∈ k.2.l2, ¬ (l.host = true ∧ l.line = half / 2))

/-! ## Remote stores on their way (spec 03 R78-R84, 11 R305, R306) -/

/-- R78, R79, R82, R84: a remote store that comes home to this module takes effect when its register is empty and unmarked and no earlier
store of its pair waits; else it waits in the buffer, which holds 64. It bounces with reason 1 when the buffer is full, 2 when the group has
ended or is absent or its thread has exited, 3 when the selector names no register of the group; a store for a migrating group is held at the
roll's home. An arrival that finds its register full in a deterministic group raises `DETERM`. What another module does with a store is open.
R80, R306, R365: a bounce that returns, no earlier store of its pair being on its way, adds 1 to `c.bounce` of its sender; a `.T` form also
raises `BOUNCE` with the selector. The record of it goes to the slot of BR.HEAD and BR.HEAD rises by 1; with the ring off or full, or where the
write faults, the record is dropped; where it needs a granule of a locker without room, the bounce waits (R89). -/
def Obligations.RemoteStoresArrive : Prop :=
  (∀ (s : State) (id : Nat) (r : RStore), s.rstores.find? (fun x => x.id == id) = some r →
  s.pairReady r = true → s.memDone r.sender r.sthread r.seq .pod = true → s.fencesAllow r.sender r.sthread r.seq true = true →
  let left (u : State) : Prop := u.rstores = s.rstores.filter (fun x => x.id != id) ∧ u.hbm = s.hbm ∧ u.hostMem = s.hostMem
  let same (u : State) (g t : Nat) : Prop := (u.thread g t).regs = (s.thread g t).regs ∧ (u.thread g t).vregs = (s.thread g t).vregs ∧
    (u.thread g t).posted = (s.thread g t).posted
  let bounced (k : Nat) : Prop := ∃ u c, exec (.remoteStoreArrival id) s = .next u ∧ left u ∧ (∀ g t, same u g t) ∧
    u.bounces = s.bounces ++ [{ id := s.nextId, store := { r with carry := c }, reason := k }]
  (moduleOf r.target ≠ s.modid → s.routed (moduleOf r.target) = true → ∃ u, exec (.remoteStoreArrival id) s = .next u ∧ left u ∧ ∀ g t, same u g t) ∧
  (moduleOf r.target = s.modid →
    (Tab.find r.target s.roll = none → bounced 2) ∧
    (∀ e, Tab.find r.target s.roll = some e → (e.state = .exited ∨ e.state = .cancelled) → bounced 2) ∧
    (∀ e b, Tab.find r.target s.roll = some e → e.state = .migrating b → (64 ≤ e.held.length → bounced 1) ∧
      (e.held.length < 64 → ∃ u c, exec (.remoteStoreArrival id) s = .next u ∧ left u ∧ u.bounces = s.bounces ∧
        Tab.find r.target u.roll = some { e with held := e.held ++ [{ r with carry := c }] })) ∧
    (∀ e, Tab.find r.target s.roll = some e → (e.state = .resident ∨ e.state = .saved) → selectorFits (s.group r.target) r = false → bounced 3) ∧
    (∀ e, Tab.find r.target s.roll = some e → (e.state = .resident ∨ e.state = .saved) → s.hasThread r.target (selThread r.selector) = true →
      let g := r.target
      let gr := s.group g
      let t := selThread r.selector
      let th := s.thread g t
      let now := s.endCycle gr.core
      let reg := selReg r.selector
      (selectorFits gr r = true → th.exited = true → bounced 2) ∧
      (selectorFits gr r = true → th.exited = false →
        (heldBack gr.arr r = false →
          (r.kind = false → r.run = none → (th.regAt now reg).full = false → (th.regAt now reg).mark = false → reg < th.regs.length →
            ∃ u c, exec (.remoteStoreArrival id) s = .next u ∧ left u ∧ u.bounces = s.bounces ∧
              ((u.thread g t).regAt now reg) = { val := r.val, acq := c } ∧ (u.thread g t).vregs = th.vregs) ∧
          (∀ x, r.kind = true → r.run = some x → (th.vregAt now reg).full = false → (th.vregAt now reg).mark = false → reg < th.vregs.length →
            ∃ u c, exec (.remoteStoreArrival id) s = .next u ∧ left u ∧ u.bounces = s.bounces ∧
              ((u.thread g t).vregAt now reg) = { run := x, acq := c } ∧ (u.thread g t).regs = th.regs)) ∧
        ((heldBack gr.arr r = true ∨ th.accepts now r = false) →
          ((gr.task.det && !heldBack gr.arr r && th.meetsFull now r) = false →
            (s.buffered g t < 64 → ∃ u c, exec (.remoteStoreArrival id) s = .next u ∧ left u ∧ u.bounces = s.bounces ∧
              (u.group g).arr = gr.arr ++ [{ r with carry := c, tried := !heldBack gr.arr r }] ∧ same u g t) ∧
            (64 ≤ s.buffered g t → bounced 1)) ∧
          (gr.task.det = true → heldBack gr.arr r = false →
            (if r.kind then (th.vregAt now reg).full else (th.regAt now reg).full) = true → th.inCancel = false →
            ∃ u, exec (.remoteStoreArrival id) s = .next u ∧ left u ∧
              (u.thread g t).posted = th.posted ++ [{ cause := Cause.determ, tval := r.selector }])))))) ∧
  (∀ (s : State) (id : Nat) (b : Bounce), s.bounces.find? (fun x => x.id == id) = some b →
  s.pairReady b.store = true → s.away.any (·.before b.store) = false → moduleOf b.store.sender = s.modid → s.hasThread b.store.sender b.store.sthread = true →
  let g := b.store.sender
  let t := b.store.sthread
  let th := s.thread g t
  let part := match Tab.find g s.roll with | some e => e.part | none => (s.group g).part
  let p := s.partn part
  let old := th.settleBounce (s.endCycle (s.group g).core)
  let counted : State := ({ s with bounces := s.bounces.filter (fun x => x.id != id) } : State).onThread g t fun _ =>
    { old with bounce := old.bounce + 1#32 }
  (p.ringShut || !State.deviceWaits 2 s part p.ringNext 32) = true →
  ∃ u, exec (.bounceReturn id) s = .next u ∧ u.bounces = s.bounces.filter (fun x => x.id != id) ∧
    (u.thread g t).bounce = old.bounce + 1#32 ∧
    (b.store.trap = true → th.exited = false → th.inCancel = false →
      (u.thread g t).posted = th.posted ++ [{ cause := Cause.bounce, tval := b.store.selector }]) ∧
    (b.store.trap = false → (u.thread g t).posted = th.posted) ∧
    ((p.ben = false ∨ 2 ^ p.bsize ≤ (p.bhead - p.btail).toNat) → u.hbm = s.hbm ∧ u.hostMem = s.hostMem ∧ u.parts = s.parts) ∧
    (p.ben = true → (p.bhead - p.btail).toNat < 2 ^ p.bsize →
      let put := State.deviceWrite 2 counted part (p.bbase.toNat + 32 * (p.bhead.toNat % 2 ^ p.bsize))
        (bounceRecord b.store b.reason (old.bounce + 1#32).toNat)
      (∀ w, put = some w → u.hbm = w.hbm ∧ u.hostMem = w.hostMem ∧ (u.partn part).bhead = (w.partn part).bhead + 1#32) ∧
      (put = none → u.hbm = s.hbm ∧ u.hostMem = s.hostMem ∧ u.parts = s.parts)))

/-! ## The instant units (spec 05) -/

/-- R137, R139, R141, R146, R147: a world load is classified by the committed instant C, λ and ω of its binding: beyond C + ω it ends with
`WFAR`; beyond C + λ, or for a key with no committed entry, it waits with a wait edge, or as `WLD.N` ends with status 2; below the oldest
entry it ends with `WGONE`; else with status 0, or 1 past the newest entry, and the record at its instant. A wait ends with status 3 when its
edge closed a cycle and with status 4 at the timeout. The result reaches the thread in issue order: vd, pd and `c.wstat`; vd carries the
poison of the lines that the record lies in (R242, R410), and where no record comes it is full again as it was.
R133-R135, R144, R145, R148: a record at or below an entry of its ring or the committed instant is refused with `WORDER`; else it is
staged, over the oldest entry of a full ring when no horizon needs that; else it waits for the read floor, or is refused with `WRETAIN`, as
the binding says. A commit sets the instant and publishes every entry staged at or below it; of the instant itself it does nothing, below it
is refused. A horizon never falls, and a table of 30 admits no further group. -/
def Obligations.InstantUnits : Prop :=
  (∀ (s : State) (id : Nat) (w : WorldOp) (nw : Bool) (vd : VReg) (pd : PReg),
  s.worldOp id = some w → w.kind = .wld nw vd pd →
  let r := s.regionOf w
  let es := r.entries w.region w.bind w.key
  let ended (i : Instr) (x : WldResult) : Prop := ∃ u, exec i s = .next u ∧ u.edges = s.edges.filter (fun e => e.id != id) ∧ u.regions = s.regions ∧
    u.worldOp id = some { w with blocked := false, closed := false, result := some x }
  (w.result = none → w.blocked = false → s.loadBehind w = false → s.fencesAllow w.group w.thread w.seq false = true →
    (r.clock + w.bind.omega < w.inst → ended (.wldClassify id) (.fault Cause.wfar)) ∧
    (w.inst ≤ r.clock + w.bind.omega → (es = [] ∨ r.clock + w.bind.lambda < w.inst) →
      (nw = true → ended (.wldClassify id) (.done 2 [])) ∧
      (nw = false → ∃ u, exec (.wldClassify id) s = .next u ∧ u.regions = s.regions ∧
        u.edges = s.edges ++ [{ id := w.id, src := w.group, dst := w.bind.writer }] ∧
        u.worldOp id = some { w with blocked := true, closed := s.closes w.group w.bind.writer })) ∧
    (∀ e0 en, es.head? = some e0 → es.getLast? = some en → w.inst ≤ r.clock + w.bind.omega → w.inst ≤ r.clock + w.bind.lambda →
      (w.inst < e0.stamp → ended (.wldClassify id) (.fault Cause.wgone)) ∧
      (e0.stamp ≤ w.inst → ended (.wldClassify id) (.done (if w.inst ≤ en.stamp then 0 else 1)
        (recordAt w.region w.key w.bind ⟨w.core, w.kidx.toNat⟩ es w.inst))))) ∧
  (w.blocked = true → w.closed = true → ended (.wldCycle id) (.done 3 [])) ∧
  (w.blocked = true → w.bind.timeout ≠ 0 → w.issued + w.bind.timeout ≤ s.cycle → ended (.wldTimeout id) (.done 4 [])) ∧
  ((s.thread w.group w.thread).loads.head? = some id → s.migrating w.group = false → s.mayReturn (s.group w.group).core = true →
    s.hasThread w.group w.thread = true →
    vd.toNat < (s.thread w.group w.thread).vregs.length →
    let th := s.thread w.group w.thread
    let old : VCell := { th.vreg vd.toNat with full := true, mark := false }
    let back (u : State) (x : VCell) : Prop := (u.thread w.group w.thread).vreg vd.toNat = x ∧ u.regions = s.regions ∧
      (u.thread w.group w.thread).regs = th.regs ∧ (u.thread w.group w.thread).loads = th.loads.filter (fun x => x != id)
    (∀ st vals, w.result = some (.done st vals) → ∃ u, exec (.wldComplete id) s = .next u ∧
      back u (if st < 2 then { run := recordRun w.bind vals, poison := w.spots.findSome? fun p => s.physPoison p.host p.addr p.len } else old) ∧
      (u.thread w.group w.thread).wstat = BitVec.ofNat 3 st ∧ (pd ≠ 0#3 → (u.thread w.group w.thread).pred pd.toNat = decide (st < 2))) ∧
    (∀ c, w.result = some (.fault c) → ∃ u, exec (.wldComplete id) s = .next u ∧ back u old ∧
      (u.thread w.group w.thread).preds = th.preds ∧ (u.thread w.group w.thread).wstat = th.wstat ∧
      (th.exited = false → th.inCancel = false → (u.thread w.group w.thread).posted = th.posted ++ [{ cause := c, tval := BitVec.ofNat 64 w.inst }])))) ∧
  (∀ (s : State) (id : Nat) (w : WorldOp), s.worldOp id = some w → s.fencesAllow w.group w.thread w.seq true = true →
  let here := s.region w.region
  let r := s.regionOf w
  let done (u : State) : Prop := u.worldOps = s.worldOps.filter (fun x => x.id != id)
  let refusal (i : Instr) (c x : Nat) : Prop := ∃ u, exec i s = .next u ∧ done u ∧ u.regions = s.regions ∧
    (s.hasThread w.group w.thread = true → (s.thread w.group w.thread).exited = false → (s.thread w.group w.thread).inCancel = false →
      (u.thread w.group w.thread).posted = (s.thread w.group w.thread).posted ++ [{ cause := c, tval := BitVec.ofNat 64 x }])
  (∀ vals (i : Instr), w.kind = .wst vals →
    (i = .wstStage id ∧ w.ringWait = false ∧ s.recordBehind w = false ∨ i = .wstRingWaitEnd id ∧ w.ringWait = true) →
    let ring := r.ring w.region w.bind w.key
    let off := w.bind.keyOff w.key
    let e : RingEntry := {
      stamp := w.inst, committed := false, lay := w.bind.layout, vals := vals, group := w.group, ord := s.nextId + 1, key := s.keyAt w.spots (w.bind.keyAddr w.key), src := w.id }
    let staged (drop : List RingEntry) : Prop := ∃ u, exec i s = .next u ∧ done u ∧ u.hbm = s.hbm ∧
      (u.region w.region).block off = drop.foldl List.erase (here.block off) ++ [e] ∧
      (u.region w.region).committed = here.committed ∧ (∀ o, o ≠ off → (u.region w.region).block o = here.block o)
    let late := ring.any (fun x => decide (w.inst ≤ x.stamp)) || r.committed.any fun c => decide (w.inst ≤ c)
    let free := r.floor.all fun f => decide (((ring[1]?).map (·.stamp)).getD 0 ≤ f)
    (late = true → refusal i Cause.worder w.key) ∧
    (late = false → ring.length < w.bind.depth → staged []) ∧
    (late = false → w.bind.depth ≤ ring.length → free = true → staged (ring.take 1)) ∧
    (late = false → w.bind.depth ≤ ring.length → free = false → w.bind.faultPolicy = true → refusal i Cause.wretain w.key) ∧
    (late = false → w.bind.depth ≤ ring.length → free = false → w.bind.faultPolicy = false → w.ringWait = false →
      exec (.wstStage id) s = .next (s.onWorld id fun x => { x with ringWait := true }))) ∧
  (w.kind = .wcommit → s.earlierDone w.group w.thread w.seq .package = true →
    (∀ c, r.committed = some c → w.inst < c → refusal (.wcommitPerform id) Cause.worder w.inst) ∧
    (r.committed = some w.inst → ∃ u, exec (.wcommitPerform id) s = .next u ∧ done u ∧ u.regions = s.regions) ∧
    ((∀ c, r.committed = some c → c < w.inst) → ∃ u rels, exec (.wcommitPerform id) s = .next u ∧
      u.region w.region = here.commit w.inst (s.keyAt w.spots w.bind.base) rels ∧
      u.worldOps.length ≤ s.worldOps.length ∧ u.worldOp id = none)) ∧
  (w.kind = .whor →
    (Tab.find w.group r.horizons = none → 30 ≤ r.horizons.length → refusal (.whorPerform id) Cause.wretain w.inst) ∧
    (Tab.find w.group r.horizons = none → r.horizons.length < 30 → ∃ u, exec (.whorPerform id) s = .next u ∧ done u ∧
      u.region w.region = { here with horizons := Tab.put w.group w.inst r.horizons }) ∧
    (∀ h, Tab.find w.group r.horizons = some h → ∃ u, exec (.whorPerform id) s = .next u ∧ done u ∧
      u.region w.region = { here with horizons := Tab.put w.group (max h w.inst) r.horizons })))

/-! ## The ends of groups and posted traps (spec 03 R85, R91, R92; 11 R298, R300; 19 R362, R364) -/

/-- R64, R85, R298, R300, R91: a group whose threads have all exited and whose work is done becomes exited, with thread 0's `EXIT` operand
as its status; its waiting arrivals bounce with reason 2, its lease ends, and the completion semaphore of its parent counts one more. A
`CANCEL` marks the subtree of its target, and nothing when the target is absent or of another partition. A marked group that nothing holds
any more becomes cancelled, with bit 31 of its status set, and its queued commands are discarded. R135, R362, R364, R92: before its next
bundle a thread takes `CANCEL` when it is due, else the posted trap of the lowest cause: `c.epc` names the bundle that has not issued.
That a wait that it had is over is the model's choice (assumption 48). `CANCEL` in a handler, or with `c.tvec` 0, ends the thread, and so
does the 4,096th bundle of a cancel handler. -/
def Obligations.GroupEndsAndPostedTraps : Prop :=
  (∀ s : State,
  (∀ (g : Nat) (e : RollEntry), Tab.find g s.roll = some e → s.quiet g = true → s.sawDone g = true →
    let gr := s.group g
    let free (u : State) : Prop := ∀ k, (u.cluster k).lease.any (fun l => l.group == g) = false
    let stays : Prop := e.parent = 0 ∨ e.parent ≠ g ∧ ∃ p, Tab.find e.parent s.roll = some p ∧ p.ended = false
    (e.state = .resident → e.marked = false → gr.threads.all (·.exited) = true → s.noWork g = true →
      ∃ u, exec (.groupExit g) s = .next u ∧ free u ∧ u.hbm = s.hbm ∧ u.hostMem = s.hostMem ∧
        (stays → (g, { e with held := [], state := .exited, status := gr.status0, view := s.exitView g }) ∈ u.roll) ∧
        (∃ bs, u.bounces = s.bounces ++ bs ∧ bs.map (·.store) = gr.arr ++ e.held ∧ ∀ b ∈ bs, b.reason = 2) ∧
        (∀ p pe pg, gr.parent.toNat = p → p ≠ g → Tab.find p s.roll = some pe → pe.ended = false → Tab.find p s.groups = some pg → pg.semQ = [] →
          gr.task.doneSig = true → gr.task.dsem < pg.task.sems → gr.task.dsem < pg.sems.length →
          u.sem p gr.task.dsem = (s.sem p gr.task.dsem + 1) % 2 ^ 32)) ∧
    (e.marked = true → e.ended = false → e.state ≠ .migrating true → (e.state = .resident → gr.threads.all (·.exited) = true) →
      ∃ u, exec (.cancelReclaimComplete g) s = .next u ∧ free u ∧
        (stays → (g, { e with held := [], state := .cancelled, status := cancelledStatus e gr }) ∈ u.roll) ∧
        cancelledStatus e gr = (if e.forced ≠ 0#32 then e.forced else 0x80000000#32 ||| gr.cancelled0) ∧
        (∀ c ∈ u.cores, ∀ q ∈ c.2.queues, ∀ m ∈ q, m.group ≠ g))) ∧
  (∀ (id : Nat) (c : CancelOp), s.cancels.find? (fun x => x.id == id) = some c →
    ∃ u, exec (.cancelMarked id) s = .next u ∧ u.cancels = s.cancels.filter (fun x => x.id != id) ∧ u.hbm = s.hbm ∧ u.hostMem = s.hostMem ∧
      (∀ e, c.target = 0 ∨ c.target / 2 ^ 52 = s.firm.record.modid.toNat → Tab.find c.target s.roll = some e → e.part = s.partOfGroup c.group → ∀ n ∈ s.subtree c.target, ∀ x, Tab.find n s.roll = some x →
        ∃ y, Tab.find n u.roll = some y ∧ y.marked = true) ∧
      ((∀ e, Tab.find c.target s.roll = some e → e.part ≠ s.partOfGroup c.group) → u.roll = s.roll))) ∧
  (∀ (s : State) (g t : Nat), s.hasThread g t = true → (s.thread g t).exited = false → (s.partn (s.partOf (s.group g).core)).stop = false →
  let th := s.thread g t
  let vec : Word × Bool := (th.tvec &&& ~~~3#64, th.tvec.getLsbD 0)
  (th.place = .inSlot → th.cancelDue = true →
    ((th.inHandler = true ∨ vec.1 = 0#64) → ∃ u, exec (.postedTrapTaken g t) s = .next u ∧ (u.thread g t).exited = true) ∧
    (th.inHandler = false → vec.1 ≠ 0#64 → ∃ u, exec (.postedTrapTaken g t) s = .next u ∧ u.thread g t =
      { th.unwait with
        epc := th.pc, tval := 0#64, tcause := tcauseOf th.monitor Cause.cancel, inTill := 0, monitor := vec.2, pc := vec.1
        cancelDue := false, inCancel := true, cancelBundles := 0, posted := [] })) ∧
  (th.place = .inSlot → th.cancelDue = false → th.inHandler = false → th.inCancel = false → th.posted ≠ [] →
    ∃ u p, exec (.postedTrapTaken g t) s = .next u ∧ p ∈ th.posted ∧ (∀ q ∈ th.posted, p.cause ≤ q.cause) ∧
      (∀ v, trapVector th (s.partn (s.group g).part).mvec = some v → u.thread g t = { th.unwait with
        posted := dropOne p th.posted, epc := th.pc, tval := p.tval, tcause := tcauseOf th.monitor p.cause, inTill := 0, monitor := v.2, pc := v.1 }) ∧
      (trapVector th (s.partn (s.group g).part).mvec = none → (u.thread g t).exited = true)) ∧
  (th.inCancel = true → 4096 ≤ th.cancelBundles → ∃ u, exec (.cancelHandlerLimit g t) s = .next u ∧ (u.thread g t).exited = true ∧
    ∀ a ∈ u.acc, a.group = g → a.thread = t → a.kind ≠ .load ∧ a.dest = .none))

/-! ## The task queue, swap, eviction and restore (spec 01 R34; 18 R355-R359; 19 R372-R378) -/

/-- R34, R355, R356, R295, R359: the mark of serials moves on by twice the last block, up to 2^40 (that it wraps to 1 is the model's
choice, assumption 76). The first push enters a task queue with room; a task that has waited 2^20 cycles below level 7 moves up a level. A
task that a dispatcher takes leaves the queue and resides on its core, its threads at ENTRY with the arguments in s2-s5; one whose branch
is gone is created cancelled. A queue whose ring does not read is closed, with a record of kind 6; that its DETAIL is the ring's BASE is
the model's choice (assumption 47). R301, R372-R378: a thread of lower priority gives its slot to a one-thread task that no cluster fits,
or by `YIELD` to a task of higher priority, and its image takes 32 KiB of its die's locker until it stands in a slot of its group's core
again; its waiting bundle is issued again. An evicted group is saved, or migrates when it moves to a unit that its place lacks: its
threads stand in its image, which takes locker room, and it enters its partition's queue at its priority, or is cancelled where no core
could hold it. That a `YIELD` gives way only to a task of the windows which its core does not fit, and which groups an eviction may name,
is the model's choice (assumption 50), and so is the place of an image above what its locker already holds (assumption 82). -/
def Obligations.TasksSwapAndEviction : Prop :=
  (∀ s : State,
  (s.newName = none → exec .serialMarkAdvance s = .next { s with
    firm := { s.firm with mark := serialPlus s.firm.mark (min (2 * s.firm.block) (2 ^ 40)), block := min (2 * s.firm.block) (2 ^ 40) } }) ∧
  (∀ part t rest, (s.partn part).pushes = t :: rest → (s.partn part).tqEn = true → (s.partn part).tasks.length < 2 ^ (s.partn part).tqSize →
    ∃ u, exec (.taskQueuePush part) s = .next u ∧ u.groups = s.groups ∧ u.roll = s.roll ∧
      u.partn part = { s.partn part with pushes := rest, tasks := (s.partn part).tasks ++ [{ t with since := s.cycle }] }) ∧
  (∀ part g t, (s.partn part).tasks.find? (fun x => x.name == g) = some t → t.level < 7 → t.since + 1048576 ≤ s.cycle →
    ∃ u, exec (.taskAging part g) s = .next u ∧ u.groups = s.groups ∧ u.roll = s.roll ∧ u.partn part = { s.partn part with
      tasks := (s.partn part).tasks.filter (fun x => x.name != g) ++ [{ t with level := t.level + 1, since := t.since + 1048576 }] }) ∧
  (∀ k t c p, s.pickTask k = some (t, c, p) →
    let part := (s.cluster k).part
    let parent := match Tab.find t.name s.roll with | some e => e.parent | none => 0
    (t.saved = false → s.queueReads part = true →
      (s.branchOk part t.task.branch = true → ∃ u, exec (.taskDispatch k) s = .next u ∧
        Tab.find t.name u.roll = some { state := .resident, parent := parent, part := part, launch := t.launch, ran := true } ∧
        (u.group t.name).core = c ∧ (u.group t.name).prio = t.level ∧ (u.group t.name).name = BitVec.ofNat 64 t.name ∧
        (u.partn part).tasks = (s.partn part).tasks.filter (fun x => x.name != t.name) ∧
        ((∀ e, Tab.find t.name s.roll = some e → e.held = []) → (u.group t.name).threads = p.slots.map (startThread t.task (s.launchOrd t.launch)))) ∧
      (s.branchOk part t.task.branch = false →
        (parent = 0 ∨ parent ≠ t.name ∧ ∃ pe, Tab.find parent s.roll = some pe ∧ pe.ended = false) → ∃ u, exec (.taskDispatch k) s = .next u ∧ u.groups = s.groups ∧
        Tab.find t.name u.roll = some { state := .cancelled, parent := parent, part := part, launch := t.launch, status := 0x80000000#32 })) ∧
    (∀ i, s.queueReads part = false → (i = .taskDispatch k ∧ t.saved = false ∨ i = .groupRestore k t.name ∧ t.saved = true) → ∃ u r,
      exec i s = .next u ∧ u.groups = s.groups ∧ (u.partn part).tqEn = false ∧ (u.die (s.partDie part)).fqWait = (s.die (s.partDie part)).fqWait ++ [r] ∧
      r.kind = 6 ∧ r.part = part ∧ r.detail = (s.partn part).tqBase.toNat) ∧
    (∀ e, t.saved = true → s.queueReads part = true → Tab.find t.name s.roll = some e → (Tab.find t.name s.groups).isSome = true → ∃ u,
      exec (.groupRestore k t.name) s = .next u ∧
      Tab.find t.name u.roll = some { e with state := .resident, source := none, image := none, held := [] } ∧ (u.group t.name).core = c ∧
      (u.group t.name).prio = t.level ∧ (u.group t.name).imgCmds = [] ∧ (u.group t.name).scratch = (s.group t.name).scratch ∧
      (u.group t.name).sems = (s.group t.name).sems ∧ (u.partn part).tasks = (s.partn part).tasks.filter (fun x => x.name != t.name)))) ∧
  (∀ s : State,
  (∀ core slot v, (s.starved (s.partOf core)).findSome? (fun t => (s.victim (s.partOf core) t).bind fun v =>
      if v.core = core ∧ v.slot = slot then some v else none) = some v → s.hasThread v.group v.thread = true → s.lockerHas (dieOfCore core) 32768 = true →
    (∃ t ∈ s.starved (s.partOf core), (s.group v.group).prio < t.level ∧ t.task.threads = 1) ∧
    ((s.partn (s.partOf core)).stop = false →
    let th := s.thread v.group v.thread
    ∃ u, exec (.threadSwap core slot) s = .next u ∧ u.thread v.group v.thread =
        { (match th.wait with | some (.fault _) | some (.post _) => th | _ => th.unwait) with place := .swapped, yielded := false } ∧
      (u.die (dieOfCore (s.group v.group).core)).lkUsed = (s.die (dieOfCore (s.group v.group).core)).lkUsed + 32768 ∧ u.hbm = s.hbm)) ∧
  (∀ core slot g t, (s.starved (s.partOf core)).findSome? (fun t => (s.victim (s.partOf core) t).bind fun v =>
      if v.core = core ∧ v.slot = slot then some v else none) = none → s.offered core slot = some (g, t) → s.hasThread g t = true →
    (s.thread g t).inHandler = false → (s.thread g t).inCancel = false → s.lockerHas (dieOfCore core) 32768 = true →
    (s.core core).pool.det = false ∧ (s.thread g t).yielded = true ∧ (∃ x ∈ s.waitFor (s.partOf core) core, (s.group g).prio < x.level) ∧
    ((s.partn (s.partOf core)).stop = false → ∃ u, exec (.threadSwap core slot) s = .next u ∧ (u.thread g t).place = .swapped ∧ (u.thread g t).yielded = false ∧ u.hbm = s.hbm)) ∧
  (∀ g t e k b, s.hasThread g t = true → (s.thread g t).place = .swapped → (s.thread g t).exited = false → Tab.find g s.roll = some e →
    e.state = .resident → s.swapSpot g = some (k, b) → ∃ u, exec (.threadSwapRestore g t) s = .next u ∧
      ((u.group g).threads.getD t {}).place = .inSlot ∧ ((u.group g).threads.getD t {}).slot = k ∧ u.hbm = s.hbm ∧
      (u.die (dieOfCore (s.group g).core)).lkUsed = (s.die (dieOfCore (s.group g).core)).lkUsed - 32768) ∧
  (∀ g e, Tab.find g s.roll = some e → (Tab.find g s.groups).isSome = true → e.state = .resident → e.marked = false →
    (s.partn (s.partOf (s.group g).core)).stop = false → (s.lacksUnit g = true ∨ s.makesRoom g = true) → (s.die (dieOfCore (s.group g).core)).lkSize ≠ 0 →
    s.lockerHas (dieOfCore (s.group g).core) (s.evictBytes g) = true →
    ∃ u x, exec (.groupEvict g) s = .next u ∧ Tab.find g u.roll = some x ∧
      (u.group g).threads = (s.group g).threads.map Thread.intoImage ∧ (u.group g).scratch = (s.group g).scratch ∧
      (u.die (dieOfCore (s.group g).core)).lkUsed = (s.die (dieOfCore (s.group g).core)).lkUsed + s.evictBytes g ∧
      ((∃ t ∈ (u.partn (s.group g).part).pushes, t.name = g ∧ t.level = (s.group g).prio ∧ t.saved = true ∧
          x.image = some ((s.die (dieOfCore (s.group g).core)).locker + (s.die (dieOfCore (s.group g).core)).lkUsed) ∧
          (s.lacksUnit g = true → x.state = .migrating true ∧ x.source = some (s.group g).core) ∧ (s.lacksUnit g = false → x.state = .saved)) ∨
        x.state = .saved ∧ x.forced = 0xC000000C#32 ∧ x.marked = true)))

/-! ## The fault queue, and writes that are events of their own (spec 19 R361, R367-R371; 04 R107) -/

/-- R367-R371: the first record that waits goes into the free slot of FQ.HEAD, which rises by 1; the posting of a machine check delivers its
trap (R379). An answered record acts: outcome 0 lets its thread or command go on, 2 cancels the group, 1 and 3 deliver the cause to the
thread, or halt the command's queue with cause 8; for a group that is cancelled already it does nothing (R370). -/
def Obligations.FaultQueue : Prop := ∀ (s : State) (die : Nat),
  (∀ r rest, (s.die die).fqWait = r :: rest → (s.die die).fqEn = true →
    let d := s.die die
    let k := d.fqHead.toNat % 2 ^ d.fqSize
    s.fqFree die k = true → ∃ u, exec (.faultRecordPost die) s = .next u ∧ (u.die die).fqWait = rest ∧ (u.die die).fqHead = d.fqHead + 1#32 ∧
      Tab.find k (u.die die).fqOpen = some { r with token := d.token } ∧
      u.hbm = (s.writePhys false 0 (homeOff d.fqBase + 64 * k) ({ r with token := d.token } : FaultRec).bytes).hbm ∧
      (r.kind ≠ 4 → (∀ g t c x acc, r.target ≠ .trap g t c x acc) → u.groups = s.groups ∧ u.cur = s.cur) ∧
      (∀ g t c x acc, r.target = .trap g t c x acc → s.hasThread g t = true → (s.thread g t).exited = false → s.markedName g = false →
        let th := s.thread g t
        (∀ v, th.wait = some (.post r.id) → th.inHandler = false → trapVector th (s.partn (s.group g).part).mvec = some v → u.thread g t =
          { th with wait := none, epc := th.pc, tval := x, tcause := tcauseOf th.monitor c, inTill := 0, monitor := v.2, pc := v.1 }) ∧
        (th.wait ≠ some (.post r.id) → c = Cause.residue → th.inCancel = false →
          u.thread g t = { th with posted := th.posted ++ [{ cause := c, tval := x, access := acc }] }))) ∧
  (∀ slot r, (s.die die).answered.find? (fun x => x.1 == slot) = some (slot, r) →
    let out := r.answer.getD 0
    ∃ u, exec (.faultAnswer die slot) s = .next u ∧ u.hbm = s.hbm ∧ u.hostMem = s.hostMem ∧
      (s.markedName r.name = true → u.groups = s.groups ∧ u.cores = s.cores ∧ u.roll = s.roll) ∧
      (r.target = .nothing → u.groups = s.groups ∧ u.cores = s.cores) ∧ (s.markedName r.name = false →
      (∀ g t, r.target = .thread g t → s.hasThread g t = true → (s.thread g t).wait = some (.fault r.id) →
        let th := s.thread g t
        (out = 0 → u.thread g t = { th with wait := none }) ∧
        (out = 2 → (u.thread g t).exited = true ∧ ∀ e, Tab.find g s.roll = some e → ∃ x, Tab.find g u.roll = some x ∧ x.marked = true ∧
          x.forced = BitVec.ofNat 32 (0xC0000000 + r.cause)) ∧
        (∀ v, out ≠ 0 → out ≠ 2 → th.inHandler = false → trapVector th (s.partn (s.group g).part).mvec = some v → u.thread g t =
          { th with
            wait := none, epc := th.pc, tval := BitVec.ofNat 64 r.addr, tcause := tcauseOf th.monitor r.cause, inTill := 0, monitor := v.2, pc := v.1 })) ∧
      (∀ c q core p m, r.target = .command c q → s.stoppedAt r.id = some (core, p) → s.headCmd core p = some m →
        (out = 0 → u.headCmd core p = some { m with stopped := none }) ∧
        (out ≠ 0 → out ≠ 2 → ∃ x, u.headCmd core p = some x ∧ x.haltCause = some 8 ∧ x.stopped = none))))

/-! ## Commands (spec 12 R316-R338; 04 R119-R126; 21 R406, R407) -/

/-- R119, R126, R215, R217-R219, R318, R320, R327, R328, R406: a queue's head starts when its wait, its locks and its engine allow it, and
its wait, met now, is an acquire; a heavy one first asks for a hall pass, and its wait is tested again when it starts. Before its wait is
tested, an unknown opcode halts with cause 1, one of another queue with 2, a reserved bit with 3, a command of an absent array with 15, an
array command without its group's lease with 4 (which cause a command shows to which several apply is the model's choice, assumption 89).
The saved matrix state of the group is loaded, with the lease, before an array command of it starts. A request is granted in order when
the estimate allows it within 4,800 cycles, and after those the command runs at half rate. A command that is done leaves its queue and
signals its semaphore. A write of 0 to `c.qerr` discards the halted command. -/
def Obligations.CommandLife : Prop := ∀ (s : State) (core q : Nat) (m : Cmd), s.headCmd core q = some m →
  (m.started = false → m.haltCause = none → m.stopped = none → m.lock.isSome = true →
    let i : Instr := .commandStart core q
    (opKnown m.op = false → Halts i s core q m 1) ∧
    (opKnown m.op = true → opAccepted q m.op = false → Halts i s core q m 2) ∧
    (opKnown m.op = true → opAccepted q m.op = true → m.reserved ≠ 0 → Halts i s core q m 3) ∧
    (opKnown m.op = true → opAccepted q m.op = true → m.reserved = 0 → q = 0 → s.matrixOn (clusterOf core) = false → Halts i s core q m 15) ∧
    (opKnown m.op = true → opAccepted q m.op = true → m.reserved = 0 → q = 0 → s.matrixOn (clusterOf core) = true → opArray m.op = true →
      s.holdsLease core m.group = false → (s.group m.group).imgMatrix = none → Halts i s core q m 4) ∧
    (opKnown m.op = true → opAccepted q m.op = true → m.reserved = 0 →
      (q = 0 → s.matrixOn (clusterOf core) = true ∧ (opArray m.op = true → s.holdsLease core m.group = true ∨ (s.group m.group).imgMatrix ≠ none)) →
      (q = 0 → m.op ≠ 0 → (s.group m.group).imgMatrix ≠ none → (s.cluster (clusterOf core)).lease = none) →
      s.mayStart core q = true → s.engineFree core q = true → (∀ x, m.pass ≠ .waiting x) →
        let loaded (u : State) : Prop := ∀ x, q = 0 → m.op ≠ 0 → (s.group m.group).imgMatrix = some x →
          (u.cluster (clusterOf core)).acc = x.acc ∧ (u.cluster (clusterOf core)).kc = x.kc ∧
          (u.cluster (clusterOf core)).lease = some ⟨m.group, core, x.left⟩
        ((m.heavy = false ∨ m.pass ≠ .none) → ∃ u, exec i s = .next u ∧ loaded u ∧ u.hbm = s.hbm ∧
          u.headCmd core q = some { m with
            started := true
            waitMet := true
            knows := if m.wthr = 0 ∨ m.waitMet = true then m.knows else m.knows.join (Tab.get {} m.wsem (s.group m.group).semView) }) ∧
        (m.heavy = true → m.pass = .none → ∃ u, exec i s = .next u ∧ loaded u ∧ u.hbm = s.hbm ∧
          u.headCmd core q = some { m with pass := .waiting s.cycle } ∧
          (u.die (dieOfCore core)).passQueue = (s.die (dieOfCore core)).passQueue ++ [(core, q)]))) ∧
  (∀ rest since, (s.die (dieOfCore core)).passQueue = (core, q) :: rest → m.pass = .waiting since → s.cycle ≤ since + 4800 →
    let d := s.die (dieOfCore core)
    s.estimate (dieOfCore core) + m.charge ≤ 2 * d.cap → (d.inhibit = false ∨ opArray m.op = false) →
    ∃ u, exec (.hallPassGrant (dieOfCore core)) s = .next u ∧ u.headCmd core q = some { m with pass := .held } ∧
      (u.die (dieOfCore core)).passQueue = rest ∧ (u.die (dieOfCore core)).live.grant = d.live.grant + 1#64) ∧
  (∀ since, m.pass = .waiting since → since + 4800 ≤ s.cycle → (s.die (dieOfCore core)).passQueue.head? = some (core, q) → ∃ u, exec (.hallPassTimeout core q) s = .next u ∧
    u.headCmd core q = some { m with pass := .half } ∧ (u.core core).hallCount = (s.core core).hallCount + 1#32 ∧
    (u.die (dieOfCore core)).live.half = (s.die (dieOfCore core)).live.half + 1#64 ∧
    (u.die (dieOfCore core)).passQueue = (s.die (dieOfCore core)).passQueue.filter (fun x => x != (core, q))) ∧
  (m.done = true → ∃ u, exec (.commandComplete core q) s = .next u ∧ u.hbm = s.hbm ∧
    (u.queue core q).map (fun x => { x with lock := none }) = ((s.queue core q).drop 1).map (fun x => { x with lock := none }) ∧
    (1 ≤ q → q ≤ 4 → q ≤ (s.core core).heads.length → (u.core core).heads.getD (q - 1) 0#16 = (s.core core).heads.getD (q - 1) 0#16 + 1#16) ∧
    (∀ gr, m.sinc ≠ 0 → Tab.find m.group s.groups = some gr → gr.semQ = [] → m.ssem < gr.sems.length →
      u.sem m.group m.ssem = (s.sem m.group m.ssem + m.sinc) % 2 ^ 32) ∧
    (m.sinc = 0 → u.groups = s.groups)) ∧
  ((s.core core).qerr.getLsbD 0 = true → bitsOf 7 5 (s.core core).qerr.toNat = q → m.haltCause.isSome = true → ∃ u,
    exec (.qerrClear core) s = .next u ∧ u.queue core q = (s.queue core q).drop 1 ∧ (u.core core).qerr = nextHalt (u.core core).queues ∧ u.groups = s.groups) ∧
  (Running s core q 0x00 m → Ends (.nopc core q) s core q s) ∧
  (Running s core q 0x17 m → (m.w1 = 0#64 → m.w2 = 0#64 → m.w3 = 0#64 → Ends (.cpSig core q) s core q s) ∧
    ((m.w1 ≠ 0#64 ∨ m.w2 ≠ 0#64 ∨ m.w3 ≠ 0#64) → Halts (.cpSig core q) s core q m 7))

/-- R199-R202: a cell that has taken the products of two rows of integers holds their exact sum, as long as it lies within the range of the
residues. -/
def Obligations.ExactProducts : Prop := ∀ row col : List Int,
  let sum := ((row.zip col).map fun x => x.1 * x.2).sum
  sum < 2 ^ 56 - 2 ^ 18 → -(2 ^ 56 - 2 ^ 18) ≤ sum → (cellRun {} row col).value = some sum

/-- R320-R324: a lease of 1 to 64 commands is taken when the array is free and the turn is the core's, or renewed by its holder; `MX.FREE`
gives it back outside deterministic mode. `MX.ZERO` clears the accumulators and the count of products. `MX.MUL` writes the products of its
blocks, `MX.ACC` adds them to the accumulators and halts with cause 5 beyond 65,536 products, `MX.STORE` writes the accumulators as 64-bit
integers or scaled f32, `MX.RES` their residues. A check channel that disagrees halts with cause 6, a malformed word with 7. -/
def Obligations.MatrixCommands : Prop := ∀ (s : State) (core q : Nat) (m : Cmd),
  let k := clusterOf core
  let cells := (s.cluster k).cells
  let onlyW1 : Prop := m.w2 = 0#64 ∧ m.w3 = 0#64
  let keeps (i : Instr) (f : Cluster → Cluster) : Prop := ∃ u, exec i s = .next u ∧ u.cluster k = f (s.cluster k) ∧
    u.headCmd core q = some { m with done := true } ∧ u.hbm = s.hbm ∧ u.groups = s.groups
  let stored (i : Instr) (p : Place0) (bs : List Byte) : Prop := ∀ t, s.matPut core m p bs = .ok t → Ends i s core q t
  (Running s core q 1 m →
    (onlyW1 → 1 ≤ m.w1.toNat → m.w1.toNat ≤ 64 → s.holdsLease core m.group = true → keeps (.mxLease core q) fun c =>
      { c with lease := some ⟨m.group, core, m.w1.toNat⟩ }) ∧
    (onlyW1 → 1 ≤ m.w1.toNat → m.w1.toNat ≤ 64 → (s.cluster k).lease = none → s.leaseTurn k = some core → keeps (.mxLease core q) fun c =>
      { c with lease := some ⟨m.group, core, m.w1.toNat⟩, lastLease := core % 16 }) ∧
    ((¬ onlyW1 ∨ m.w1.toNat = 0 ∨ 64 < m.w1.toNat) → Halts (.mxLease core q) s core q m 7)) ∧
  (Running s core q 2 m →
    (onlyW1 → m.w1 = 0#64 → s.holdsLease core m.group = true → (s.core core).pool.det = false → keeps (.mxFree core q) fun c => { c with lease := none }) ∧
    (onlyW1 → m.w1 = 0#64 → (s.holdsLease core m.group = false ∨ (s.core core).pool.det = true) → Ends (.mxFree core q) s core q s) ∧
    ((¬ onlyW1 ∨ m.w1 ≠ 0#64) → Halts (.mxFree core q) s core q m 7)) ∧
  (Running s core q 3 m →
    (onlyW1 → m.w1 = 0#64 → keeps (.mxZero core q) fun c => { c with acc := [], kc := 0 }) ∧
    ((¬ onlyW1 ∨ m.w1 ≠ 0#64) → Halts (.mxZero core q) s core q m 7)) ∧
  (Running s core q 4 m → (m.matBad = true → Halts (.mxMul core q) s core q m 7) ∧
    (∀ bs, m.matBad = false → engAll (s.matBlocks core m) (List.range m.blocks) = .ok bs →
      ∀ vs, bs.mapM (fun x => cellValues (blockRun (List.replicate 16384 {}) x.1 x.2)) = some vs →
        stored (.mxMul core q) (packed m.w3.toNat) (vs.flatMap intBytes))) ∧
  (Running s core q 5 m → (m.matBad = true → Halts (.mxAcc core q) s core q m 7) ∧
    (m.matBad = false → 65536 < (s.cluster k).kc + 128 * m.blocks → Halts (.mxAcc core q) s core q m 5) ∧
    (∀ bs, m.matBad = false → (s.cluster k).kc + 128 * m.blocks ≤ 65536 → engAll (s.matBlocks core m) (List.range m.blocks) = .ok bs →
      let work := bs.foldl (fun cs x => blockRun cs x.1 x.2) cells
      (cellValues work ≠ none → keeps (.mxAcc core q) fun c => { c with acc := tabOf work, kc := c.kc + 128 * m.blocks }) ∧
      (cellValues work = none → Halts (.mxAcc core q) s core q m 6))) ∧
  (Running s core q 6 m → (m.emitBad = true → Halts (.mxStore core q) s core q m 7) ∧
    (m.emitBad = false → cellValues cells = none → Halts (.mxStore core q) s core q m 6) ∧
    (∀ vs, m.emitBad = false → cellValues cells = some vs →
      (bitOf 57 m.w1.toNat = false → stored (.mxStore core q) m.src (intBytes vs)) ∧
      (bitOf 57 m.w1.toNat = true → stored (.mxStore core q) m.src (vs.flatMap fun v => toBytesLE 4 (storeF32 (signedOf 16 m.w2.toNat) v))))) ∧
  (Running s core q 7 m → (m.emitBad = true → Halts (.mxRes core q) s core q m 7) ∧
    (m.emitBad = false → stored (.mxRes core q) m.src (cells.flatMap fun c => toBytesLE 8 c.word)))

/-- R110, R120, R319, R330-R334, R400: a copy command writes its destination in linearised order, and stops only where a 128-byte line of
the destination ends (that one step runs to that end is the model's choice, assumption 32); it is done after the last element, or at once
when a dimension is empty. A malformed word halts it with cause 7; one that names another module halts with cause 14 while no port of its
route is up. The elements of `CP.COPY` are the source's, or the values of one bank in the other's format, of `CP.CONV` its values in the
destination's format, of `CP.FILL` the pattern of word 1, of `CP.GATH` those that the indices name; `CP.SCAT` writes where the indices
say, the later element last. `CP.PACK` writes runs that hold exactly the line's elements; `CP.UNPACK` writes the elements of a well-formed
stream, and another halts with cause 10. That a `CP.PACK` of rows of more than 4,096 elements is malformed, that `CP.UNPACK` does not look
at SFMT, and when the WP of `CP.SCAT` rises, is the model's choice (assumption 37). -/
def Obligations.CopyCommands : Prop := ∀ (s : State) (core q : Nat) (m : Cmd) (h : Shape), m.shape = some h →
  let pair := m.bankPair s.modid (s.group m.group)
  (∀ (i : Instr) (op total : Nat) (bad : Bool),
    (i = .cpConv core q ∧ op = 0x11 ∧ total = h.elems ∧ bad = !(decide (1 ≤ m.sfmt ∧ m.sfmt ≤ 10) && decide (1 ≤ m.dfmt ∧ m.dfmt ≤ 10))) ∨
      (i = .cpFill core q ∧ op = 0x12 ∧ total = h.elems ∧ bad = decide (m.dstBits = 0)) ∨
      (i = .cpPack core q ∧ op = 0x13 ∧ total = 1040 * h.lines ∧ bad = ((ElemType.ofCode m.sfmt).isNone || decide (4096 < h.ext0))) ∨
      (i = .cpUnpack core q ∧ op = 0x14 ∧ total = h.elems ∧ bad = (ElemType.ofCode m.dfmt).isNone) ∨
      (i = .cpGath core q ∧ op = 0x15 ∧ total = h.elems ∧ bad = m.indexedBad) ∨
      (i = .cpScat core q ∧ op = 0x16 ∧ total = h.elems ∧ bad = m.indexedBad) ∨
      (i = .cpCopy core q ∧ op = 0x10 ∧ pair = none ∧ total = h.elems ∧ bad = (m.sfmt != m.dfmt || copyBits m.dfmt == 0)) ∨
      (∃ a b, i = .cpCopy core q ∧ op = 0x10 ∧ pair = some (a, b) ∧ total = h.lines * b.rowBytes h ∧
        bad = (m.sfmt != 0 || m.dfmt != 0 || a.fmt == .raw || b.fmt == .raw)) →
    Running s core q op m →
    ((m.wordsBad s.modid = true ∨ bad = true) → Halts i s core q m 7) ∧
    (m.wordsBad s.modid = false → bad = false → (h.empty = true ∨ total ≤ m.units) → ∃ u, exec i s = .next u ∧ u.hbm = s.hbm ∧ u.groups = s.groups ∧
      u.headCmd core q = some { m with done := true, wp := if op = 0x16 then m.wp + h.idxlim * (m.dstBits / 8) else m.wp }) ∧
    (m.wordsBad s.modid = false → bad = false → h.empty = false → m.units < total → m.remote s.modid ≠ 0 →
      s.copyRouted (bitsOf 63 52 m.w3.toNat) = false → Halts i s core q m 14)) ∧
  (m.wordsBad s.modid = false → m.remote s.modid = 0 → h.empty = false →
    let c := h.chunk (lineRoom (m.dstElem h m.units) m.dstBits) m.units
    let cs := h.chunk (lineRoom (m.srcElem h m.units) m.srcBits) m.units
    let lineEnds (total k : Nat) (dest : Nat → Int) : Prop := ¬ (m.units + k < total ∧ dest m.units / 128 = dest (m.units + k) / 128)
    let puts (i : Instr) (els : List Nat) : Prop :=
      UnitPuts i s core q m (c.hi - c.lo) (lineEnds h.elems (c.hi - c.lo) (m.dstElem h)) (m.dstAt h c.line c.lo) (m.chunkBytes c els)
    let elems (c : Chunk) (els : List Nat) : Prop :=
      let skip := c.lo * m.srcBits % 8 / m.srcBits
      ∃ bs, s.engRead core m (m.srcAt h c.line c.lo) (bytesFor m.srcBits (skip + (c.real - c.lo))) = .ok bs ∧
        els = (unpack m.srcBits (skip + (c.real - c.lo)) (ofBytesLE bs)).drop skip
    let indices (c : Chunk) (ix : List Nat) : Prop := ∃ bs, s.engRead core m ((packed h.saux).plus (4 * (c.line * h.ext0 + c.lo) : Nat)) (4 * (c.real - c.lo)) = .ok bs ∧
      ix = unpack 32 (c.real - c.lo) (ofBytesLE bs)
    (Running s core q 0x10 m → pair = none → m.sfmt = m.dfmt → copyBits m.dfmt ≠ 0 → m.units < h.elems →
      ∀ els, elems c els → puts (.cpCopy core q) els) ∧
    (∀ a b a' b' vs im t, Running s core q 0x10 m → pair = some (a, b) → m.sfmt = 0 → m.dfmt = 0 → a.fmt ≠ .raw → b.fmt ≠ .raw →
      let n := b.rowBytes h
      let o := m.units % n
      m.units < h.lines * n → a.moved (h.srcLine (m.units / n)) = some a' → b.moved (h.dstLine (m.units / n)) = some b' →
      s.bankVals core m a' h.ext0 = .ok vs → s.bankImage core m b' h.padded vs = .ok im →
      let place : Int := (b'.start + b'.off + o : Nat)
      let part := (im.1.drop o).take (lineRoom place 8)
      let sc := b'.scalesIn im.2 o (o + part.length)
      let scalesAt : Nat := b'.scales + ((b'.first (b'.fmt.width 0)).getD 0) / max 1 b'.blk + sc.1
      s.engPuts core m [(⟨true, place⟩, part), (⟨true, scalesAt⟩, sc.2)] = .ok t →
      lineEnds (h.lines * n) part.length (fun u => m.dst.addr + h.dstLine (u / n) + (u % n : Nat)) →
      exec (.cpCopy core q) s = .next (t.advance core q part.length part.length)) ∧
    (Running s core q 0x11 m → 1 ≤ m.sfmt → m.sfmt ≤ 10 → 1 ≤ m.dfmt → m.dfmt ≤ 10 → m.srcScaled h = false → m.dstScaled h = false →
      m.units < h.elems → ∀ els, elems c els → puts (.cpConv core q) (els.map fun x => convCode m.dfmt (convValue m.sfmt 127 x))) ∧
    (Running s core q 0x12 m → m.dstBits ≠ 0 → m.units < h.elems → puts (.cpFill core q)
      ((List.range (c.real - c.lo)).map fun i => fillElem m.dfmt m.dstBits m.w1.toNat (c.line * h.ext0 + c.lo + i))) ∧
    (∀ t bs, Running s core q 0x13 m → ElemType.ofCode m.sfmt = some t → h.ext0 ≤ 4096 → m.units < 1040 * h.lines →
      s.engRead core m (m.srcAt h (m.units / 1040) 0) (bytesFor m.srcBits h.ext0) = .ok bs →
      let els := unpack m.srcBits h.ext0 (ofBytesLE bs)
      let out := (streamBytes (mkRun t (packRuns t els))).drop (m.units % 1040)
      let part := out.take (lineRoom (m.dst.plus (m.units : Nat)).addr 8)
      let k := if part.length = out.length then 1040 - m.units % 1040 else part.length
      elemsOf (packRuns t els) = els ∧
      ((packRuns t els).length ≤ 64 → UnitPuts (.cpPack core q) s core q m k
        (lineEnds (1040 * h.lines) k fun u => (m.dst.plus (u : Nat)).addr) (m.dst.plus (m.units : Nat)) part) ∧
      (64 < (packRuns t els).length → Halts (.cpPack core q) s core q m 10)) ∧
    (∀ t hd sl, Running s core q 0x14 m → ElemType.ofCode m.dfmt = some t → m.units < h.elems →
      s.engRead core m (m.src.plus (1040 * c.line : Nat)) 16 = .ok hd →
      let used := bitsOf 46 40 (ofBytesLE (hd.take 8))
      (64 < used → Halts (.cpUnpack core q) s core q m 10) ∧
      (used ≤ 64 → s.engRead core m ((m.src.plus (1040 * c.line : Nat)).plus 16) (16 * used) = .ok sl →
        let r := runFromStream (hd ++ sl)
        ((r.wf = false ∨ r.type ≠ t.code ∨ r.len ≠ h.ext0) → Halts (.cpUnpack core q) s core q m 10) ∧
        (r.wf = true → r.type = t.code → r.len = h.ext0 →
          puts (.cpUnpack core q) (((elemsOf (r.runs t)).drop c.lo).take (c.real - c.lo))))) ∧
    (∀ ix, Running s core q 0x15 m → m.indexedBad = false → m.units < h.elems → indices c ix →
      ((∃ i ∈ ix, h.idxlim ≤ i) → Halts (.cpGath core q) s core q m 11) ∧
      (∀ els, (∀ i ∈ ix, i < h.idxlim) → engAll (fun i => s.engRead core m (m.src.plus (i * (m.srcBits / 8) : Nat)) (m.srcBits / 8)) ix = .ok els →
        puts (.cpGath core q) (els.map ofBytesLE))) ∧
    (∀ ix els t, Running s core q 0x16 m → m.indexedBad = false → m.units < h.elems → indices cs ix → (∀ i ∈ ix, i < h.idxlim) →
      elems cs els → s.engPuts core m ((ix.zip els).map fun x => (m.dst.plus (x.1 * (m.srcBits / 8) : Nat), toBytesLE (m.srcBits / 8) x.2)) = .ok t →
      lineEnds h.elems (cs.hi - cs.lo) (m.srcElem h) → exec (.cpScat core q) s = .next (t.advance core q (cs.hi - cs.lo) 0)))

/-- R335-R338, R146, R147, R150, R151: `WS.SAMPLE` waits for the commits that come before it; then it halts with cause 12 beyond C + ω or
below a key's oldest entry, waits with an edge until C + λ and an entry of every key have come, and writes every key's record and status
against the C that it read once; a wait that ended by a cycle or timeout writes the status alone. `WS.SNAP` stages one record after the
other, and at the end, after what it must follow, commits its instant when CMT is 1; a refusal halts with cause 13. -/
def Obligations.BulkCommands : Prop := ∀ (s : State) (core base kb : Nat) (m : Cmd) (b : Binding), m.bind = some b →
  s.bulkRegion core m b = some (base, kb) → m.bulkBad = false →
  let here := s.region base
  let r := here.under base kb 0
  let view (k : Nat) : Region := s.bulkView core m b base kb k
  let samples (s' : State) (m' : Cmd) (c : Nat) : Prop := ∀ (f : Nat → State) (t : State),
    let n := m.keyCount - m'.units
    let at' (i : Nat) : Cmd := { m' with units := m'.units + i, wp := m'.wp + i * b.recordBytes }
    f 0 = s' → (∀ i < n, (f i).sampleKey core (at' i) b base kb c = .ok (f (i + 1))) →
    (f n).engPut core (at' n) (m.statusAt b) (m.keys.map ((f n).statusByte core (at' n) b base kb c)) = .ok t →
    exec (.wsSample core) s = .next ((t.advance core 5 0 m.keyCount).doneHead core 5)
  (Running s core 5 0x20 m →
    let ready : Prop := m.inst ≤ r.clock + b.lambda ∧ ∀ k ∈ m.keys, (view k).entries base b k ≠ []
    (m.ended = none → m.instant = none → (∃ w ∈ s.worldOps, m.knows.covers w.writer = true ∧ w.kind = .wcommit) →
      exec (.wsSample core) s = .refused .notEnabled) ∧
    (m.ended = none → m.instant = none → s.awaits m = false →
      (r.clock + b.omega < m.inst → Halts (.wsSample core) s core 5 m 12) ∧
      (m.inst ≤ r.clock + b.omega → ¬ ready → m.edge = none → ∃ u, exec (.wsSample core) s = .next u ∧ u.regions = s.regions ∧
        u.edges = s.edges ++ [{
          id := m.id, src := m.group, dst := b.writer, till := if s.closes m.group b.writer then none else some (s.waitEnd core m b base kb) }] ∧
        u.headCmd core 5 = some { m with edge := some s.cycle, closed := s.closes m.group b.writer }) ∧
      (m.inst ≤ r.clock + b.omega → ready → m.closed = false →
        ((∃ k ∈ m.keys, (view k).zone base b k m.inst = .gone) → Halts (.wsSample core) s core 5 m 12) ∧
        ((∀ k ∈ m.keys, (view k).zone base b k m.inst ≠ .gone) → m.units = 0 →
          let v := s.sampleView core m b base kb
          samples (s.sampleAcquire core m v r.clock) { m with instant := some r.clock, edge := none, knows := m.knows.join v } r.clock))) ∧
    (∀ c, m.ended = none → m.instant = some c → samples s m c) ∧
    (∀ t ps, m.units < m.keyCount → let key := m.key0 + m.units
      s.bulkPlan core m (b.keyAddr key) b.block = .ok ps →
      ((∃ p ∈ ps, s.physPoison p.host p.addr p.len ≠ none) → s.sampleKey core m b base kb r.clock = .halt 9) ∧
      ((∀ p ∈ ps, s.physPoison p.host p.addr p.len = none) → (view key).zone base b key m.inst ≠ .gone →
        (∀ e ∈ (view key).entries base b key, e.stamp ≤ r.clock) →
        s.engPut core m (m.buf.plus (m.units * b.recordBytes : Nat))
          (b.recordImage (recordAt base key b ⟨core, m.kidx.toNat⟩ ((view key).entries base b key) m.inst)) = .ok t →
        s.sampleKey core m b base kb r.clock = .ok (t.advance core 5 1 b.recordBytes))) ∧
    (∀ st t, m.ended = some st → s.engPut core m (m.statusAt b) (List.replicate m.keyCount (BitVec.ofNat 8 st)) = .ok t →
      exec (.wsSample core) s = .next ((t.advance core 5 0 m.keyCount).doneHead core 5))) ∧
  (Running s core 5 0x21 m →
    (∀ ps bs, m.units < m.keyCount → s.bulkPlan core m (b.keyAddr (m.key0 + m.units)) b.block = .ok ps →
      s.engRead core m (m.buf.plus (m.units * b.recordBytes : Nat)) b.recordBytes = .ok bs →
      let key := m.key0 + m.units
      let e : RingEntry := {
        stamp := m.inst, committed := false, lay := b.layout, vals := b.imageRecord bs, group := m.group, ord := s.nextId + 1
        key := s.keyAt ps (b.keyAddr key), src := m.id }
      (∀ drop, (view key).stage base b key m.inst = .stage drop → ∃ u, exec (.wsSnap core) s = .next u ∧
        (u.region base).keys = Tab.put (b.keyOff key) (drop.foldl List.erase (here.block (b.keyOff key)) ++ [e]) here.keys ∧
        (u.region base).committed = here.committed ∧
        u.headCmd core 5 = some { m with units := m.units + 1, wp := m.wp + b.recordBytes }) ∧
      (∀ c, (view key).stage base b key m.inst = .refuse c → Halts (.wsSnap core) s core 5 m 13)) ∧
    (m.keyCount ≤ m.units → m.cmt = false → Ends (.wsSnap core) s core 5 s) ∧
    (m.keyCount ≤ m.units → m.cmt = true → s.snapBehind m = true → exec (.wsSnap core) s = .refused .notEnabled) ∧
    (m.keyCount ≤ m.units → m.cmt = true → s.snapBehind m = false →
      (∀ c, r.committed = some c → m.inst < c → Halts (.wsSnap core) s core 5 m 13) ∧
      (r.committed = some m.inst → Ends (.wsSnap core) s core 5 s) ∧
      ((∀ c, r.committed = some c → c < m.inst) → ∃ u rels, exec (.wsSnap core) s = .next u ∧ u.region base = here.commit m.inst kb rels ∧
        u.headCmd core 5 = some { m with done := true })))

/-! ## The host's registers, launches and partitions (spec 18; 19 R365, R366, R380-R382; 21 R404) -/

/-- R348, R349, R359, R365, R367, R383: the host's write of a register of the block keeps the bits that its field map gives. LQ.TAIL beyond
the ring sets OVF, below the present tail BADTAIL, else it moves. A queue that is enabled starts with HEAD and TAIL 0; one that is destroyed
is off, and its records that have not started end as cancelled. A write of ones clears bits of LQ.STAT. A function that does not respond
discards every write. An update of LQ.TAIL that meets both conditions sets both bits. -/
def Obligations.HostRegisters : Prop := ∀ (s : State) (v : Word), s.serving = true →
  (∀ q, q < 64 →
    let x := s.lq q
    let is (i : Instr) (f : LaunchQueue → LaunchQueue) : Prop := ∃ u, exec i s = .next u ∧ u.lq q = f x ∧ (∀ p, p ≠ q → u.lq p = s.lq p) ∧
      u.groups = s.groups ∧ u.hbm = s.hbm
    (∀ t : BitVec 32, is (.lqTailWrite q t) fun x =>
      if 2 ^ x.size < (t - x.head).toNat ∨ 2 ^ 31 < (t - x.tail).toNat then
        { x with stat := x.stat ||| (if 2 ^ x.size < (t - x.head).toNat then 1#4 else 0#4) ||| (if 2 ^ 31 < (t - x.tail).toNat then 2#4 else 0#4) }
      else { x with tail := t }) ∧
    (∀ b : BitVec 4, is (.lqStatClear q b) fun x => { x with stat := x.stat &&& ~~~b }) ∧
    (v.getLsbD 31 = true → x.en = false → 4 ≤ bitsOf 20 16 v.toNat → bitsOf 20 16 v.toNat ≤ 16 → bitsOf 8 0 v.toNat ≤ 287 →
      s.clustersOf (bitsOf 8 0 v.toNat) ≠ [] → is (.lqEnable q v) fun x =>
        { x with en := true, size := bitsOf 20 16 v.toNat, part := bitsOf 8 0 v.toNat, head := 0#32, tail := 0#32 }) ∧
    (∀ i, (i = .lqDestroy q ∨ i = .lqDestroyCancel q) → ∃ u, exec i s = .next u ∧ (u.lq q).en = false ∧ u.hbm = s.hbm ∧
      (∀ l ∈ u.pending, l.queue ≠ q) ∧ (∀ l ∈ s.pending, l.queue ≠ q → l.id < s.nextId → (∀ y ∈ s.pending, y.queue = q → y.id ≠ l.id) → l ∈ u.pending)) ∧
    (x.en = false → v.toNat % 256 = 0 → is (.registerWrite (64 * q) v) fun x => { x with base := v })) ∧
  (∀ n, n < 288 →
    let is (i : Instr) (f : Partition → Partition) : Prop := ∃ u, exec i s = .next u ∧ u.partn n = f (s.partn n) ∧ (∀ p, p ≠ n → u.partn p = s.partn p) ∧
      u.groups = s.groups ∧ u.hbm = s.hbm ∧ u.lqs = s.lqs
    (v.getLsbD 31 = true → (s.partn n).tqEn = false → 10 ≤ bitsOf 4 0 v.toNat → bitsOf 4 0 v.toNat ≤ 20 → is (.tqEnable n v) fun p =>
      { p with tqEn := true, tqSize := bitsOf 4 0 v.toNat }) ∧
    is (.registerWrite (0x4000 + 64 * n + 8) v) (fun p => { p with mvec := v &&& ~~~3#64 }) ∧
    (s.livesIn n = false → homeOk v.toNat (2 ^ 20) = true → bitsOf 39 0 v.toNat < 96 * 2 ^ 30 → is (.registerWrite (0x4000 + 64 * n) v) fun p => { p with root := v &&& 0x1FFFFFFFFFFF#64 }) ∧
    is (.registerWrite (0x4000 + 64 * n + 40) v) (fun p => { p with btail := v.setWidth 32 })) ∧
  (∀ d, d < 24 →
    let is (i : Instr) (f : Die → Die) : Prop := ∃ u, exec i s = .next u ∧ u.die d = f (s.die d) ∧ (∀ p, p ≠ d → u.die p = s.die p) ∧ u.hbm = s.hbm
    (homeOk v.toNat 4096 = true → is (.registerWrite (0x9000 + 64 * d) v) fun x => { x with fqBase := v &&& 0x1FFFFFFFFFFF#64 }) ∧
    (6 ≤ bitsOf 4 0 v.toNat → bitsOf 4 0 v.toNat ≤ 16 → is (.registerWrite (0x9000 + 64 * d + 8) v) fun x =>
      { x with fqEn := v.getLsbD 31, fqSize := bitsOf 4 0 v.toNat }) ∧
    (300 ≤ bitsOf 31 16 v.toNat → bitsOf 31 16 v.toNat ≤ 645 → is (.registerWrite (0xC000 + 128 * d) v) fun x => { x with cap := bitsOf 31 16 v.toNat })) ∧
  (∀ off, off < 0xE000 → exec (.registerWrite off v) { s with firm := { s.firm with shutdown := true } } = .next { s with firm := { s.firm with shutdown := true } })

/-- R349-R354, R359: a record that reads is consumed in ring order and joins the pending set when it is well formed, else the launch is
refused; one whose placement map does not read goes on without a preference, and its queue is gone. A launch starts when every dependence
is met: its root is created as `SPAWN.Q` creates, from TASK, or from CTASK when a predecessor was cancelled or refused and CTASK is not 0;
with CASC it then ends as cancelled. When its tree has ended the completion word counts one more, with the ORed flags and the status. -/
def Obligations.Launches : Prop := ∀ s : State,
  (∀ q bs, s.firm.shutdown = false → (s.lq q).en = true → (s.lq q).head ≠ (s.lq q).tail → (s.pending.filter (fun l => l.part == (s.lq q).part)).length < 1024 →
    s.deviceRead (s.lq q).part ((s.lq q).base.toNat + 256 * ((s.lq q).head.toNat % 2 ^ (s.lq q).size)) 256 = some bs →
    let x := s.lq q
    let a := x.base.toNat + 256 * (x.head.toNat % 2 ^ x.size)
    let l : Launch := { id := s.nextId, queue := q, part := x.part, addr := a, record := launchOfBytes bs }
    (s.launchOk x.part bs = false → ∃ u, exec (.launchSlotRead q) s = .next u ∧ (u.lq q).head = x.head + 1#32 ∧ (u.lq q).stat = x.stat ||| 8#4 ∧
      u.hbm = s.hbm ∧ ∃ y ∈ u.running, y.id = l.id ∧ y.ending = some (false, true, 0#30)) ∧
    (∀ ps, s.launchOk x.part bs = true → s.readMap x.part l.record.place.toNat = some ps → ∃ u, exec (.launchSlotRead q) s = .next u ∧
      u.lq q = { x with head := x.head + 1#32 } ∧ u.pending = s.pending ++ [{ l with prefs := ps }] ∧ u.hbm = s.hbm) ∧
    (s.launchOk x.part bs = true → s.readMap x.part l.record.place.toNat = none → ∃ u, exec (.launchSlotRead q) s = .next u ∧
      (u.lq q).en = false ∧ (u.lq q).stat = x.stat ||| 4#4 ∧ l ∈ u.pending ∧ u.hbm = s.hbm)) ∧
  (∀ q, s.firm.shutdown = false → (s.lq q).en = true → (s.lq q).head ≠ (s.lq q).tail → (s.pending.filter (fun l => l.part == (s.lq q).part)).length < 1024 →
    s.deviceRead (s.lq q).part ((s.lq q).base.toNat + 256 * ((s.lq q).head.toNat % 2 ^ (s.lq q).size)) 256 = none →
    ∃ u, exec (.launchSlotRead q) s = .next u ∧ (u.lq q).en = false ∧ (u.lq q).stat = (s.lq q).stat ||| 4#4 ∧ u.hbm = s.hbm) ∧
  (∀ id l, s.firm.shutdown = false → s.pending.find? (fun x => x.id == id) = some l → (∀ x ∈ s.pending.takeWhile (fun x => x.id != id), x.part = l.part → s.depState x = .waits) →
    (s.depState l = .faults → ∃ u, exec (.launchStart id) s = .next u ∧ (u.lq l.queue).stat = (s.lq l.queue).stat ||| 8#4 ∧
      (∃ y ∈ u.running, y.id = l.id ∧ y.ending = some (false, true, 0#30))) ∧
    (s.depState l = .met true → l.record.casc = true → ∃ u, exec (.launchStart id) s = .next u ∧ u.pending = s.pending.filter (fun x => x.id != l.id) ∧
      (∃ y ∈ u.running, y.id = l.id ∧ y.ending = some (true, false, 0#30))) ∧
    (∀ flag t, s.depState l = .met flag → (flag = false ∨ l.record.casc = false) →
      s.startRoot l (if flag = true ∧ l.record.ctask ≠ 0#64 then l.record.ctask else l.record.task).toNat = some t → exec (.launchStart id) s = .next t)) ∧
  (∀ id l c r st, s.running.find? (fun x => x.id == id) = some l → s.launchEnd l = some (c, r, st) →
    let a := l.record.done
    ((a = 0#64 ∨ s.doneOk l.part a = false) → ∃ u, exec (.launchComplete id) s = .next u ∧ u.running = s.running.filter (fun x => x.id != l.id) ∧ u.hbm = s.hbm) ∧
    (∀ old t, a ≠ 0#64 → s.doneOk l.part a = true → s.atomicRead l.part a.toNat = some old →
      State.deviceWrite 2 s l.part a.toNat (toBytesLE 8 (completionWord old c r st)) = some t →
      ∃ u, exec (.launchComplete id) s = .next u ∧ u.running = t.running.filter (fun x => x.id != l.id) ∧ u.hbm = t.hbm))

/-- R366, R380-R382, R404: a shootdown of 64 KiB, 2 MiB, 1 GiB or everything, by SIZE, ends when nothing under way uses the range, and then no
TLB of the partition holds any of it; a reserved SIZE is discarded. A stopped partition issues no bundle until it is resumed; STOPPED is set
once every core's record has been written at PR.DBG, core `c`'s 64 bytes at 64 c, and then no record waits for the room of a locker. PR.RESUME
lets a halted thread of the partition issue again. A cluster joins another partition once no slot of its cores is occupied and no command
accepted. The model's choices: that a move which names its own or no partition does nothing (assumption 53), that a stop and the records'
contents fall in one cycle (assumption 39), and that a shootdown takes effect in one step (assumption 55). -/
def Obligations.Partitions : Prop := ∀ s : State, s.serving = true →
  (∀ n, n < 288 →
    let is (i : Instr) (f : Partition → Partition) : Prop := ∃ u, exec i s = .next u ∧ u.partn n = f (s.partn n) ∧ u.groups = s.groups ∧ u.hbm = s.hbm
    (∀ v : Word, (s.partn n).shoot = none → bitsOf 3 0 v.toNat < 3 → is (.prShoot n v) fun p =>
      { p with shoot := some (bitsOf 55 16 v.toNat * 65536, if bitsOf 3 0 v.toNat = 0 then 2 ^ 16 else if bitsOf 3 0 v.toNat = 1 then 2 ^ 21 else 2 ^ 30) }) ∧
    (∀ v : Word, (s.partn n).shoot = none → bitsOf 3 0 v.toNat = 15 → is (.prShoot n v) fun p => { p with shoot := some (0, 2 ^ 56) }) ∧
    (∀ v : Word, (s.partn n).shoot ≠ none ∨ 3 ≤ bitsOf 3 0 v.toNat ∧ bitsOf 3 0 v.toNat ≤ 14 → is (.prShoot n v) fun p => p) ∧
    (∀ (i : Instr) (d : Bool), (i = .gangStop n ∧ d = false) ∨ (i = .gangStopDump n ∧ d = true) →
      ∃ m, (∀ c ∈ s.coresIn n, Tab.find c m = some (s.coreRecord c)) ∧ is i fun p => { p with
        stop := true, dump := d, stopped := false, stopAt := if p.stop then p.stopAt else s.cycle, snaps := if p.stop then p.snaps else m }) ∧
    is (.gangResume n) (fun p => { p with stop := false, dump := false, stopped := false, snaps := [] })) ∧
  (∀ n r, (s.partn n).shoot = some r → s.stillUses n r = false → ∃ u, exec (.shootdownComplete n) s = .next u ∧
    (u.partn n).shoot = none ∧ u.groups = s.groups ∧ u.hbm = s.hbm ∧ ∀ c ∈ s.coresIn n, ∀ e ∈ (u.core c).tlb ++ (u.cluster (clusterOf c)).tlb, e.meets r = false) ∧
  (∀ n t, (s.partn n).stop = true → (s.partn n).stopped = false → (s.coresIn n).foldl (fun o c => o.bind fun x => x.writeStop n c) (some s) = some t →
    exec (.gangStopComplete n) s = .next (t.onPart n fun p => { p with stopped := true }) ∧ t.groups = s.groups) ∧
  (∀ n c p, s.MemOk → (s.partn n).dump = false → p.len = 64 →
    s.plan true 0 n 0 ((s.partn n).dbg.toNat + 64 * c) 64 { store := true, user := false } false true = .ok [p] →
    let r := (Tab.find c (s.partn n).snaps).getD (s.coreRecord c)
    r.length = 64 → ∃ t, s.writeStop n c = some t ∧ t.readPhys p.host p.key p.addr 64 = r ∧ t.parts = s.parts) ∧
  (∀ n c, s.partOf c = n → (s.partn n).stop = true → s.pick c = none) ∧
  (∀ (n : Nat) (v : Word) c k g t, n < 288 → bitsOf 12 0 v.toNat = c → bitsOf 18 13 v.toNat = k → c < 4608 → s.partOf c = n →
    (s.slotsOf c).find? (fun x => x.1 == k) = some (k, g, t) → s.hasThread g t = true →
    ∃ u, exec (.prResume n v) s = .next u ∧ u.thread g t = { s.thread g t with halted := false } ∧ u.hbm = s.hbm) ∧
  (∀ k (v : BitVec 9), k < 288 → ∃ u, exec (.partitionMoveRequest k v) s = .next u ∧ u.groups = s.groups ∧ u.cluster k =
    (if (s.cluster k).moving = none ∧ v.toNat < 288 ∧ v.toNat ≠ (s.cluster k).part then { s.cluster k with moving := some v.toNat } else s.cluster k)) ∧
  (∀ k p, (s.cluster k).moving = some p → s.commandsOf k = [] → (∀ i < 16, s.slotsOf (16 * k + i) = []) → ∃ u, exec (.partitionMoveComplete k) s = .next u ∧
    (u.cluster k).part = p ∧ (u.cluster k).moving = none ∧ (u.cluster k).tlb = [] ∧ u.hbm = s.hbm)

/-! ## Management, the host port and links (spec 01; 20) -/

/-- R393-R398, R28-R34: a valid command is taken, or refused with status 3 in the state that boot left. `UPDATE` and `RECORD` write flash when
the image verifies (1 when not, 4 when it is too old); `ATTEST` and `IDKEY` write their result; `SETKEY` and `CLRKEY` change one key slot,
never slot 0. A cold reset clears everything but host memory and flash, and starts serials at the recorded mark. That slot 0, and a buffer too
short for its result, end with STATUS 2 (assumption 57), and that the key slots are 0 after a cold reset (assumption 3), is the model's choice. -/
def Obligations.Management : Prop := ∀ s : State,
  let answered (i : Instr) (st : Word) (t : State) : Prop := exec i s = .next (t.answerSlot st)
  ((s.firm.taken ≠ none ∨ s.commandThere = false) → exec .managementPoll s = .next s) ∧
  (s.firm.taken = none → s.commandThere = true →
    (s.firm.accepts s.slotOpcode = false → answered .managementPoll 3#64 s) ∧
    (s.firm.accepts s.slotOpcode = true → 1 ≤ s.slotOpcode → s.slotOpcode ≤ 6 →
      exec .managementPoll s = .next { s with firm := { s.firm with taken := some s.slotOpcode } })) ∧
  (s.firm.taken = some 1 →
    (Config.verifies s.slotBuffer = false → answered .updateFw 1#64 s) ∧
    (Config.verifies s.slotBuffer = true → Config.imageVersion s.slotBuffer < s.firm.minVersion → answered .updateFw 4#64 s) ∧
    (Config.verifies s.slotBuffer = true → s.firm.minVersion ≤ Config.imageVersion s.slotBuffer →
      answered .updateFw 0#64 { s with firm := { s.firm with newImage := some s.slotBuffer } })) ∧
  (s.firm.taken = some 2 →
    (Config.verifies s.slotBuffer = false → answered .recordFw 1#64 s) ∧
    (Config.verifies s.slotBuffer = true → answered .recordFw 0#64 { s with firm := { s.firm with newRecord := some s.slotBuffer } })) ∧
  (∀ i bs, (s.firm.taken = some 3 ∧ i = .attest ∧ bs = s.report (s.hostBytes (s.firm.mbBase.toNat + 64) 32) ∨ s.firm.taken = some 4 ∧ i = .idkey ∧ bs = identityBytes) →
    (bs.length ≤ s.slotWord 24 → answered i 0#64 (s.writePhys true 0 (s.slotWord 16) bs)) ∧ (s.slotWord 24 < bs.length → answered i 2#64 s)) ∧
  (∀ i key, (s.firm.taken = some 5 ∧ i = .setkey ∧ key = BitVec.ofNat 512 (ofBytesLE (s.hostBytes (s.firm.mbBase.toNat + 72) 64)) ∨
      s.firm.taken = some 6 ∧ i = .clrkey ∧ key = 0#512) →
    let k := s.slotWord 64 % 256
    (k = 0 → answered i 2#64 s) ∧
    (k ≠ 0 → s.dirtyKey k = false → s.midKey k = false → ∃ u, exec i s = .next u ∧ u.firm.keys = Tab.set 0#512 k key s.firm.keys ∧ u.hbm = s.hbm ∧ u.firm.taken = none)) ∧
  (∃ u, exec .coldReset s = .next u ∧ u.hbm = [] ∧ u.hostMem = s.hostMem ∧ u.groups = [] ∧ u.roll = [] ∧ u.firm.keys = [] ∧ u.cycle = 0 ∧
    u.firm.nextSerial = (if s.firm.mark = 0 then 1 else s.firm.mark))

/-- R384, R385, R387-R390, R403: a host access of the window reads and writes module memory under key 0 when no transaction is open on its
lines and no store there is seen by its own cluster alone, and a write invalidates every copy; above the module's memory a read gets no data,
nor, by the model's choice (assumption 56), one that straddles its end. A host agent's write of host memory takes the half
lines from the bridge. The port trains as CXL or PCIe. Another module's copy is served under the pod table, in accesses within one aligned
block of 32 bytes, as an access of the trunk of the named partition, or refused. -/
def Obligations.HostAccess : Prop := ∀ (s : State) (off n data : Nat),
  (s.serving = true → off + n ≤ 2304 * 2 ^ 30 → s.linesBusy (linesOf off n) = false → s.shownAt false off n = false →
    s.meetsWorld off n = false → ∃ u, exec (.hostWindowRead off n) s = .next u ∧ u.port.reply = some (s.readPhys false 0 off n) ∧ u.hbm = s.hbm ∧ u.groups = s.groups) ∧
  ((s.serving = false ∨ 2304 * 2 ^ 30 < off + n) → exec (.hostWindowRead off n) s = .next { s with port := { s.port with reply := none } }) ∧
  (s.serving = true → off + n ≤ 2304 * 2 ^ 30 → s.linesBusy (linesOf off n) = false → s.shownAt false off n = false →
    ∃ u, exec (.hostWindowWrite off n data) s = .next u ∧
    u.hbm = (s.writePhys false 0 off (toBytesLE n data)).hbm ∧ u.lineKeys = (s.writePhys false 0 off (toBytesLE n data)).lineKeys ∧ u.hostMem = s.hostMem) ∧
  (s.shownAt true off n = false → ∃ u, exec (.hostInvalidation off n data) s = .next u ∧ u.hostMem = (s.writePhys true 0 off (toBytesLE n data)).hostMem ∧ u.hbm = s.hbm ∧
    ∀ x ∈ u.port.halves, ¬ (x.1 * 64 < off + n ∧ off < x.1 * 64 + 64)) ∧
  (∀ c, s.port.trained = false → exec (.linkTraining c) s = .next { s with port := { s.port with trained := true, cxl := c } }) ∧
  (∀ m va, m < 4096 → s.serving = true → 0 < n → va % 32 + n ≤ 32 →
    let e := s.podEntry m
    let part := bitsOf 8 0 e
    (∀ w, s.podAllows m w = false → exec (.remoteCopyAccess m va w (n, data)) s = .next { s with port := { s.port with podReply := none } }) ∧
    (s.podAllows m false = true → s.podWaits part va n false = false →
      exec (.remoteCopyAccess m va false (n, data)) s = .next { s with port := { s.port with podReply := s.podRead part va n } }) ∧
    (∀ t, s.podAllows m true = true → s.podWaits part va n true = false → State.podWrite 3 s part va (toBytesLE n data) = some t →
      exec (.remoteCopyAccess m va true (n, data)) s = .next { t with port := { t.port with podReply := some [] } }))

/-- R61, R399-R402: a port accepts the flit that follows the last accepted one when its CRC checks, applying the insertions up to EPOCH
before it decodes the units, and what they complete of a message of another module takes effect; any other flit is answered with NAK. A NAK
acknowledges up to ACK and sends the rest again, as does a lapse of 4,800 cycles, counted in TM.RETRY where the link ends; eight resends
without progress take the port down until it has trained.
R408-R412: refresh and retention sweep change nothing that a program sees, in their periods; the sweep counts what it corrected. Scrub
counts a slice's period, once in a frame, and corrected errors, and poisons an uncorrectable line, counted once. Telemetry copies a die's
counters. At 100 °C a die grants no array pass until it has fallen below 95 °C, and at 110 °C every partition stops and the compute function
responds no more; then no flit is taken either. The model's choices: how modules' messages are taken (assumption 20), that a telemetry step sets
and keeps the inhibit too (assumption 61), the die and the free count of a retention sweep (assumption 6), the order of the scrub (assumption
83), and the open number of flits that stand on a die-to-die link (assumption 87). -/
def Obligations.LinksAndHousekeeping : Prop :=
  (∀ (s : State) (p flit : Nat), portNamed p = true →
  let x := s.portn p
  let rest (u : State) : Prop := u.hbm = s.hbm ∧ u.groups = s.groups ∧ ∀ q, q ≠ p → u.portn q = s.portn q
  (x.up = true →
    (s.firm.shutdown = false → flitSeq flit = x.rxLast + 1#12 → flitOk flit = true →
      let y := x.applyEpoch (flitEpoch flit)
      let got := (flitUnits flit).map y.decode
      let msgs := if p < 32 then (Config.podMessages (Tab.get [] (flitVc flit).toNat x.rest ++ got)).1 else []
      ∃ u, exec (.flitReceive p flit) s = .next (msgs.foldl State.takeMessage u) ∧ rest u ∧
        (u.portn p).rxLast = flitSeq flit ∧ (u.portn p).units = got ∧ (u.portn p).table = y.table ∧
        (u.portn p).waiting = y.waiting ++ (literals (flitUnits flit)).map fun v => (flitSeq flit, v)) ∧
    (s.firm.shutdown = false → ¬ (flitSeq flit = x.rxLast + 1#12 ∧ flitOk flit = true) → ∃ u, exec (.flitReceive p flit) s = .next u ∧ rest u ∧ u.portn p = { x with nak := true }) ∧
    (∀ ack : BitVec 12, s.firm.shutdown = false → x.outQ = [] → let y := x.acknowledge s.cycle ack
      ∃ u, exec (.flitNak p ack) s = .next u ∧ rest u ∧
        (p < 32 → u.portn p = if y.unacked = [] then y else { y with resends := y.resends + 1, ackAt := s.cycle }) ∧
        (32 ≤ p → u.portn p = y ∨ u.portn p = { y with resends := y.resends + 1, ackAt := s.cycle })) ∧
    (32 ≤ p → x.ackAt + 4800 ≤ s.cycle → ∃ u n, exec (.resendTimeout p) s = .next u ∧ rest u ∧ n ≤ 1024 ∧
      ∀ d ∈ portDies p, (u.die d).live.retry = (s.die d).live.retry + BitVec.ofNat 64 n) ∧
    (p < 32 → x.unacked ≠ [] → x.ackAt + 4800 ≤ s.cycle → ∃ u, exec (.resendTimeout p) s = .next u ∧ rest u ∧
      u.portn p = { x with resends := x.resends + 1, ackAt := s.cycle } ∧
      ∀ d ∈ portDies p, (u.die d).live.retry = (s.die d).live.retry + BitVec.ofNat 64 x.unacked.length) ∧
    (8 ≤ x.resends → ∃ u, exec (.portRetrain p) s = .next u ∧ rest u ∧ u.portn p = { x with up := false })) ∧
  (x.up = false → x.outQ = [] → s.firm.recordValid = true → s.firm.imageValid = true → ∃ u, exec (.portTrainingComplete p) s = .next u ∧ rest u ∧
    u.portn p = { x with up := true, resends := 0, ackAt := s.cycle })) ∧
  (∀ (s : State) (y : Config.PodStore) (k : Nat), (s.takeMessage (.store y)).rstores = s.rstores ++ [podStore y s.nextId] ∧
    ∃ b, (s.takeMessage (.bounce y k)).bounces = s.bounces ++ [b] ∧ b.reason = k ∧ b.store.sender = y.sender ∧ b.store.sthread = y.thread) ∧
  (∀ (s : State) (die : Nat), die < 24 →
  let period (k : Nat) : Prop := 3840 ≤ s.cycle % 4096 ∧ s.cycle / 4096 % 4 = k
  let rest (u : State) : Prop := u.hbm = s.hbm ∧ u.groups = s.groups ∧ ∀ d, d ≠ die → u.die d = s.die d
  (3840 ≤ s.cycle % 4096 → exec .hbmRefresh s = .next s) ∧
  (period 2 → ∃ u, exec .retentionSweep s = .next u ∧ u.hbm = s.hbm ∧ u.groups = s.groups ∧ u.poison = s.poison ∧
    ∃ d c, d < 24 ∧ (u.die d).live.ce = (s.die d).live.ce + BitVec.ofNat 64 c ∧ ∀ e, e ≠ d → u.die e = s.die e) ∧
  (∀ slice c, period 0 → slice < 16 → Tab.get 0 slice (s.die die).scrubAt ≤ s.cycle / 4096 →
    (∃ u, exec (.scrub die slice c []) s = .next u ∧ rest u ∧ u.poison = s.poison ∧
      Tab.get 0 slice (u.die die).scrubbed = Tab.get 0 slice (s.die die).scrubbed + 1 ∧
      Tab.get 0 slice (u.die die).scrubAt = s.cycle / 4096 + 1 ∧ (u.die die).live.ce = (s.die die).live.ce + BitVec.ofNat 64 c) ∧
    (∀ k l, k ≠ 0 → s.scrubs die slice k l = true → ∃ u, exec (.scrub die slice c [(k, l)]) s = .next u ∧ rest u ∧
      (Tab.find l s.poison ≠ none → u.poison = s.poison ∧ (u.die die).live.ue = (s.die die).live.ue) ∧
      (Tab.find l s.poison = none → u.poison = Tab.put l k s.poison ∧ (u.die die).live.ue = (s.die die).live.ue + 1#64))) ∧
  (∀ tj : BitVec 16, period 3 → (tj.toNat < 1760 ∨ s.firm.shutdown = true) → ∃ u, exec (.telemetry (die, tj)) s = .next u ∧ rest u ∧
    let hot : Bool := decide (1600 ≤ tj.toNat) || ((s.die die).inhibit && decide (1520 ≤ tj.toNat))
    u.die die = { s.die die with
      inhibit := hot, live := { (s.die die).live with tj := tj }
      copy := { (s.die die).live with tj := tj, est := s.estimate die / 2, cap := (s.die die).cap } }) ∧
  (∀ tj : BitVec 16,
    (1600 ≤ tj.toNat → (tj.toNat < 1760 ∨ s.firm.shutdown = true) → ∃ u, exec (.thermalLimit die tj) s = .next u ∧ rest u ∧ (u.die die).inhibit = true ∧ (u.die die).live.tj = tj) ∧
    (tj.toNat < 1520 → ∃ u, exec (.thermalRecover die tj) s = .next u ∧ rest u ∧ (u.die die).inhibit = false ∧ (u.die die).live.tj = tj) ∧
    (1760 ≤ tj.toNat → ∃ u, exec (.thermalShutdown die tj) s = .next u ∧ u.hbm = s.hbm ∧ u.groups = s.groups ∧ u.firm.shutdown = true ∧ u.serving = false ∧
      ∀ n, n < 288 → (u.partn n).stop = true)))

/-! ## Reset, invariants and the frame of an instruction (spec 01 R33; 03 R25; 08 R205, R221; 19 R361-R363) -/

/-- R33: after a cold reset every thread slot is empty, every semaphore reads 0, every TLB and cache holds nothing, the roll, every task
queue, every branch and every command queue is empty, and HBM reads zero under key 0 without poison. -/
def Obligations.ResetState : Prop := Sys2Proof.core.reset = State.reset ∧
  (∀ c, State.reset.slotsOf c = []) ∧ (∀ g i, State.reset.sem g i = 0) ∧ (∀ c, (State.reset.core c).tlb = [] ∧ (State.reset.cluster c).tlb = [] ∧ (State.reset.cluster c).l2 = []) ∧
  State.reset.dir = [] ∧ State.reset.roll = [] ∧ (∀ p, (State.reset.partn p).tasks = [] ∧ (State.reset.partn p).pushes = [] ∧ (State.reset.partn p).branches = []) ∧
  (∀ c q, State.reset.queue c q = []) ∧ (∀ a, State.reset.hbmByte 0 a = 0#8) ∧ State.reset.poison = [] ∧ State.reset.MemOk

/-- The invariant of memory: in canonical form before a step, both memories and the record of keys are in canonical form after it, whatever
the step is (R33, R101, R393). -/
def Obligations.StepKeepsMemOk : Prop := ∀ s t : State, s.MemOk → Sys2Proof.Machine.step s = .next t → t.MemOk

/-- The frame of every instruction of a thread, of R25, R205, R221 and R361-R363: it leaves every byte of memory, the keys, the directory,
the world store, the ports, the clusters and the launch queues alone, since what it sends takes effect in steps of its own. The program
counter stays a multiple of 4 and `c.vlen` at most 4,096. A user thread sets neither M of `c.tvec` nor PM of `c.tcause`, and enters monitor
mode at the partition's monitor vector alone. -/
def Obligations.InstrFrame : Prop := ∀ (i : Instr) (s t : State), isEvent i = false → exec i s = .next t →
  SameDevice s t ∧ (s.iss.live = true → s.ThreadOk → t.ThreadOk) ∧
  (s.iss.live = true → (∀ th, (th = s.cur ∨ th = s.pre) → th.monitor = false ∧ th.tvec.getLsbD 0 = false ∧ th.tcause.getLsbD 14 = false) →
    t.cur.tvec.getLsbD 0 = false ∧ t.cur.tcause.getLsbD 14 = false ∧
    (t.cur.monitor = true → t.cur.pc = (s.partn s.me.part).mvec &&& ~~~3#64))
end

