-- ==== Sys2Proof/Laws/Encoding.lean ====
section
/-! SUPPORT. How words and fields fit together: what the decoder reads back from the sums that the encoder writes. -/

namespace Sys2Proof

theorem AmoOp.code_lt (x : AmoOp) : x.code < 8 := by cases x <;> decide
theorem AmoOp.ofCode_code (x : AmoOp) : AmoOp.ofCode x.code = x := by cases x <;> rfl

theorem Cond.code_lt (x : Cond) : x.code < 8 := by cases x <;> decide
theorem Cond.ofCode_code (x : Cond) : Cond.ofCode x.code = x := by cases x <;> rfl

theorem ElemType.code_lt (x : ElemType) : x.code < 16 := by cases x <;> decide
theorem ElemType.ofCode_code (x : ElemType) : ElemType.ofCode x.code = some x := by cases x <;> rfl

theorem FCond.code_lt (x : FCond) : x.code < 4 := by cases x <;> decide
theorem FCond.ofCode_code (x : FCond) : FCond.ofCode x.code = x := by cases x <;> rfl

theorem FConv.code_lt (x : FConv) : x.code < 8 := by cases x <;> decide
theorem FConv.ofCode_code (x : FConv) : FConv.ofCode x.code = x := by cases x <;> rfl

theorem FenceKind.code_lt (x : FenceKind) : x.code < 4 := by cases x <;> decide
theorem FenceKind.ofCode_code (x : FenceKind) : FenceKind.ofCode x.code = some x := by cases x <;> rfl

theorem FenceScope.code_lt (x : FenceScope) : x.code < 8 := by cases x <;> decide
theorem FenceScope.ofCode_code (x : FenceScope) : FenceScope.ofCode x.code = some x := by cases x <;> rfl

theorem LoadWidth.code_lt (x : LoadWidth) : x.code < 8 := by cases x <;> decide
theorem LoadWidth.ofCode_code (x : LoadWidth) : LoadWidth.ofCode x.code = x := by cases x <;> rfl

theorem RedOp.code_lt (x : RedOp) : x.code < 16 := by cases x <;> decide
theorem RedOp.ofCode_code (x : RedOp) : RedOp.ofCode x.code = some x := by cases x <;> rfl

theorem RoundSel.code_lt (x : RoundSel) : x.code < 16 := by cases x <;> decide
theorem RoundSel.ofCode_code (x : RoundSel) : RoundSel.ofCode x.code = some x := by cases x <;> rfl

theorem ShiftKind.code_lt (x : ShiftKind) : x.code < 4 := by cases x <;> decide
theorem ShiftKind.ofCode_code (x : ShiftKind) : ShiftKind.ofCode x.code = x := by cases x <;> rfl

theorem StoreWidth.code_lt (x : StoreWidth) : x.code < 8 := by cases x <;> decide
theorem StoreWidth.ofCode_code (x : StoreWidth) : StoreWidth.ofCode x.code = some x := by cases x <;> rfl

theorem VCond.code_lt (x : VCond) : x.code < 16 := by cases x <;> decide
theorem VCond.ofCode_code (x : VCond) : VCond.ofCode x.code = some x := by cases x <;> rfl

theorem bitNat_le (b : Bool) : bitNat b ≤ 1 := by cases b <;> decide

theorem bitOf_eq {i n : Nat} {b : Bool} (h : n / 2 ^ i % 2 = bitNat b) : bitOf i n = b := by
  cases b <;> simp_all [bitOf, bitNat]

theorem ofNat_eq {w : Nat} (x : BitVec w) (n : Nat) (h : n % 2 ^ w = x.toNat) : BitVec.ofNat w n = x := by
  apply BitVec.eq_of_toNat_eq; simpa using h

theorem decodeNat_s (m o : Nat) (hm : m < 64) (ho : o < 2 ^ 24) : decodeNat (m * 2 ^ 24 + o) = decodeS m o := by
  have h30 : bitOf 30 (m * 2 ^ 24 + o) = false := by simp only [bitOf, beq_eq_false_iff_ne]; omega
  have hM : bitsOf 29 24 (m * 2 ^ 24 + o) = m := by simp only [bitsOf]; omega
  have hO : bitsOf 23 0 (m * 2 ^ 24 + o) = o := by simp only [bitsOf]; omega
  simp only [decodeNat, h30, hM, hO, Bool.false_eq_true, if_false]

theorem decodeNat_v (m o : Nat) (hm : m < 64) (ho : o < 2 ^ 24) : decodeNat (2 ^ 30 + m * 2 ^ 24 + o) = decodeV m o := by
  have h30 : bitOf 30 (2 ^ 30 + m * 2 ^ 24 + o) = true := by simp only [bitOf, beq_iff_eq]; omega
  have h31 : bitOf 31 (2 ^ 30 + m * 2 ^ 24 + o) = false := by simp only [bitOf, beq_eq_false_iff_ne]; omega
  have hM : bitsOf 29 24 (2 ^ 30 + m * 2 ^ 24 + o) = m := by simp only [bitsOf]; omega
  have hO : bitsOf 23 0 (2 ^ 30 + m * 2 ^ 24 + o) = o := by simp only [bitsOf]; omega
  simp only [decodeNat, h30, h31, hM, hO, Bool.false_eq_true, if_true, if_false]

theorem decodeS_0 (o : Nat) : decodeS 0 o = decS00 o := rfl
theorem decodeS_1 (o : Nat) : decodeS 1 o = decS01 o := rfl
theorem decodeS_2 (o : Nat) : decodeS 2 o = decS02 o := rfl
theorem decodeS_3 (o : Nat) : decodeS 3 o = decS03 o := rfl
theorem decodeS_4 (o : Nat) : decodeS 4 o = decS04 o := rfl
theorem decodeS_5 (o : Nat) : decodeS 5 o = decS05 o := rfl
theorem decodeS_6 (o : Nat) : decodeS 6 o = decS06 o := rfl
theorem decodeS_7 (o : Nat) : decodeS 7 o = decS07 o := rfl
theorem decodeS_8 (o : Nat) : decodeS 8 o = decS08 o := rfl
theorem decodeS_9 (o : Nat) : decodeS 9 o = decS09 o := rfl
theorem decodeS_10 (o : Nat) : decodeS 10 o = decS10 o := rfl
theorem decodeS_11 (o : Nat) : decodeS 11 o = decS11 o := rfl
theorem decodeS_12 (o : Nat) : decodeS 12 o = decS12 o := rfl
theorem decodeS_13 (o : Nat) : decodeS 13 o = decS13 o := rfl
theorem decodeS_14 (o : Nat) : decodeS 14 o = decS14 o := rfl
theorem decodeS_15 (o : Nat) : decodeS 15 o = decS15 o := rfl
theorem decodeS_16 (o : Nat) : decodeS 16 o = decS16 o := rfl
theorem decodeS_17 (o : Nat) : decodeS 17 o = decS17 o := rfl
theorem decodeS_18 (o : Nat) : decodeS 18 o = decS18 o := rfl
theorem decodeS_19 (o : Nat) : decodeS 19 o = decS19 o := rfl
theorem decodeS_20 (o : Nat) : decodeS 20 o = decS20 o := rfl
theorem decodeS_21 (o : Nat) : decodeS 21 o = decS21 o := rfl
theorem decodeS_22 (o : Nat) : decodeS 22 o = decS22 o := rfl
theorem decodeS_23 (o : Nat) : decodeS 23 o = decS23 o := rfl
theorem decodeS_24 (o : Nat) : decodeS 24 o = decS24 o := rfl
theorem decodeS_25 (o : Nat) : decodeS 25 o = decS25 o := rfl
theorem decodeS_26 (o : Nat) : decodeS 26 o = decS26 o := rfl
theorem decodeS_27 (o : Nat) : decodeS 27 o = decS27 o := rfl
theorem decodeS_28 (o : Nat) : decodeS 28 o = decS28 o := rfl
theorem decodeS_29 (o : Nat) : decodeS 29 o = decS29 o := rfl
theorem decodeS_30 (o : Nat) : decodeS 30 o = decS30 o := rfl
theorem decodeS_31 (o : Nat) : decodeS 31 o = decS31 o := rfl
theorem decodeS_32 (o : Nat) : decodeS 32 o = decS32 o := rfl
theorem decodeS_33 (o : Nat) : decodeS 33 o = decS33 o := rfl
theorem decodeS_34 (o : Nat) : decodeS 34 o = decS34 o := rfl
theorem decodeS_35 (o : Nat) : decodeS 35 o = decS35 o := rfl
theorem decodeS_36 (o : Nat) : decodeS 36 o = decS36 o := rfl
theorem decodeS_37 (o : Nat) : decodeS 37 o = decS37 o := rfl
theorem decodeS_38 (o : Nat) : decodeS 38 o = decS38 o := rfl
theorem decodeS_39 (o : Nat) : decodeS 39 o = decS39 o := rfl
theorem decodeS_40 (o : Nat) : decodeS 40 o = decS40 o := rfl
theorem decodeS_41 (o : Nat) : decodeS 41 o = decS41 o := rfl
theorem decodeS_42 (o : Nat) : decodeS 42 o = decS42 o := rfl
theorem decodeS_43 (o : Nat) : decodeS 43 o = decS43 o := rfl
theorem decodeS_44 (o : Nat) : decodeS 44 o = decS44 o := rfl
theorem decodeS_45 (o : Nat) : decodeS 45 o = decS45 o := rfl
theorem decodeS_46 (o : Nat) : decodeS 46 o = decS46 o := rfl
theorem decodeS_47 (o : Nat) : decodeS 47 o = decS47 o := rfl
theorem decodeS_48 (o : Nat) : decodeS 48 o = decS48 o := rfl
theorem decodeS_49 (o : Nat) : decodeS 49 o = decS49 o := rfl
theorem decodeS_50 (o : Nat) : decodeS 50 o = decS50 o := rfl
theorem decodeS_51 (o : Nat) : decodeS 51 o = decS51 o := rfl
theorem decodeS_52 (o : Nat) : decodeS 52 o = decS52 o := rfl
theorem decodeS_53 (o : Nat) : decodeS 53 o = decS53 o := rfl
theorem decodeS_54 (o : Nat) : decodeS 54 o = decS54 o := rfl
theorem decodeS_55 (o : Nat) : decodeS 55 o = decS55 o := rfl
theorem decodeS_56 (o : Nat) : decodeS 56 o = decS56 o := rfl
theorem decodeS_57 (o : Nat) : decodeS 57 o = decS57 o := rfl
theorem decodeV_0 (o : Nat) : decodeV 0 o = decV00 o := rfl
theorem decodeV_1 (o : Nat) : decodeV 1 o = decV01 o := rfl
theorem decodeV_2 (o : Nat) : decodeV 2 o = decV02 o := rfl
theorem decodeV_3 (o : Nat) : decodeV 3 o = decV03 o := rfl
theorem decodeV_4 (o : Nat) : decodeV 4 o = decV04 o := rfl
theorem decodeV_5 (o : Nat) : decodeV 5 o = decV05 o := rfl
theorem decodeV_6 (o : Nat) : decodeV 6 o = decV06 o := rfl
theorem decodeV_7 (o : Nat) : decodeV 7 o = decV07 o := rfl
theorem decodeV_8 (o : Nat) : decodeV 8 o = decV08 o := rfl
theorem decodeV_9 (o : Nat) : decodeV 9 o = decV09 o := rfl
theorem decodeV_10 (o : Nat) : decodeV 10 o = decV10 o := rfl
theorem decodeV_11 (o : Nat) : decodeV 11 o = decV11 o := rfl
theorem decodeV_12 (o : Nat) : decodeV 12 o = decV12 o := rfl
theorem decodeV_13 (o : Nat) : decodeV 13 o = decV13 o := rfl
theorem decodeV_14 (o : Nat) : decodeV 14 o = decV14 o := rfl

theorem shape0 (d : SReg) (a : SReg) (b : SReg) (c f : Nat) (hc : c = f * 2 ^ 0) (hf : f < 8) (o : Nat) (h : e17 d + e10 a + e3 b + c = o) :
    o < 2 ^ 24 ∧ bitsOf 2 0 o = f ∧ (f7 17 o : BitVec 7) = d ∧ (f7 10 o : BitVec 7) = a ∧ (f7 3 o : BitVec 7) = b := by
  simp only [e10, e17, e3] at h
  have b0 := d.isLt
  have b1 := a.isLt
  have b2 := b.isLt
  exact ⟨by omega, by simp only [bitsOf]; omega, ofNat_eq _ _ (by omega), ofNat_eq _ _ (by omega), ofNat_eq _ _ (by omega)⟩

theorem shape1 (d : SReg) (a : SReg) (c f : Nat) (hc : c = f * 2 ^ 0) (hf : f < 8) (o : Nat) (h : e17 d + e10 a + c = o) :
    o < 2 ^ 24 ∧ bitsOf 2 0 o = f ∧ bitsOf 9 3 o = 0 ∧ (f7 17 o : BitVec 7) = d ∧ (f7 10 o : BitVec 7) = a := by
  simp only [e10, e17] at h
  have b0 := d.isLt
  have b1 := a.isLt
  exact ⟨by omega, by simp only [bitsOf]; omega, by simp only [bitsOf]; omega, ofNat_eq _ _ (by omega), ofNat_eq _ _ (by omega)⟩

theorem shape2 (d : SReg) (a : SReg) (b : SReg) (f : BitVec 3) (o : Nat) (h : e17 d + e10 a + e3 b + f.toNat = o) :
    o < 2 ^ 24 ∧ (f7 17 o : BitVec 7) = d ∧ (f7 10 o : BitVec 7) = a ∧ (f7 3 o : BitVec 7) = b ∧ (BitVec.ofNat 3 o : BitVec 3) = f := by
  simp only [e10, e17, e3] at h
  have b0 := d.isLt
  have b1 := a.isLt
  have b2 := b.isLt
  have b3 := f.isLt
  exact ⟨by omega, ofNat_eq _ _ (by omega), ofNat_eq _ _ (by omega), ofNat_eq _ _ (by omega), ofNat_eq _ _ (by omega)⟩

theorem shape3 (pd : PReg) (c : Cond) (a : SReg) (b : SReg) (o : Nat) (h : e21 pd + e10 a + e3 b + c.code = o) :
    o < 2 ^ 24 ∧ bitsOf 20 17 o = 0 ∧ (f3 21 o : BitVec 3) = pd ∧ bitsOf 2 0 o = c.code ∧ (f7 10 o : BitVec 7) = a ∧ (f7 3 o : BitVec 7) = b := by
  simp only [e10, e21, e3] at h
  have b0 := pd.isLt
  have b1 := Cond.code_lt c
  have b2 := a.isLt
  have b3 := b.isLt
  exact ⟨by omega, by simp only [bitsOf]; omega, ofNat_eq _ _ (by omega), by simp only [bitsOf]; omega, ofNat_eq _ _ (by omega), ofNat_eq _ _ (by omega)⟩

theorem shape4 (pd : PReg) (c : Cond) (a : SReg) (imm : BitVec 10) (o : Nat) (h : e21 pd + c.code * 2 ^ 18 + e10 a + imm.toNat = o) :
    o < 2 ^ 24 ∧ bitsOf 17 17 o = 0 ∧ (f3 21 o : BitVec 3) = pd ∧ bitsOf 20 18 o = c.code ∧ (f7 10 o : BitVec 7) = a ∧ (BitVec.ofNat 10 o : BitVec 10) = imm := by
  simp only [e10, e21] at h
  have b0 := pd.isLt
  have b1 := Cond.code_lt c
  have b2 := a.isLt
  have b3 := imm.isLt
  exact ⟨by omega, by simp only [bitsOf]; omega, ofNat_eq _ _ (by omega), by simp only [bitsOf]; omega, ofNat_eq _ _ (by omega), ofNat_eq _ _ (by omega)⟩

theorem shape5 (d : SReg) (p : PReg) (a : SReg) (b : SReg) (o : Nat) (h : e17 d + e10 a + e3 b + p.toNat = o) :
    o < 2 ^ 24 ∧ (f7 17 o : BitVec 7) = d ∧ (BitVec.ofNat 3 o : BitVec 3) = p ∧ (f7 10 o : BitVec 7) = a ∧ (f7 3 o : BitVec 7) = b := by
  simp only [e10, e17, e3] at h
  have b0 := d.isLt
  have b1 := p.isLt
  have b2 := a.isLt
  have b3 := b.isLt
  exact ⟨by omega, ofNat_eq _ _ (by omega), ofNat_eq _ _ (by omega), ofNat_eq _ _ (by omega), ofNat_eq _ _ (by omega)⟩

theorem shape6 (d : SReg) (a : SReg) (imm : BitVec 10) (o : Nat) (h : e17 d + e10 a + imm.toNat = o) :
    o < 2 ^ 24 ∧ (f7 17 o : BitVec 7) = d ∧ (f7 10 o : BitVec 7) = a ∧ (BitVec.ofNat 10 o : BitVec 10) = imm := by
  simp only [e10, e17] at h
  have b0 := d.isLt
  have b1 := a.isLt
  have b2 := imm.isLt
  exact ⟨by omega, ofNat_eq _ _ (by omega), ofNat_eq _ _ (by omega), ofNat_eq _ _ (by omega)⟩

theorem shape7 (k : ShiftKind) (d : SReg) (a : SReg) (n : BitVec 6) (o : Nat) (h : e17 d + e10 a + k.code * 2 ^ 8 + n.toNat = o) :
    o < 2 ^ 24 ∧ bitsOf 7 6 o = 0 ∧ bitsOf 9 8 o = k.code ∧ (f7 17 o : BitVec 7) = d ∧ (f7 10 o : BitVec 7) = a ∧ (BitVec.ofNat 6 o : BitVec 6) = n := by
  simp only [e10, e17] at h
  have b0 := ShiftKind.code_lt k
  have b1 := d.isLt
  have b2 := a.isLt
  have b3 := n.isLt
  exact ⟨by omega, by simp only [bitsOf]; omega, by simp only [bitsOf]; omega, ofNat_eq _ _ (by omega), ofNat_eq _ _ (by omega), ofNat_eq _ _ (by omega)⟩

theorem shape8 (d : SReg) (imm : BitVec 17) (o : Nat) (h : e17 d + imm.toNat = o) :
    o < 2 ^ 24 ∧ (f7 17 o : BitVec 7) = d ∧ (BitVec.ofNat 17 o : BitVec 17) = imm := by
  simp only [e17] at h
  have b0 := d.isLt
  have b1 := imm.isLt
  exact ⟨by omega, ofNat_eq _ _ (by omega), ofNat_eq _ _ (by omega)⟩

theorem shape9 (pd : PReg) (pa : PReg) (pb : PReg) (c f : Nat) (hc : c = f * 2 ^ 0) (hf : f < 8) (o : Nat) (h : e21 pd + e18 pa + e15 pb + c = o) :
    o < 2 ^ 24 ∧ bitsOf 2 0 o = f ∧ bitsOf 14 3 o = 0 ∧ (f3 21 o : BitVec 3) = pd ∧ (f3 18 o : BitVec 3) = pa ∧ (f3 15 o : BitVec 3) = pb := by
  simp only [e15, e18, e21] at h
  have b0 := pd.isLt
  have b1 := pa.isLt
  have b2 := pb.isLt
  exact ⟨by omega, by simp only [bitsOf]; omega, by simp only [bitsOf]; omega, ofNat_eq _ _ (by omega), ofNat_eq _ _ (by omega), ofNat_eq _ _ (by omega)⟩

theorem shape10 (pd : PReg) (pa : PReg) (c f : Nat) (hc : c = f * 2 ^ 0) (hf : f < 8) (o : Nat) (h : e21 pd + e18 pa + c = o) :
    o < 2 ^ 24 ∧ bitsOf 2 0 o = f ∧ bitsOf 17 3 o = 0 ∧ (f3 21 o : BitVec 3) = pd ∧ (f3 18 o : BitVec 3) = pa := by
  simp only [e18, e21] at h
  have b0 := pd.isLt
  have b1 := pa.isLt
  exact ⟨by omega, by simp only [bitsOf]; omega, by simp only [bitsOf]; omega, ofNat_eq _ _ (by omega), ofNat_eq _ _ (by omega)⟩

theorem shape11 (pd : PReg) (c f : Nat) (hc : c = f * 2 ^ 0) (hf : f < 8) (o : Nat) (h : e21 pd + c = o) :
    o < 2 ^ 24 ∧ bitsOf 2 0 o = f ∧ bitsOf 20 3 o = 0 ∧ (f3 21 o : BitVec 3) = pd := by
  simp only [e21] at h
  have b0 := pd.isLt
  exact ⟨by omega, by simp only [bitsOf]; omega, by simp only [bitsOf]; omega, ofNat_eq _ _ (by omega)⟩

theorem shape12 (d : SReg) (a : SReg) (off : BitVec 10) (o : Nat) (h : e17 d + e10 a + off.toNat = o) :
    o < 2 ^ 24 ∧ (f7 17 o : BitVec 7) = d ∧ (f7 10 o : BitVec 7) = a ∧ (BitVec.ofNat 10 o : BitVec 10) = off := by
  simp only [e10, e17] at h
  have b0 := d.isLt
  have b1 := a.isLt
  have b2 := off.isLt
  exact ⟨by omega, ofNat_eq _ _ (by omega), ofNat_eq _ _ (by omega), ofNat_eq _ _ (by omega)⟩

theorem shape13 (s : SReg) (a : SReg) (off : BitVec 10) (o : Nat) (h : e17 s + e10 a + off.toNat = o) :
    o < 2 ^ 24 ∧ (f7 17 o : BitVec 7) = s ∧ (f7 10 o : BitVec 7) = a ∧ (BitVec.ofNat 10 o : BitVec 10) = off := by
  simp only [e10, e17] at h
  have b0 := s.isLt
  have b1 := a.isLt
  have b2 := off.isLt
  exact ⟨by omega, ofNat_eq _ _ (by omega), ofNat_eq _ _ (by omega), ofNat_eq _ _ (by omega)⟩

theorem shape14 (wd : LoadWidth) (d : SReg) (a : SReg) (b : SReg) (o : Nat) (h : e17 d + e10 a + e3 b + wd.code = o) :
    o < 2 ^ 24 ∧ bitsOf 2 0 o = wd.code ∧ (f7 17 o : BitVec 7) = d ∧ (f7 10 o : BitVec 7) = a ∧ (f7 3 o : BitVec 7) = b := by
  simp only [e10, e17, e3] at h
  have b0 := LoadWidth.code_lt wd
  have b1 := d.isLt
  have b2 := a.isLt
  have b3 := b.isLt
  exact ⟨by omega, by simp only [bitsOf]; omega, ofNat_eq _ _ (by omega), ofNat_eq _ _ (by omega), ofNat_eq _ _ (by omega)⟩

theorem shape15 (wd : StoreWidth) (s : SReg) (a : SReg) (b : SReg) (o : Nat) (h : e17 s + e10 a + e3 b + wd.code = o) :
    o < 2 ^ 24 ∧ bitsOf 2 0 o = wd.code ∧ (f7 17 o : BitVec 7) = s ∧ (f7 10 o : BitVec 7) = a ∧ (f7 3 o : BitVec 7) = b := by
  simp only [e10, e17, e3] at h
  have b0 := StoreWidth.code_lt wd
  have b1 := s.isLt
  have b2 := a.isLt
  have b3 := b.isLt
  exact ⟨by omega, by simp only [bitsOf]; omega, ofNat_eq _ _ (by omega), ofNat_eq _ _ (by omega), ofNat_eq _ _ (by omega)⟩

theorem shape16 (op : AmoOp) (d : SReg) (a : SReg) (b : SReg) (o : Nat) (h : e17 d + e10 a + e3 b + op.code = o) :
    o < 2 ^ 24 ∧ bitsOf 2 0 o = op.code ∧ (f7 17 o : BitVec 7) = d ∧ (f7 10 o : BitVec 7) = a ∧ (f7 3 o : BitVec 7) = b := by
  simp only [e10, e17, e3] at h
  have b0 := AmoOp.code_lt op
  have b1 := d.isLt
  have b2 := a.isLt
  have b3 := b.isLt
  exact ⟨by omega, by simp only [bitsOf]; omega, ofNat_eq _ _ (by omega), ofNat_eq _ _ (by omega), ofNat_eq _ _ (by omega)⟩

theorem shape17 (g : Bool) (q : Bool) (d : SReg) (a : SReg) (b : SReg) (o : Nat) (h : e17 d + e10 a + e3 b + bitNat q * 2 + bitNat g = o) :
    o < 2 ^ 24 ∧ bitsOf 2 2 o = 0 ∧ bitOf 0 o = g ∧ bitOf 1 o = q ∧ (f7 17 o : BitVec 7) = d ∧ (f7 10 o : BitVec 7) = a ∧ (f7 3 o : BitVec 7) = b := by
  simp only [e10, e17, e3] at h
  have b0 := bitNat_le g
  have b1 := bitNat_le q
  have b2 := d.isLt
  have b3 := a.isLt
  have b4 := b.isLt
  exact ⟨by omega, by simp only [bitsOf]; omega, bitOf_eq (by omega), bitOf_eq (by omega), ofNat_eq _ _ (by omega), ofNat_eq _ _ (by omega), ofNat_eq _ _ (by omega)⟩

theorem shape18 (dbl : Bool) (ord : Bool) (d : SReg) (a : SReg) (b : SReg) (o : Nat) (h : e17 d + e10 a + e3 b + bitNat ord * 2 + bitNat dbl = o) :
    o < 2 ^ 24 ∧ bitsOf 2 2 o = 0 ∧ bitOf 0 o = dbl ∧ bitOf 1 o = ord ∧ (f7 17 o : BitVec 7) = d ∧ (f7 10 o : BitVec 7) = a ∧ (f7 3 o : BitVec 7) = b := by
  simp only [e10, e17, e3] at h
  have b0 := bitNat_le dbl
  have b1 := bitNat_le ord
  have b2 := d.isLt
  have b3 := a.isLt
  have b4 := b.isLt
  exact ⟨by omega, by simp only [bitsOf]; omega, bitOf_eq (by omega), bitOf_eq (by omega), ofNat_eq _ _ (by omega), ofNat_eq _ _ (by omega), ofNat_eq _ _ (by omega)⟩

theorem shape19 (scope : FenceScope) (kind : FenceKind) (e : Bool) (o : Nat) (h : scope.code * 2 ^ 21 + kind.code * 2 ^ 19 + bitNat e * 2 ^ 18 = o) :
    o < 2 ^ 24 ∧ bitsOf 17 0 o = 0 ∧ bitsOf 23 21 o = scope.code ∧ bitsOf 20 19 o = kind.code ∧ bitOf 18 o = e := by
  have b0 := FenceScope.code_lt scope
  have b1 := FenceKind.code_lt kind
  have b2 := bitNat_le e
  exact ⟨by omega, by simp only [bitsOf]; omega, by simp only [bitsOf]; omega, by simp only [bitsOf]; omega, bitOf_eq (by omega)⟩

theorem shape20 (p : PReg) (n : Bool) (disp : BitVec 20) (o : Nat) (h : e21 p + bitNat n * 2 ^ 20 + disp.toNat = o) :
    o < 2 ^ 24 ∧ (f3 21 o : BitVec 3) = p ∧ bitOf 20 o = n ∧ (BitVec.ofNat 20 o : BitVec 20) = disp := by
  simp only [e21] at h
  have b0 := p.isLt
  have b1 := bitNat_le n
  have b2 := disp.isLt
  exact ⟨by omega, ofNat_eq _ _ (by omega), bitOf_eq (by omega), ofNat_eq _ _ (by omega)⟩

theorem shape21 (disp : BitVec 24) (o : Nat) (h : disp.toNat = o) :
    o < 2 ^ 24 ∧ (BitVec.ofNat 24 o : BitVec 24) = disp := by
  have b0 := disp.isLt
  exact ⟨by omega, ofNat_eq _ _ (by omega)⟩

theorem shape22 (d : SReg) (a : SReg) (o : Nat) (h : e17 d + e10 a = o) :
    o < 2 ^ 24 ∧ bitsOf 9 0 o = 0 ∧ (f7 17 o : BitVec 7) = d ∧ (f7 10 o : BitVec 7) = a := by
  simp only [e10, e17] at h
  have b0 := d.isLt
  have b1 := a.isLt
  exact ⟨by omega, by simp only [bitsOf]; omega, ofNat_eq _ _ (by omega), ofNat_eq _ _ (by omega)⟩

theorem shape23 (sgl : Bool) (neg : Bool) (d : SReg) (a : SReg) (b : SReg) (o : Nat) (h : e17 d + e10 a + e3 b + bitNat neg * 2 + bitNat sgl = o) :
    o < 2 ^ 24 ∧ bitsOf 2 2 o = 0 ∧ bitOf 0 o = sgl ∧ bitOf 1 o = neg ∧ (f7 17 o : BitVec 7) = d ∧ (f7 10 o : BitVec 7) = a ∧ (f7 3 o : BitVec 7) = b := by
  simp only [e10, e17, e3] at h
  have b0 := bitNat_le sgl
  have b1 := bitNat_le neg
  have b2 := d.isLt
  have b3 := a.isLt
  have b4 := b.isLt
  exact ⟨by omega, by simp only [bitsOf]; omega, bitOf_eq (by omega), bitOf_eq (by omega), ofNat_eq _ _ (by omega), ofNat_eq _ _ (by omega), ofNat_eq _ _ (by omega)⟩

theorem shape24 (c : FConv) (d : SReg) (a : SReg) (o : Nat) (h : e17 d + e10 a + c.code = o) :
    o < 2 ^ 24 ∧ bitsOf 9 3 o = 0 ∧ bitsOf 2 0 o = c.code ∧ (f7 17 o : BitVec 7) = d ∧ (f7 10 o : BitVec 7) = a := by
  simp only [e10, e17] at h
  have b0 := FConv.code_lt c
  have b1 := d.isLt
  have b2 := a.isLt
  exact ⟨by omega, by simp only [bitsOf]; omega, by simp only [bitsOf]; omega, ofNat_eq _ _ (by omega), ofNat_eq _ _ (by omega)⟩

theorem shape25 (pd : PReg) (c : FCond) (sgl : Bool) (a : SReg) (b : SReg) (o : Nat) (h : e21 pd + e10 a + e3 b + bitNat sgl * 4 + c.code = o) :
    o < 2 ^ 24 ∧ bitsOf 20 17 o = 0 ∧ (f3 21 o : BitVec 3) = pd ∧ bitsOf 1 0 o = c.code ∧ bitOf 2 o = sgl ∧ (f7 10 o : BitVec 7) = a ∧ (f7 3 o : BitVec 7) = b := by
  simp only [e10, e21, e3] at h
  have b0 := pd.isLt
  have b1 := FCond.code_lt c
  have b2 := bitNat_le sgl
  have b3 := a.isLt
  have b4 := b.isLt
  exact ⟨by omega, by simp only [bitsOf]; omega, ofNat_eq _ _ (by omega), by simp only [bitsOf]; omega, bitOf_eq (by omega), ofNat_eq _ _ (by omega), ofNat_eq _ _ (by omega)⟩

theorem shape26 (vs : VReg) (a : SReg) (b : SReg) (c f : Nat) (hc : c = f * 2 ^ 0) (hf : f < 8) (o : Nat) (h : e20 vs + e10 a + e3 b + c = o) :
    o < 2 ^ 24 ∧ bitsOf 2 0 o = f ∧ bitsOf 19 17 o = 0 ∧ (f4 20 o : BitVec 4) = vs ∧ (f7 10 o : BitVec 7) = a ∧ (f7 3 o : BitVec 7) = b := by
  simp only [e10, e20, e3] at h
  have b0 := vs.isLt
  have b1 := a.isLt
  have b2 := b.isLt
  exact ⟨by omega, by simp only [bitsOf]; omega, by simp only [bitsOf]; omega, ofNat_eq _ _ (by omega), ofNat_eq _ _ (by omega), ofNat_eq _ _ (by omega)⟩

theorem shape27 (d : SReg) (c f : Nat) (hc : c = f * 2 ^ 0) (hf : f < 8) (o : Nat) (h : e17 d + c = o) :
    o < 2 ^ 24 ∧ bitsOf 2 0 o = f ∧ bitsOf 16 3 o = 0 ∧ (f7 17 o : BitVec 7) = d := by
  simp only [e17] at h
  have b0 := d.isLt
  exact ⟨by omega, by simp only [bitsOf]; omega, by simp only [bitsOf]; omega, ofNat_eq _ _ (by omega)⟩

theorem shape28 (a : SReg) (c f : Nat) (hc : c = f * 2 ^ 0) (hf : f < 8) (o : Nat) (h : e10 a + c = o) :
    o < 2 ^ 24 ∧ bitsOf 2 0 o = f ∧ bitsOf 23 17 o + bitsOf 9 3 o = 0 ∧ (f7 10 o : BitVec 7) = a := by
  simp only [e10] at h
  have b0 := a.isLt
  exact ⟨by omega, by simp only [bitsOf]; omega, by simp only [bitsOf]; omega, ofNat_eq _ _ (by omega)⟩

theorem shape29 (pd : PReg) (a : SReg) (c f : Nat) (hc : c = f * 2 ^ 0) (hf : f < 8) (o : Nat) (h : e17p pd + e10 a + c = o) :
    o < 2 ^ 24 ∧ bitsOf 2 0 o = f ∧ bitsOf 23 20 o + bitsOf 9 3 o = 0 ∧ (f3 17 o : BitVec 3) = pd ∧ (f7 10 o : BitVec 7) = a := by
  simp only [e10, e17p] at h
  have b0 := pd.isLt
  have b1 := a.isLt
  exact ⟨by omega, by simp only [bitsOf]; omega, by simp only [bitsOf]; omega, ofNat_eq _ _ (by omega), ofNat_eq _ _ (by omega)⟩

theorem shape30 (vd : VReg) (va : VReg) (c f : Nat) (hc : c = f * 2 ^ 0) (hf : f < 8) (o : Nat) (h : e17v vd + e10v va + c = o) :
    o < 2 ^ 24 ∧ bitsOf 2 0 o = f ∧ bitsOf 23 21 o + bitsOf 16 14 o + bitsOf 9 3 o = 0 ∧ (f4 17 o : BitVec 4) = vd ∧ (f4 10 o : BitVec 4) = va := by
  simp only [e10v, e17v] at h
  have b0 := vd.isLt
  have b1 := va.isLt
  exact ⟨by omega, by simp only [bitsOf]; omega, by simp only [bitsOf]; omega, ofNat_eq _ _ (by omega), ofNat_eq _ _ (by omega)⟩

theorem shape31 (va : VReg) (c f : Nat) (hc : c = f * 2 ^ 0) (hf : f < 8) (o : Nat) (h : e10v va + c = o) :
    o < 2 ^ 24 ∧ bitsOf 2 0 o = f ∧ bitsOf 23 14 o + bitsOf 9 3 o = 0 ∧ (f4 10 o : BitVec 4) = va := by
  simp only [e10v] at h
  have b0 := va.isLt
  exact ⟨by omega, by simp only [bitsOf]; omega, by simp only [bitsOf]; omega, ofNat_eq _ _ (by omega)⟩

theorem shape32 (vd : VReg) (w : BitVec 2) (key : SReg) (inst : SReg) (pd : PReg) (c f : Nat) (hc : c = f * 2 ^ 3) (hf : f < 2) (o : Nat) (h : e20 vd + e18w w + e11 key + e4 inst + c + pd.toNat = o) :
    o < 2 ^ 24 ∧ bitsOf 3 3 o = f ∧ (f4 20 o : BitVec 4) = vd ∧ (f2 18 o : BitVec 2) = w ∧ (f7 11 o : BitVec 7) = key ∧ (f7 4 o : BitVec 7) = inst ∧ (BitVec.ofNat 3 o : BitVec 3) = pd := by
  simp only [e11, e18w, e20, e4] at h
  have b0 := vd.isLt
  have b1 := w.isLt
  have b2 := key.isLt
  have b3 := inst.isLt
  have b4 := pd.isLt
  exact ⟨by omega, by simp only [bitsOf]; omega, ofNat_eq _ _ (by omega), ofNat_eq _ _ (by omega), ofNat_eq _ _ (by omega), ofNat_eq _ _ (by omega), ofNat_eq _ _ (by omega)⟩

theorem shape33 (vs : VReg) (w : BitVec 2) (key : SReg) (inst : SReg) (o : Nat) (h : e20 vs + e18w w + e11 key + e4 inst = o) :
    o < 2 ^ 24 ∧ bitsOf 3 0 o = 0 ∧ (f4 20 o : BitVec 4) = vs ∧ (f2 18 o : BitVec 2) = w ∧ (f7 11 o : BitVec 7) = key ∧ (f7 4 o : BitVec 7) = inst := by
  simp only [e11, e18w, e20, e4] at h
  have b0 := vs.isLt
  have b1 := w.isLt
  have b2 := key.isLt
  have b3 := inst.isLt
  exact ⟨by omega, by simp only [bitsOf]; omega, ofNat_eq _ _ (by omega), ofNat_eq _ _ (by omega), ofNat_eq _ _ (by omega), ofNat_eq _ _ (by omega)⟩

theorem shape34 (w : BitVec 2) (a : SReg) (c f : Nat) (hc : c = f * 2 ^ 0) (hf : f < 8) (o : Nat) (h : e10 a + e8 w + c = o) :
    o < 2 ^ 24 ∧ bitsOf 2 0 o = f ∧ bitsOf 23 17 o + bitsOf 7 3 o = 0 ∧ (f2 8 o : BitVec 2) = w ∧ (f7 10 o : BitVec 7) = a := by
  simp only [e10, e8] at h
  have b0 := w.isLt
  have b1 := a.isLt
  exact ⟨by omega, by simp only [bitsOf]; omega, by simp only [bitsOf]; omega, ofNat_eq _ _ (by omega), ofNat_eq _ _ (by omega)⟩

theorem shape35 (d : SReg) (w : BitVec 2) (a : SReg) (c f : Nat) (hc : c = f * 2 ^ 0) (hf : f < 8) (o : Nat) (h : e17 d + e10 a + e8 w + c = o) :
    o < 2 ^ 24 ∧ bitsOf 2 0 o = f ∧ bitsOf 7 3 o = 0 ∧ (f7 17 o : BitVec 7) = d ∧ (f2 8 o : BitVec 2) = w ∧ (f7 10 o : BitVec 7) = a := by
  simp only [e10, e17, e8] at h
  have b0 := d.isLt
  have b1 := w.isLt
  have b2 := a.isLt
  exact ⟨by omega, by simp only [bitsOf]; omega, by simp only [bitsOf]; omega, ofNat_eq _ _ (by omega), ofNat_eq _ _ (by omega), ofNat_eq _ _ (by omega)⟩

theorem shape36 (d : SReg) (w : BitVec 2) (c f : Nat) (hc : c = f * 2 ^ 0) (hf : f < 8) (o : Nat) (h : e17 d + e8 w + c = o) :
    o < 2 ^ 24 ∧ bitsOf 2 0 o = f ∧ bitsOf 16 10 o + bitsOf 7 3 o = 0 ∧ (f7 17 o : BitVec 7) = d ∧ (f2 8 o : BitVec 2) = w := by
  simp only [e17, e8] at h
  have b0 := d.isLt
  have b1 := w.isLt
  exact ⟨by omega, by simp only [bitsOf]; omega, by simp only [bitsOf]; omega, ofNat_eq _ _ (by omega), ofNat_eq _ _ (by omega)⟩

theorem shape37 (s : SReg) (sem : BitVec 8) (c f : Nat) (hc : c = f * 2 ^ 0) (hf : f < 4) (o : Nat) (h : e17 s + e9 sem + c = o) :
    o < 2 ^ 24 ∧ bitsOf 1 0 o = f ∧ bitsOf 8 2 o = 0 ∧ (f7 17 o : BitVec 7) = s ∧ (f8 9 o : BitVec 8) = sem := by
  simp only [e17, e9] at h
  have b0 := s.isLt
  have b1 := sem.isLt
  exact ⟨by omega, by simp only [bitsOf]; omega, by simp only [bitsOf]; omega, ofNat_eq _ _ (by omega), ofNat_eq _ _ (by omega)⟩

theorem shape38 (q : BitVec 3) (a : SReg) (o : Nat) (h : e21 q + e10 a = o) :
    o < 2 ^ 24 ∧ bitsOf 20 17 o + bitsOf 9 0 o = 0 ∧ (f3 21 o : BitVec 3) = q ∧ (f7 10 o : BitVec 7) = a := by
  simp only [e10, e21] at h
  have b0 := q.isLt
  have b1 := a.isLt
  exact ⟨by omega, by simp only [bitsOf]; omega, ofNat_eq _ _ (by omega), ofNat_eq _ _ (by omega)⟩

theorem shape39 (d : SReg) (csr : BitVec 10) (o : Nat) (h : e17 d + csr.toNat = o) :
    o < 2 ^ 24 ∧ bitsOf 16 10 o = 0 ∧ (f7 17 o : BitVec 7) = d ∧ (BitVec.ofNat 10 o : BitVec 10) = csr := by
  simp only [e17] at h
  have b0 := d.isLt
  have b1 := csr.isLt
  exact ⟨by omega, by simp only [bitsOf]; omega, ofNat_eq _ _ (by omega), ofNat_eq _ _ (by omega)⟩

theorem shape40 (a : SReg) (csr : BitVec 10) (o : Nat) (h : e10 a + csr.toNat = o) :
    o < 2 ^ 24 ∧ bitsOf 23 17 o = 0 ∧ (f7 10 o : BitVec 7) = a ∧ (BitVec.ofNat 10 o : BitVec 10) = csr := by
  simp only [e10] at h
  have b0 := a.isLt
  have b1 := csr.isLt
  exact ⟨by omega, by simp only [bitsOf]; omega, ofNat_eq _ _ (by omega), ofNat_eq _ _ (by omega)⟩

theorem shape41 (vd : VReg) (va : VReg) (vb : VReg) (vm : VReg) (t : ElemType) (c f : Nat) (hc : c = f * 2 ^ 0) (hf : f < 16) (o : Nat) (h : e20 vd + e16 va + e12 vb + e8v vm + t.code * 16 + c = o) :
    o < 2 ^ 24 ∧ bitsOf 3 0 o = f ∧ (f4 20 o : BitVec 4) = vd ∧ (f4 16 o : BitVec 4) = va ∧ (f4 12 o : BitVec 4) = vb ∧ (f4 8 o : BitVec 4) = vm ∧ bitsOf 7 4 o = t.code := by
  simp only [e12, e16, e20, e8v] at h
  have b0 := vd.isLt
  have b1 := va.isLt
  have b2 := vb.isLt
  have b3 := vm.isLt
  have b4 := ElemType.code_lt t
  exact ⟨by omega, by simp only [bitsOf]; omega, ofNat_eq _ _ (by omega), ofNat_eq _ _ (by omega), ofNat_eq _ _ (by omega), ofNat_eq _ _ (by omega), by simp only [bitsOf]; omega⟩

theorem shape42 (vd : VReg) (va : VReg) (s : SReg) (t : ElemType) (rev : Bool) (c f : Nat) (hc : c = f * 2 ^ 1) (hf : f < 16) (o : Nat) (h : e20 vd + e16 va + e9s s + t.code * 32 + c + bitNat rev = o) :
    o < 2 ^ 24 ∧ bitsOf 4 1 o = f ∧ (f4 20 o : BitVec 4) = vd ∧ (f4 16 o : BitVec 4) = va ∧ (f7 9 o : BitVec 7) = s ∧ bitsOf 8 5 o = t.code ∧ bitOf 0 o = rev := by
  simp only [e16, e20, e9s] at h
  have b0 := vd.isLt
  have b1 := va.isLt
  have b2 := s.isLt
  have b3 := ElemType.code_lt t
  have b4 := bitNat_le rev
  exact ⟨by omega, by simp only [bitsOf]; omega, ofNat_eq _ _ (by omega), ofNat_eq _ _ (by omega), ofNat_eq _ _ (by omega), by simp only [bitsOf]; omega, bitOf_eq (by omega)⟩

theorem shape43 (vd : VReg) (va : VReg) (vm : VReg) (t : ElemType) (c f : Nat) (hc : c = f * 2 ^ 0) (hf : f < 16) (o : Nat) (h : e20 vd + e16 va + e8v vm + t.code * 16 + c = o) :
    o < 2 ^ 24 ∧ bitsOf 3 0 o = f ∧ bitsOf 15 12 o = 0 ∧ (f4 20 o : BitVec 4) = vd ∧ (f4 16 o : BitVec 4) = va ∧ (f4 8 o : BitVec 4) = vm ∧ bitsOf 7 4 o = t.code := by
  simp only [e16, e20, e8v] at h
  have b0 := vd.isLt
  have b1 := va.isLt
  have b2 := vm.isLt
  have b3 := ElemType.code_lt t
  exact ⟨by omega, by simp only [bitsOf]; omega, by simp only [bitsOf]; omega, ofNat_eq _ _ (by omega), ofNat_eq _ _ (by omega), ofNat_eq _ _ (by omega), by simp only [bitsOf]; omega⟩

theorem shape44 (c : VCond) (vd : VReg) (va : VReg) (vb : VReg) (vm : VReg) (t : ElemType) (o : Nat) (h : e20 vd + e16 va + e12 vb + e8v vm + t.code * 16 + c.code = o) :
    o < 2 ^ 24 ∧ bitsOf 3 0 o = c.code ∧ (f4 20 o : BitVec 4) = vd ∧ (f4 16 o : BitVec 4) = va ∧ (f4 12 o : BitVec 4) = vb ∧ (f4 8 o : BitVec 4) = vm ∧ bitsOf 7 4 o = t.code := by
  simp only [e12, e16, e20, e8v] at h
  have b0 := VCond.code_lt c
  have b1 := vd.isLt
  have b2 := va.isLt
  have b3 := vb.isLt
  have b4 := vm.isLt
  have b5 := ElemType.code_lt t
  exact ⟨by omega, by simp only [bitsOf]; omega, ofNat_eq _ _ (by omega), ofNat_eq _ _ (by omega), ofNat_eq _ _ (by omega), ofNat_eq _ _ (by omega), by simp only [bitsOf]; omega⟩

theorem shape45 (vd : VReg) (va : VReg) (src : ElemType) (vm : VReg) (t : ElemType) (r : RoundSel) (o : Nat) (h : e20 vd + e16 va + src.code * 2 ^ 12 + e8v vm + t.code * 16 + r.code = o) :
    o < 2 ^ 24 ∧ (f4 20 o : BitVec 4) = vd ∧ (f4 16 o : BitVec 4) = va ∧ bitsOf 15 12 o = src.code ∧ (f4 8 o : BitVec 4) = vm ∧ bitsOf 7 4 o = t.code ∧ bitsOf 3 0 o = r.code := by
  simp only [e16, e20, e8v] at h
  have b0 := vd.isLt
  have b1 := va.isLt
  have b2 := ElemType.code_lt src
  have b3 := vm.isLt
  have b4 := ElemType.code_lt t
  have b5 := RoundSel.code_lt r
  exact ⟨by omega, ofNat_eq _ _ (by omega), ofNat_eq _ _ (by omega), by simp only [bitsOf]; omega, ofNat_eq _ _ (by omega), by simp only [bitsOf]; omega, by simp only [bitsOf]; omega⟩

theorem shape46 (vd : VReg) (s : SReg) (t : ElemType) (c f : Nat) (hc : c = f * 2 ^ 1) (hf : f < 16) (o : Nat) (h : e20 vd + e9s s + t.code * 32 + c = o) :
    o < 2 ^ 24 ∧ bitsOf 4 1 o = f ∧ bitsOf 19 16 o + bitsOf 0 0 o = 0 ∧ (f4 20 o : BitVec 4) = vd ∧ (f7 9 o : BitVec 7) = s ∧ bitsOf 8 5 o = t.code := by
  simp only [e20, e9s] at h
  have b0 := vd.isLt
  have b1 := s.isLt
  have b2 := ElemType.code_lt t
  exact ⟨by omega, by simp only [bitsOf]; omega, by simp only [bitsOf]; omega, ofNat_eq _ _ (by omega), ofNat_eq _ _ (by omega), by simp only [bitsOf]; omega⟩

theorem shape47 (vd : VReg) (t : ElemType) (c f : Nat) (hc : c = f * 2 ^ 1) (hf : f < 16) (o : Nat) (h : e20 vd + t.code * 32 + c = o) :
    o < 2 ^ 24 ∧ bitsOf 4 1 o = f ∧ bitsOf 19 16 o + bitsOf 15 9 o + bitsOf 0 0 o = 0 ∧ (f4 20 o : BitVec 4) = vd ∧ bitsOf 8 5 o = t.code := by
  simp only [e20] at h
  have b0 := vd.isLt
  have b1 := ElemType.code_lt t
  exact ⟨by omega, by simp only [bitsOf]; omega, by simp only [bitsOf]; omega, ofNat_eq _ _ (by omega), by simp only [bitsOf]; omega⟩

theorem shape48 (vd : VReg) (s : SReg) (o : Nat) (h : e20 vd + e9s s + 14 * 32 + 6 = o) :
    o < 2 ^ 24 ∧ bitsOf 4 1 o = 3 ∧ bitsOf 19 16 o + bitsOf 0 0 o = 0 ∧ bitsOf 8 5 o = 14 ∧ (f4 20 o : BitVec 4) = vd ∧ (f7 9 o : BitVec 7) = s := by
  simp only [e20, e9s] at h
  have b0 := vd.isLt
  have b1 := s.isLt
  exact ⟨by omega, by simp only [bitsOf]; omega, by simp only [bitsOf]; omega, by simp only [bitsOf]; omega, ofNat_eq _ _ (by omega), ofNat_eq _ _ (by omega)⟩

theorem shape49 (op : RedOp) (s : SReg) (va : VReg) (t : ElemType) (o : Nat) (h : e16 va + e9s s + t.code * 32 + op.code * 2 = o) :
    o < 2 ^ 24 ∧ bitsOf 23 20 o + bitsOf 0 0 o = 0 ∧ bitsOf 4 1 o = op.code ∧ (f7 9 o : BitVec 7) = s ∧ (f4 16 o : BitVec 4) = va ∧ bitsOf 8 5 o = t.code := by
  simp only [e16, e9s] at h
  have b0 := RedOp.code_lt op
  have b1 := s.isLt
  have b2 := va.isLt
  have b3 := ElemType.code_lt t
  exact ⟨by omega, by simp only [bitsOf]; omega, by simp only [bitsOf]; omega, ofNat_eq _ _ (by omega), ofNat_eq _ _ (by omega), by simp only [bitsOf]; omega⟩

theorem shape50 (vd : VReg) (va : VReg) (t : ElemType) (c f : Nat) (hc : c = f * 2 ^ 1) (hf : f < 16) (o : Nat) (h : e20 vd + e16 va + t.code * 32 + c = o) :
    o < 2 ^ 24 ∧ bitsOf 4 1 o = f ∧ bitsOf 15 9 o + bitsOf 0 0 o = 0 ∧ (f4 20 o : BitVec 4) = vd ∧ (f4 16 o : BitVec 4) = va ∧ bitsOf 8 5 o = t.code := by
  simp only [e16, e20] at h
  have b0 := vd.isLt
  have b1 := va.isLt
  have b2 := ElemType.code_lt t
  exact ⟨by omega, by simp only [bitsOf]; omega, by simp only [bitsOf]; omega, ofNat_eq _ _ (by omega), ofNat_eq _ _ (by omega), by simp only [bitsOf]; omega⟩

theorem shape51 (s : SReg) (va : VReg) (t : ElemType) (c f : Nat) (hc : c = f * 2 ^ 1) (hf : f < 16) (o : Nat) (h : e9s s + e16 va + t.code * 32 + c = o) :
    o < 2 ^ 24 ∧ bitsOf 4 1 o = f ∧ bitsOf 23 20 o + bitsOf 0 0 o = 0 ∧ (f7 9 o : BitVec 7) = s ∧ (f4 16 o : BitVec 4) = va ∧ bitsOf 8 5 o = t.code := by
  simp only [e16, e9s] at h
  have b0 := s.isLt
  have b1 := va.isLt
  have b2 := ElemType.code_lt t
  exact ⟨by omega, by simp only [bitsOf]; omega, by simp only [bitsOf]; omega, ofNat_eq _ _ (by omega), ofNat_eq _ _ (by omega), by simp only [bitsOf]; omega⟩

theorem shape52 (vd : VReg) (va : VReg) (s : SReg) (t : ElemType) (c f : Nat) (hc : c = f * 2 ^ 1) (hf : f < 16) (o : Nat) (h : e20 vd + e16 va + e9s s + t.code * 32 + c = o) :
    o < 2 ^ 24 ∧ bitsOf 4 1 o = f ∧ bitsOf 0 0 o = 0 ∧ (f4 20 o : BitVec 4) = vd ∧ (f4 16 o : BitVec 4) = va ∧ (f7 9 o : BitVec 7) = s ∧ bitsOf 8 5 o = t.code := by
  simp only [e16, e20, e9s] at h
  have b0 := vd.isLt
  have b1 := va.isLt
  have b2 := s.isLt
  have b3 := ElemType.code_lt t
  exact ⟨by omega, by simp only [bitsOf]; omega, by simp only [bitsOf]; omega, ofNat_eq _ _ (by omega), ofNat_eq _ _ (by omega), ofNat_eq _ _ (by omega), by simp only [bitsOf]; omega⟩

theorem shape53 (vd : VReg) (va : VReg) (vb : VReg) (t : ElemType) (c f : Nat) (hc : c = f * 2 ^ 1) (hf : f < 16) (o : Nat) (h : e20 vd + e16 va + e9v vb + t.code * 32 + c = o) :
    o < 2 ^ 24 ∧ bitsOf 4 1 o = f ∧ bitsOf 15 13 o + bitsOf 0 0 o = 0 ∧ (f4 20 o : BitVec 4) = vd ∧ (f4 16 o : BitVec 4) = va ∧ (f4 9 o : BitVec 4) = vb ∧ bitsOf 8 5 o = t.code := by
  simp only [e16, e20, e9v] at h
  have b0 := vd.isLt
  have b1 := va.isLt
  have b2 := vb.isLt
  have b3 := ElemType.code_lt t
  exact ⟨by omega, by simp only [bitsOf]; omega, by simp only [bitsOf]; omega, ofNat_eq _ _ (by omega), ofNat_eq _ _ (by omega), ofNat_eq _ _ (by omega), by simp only [bitsOf]; omega⟩

theorem shape54 (vd : VReg) (b : SReg) (t : ElemType) (c f : Nat) (hc : c = f * 2 ^ 0) (hf : f < 4) (o : Nat) (h : e20 vd + e13 b + t.code * 4 + c = o) :
    o < 2 ^ 24 ∧ bitsOf 1 0 o = f ∧ bitsOf 12 6 o = 0 ∧ (f4 20 o : BitVec 4) = vd ∧ (f7 13 o : BitVec 7) = b ∧ bitsOf 5 2 o = t.code := by
  simp only [e13, e20] at h
  have b0 := vd.isLt
  have b1 := b.isLt
  have b2 := ElemType.code_lt t
  exact ⟨by omega, by simp only [bitsOf]; omega, by simp only [bitsOf]; omega, ofNat_eq _ _ (by omega), ofNat_eq _ _ (by omega), by simp only [bitsOf]; omega⟩

theorem shape55 (vd : VReg) (b : SReg) (s : SReg) (t : ElemType) (c f : Nat) (hc : c = f * 2 ^ 0) (hf : f < 4) (o : Nat) (h : e20 vd + e13 b + e6 s + t.code * 4 + c = o) :
    o < 2 ^ 24 ∧ bitsOf 1 0 o = f ∧ (f4 20 o : BitVec 4) = vd ∧ (f7 13 o : BitVec 7) = b ∧ (f7 6 o : BitVec 7) = s ∧ bitsOf 5 2 o = t.code := by
  simp only [e13, e20, e6] at h
  have b0 := vd.isLt
  have b1 := b.isLt
  have b2 := s.isLt
  have b3 := ElemType.code_lt t
  exact ⟨by omega, by simp only [bitsOf]; omega, ofNat_eq _ _ (by omega), ofNat_eq _ _ (by omega), ofNat_eq _ _ (by omega), by simp only [bitsOf]; omega⟩

theorem shape56 (vd : VReg) (b : SReg) (e : SReg) (t : ElemType) (c f : Nat) (hc : c = f * 2 ^ 0) (hf : f < 4) (o : Nat) (h : e20 vd + e13 b + e6 e + t.code * 4 + c = o) :
    o < 2 ^ 24 ∧ bitsOf 1 0 o = f ∧ (f4 20 o : BitVec 4) = vd ∧ (f7 13 o : BitVec 7) = b ∧ (f7 6 o : BitVec 7) = e ∧ bitsOf 5 2 o = t.code := by
  simp only [e13, e20, e6] at h
  have b0 := vd.isLt
  have b1 := b.isLt
  have b2 := e.isLt
  have b3 := ElemType.code_lt t
  exact ⟨by omega, by simp only [bitsOf]; omega, ofNat_eq _ _ (by omega), ofNat_eq _ _ (by omega), ofNat_eq _ _ (by omega), by simp only [bitsOf]; omega⟩

theorem shape57 (vs : VReg) (b : SReg) (t : ElemType) (c f : Nat) (hc : c = f * 2 ^ 0) (hf : f < 4) (o : Nat) (h : e20 vs + e13 b + t.code * 4 + c = o) :
    o < 2 ^ 24 ∧ bitsOf 1 0 o = f ∧ bitsOf 12 6 o = 0 ∧ (f4 20 o : BitVec 4) = vs ∧ (f7 13 o : BitVec 7) = b ∧ bitsOf 5 2 o = t.code := by
  simp only [e13, e20] at h
  have b0 := vs.isLt
  have b1 := b.isLt
  have b2 := ElemType.code_lt t
  exact ⟨by omega, by simp only [bitsOf]; omega, by simp only [bitsOf]; omega, ofNat_eq _ _ (by omega), ofNat_eq _ _ (by omega), by simp only [bitsOf]; omega⟩

theorem shape58 (vs : VReg) (b : SReg) (s : SReg) (t : ElemType) (c f : Nat) (hc : c = f * 2 ^ 0) (hf : f < 4) (o : Nat) (h : e20 vs + e13 b + e6 s + t.code * 4 + c = o) :
    o < 2 ^ 24 ∧ bitsOf 1 0 o = f ∧ (f4 20 o : BitVec 4) = vs ∧ (f7 13 o : BitVec 7) = b ∧ (f7 6 o : BitVec 7) = s ∧ bitsOf 5 2 o = t.code := by
  simp only [e13, e20, e6] at h
  have b0 := vs.isLt
  have b1 := b.isLt
  have b2 := s.isLt
  have b3 := ElemType.code_lt t
  exact ⟨by omega, by simp only [bitsOf]; omega, ofNat_eq _ _ (by omega), ofNat_eq _ _ (by omega), ofNat_eq _ _ (by omega), by simp only [bitsOf]; omega⟩

theorem shape59 (vs : VReg) (b : SReg) (e : SReg) (t : ElemType) (c f : Nat) (hc : c = f * 2 ^ 0) (hf : f < 4) (o : Nat) (h : e20 vs + e13 b + e6 e + t.code * 4 + c = o) :
    o < 2 ^ 24 ∧ bitsOf 1 0 o = f ∧ (f4 20 o : BitVec 4) = vs ∧ (f7 13 o : BitVec 7) = b ∧ (f7 6 o : BitVec 7) = e ∧ bitsOf 5 2 o = t.code := by
  simp only [e13, e20, e6] at h
  have b0 := vs.isLt
  have b1 := b.isLt
  have b2 := e.isLt
  have b3 := ElemType.code_lt t
  exact ⟨by omega, by simp only [bitsOf]; omega, ofNat_eq _ _ (by omega), ofNat_eq _ _ (by omega), ofNat_eq _ _ (by omega), by simp only [bitsOf]; omega⟩

theorem shape60 (vd : VReg) (b : SReg) (vi : VReg) (t : ElemType) (elem : Bool) (o : Nat) (h : e20 vd + e13 b + e6v vi + t.code * 4 + bitNat elem = o) :
    o < 2 ^ 24 ∧ bitsOf 12 10 o + bitsOf 1 1 o = 0 ∧ (f4 20 o : BitVec 4) = vd ∧ (f7 13 o : BitVec 7) = b ∧ (f4 6 o : BitVec 4) = vi ∧ bitsOf 5 2 o = t.code ∧ bitOf 0 o = elem := by
  simp only [e13, e20, e6v] at h
  have b0 := vd.isLt
  have b1 := b.isLt
  have b2 := vi.isLt
  have b3 := ElemType.code_lt t
  have b4 := bitNat_le elem
  exact ⟨by omega, by simp only [bitsOf]; omega, ofNat_eq _ _ (by omega), ofNat_eq _ _ (by omega), ofNat_eq _ _ (by omega), by simp only [bitsOf]; omega, bitOf_eq (by omega)⟩

theorem shape61 (vs : VReg) (b : SReg) (vi : VReg) (t : ElemType) (elem : Bool) (o : Nat) (h : e20 vs + e13 b + e6v vi + t.code * 4 + bitNat elem = o) :
    o < 2 ^ 24 ∧ bitsOf 12 10 o + bitsOf 1 1 o = 0 ∧ (f4 20 o : BitVec 4) = vs ∧ (f7 13 o : BitVec 7) = b ∧ (f4 6 o : BitVec 4) = vi ∧ bitsOf 5 2 o = t.code ∧ bitOf 0 o = elem := by
  simp only [e13, e20, e6v] at h
  have b0 := vs.isLt
  have b1 := b.isLt
  have b2 := vi.isLt
  have b3 := ElemType.code_lt t
  have b4 := bitNat_le elem
  exact ⟨by omega, by simp only [bitsOf]; omega, ofNat_eq _ _ (by omega), ofNat_eq _ _ (by omega), ofNat_eq _ _ (by omega), by simp only [bitsOf]; omega, bitOf_eq (by omega)⟩

end Sys2Proof
end

