-- ==== Sys2Proof/Laws/Links.lean ====
section
/-! SUPPORT. Byte strings and flits: a port accepts the flit that a port builds (spec 20 R399). -/

namespace Sys2Proof.Machine

theorem toBytesLE_length (k n : Nat) : (toBytesLE k n).length = k := by induction k generalizing n <;> simp [toBytesLE, *]

theorem toBytesLE_ofBytesLE : ∀ bs : List Byte, toBytesLE bs.length (ofBytesLE bs) = bs
  | [] => rfl
  | b :: bs => by
    have h : (b.toNat + 256 * ofBytesLE bs) / 256 = ofBytesLE bs := by have := b.isLt; omega
    have e : BitVec.ofNat 8 (b.toNat + 256 * ofBytesLE bs) = b := by
      apply BitVec.eq_of_toNat_eq; have := b.isLt; simp [BitVec.toNat_ofNat]; omega
    simp [toBytesLE, ofBytesLE, h, e, toBytesLE_ofBytesLE bs]

theorem ofBytesLE_toBytesLE : ∀ k n, ofBytesLE (toBytesLE k n) = n % 256 ^ k
  | 0, n => by simp [toBytesLE, ofBytesLE, Nat.mod_one]
  | k + 1, n => by
    rw [toBytesLE, ofBytesLE, ofBytesLE_toBytesLE k, BitVec.toNat_ofNat, show 256 ^ (k + 1) = 256 * 256 ^ k from Nat.pow_succ', Nat.mod_mul]

theorem ofBytesLE_append : ∀ a b : List Byte, ofBytesLE (a ++ b) = ofBytesLE a + 256 ^ a.length * ofBytesLE b
  | [], b => by simp [ofBytesLE]
  | x :: a, b => by simp only [List.cons_append, ofBytesLE, ofBytesLE_append a b, List.length_cons, Nat.pow_succ']; ring

theorem unitMap_lt : ∀ (us : List FlitUnit) (i : Nat), unitMap i us < 2 ^ (i + us.length) ∧ unitMap i us % 2 ^ i = 0
  | [], i => by simp [unitMap]
  | .literal v :: us, i => by
    have h := unitMap_lt us (i + 1)
    have e : i + 1 + us.length = i + (us.length + 1) := by omega
    refine ⟨by simpa [unitMap, e] using h.1, ?_⟩
    exact Nat.mod_eq_zero_of_dvd (dvd_trans (pow_dvd_pow 2 (by omega : i ≤ i + 1)) (Nat.dvd_of_mod_eq_zero h.2))
  | .index x :: us, i => by
    have h := unitMap_lt us (i + 1)
    have e : i + 1 + us.length = i + (us.length + 1) := by omega
    obtain ⟨k, hk⟩ := Nat.dvd_of_mod_eq_zero h.2
    simp only [unitMap, List.length_cons, ← e]
    rw [hk] at h ⊢
    have p : 2 ^ (i + 1 + us.length) = 2 ^ (i + 1) * 2 ^ us.length := Nat.pow_add ..
    rw [p] at h ⊢
    have l : k < 2 ^ us.length := Nat.lt_of_mul_lt_mul_left h.1
    have q : 2 ^ (i + 1) = 2 ^ i * 2 := Nat.pow_succ ..
    constructor
    · calc 2 ^ i + 2 ^ (i + 1) * k < 2 ^ (i + 1) * (k + 1) := by rw [q]; have := Nat.two_pow_pos i; ring_nf; omega
        _ ≤ _ := Nat.mul_le_mul_left _ l
    · rw [q]; exact Nat.mod_eq_zero_of_dvd ⟨1 + 2 * k, by ring⟩

/-- Bit `i + j` of the map of units from bit `i` on says whether unit `j` is an index. -/
theorem unitMap_bit : ∀ (us : List FlitUnit) (i j : Nat) (h : j < us.length),
    bitOf (i + j) (unitMap i us) = (match us[j] with | .literal _ => false | .index _ => true)
  | .literal v :: us, i, 0, _ => by
    have h := (unitMap_lt us (i + 1)).2
    obtain ⟨k, hk⟩ := Nat.dvd_of_mod_eq_zero h
    simp [unitMap, bitOf, hk, Nat.pow_succ, Nat.mul_assoc]
  | .index x :: us, i, 0, _ => by
    obtain ⟨k, hk⟩ := Nat.dvd_of_mod_eq_zero (unitMap_lt us (i + 1)).2
    have e : (2 ^ i + 2 ^ i * (2 * k)) / 2 ^ i = 1 + 2 * k := by
      rw [show 2 ^ i + 2 ^ i * (2 * k) = 2 ^ i * (1 + 2 * k) by ring, Nat.mul_div_cancel_left _ (Nat.two_pow_pos i)]
    simp [unitMap, bitOf, hk, Nat.pow_succ, Nat.mul_assoc, e]
  | .literal v :: us, i, j + 1, h => by
    have r := unitMap_bit us (i + 1) j (by simpa using h)
    simpa [unitMap, show i + 1 + j = i + (j + 1) by omega] using r
  | .index x :: us, i, j + 1, h => by
    have r := unitMap_bit us (i + 1) j (by simpa using h)
    obtain ⟨k, hk⟩ := Nat.dvd_of_mod_eq_zero (unitMap_lt us (i + 1)).2
    have q : 2 ^ (i + 1) = 2 ^ i * 2 := Nat.pow_succ ..
    have e : (2 ^ i + 2 ^ (i + 1) * k) / 2 ^ (i + 1) = k := by
      have := Nat.two_pow_pos i
      rw [Nat.add_mul_div_left _ _ (Nat.two_pow_pos _), Nat.div_eq_of_lt (by omega), Nat.zero_add]
    have f : (2 ^ (i + 1) * k) / 2 ^ (i + 1) = k := Nat.mul_div_cancel_left _ (Nat.two_pow_pos _)
    rw [show i + (j + 1) = i + 1 + j by omega, unitMap, List.getElem_cons_succ, ← r]
    simp only [bitOf, hk, Nat.pow_add 2 (i + 1) j, ← Nat.div_div_eq_div_mul, e, f]

/-- The bytes of units, as MAP counts them. -/
theorem unitBytes_sum (us : List FlitUnit) : ((List.range us.length).map fun j => if bitOf j (unitMap 0 us) then 1 else 32).sum =
    (us.flatMap FlitUnit.bytes).length := by
  have h : ((List.range us.length).map fun j => if bitOf j (unitMap 0 us) then 1 else 32) = us.map fun u => u.bytes.length := by
    refine List.ext_getElem (by simp) fun j a b => ?_
    have r := unitMap_bit us 0 j (by simpa using a)
    rw [Nat.zero_add] at r
    simp only [List.getElem_map, List.getElem_range, r]
    cases us[j]'(by simpa using a) <;> simp [FlitUnit.bytes, toBytesLE_length]
  rw [h, List.length_flatMap]

/-- A port accepts the flit that a port builds: it is laid out as R399 says, its CRC checks, and its SEQ is the one that it was given. -/
theorem flitOf_accepted (seq ack epoch : BitVec 12) (nak : Bool) (vc : BitVec 3) (credits : BitVec 32) (us : List FlitUnit) (h : us ≠ [])
    (n : us.length ≤ 16) (b : (us.flatMap FlitUnit.bytes).length ≤ 224) :
    flitOk (flitOf seq ack epoch nak vc credits us) = true ∧ flitSeq (flitOf seq ack epoch nak vc credits us) = seq := by
  have m := (unitMap_lt us 0).1
  rw [Nat.zero_add] at m
  have l : 1 ≤ us.length := List.length_pos_iff.mpr h
  have p : (2 : Nat) ^ us.length ≤ 2 ^ 16 := Nat.pow_le_pow_right (by decide) n
  have a1 := seq.isLt; have a2 := ack.isLt; have a3 := epoch.isLt; have a4 := vc.isLt
  have a5 : bitNat nak < 2 := by cases nak <;> decide
  obtain ⟨head, eh⟩ : ∃ x, x = seq.toNat * 2 ^ 52 + ack.toNat * 2 ^ 40 + epoch.toNat * 2 ^ 28 + bitNat nak * 2 ^ 27 + vc.toNat * 2 ^ 24
    + us.length * 2 ^ 16 + unitMap 0 us := ⟨_, rfl⟩
  obtain ⟨body, eb⟩ : ∃ x, x = toBytesLE 8 head ++ toBytesLE 8 (credits.toNat * 2 ^ 32) ++ us.flatMap FlitUnit.bytes ++
    List.replicate (232 - (us.flatMap FlitUnit.bytes).length) 0#8 := ⟨_, rfl⟩
  have lb : body.length = 248 := by simp only [eb, List.length_append, toBytesLE_length, List.length_replicate]; omega
  have f : flitOf seq ack epoch nak vc credits us = ofBytesLE (body ++ toBytesLE 8 (crc64 body).toNat) := by simp only [flitOf, ← eh, ← eb]
  have bytes : flitBytes (flitOf seq ack epoch nak vc credits us) = body ++ toBytesLE 8 (crc64 body).toNat := by
    have := toBytesLE_ofBytesLE (body ++ toBytesLE 8 (crc64 body).toNat)
    rwa [List.length_append, lb, toBytesLE_length, ← f] at this
  have hd : flitHead (flitOf seq ack epoch nak vc credits us) = head := by
    rw [flitHead, f, eb, List.append_assoc, List.append_assoc, List.append_assoc, ofBytesLE_append, ofBytesLE_toBytesLE, toBytesLE_length]
    have : head < 2 ^ 64 := by rw [eh]; omega
    omega
  have c : flitCount (flitOf seq ack epoch nak vc credits us) = us.length := by rw [flitCount, hd, bitsOf, eh]; omega
  have mp : flitMap (flitOf seq ack epoch nak vc credits us) = unitMap 0 us := by rw [flitMap, hd, eh]; omega
  refine ⟨?_, ?_⟩
  · have u : unitBytes (flitOf seq ack epoch nak vc credits us) = (us.flatMap FlitUnit.bytes).length := by rw [unitBytes, c, mp, unitBytes_sum]
    have t : (body ++ toBytesLE 8 (crc64 body).toNat).take 248 = body := by rw [← lb, List.take_left]
    have d : (body ++ toBytesLE 8 (crc64 body).toNat).drop 248 = toBytesLE 8 (crc64 body).toNat := by rw [← lb, List.drop_left]
    have k := (crc64 body).isLt
    simp only [flitOk, c, mp, u, bytes, t, d, ofBytesLE_toBytesLE, Bool.and_eq_true, decide_eq_true_eq, beq_iff_eq]
    refine ⟨⟨⟨⟨l, n⟩, b⟩, m⟩, ?_⟩
    apply BitVec.eq_of_toNat_eq; rw [BitVec.toNat_ofNat]; omega
  · apply BitVec.eq_of_toNat_eq
    rw [flitSeq, hd, BitVec.toNat_ofNat, bitsOf, eh]; omega

end Sys2Proof.Machine
end

