-- ==== Sys2Proof/Laws/Memory.lean ====
section
/-! SUPPORT. The laws of tables and of the two memories: a read after a write, and the canonical form that every operation keeps
(spec 01 R33, 20 R393, 21 R410). -/

namespace Sys2Proof.Machine

variable {α : Type}

/-! ## Tables -/

@[simp] theorem Tab.find_put_same (k : Nat) (v : α) (t : Tab α) : Tab.find k (Tab.put k v t) = some v := by
  induction t with
  | nil => simp [Tab.put, Tab.find]
  | cons e t ih =>
    obtain ⟨j, w⟩ := e
    simp only [Tab.put]
    split
    · rename_i h
      simp only [Tab.find]
      rw [if_neg (by omega), if_neg (by omega), ih]
    · split <;> simp [Tab.find]

theorem Tab.find_put_other {k j : Nat} (h : j ≠ k) (v : α) (t : Tab α) : Tab.find j (Tab.put k v t) = Tab.find j t := by
  induction t with
  | nil => simp [Tab.put, Tab.find, Ne.symm h]
  | cons e t ih =>
    obtain ⟨i, w⟩ := e
    simp only [Tab.put]
    split
    · simp only [Tab.find, ih]
    · split
      · rename_i h1 h2; subst h2; simp only [Tab.find]; rw [if_neg (Ne.symm h), if_neg (Ne.symm h)]
      · simp only [Tab.find]
        rw [if_neg (Ne.symm h)]
        split
        · rw [if_neg (by omega), if_pos (by omega)]
        · rfl

@[simp] theorem Tab.get_put_same (d : α) (k : Nat) (v : α) (t : Tab α) : Tab.get d k (Tab.put k v t) = v := by simp [Tab.get]
theorem Tab.get_put_other {k j : Nat} (h : j ≠ k) (d v : α) (t : Tab α) : Tab.get d j (Tab.put k v t) = Tab.get d j t := by
  simp [Tab.get, Tab.find_put_other h]

@[simp] theorem Tab.get_alter_same (d : α) (k : Nat) (f : α → α) (t : Tab α) : Tab.get d k (Tab.alter d k f t) = f (Tab.get d k t) := by
  simp [Tab.alter]
theorem Tab.get_alter_other {k j : Nat} (h : j ≠ k) (d : α) (f : α → α) (t : Tab α) :
    Tab.get d j (Tab.alter d k f t) = Tab.get d j t := Tab.get_put_other h d _ t

/-! ## Rising keys -/

/-- Rising keys, said of the members. -/
theorem Tab.risingFrom_iff (lo : Option Nat) (t : Tab α) :
    Tab.risingFrom lo t = true ↔ (∀ l, lo = some l → ∀ e ∈ t, l < e.1) ∧ t.Pairwise (fun a b => a.1 < b.1) := by
  induction t generalizing lo with
  | nil => simp [Tab.risingFrom]
  | cons e t ih =>
    obtain ⟨j, w⟩ := e
    simp only [Tab.risingFrom, Bool.and_eq_true, ih, List.pairwise_cons, List.mem_cons, Option.some.injEq]
    constructor
    · rintro ⟨h, h1, h2⟩
      refine ⟨?_, h1 j rfl, h2⟩
      rintro l rfl e (rfl | he)
      · simpa using h
      · have := h1 j rfl e he; have : l < j := by simpa using h
        omega
    · rintro ⟨h, h1, h2⟩
      refine ⟨?_, ?_, h2⟩
      · cases lo with
        | none => rfl
        | some l => simpa using h l rfl (j, w) (.inl rfl)
      · rintro _ rfl; exact h1

/-- Keys rise strictly. -/
abbrev Tab.Rising (t : Tab α) : Prop := t.Pairwise (fun a b => a.1 < b.1)

theorem Tab.mem_put {k : Nat} {v : α} {t : Tab α} {e : Nat × α} (h : e ∈ Tab.put k v t) : e = (k, v) ∨ e ∈ t := by
  induction t with
  | nil => simpa [Tab.put] using h
  | cons x t ih =>
    obtain ⟨j, w⟩ := x
    simp only [Tab.put] at h
    split at h
    · rcases List.mem_cons.mp h with rfl | h
      · simp
      · rcases ih h with h | h <;> simp [h]
    · split at h <;> (simp at h; rcases h with h | h <;> simp [h])

theorem Tab.mem_drop {k : Nat} {t : Tab α} {e : Nat × α} (h : e ∈ Tab.drop k t) : e ∈ t := by
  induction t with
  | nil => simp [Tab.drop] at h
  | cons x t ih =>
    obtain ⟨j, w⟩ := x
    simp only [Tab.drop] at h
    split at h
    · simp [h]
    · split at h
      · exact h
      · rcases List.mem_cons.mp h with rfl | h
        · simp
        · simp [ih h]

theorem Tab.rising_put {t : Tab α} (h : Tab.Rising t) (k : Nat) (v : α) : Tab.Rising (Tab.put k v t) := by
  induction t with
  | nil => simp [Tab.put, Tab.Rising]
  | cons x t ih =>
    obtain ⟨j, w⟩ := x
    obtain ⟨h1, h2⟩ := List.pairwise_cons.mp h
    simp only [Tab.put]
    split
    · rename_i hj
      refine List.pairwise_cons.mpr ⟨fun e he => ?_, ih h2⟩
      rcases Tab.mem_put he with rfl | he
      · exact hj
      · exact h1 e he
    · split
      · rename_i _ hj; subst hj; exact List.pairwise_cons.mpr ⟨h1, h2⟩
      · rename_i a b
        have lt : k < j := by omega
        refine List.pairwise_cons.mpr ⟨fun e he => ?_, h⟩
        rcases List.mem_cons.mp he with rfl | he
        · exact lt
        · exact lt.trans (h1 e he)

theorem Tab.rising_drop {t : Tab α} (h : Tab.Rising t) (k : Nat) : Tab.Rising (Tab.drop k t) := by
  induction t with
  | nil => simp [Tab.drop, Tab.Rising]
  | cons x t ih =>
    obtain ⟨j, w⟩ := x
    obtain ⟨h1, h2⟩ := List.pairwise_cons.mp h
    simp only [Tab.drop]
    split
    · exact h2
    · split
      · exact h
      · exact List.pairwise_cons.mpr ⟨fun e he => h1 e (Tab.mem_drop he), ih h2⟩

theorem Tab.find_none {k : Nat} {t : Tab α} (h : ∀ e ∈ t, k < e.1) : Tab.find k t = none := by
  cases t with
  | nil => rfl
  | cons x t => obtain ⟨j, w⟩ := x; have : k < j := h (j, w) (by simp); simp [Tab.find, this, Nat.ne_of_gt this]

theorem Tab.find_drop_same {t : Tab α} (h : Tab.Rising t) (k : Nat) : Tab.find k (Tab.drop k t) = none := by
  induction t with
  | nil => rfl
  | cons x t ih =>
    obtain ⟨j, w⟩ := x
    obtain ⟨h1, h2⟩ := List.pairwise_cons.mp h
    simp only [Tab.drop]
    split
    · rename_i e; subst e; exact Tab.find_none h1
    · split
      · rename_i a b; simp [Tab.find, a, b]
      · rename_i a b; simp [Tab.find, a, b, ih h2]

theorem Tab.find_drop_other {t : Tab α} (h : Tab.Rising t) {k j : Nat} (n : j ≠ k) : Tab.find j (Tab.drop k t) = Tab.find j t := by
  induction t with
  | nil => rfl
  | cons x t ih =>
    obtain ⟨i, w⟩ := x
    obtain ⟨h1, h2⟩ := List.pairwise_cons.mp h
    simp only [Tab.drop]
    split
    · rename_i e; subst e
      simp only [Tab.find, if_neg (Ne.symm n)]
      split
      · exact Tab.find_none fun e he => by have := h1 e he; simp only at this; omega
      · rfl
    · split
      · rfl
      · simp only [Tab.find, ih h2]

theorem Tab.canonical_iff [DecidableEq α] (d : α) (t : Tab α) :
    Tab.canonical d t = true ↔ Tab.Rising t ∧ ∀ e ∈ t, e.2 ≠ d := by
  simp [Tab.canonical, Tab.risingFrom_iff, Tab.Rising]

/-- Setting a value keeps the canonical form. -/
theorem Tab.canonical_set [DecidableEq α] {d : α} {t : Tab α} (h : Tab.canonical d t = true) (k : Nat) (v : α) :
    Tab.canonical d (Tab.set d k v t) = true := by
  rw [Tab.canonical_iff] at *
  unfold Tab.set
  split
  · exact ⟨Tab.rising_drop h.1 k, fun e he => h.2 e (Tab.mem_drop he)⟩
  · rename_i n
    refine ⟨Tab.rising_put h.1 k v, fun e he => ?_⟩
    rcases Tab.mem_put he with rfl | he
    · exact n
    · exact h.2 e he

/-- A value set is the value read. -/
theorem Tab.get_set_same [DecidableEq α] {d : α} {t : Tab α} (h : Tab.canonical d t = true) (k : Nat) (v : α) :
    Tab.get d k (Tab.set d k v t) = v := by
  unfold Tab.set
  split
  · rename_i e; simp [Tab.get, Tab.find_drop_same ((Tab.canonical_iff d t).mp h).1, e]
  · simp

/-- Setting a value leaves every other key. -/
theorem Tab.get_set_other [DecidableEq α] {d : α} {t : Tab α} (h : Tab.canonical d t = true) {k j : Nat} (n : j ≠ k) (v : α) :
    Tab.get d j (Tab.set d k v t) = Tab.get d j t := by
  unfold Tab.set
  split
  · simp [Tab.get, Tab.find_drop_other ((Tab.canonical_iff d t).mp h).1 n]
  · exact Tab.get_put_other n d v t

/-! ## One memory -/

theorem memPut_wf {m : List Host.Cell} (h : Memory.wf m = true) (a : Nat) (b : Byte) : Memory.wf (memPut m a b) = true :=
  Tab.canonical_set h a b

theorem memPuts_wf {m : List Host.Cell} (h : Memory.wf m = true) (a : Nat) (bs : List Byte) : Memory.wf (memPuts m a bs) = true := by
  induction bs generalizing m a with
  | nil => exact h
  | cons b bs ih => exact ih (memPut_wf h a b) (a + 1)

theorem memByte_memPut_same {m : List Host.Cell} (h : Memory.wf m = true) (a : Nat) (b : Byte) : memByte (memPut m a b) a = b :=
  Tab.get_set_same h a b

theorem memByte_memPut_other {m : List Host.Cell} (h : Memory.wf m = true) {a x : Nat} (n : x ≠ a) (b : Byte) :
    memByte (memPut m a b) x = memByte m x := Tab.get_set_other h n b

/-- A byte string written reads back inside its range, and leaves every byte outside it. -/
theorem memByte_memPuts {m : List Host.Cell} (h : Memory.wf m = true) (a x : Nat) (bs : List Byte) :
    memByte (memPuts m a bs) x = if a ≤ x ∧ x < a + bs.length then bs.getD (x - a) 0#8 else memByte m x := by
  induction bs generalizing m a with
  | nil => simp only [memPuts, List.length_nil]; rw [if_neg (by omega)]
  | cons b bs ih =>
    simp only [memPuts, List.length_cons]
    rw [ih (memPut_wf h a b) (a + 1)]
    by_cases e : x = a
    · subst e
      rw [if_neg (by omega), if_pos (by omega), memByte_memPut_same h]
      simp
    · by_cases c : a + 1 ≤ x ∧ x < a + 1 + bs.length
      · rw [if_pos c, if_pos (by omega)]
        obtain ⟨k, hk⟩ : ∃ k, x - a = k + 1 := ⟨x - a - 1, by omega⟩
        rw [hk, show x - (a + 1) = k by omega]; simp
      · rw [if_neg c, if_neg (by omega), memByte_memPut_other h e]

@[simp] theorem memBytes_length (m : List Host.Cell) (a n : Nat) : (memBytes m a n).length = n := by
  induction n generalizing a with
  | zero => rfl
  | succ n ih => simp [memBytes, ih]

theorem memBytes_getD (m : List Host.Cell) (a n i : Nat) (h : i < n) : (memBytes m a n).getD i 0#8 = memByte m (a + i) := by
  induction n generalizing a i with
  | zero => omega
  | succ n ih =>
    cases i with
    | zero => simp [memBytes]
    | succ i =>
      have := ih (a + 1) i (by omega)
      simp only [memBytes, List.getD_cons_succ, this]
      congr 1; omega

end Sys2Proof.Machine
end

