-- ==== Sys2Proof/Laws/Ops.lean ====
section
/-! SUPPORT. What the shared operations of every instruction can do: the checks of R214, R70, R77 and R242, said once (spec 08, 03, 09). -/

namespace Sys2Proof.Machine

theorem limitBroken_none {u : RegUse} {t : Thread} (h : ∀ r ∈ u.fields, r < t.regs.length) (hv : ∀ r ∈ u.vfields, r < t.vregs.length) :
    limitBroken u t = none := by
  have a : u.fields.find? (fun r => decide (t.regs.length ≤ r)) = none := by
    simp only [List.find?_eq_none, decide_eq_true_eq]; intro r hr; have := h r hr; omega
  have b : u.vfields.find? (fun r => decide (t.vregs.length ≤ r)) = none := by
    simp only [List.find?_eq_none, decide_eq_true_eq]; intro r hr; have := hv r hr; omega
  simp [limitBroken, a, b]

/-- What is clear passes the shared checks. -/
theorem Clear.pass {i : Instr} {s : State} (h : Clear i s) : checkInstr i s = .pass := by
  have a : (regUse i).reads.find? (fun r => !(s.pre.reg r).full) = none := by
    simp only [List.find?_eq_none]; intro r hr; simp [h.full r hr]
  have b : (regUse i).vreads.find? (fun r => !(s.pre.vreg r).full) = none := by
    simp only [List.find?_eq_none]; intro r hr; simp [h.vfull r hr]
  have c : (((regUse i).writes ++ (regUse i).hidden).filter fun r => !(s.pre.reg r).full) ++
      (regUse i).empties.filter (fun r => (s.pre.reg r).mark) = [] := by
    simp only [List.append_eq_nil_iff, List.filter_eq_nil_iff]
    exact ⟨fun r hr => by simp [h.ready r hr], fun r hr => by simp [h.free r hr]⟩
  have d : ((regUse i).vwrites.filter fun r => !(s.pre.vreg r).full) ++ (regUse i).vempties.filter (fun r => (s.pre.vreg r).mark) = [] := by
    simp only [List.append_eq_nil_iff, List.filter_eq_nil_iff]
    exact ⟨fun r hr => by simp [h.vready r hr], fun r hr => by simp [h.vfree r hr]⟩
  have e : ¬ (s.pre.loads ≠ [] ∧ ((regUse i).wstat = true ∨ ((regUse i).preads ++ (regUse i).pwrites).any (s.loadPreds.contains ·) = true)) := by
    rcases h.world with k | ⟨k, m⟩
    · simp [k]
    · rintro ⟨-, q | q⟩
      · simp [k] at q
      · obtain ⟨p, hp, hq⟩ := List.any_eq_true.mp q
        exact m p hp (by simpa using hq)
  have f : (regUse i).reads.findSome? (fun r => (s.pre.reg r).poison.map fun l => (r, l)) = none := by
    simp only [List.findSome?_eq_none_iff]; intro r hr; simp [h.clean r hr]
  have g : (regUse i).vreads.findSome? (fun r => (s.pre.vreg r).poison.map fun l => (r, l)) = none := by
    simp only [List.findSome?_eq_none_iff]; intro r hr; simp [h.vclean r hr]
  have st : staticCheck i s = .pass := by
    have p : (privileged i && !s.pre.monitor) = false := by
      cases q : privileged i
      · rfl
      · simp [h.mode q]
    simp [staticCheck, h.formed, p, limitBroken_none h.limit h.vlimit]
  have w : regWait (regUse i) s = none := by simp only [regWait, a, b, c, d, if_neg e]
  simp [checkInstr, st, dynamicCheck, w, poisonedReg, f, g]

/-- What passes the shared checks runs. -/
theorem guarded_pass {i : Instr} {s : State} (h : checkInstr i s = .pass) (k : State → Out) : guarded i s k = k s := by
  simp [guarded, h]

theorem guarded_clear {i : Instr} {s : State} (h : Clear i s) (k : State → Out) : guarded i s k = k s := guarded_pass h.pass k

theorem effect_clear {i : Instr} {s : State} (h : Clear i s) (f : State → State) : effect i s f = .next (f s) := guarded_clear h _

/-- What the checks turn away waits or traps, and does nothing else. -/
theorem guarded_cases (i : Instr) (s : State) (k : State → Out) :
    guarded i s k = k s ∨ (∃ w, guarded i s k = waitOut s w) ∨ (∃ c x, guarded i s k = trapOut s c x) ∨
      ∃ l x, guarded i s k = poisonOut s l x none := by
  cases h : checkInstr i s with
  | pass => exact .inl (guarded_pass h k)
  | wait w => exact .inr (.inl ⟨w, by simp [guarded, h]⟩)
  | trap c x =>
    by_cases hc : c = Cause.poison
    · subst hc; refine .inr (.inr (.inr ⟨((poisonedReg (regUse i) s.pre).map (·.2)).getD 0, x, ?_⟩)); simp only [guarded, h, if_true]
    · exact .inr (.inr (.inl ⟨c, x, by simp only [guarded, h, if_neg hc]⟩))

end Sys2Proof.Machine
end

