-- ==== Sys2Proof/Laws/PerInstr.lean ====
section
/-! SUPPORT. Per instruction: the decoder reads back what the encoder writes, with every operand (spec 08 R204, R207-R212). -/

namespace Sys2Proof.Laws.Encoding

set_option Elab.async false

/-- The decoder gives instruction `i` for the word that the encoder gives it; an event of the device or the host has no word. -/
def Statement (i : Instr) : Prop := ∀ w : Code, encode i = some w → decodeWord w = some i

theorem noWord {i : Instr} (h : encodeNat i = none) : Statement i := fun w hw => by simp [encode, h] at hw

theorem roundS {i : Instr} (m o : Nat) (h : encodeNat i = sWord m o) (hm : m < 64) (hd : o < 2 ^ 24 ∧ decodeS m o = some i) :
    Statement i := fun w hw => by
  have e : w = BitVec.ofNat 32 (m * 2 ^ 24 + o) := by simpa [encode, h, sWord] using hw.symm
  have t : w.toNat = m * 2 ^ 24 + o := by rw [e, BitVec.toNat_ofNat]; omega
  rw [decodeWord, t, decodeNat_s m o hm hd.1, hd.2]

theorem roundV {i : Instr} (m o : Nat) (h : encodeNat i = vWord m o) (hm : m < 64) (hd : o < 2 ^ 24 ∧ decodeV m o = some i) :
    Statement i := fun w hw => by
  have e : w = BitVec.ofNat 32 (2 ^ 30 + m * 2 ^ 24 + o) := by simpa [encode, h, vWord] using hw.symm
  have t : w.toNat = 2 ^ 30 + m * 2 ^ 24 + o := by rw [e, BitVec.toNat_ofNat]; omega
  rw [decodeWord, t, decodeNat_v m o hm hd.1, hd.2]

theorem add (d : SReg) (a : SReg) (b : SReg) : Statement (.add d a b) := by
  refine roundS 0x00 (e17 d + e10 a + e3 b + 0) rfl (by decide) ?_
  generalize h : e17 d + e10 a + e3 b + 0 = o
  obtain ⟨k, k0, k1, k2, k3⟩ := shape0 d a b 0 0 (by decide) (by decide) o h
  refine ⟨k, ?_⟩
  rw [decodeS_0]
  simp only [decS00, k0, k1, k2, k3]

theorem sub (d : SReg) (a : SReg) (b : SReg) : Statement (.sub d a b) := by
  refine roundS 0x00 (e17 d + e10 a + e3 b + 1) rfl (by decide) ?_
  generalize h : e17 d + e10 a + e3 b + 1 = o
  obtain ⟨k, k0, k1, k2, k3⟩ := shape0 d a b 1 1 (by decide) (by decide) o h
  refine ⟨k, ?_⟩
  rw [decodeS_0]
  simp only [decS00, k0, k1, k2, k3]

theorem and (d : SReg) (a : SReg) (b : SReg) : Statement (.and d a b) := by
  refine roundS 0x00 (e17 d + e10 a + e3 b + 2) rfl (by decide) ?_
  generalize h : e17 d + e10 a + e3 b + 2 = o
  obtain ⟨k, k0, k1, k2, k3⟩ := shape0 d a b 2 2 (by decide) (by decide) o h
  refine ⟨k, ?_⟩
  rw [decodeS_0]
  simp only [decS00, k0, k1, k2, k3]

theorem or (d : SReg) (a : SReg) (b : SReg) : Statement (.or d a b) := by
  refine roundS 0x00 (e17 d + e10 a + e3 b + 3) rfl (by decide) ?_
  generalize h : e17 d + e10 a + e3 b + 3 = o
  obtain ⟨k, k0, k1, k2, k3⟩ := shape0 d a b 3 3 (by decide) (by decide) o h
  refine ⟨k, ?_⟩
  rw [decodeS_0]
  simp only [decS00, k0, k1, k2, k3]

theorem xor (d : SReg) (a : SReg) (b : SReg) : Statement (.xor d a b) := by
  refine roundS 0x00 (e17 d + e10 a + e3 b + 4) rfl (by decide) ?_
  generalize h : e17 d + e10 a + e3 b + 4 = o
  obtain ⟨k, k0, k1, k2, k3⟩ := shape0 d a b 4 4 (by decide) (by decide) o h
  refine ⟨k, ?_⟩
  rw [decodeS_0]
  simp only [decS00, k0, k1, k2, k3]

theorem andn (d : SReg) (a : SReg) (b : SReg) : Statement (.andn d a b) := by
  refine roundS 0x00 (e17 d + e10 a + e3 b + 5) rfl (by decide) ?_
  generalize h : e17 d + e10 a + e3 b + 5 = o
  obtain ⟨k, k0, k1, k2, k3⟩ := shape0 d a b 5 5 (by decide) (by decide) o h
  refine ⟨k, ?_⟩
  rw [decodeS_0]
  simp only [decS00, k0, k1, k2, k3]

theorem shl (d : SReg) (a : SReg) (b : SReg) : Statement (.shl d a b) := by
  refine roundS 0x00 (e17 d + e10 a + e3 b + 6) rfl (by decide) ?_
  generalize h : e17 d + e10 a + e3 b + 6 = o
  obtain ⟨k, k0, k1, k2, k3⟩ := shape0 d a b 6 6 (by decide) (by decide) o h
  refine ⟨k, ?_⟩
  rw [decodeS_0]
  simp only [decS00, k0, k1, k2, k3]

theorem shr (d : SReg) (a : SReg) (b : SReg) : Statement (.shr d a b) := by
  refine roundS 0x00 (e17 d + e10 a + e3 b + 7) rfl (by decide) ?_
  generalize h : e17 d + e10 a + e3 b + 7 = o
  obtain ⟨k, k0, k1, k2, k3⟩ := shape0 d a b 7 7 (by decide) (by decide) o h
  refine ⟨k, ?_⟩
  rw [decodeS_0]
  simp only [decS00, k0, k1, k2, k3]

theorem sra (d : SReg) (a : SReg) (b : SReg) : Statement (.sra d a b) := by
  refine roundS 0x01 (e17 d + e10 a + e3 b + 0) rfl (by decide) ?_
  generalize h : e17 d + e10 a + e3 b + 0 = o
  obtain ⟨k, k0, k1, k2, k3⟩ := shape0 d a b 0 0 (by decide) (by decide) o h
  refine ⟨k, ?_⟩
  rw [decodeS_1]
  simp only [decS01, k0, k1, k2, k3]

theorem rot (d : SReg) (a : SReg) (b : SReg) : Statement (.rot d a b) := by
  refine roundS 0x01 (e17 d + e10 a + e3 b + 1) rfl (by decide) ?_
  generalize h : e17 d + e10 a + e3 b + 1 = o
  obtain ⟨k, k0, k1, k2, k3⟩ := shape0 d a b 1 1 (by decide) (by decide) o h
  refine ⟨k, ?_⟩
  rw [decodeS_1]
  simp only [decS01, k0, k1, k2, k3]

theorem min (d : SReg) (a : SReg) (b : SReg) : Statement (.min d a b) := by
  refine roundS 0x01 (e17 d + e10 a + e3 b + 2) rfl (by decide) ?_
  generalize h : e17 d + e10 a + e3 b + 2 = o
  obtain ⟨k, k0, k1, k2, k3⟩ := shape0 d a b 2 2 (by decide) (by decide) o h
  refine ⟨k, ?_⟩
  rw [decodeS_1]
  simp only [decS01, k0, k1, k2, k3]

theorem max (d : SReg) (a : SReg) (b : SReg) : Statement (.max d a b) := by
  refine roundS 0x01 (e17 d + e10 a + e3 b + 3) rfl (by decide) ?_
  generalize h : e17 d + e10 a + e3 b + 3 = o
  obtain ⟨k, k0, k1, k2, k3⟩ := shape0 d a b 3 3 (by decide) (by decide) o h
  refine ⟨k, ?_⟩
  rw [decodeS_1]
  simp only [decS01, k0, k1, k2, k3]

theorem minu (d : SReg) (a : SReg) (b : SReg) : Statement (.minu d a b) := by
  refine roundS 0x01 (e17 d + e10 a + e3 b + 4) rfl (by decide) ?_
  generalize h : e17 d + e10 a + e3 b + 4 = o
  obtain ⟨k, k0, k1, k2, k3⟩ := shape0 d a b 4 4 (by decide) (by decide) o h
  refine ⟨k, ?_⟩
  rw [decodeS_1]
  simp only [decS01, k0, k1, k2, k3]

theorem maxu (d : SReg) (a : SReg) (b : SReg) : Statement (.maxu d a b) := by
  refine roundS 0x01 (e17 d + e10 a + e3 b + 5) rfl (by decide) ?_
  generalize h : e17 d + e10 a + e3 b + 5 = o
  obtain ⟨k, k0, k1, k2, k3⟩ := shape0 d a b 5 5 (by decide) (by decide) o h
  refine ⟨k, ?_⟩
  rw [decodeS_1]
  simp only [decS01, k0, k1, k2, k3]

theorem mul (d : SReg) (a : SReg) (b : SReg) : Statement (.mul d a b) := by
  refine roundS 0x01 (e17 d + e10 a + e3 b + 6) rfl (by decide) ?_
  generalize h : e17 d + e10 a + e3 b + 6 = o
  obtain ⟨k, k0, k1, k2, k3⟩ := shape0 d a b 6 6 (by decide) (by decide) o h
  refine ⟨k, ?_⟩
  rw [decodeS_1]
  simp only [decS01, k0, k1, k2, k3]

theorem mulh (d : SReg) (a : SReg) (b : SReg) : Statement (.mulh d a b) := by
  refine roundS 0x01 (e17 d + e10 a + e3 b + 7) rfl (by decide) ?_
  generalize h : e17 d + e10 a + e3 b + 7 = o
  obtain ⟨k, k0, k1, k2, k3⟩ := shape0 d a b 7 7 (by decide) (by decide) o h
  refine ⟨k, ?_⟩
  rw [decodeS_1]
  simp only [decS01, k0, k1, k2, k3]

theorem mulhu (d : SReg) (a : SReg) (b : SReg) : Statement (.mulhu d a b) := by
  refine roundS 0x02 (e17 d + e10 a + e3 b + 0) rfl (by decide) ?_
  generalize h : e17 d + e10 a + e3 b + 0 = o
  obtain ⟨k, k0, k1, k2, k3⟩ := shape0 d a b 0 0 (by decide) (by decide) o h
  refine ⟨k, ?_⟩
  rw [decodeS_2]
  simp only [decS02, k0, k1, k2, k3]

theorem div (d : SReg) (a : SReg) (b : SReg) : Statement (.div d a b) := by
  refine roundS 0x02 (e17 d + e10 a + e3 b + 1) rfl (by decide) ?_
  generalize h : e17 d + e10 a + e3 b + 1 = o
  obtain ⟨k, k0, k1, k2, k3⟩ := shape0 d a b 1 1 (by decide) (by decide) o h
  refine ⟨k, ?_⟩
  rw [decodeS_2]
  simp only [decS02, k0, k1, k2, k3]

theorem divu (d : SReg) (a : SReg) (b : SReg) : Statement (.divu d a b) := by
  refine roundS 0x02 (e17 d + e10 a + e3 b + 2) rfl (by decide) ?_
  generalize h : e17 d + e10 a + e3 b + 2 = o
  obtain ⟨k, k0, k1, k2, k3⟩ := shape0 d a b 2 2 (by decide) (by decide) o h
  refine ⟨k, ?_⟩
  rw [decodeS_2]
  simp only [decS02, k0, k1, k2, k3]

theorem rem (d : SReg) (a : SReg) (b : SReg) : Statement (.rem d a b) := by
  refine roundS 0x02 (e17 d + e10 a + e3 b + 3) rfl (by decide) ?_
  generalize h : e17 d + e10 a + e3 b + 3 = o
  obtain ⟨k, k0, k1, k2, k3⟩ := shape0 d a b 3 3 (by decide) (by decide) o h
  refine ⟨k, ?_⟩
  rw [decodeS_2]
  simp only [decS02, k0, k1, k2, k3]

theorem remu (d : SReg) (a : SReg) (b : SReg) : Statement (.remu d a b) := by
  refine roundS 0x02 (e17 d + e10 a + e3 b + 4) rfl (by decide) ?_
  generalize h : e17 d + e10 a + e3 b + 4 = o
  obtain ⟨k, k0, k1, k2, k3⟩ := shape0 d a b 4 4 (by decide) (by decide) o h
  refine ⟨k, ?_⟩
  rw [decodeS_2]
  simp only [decS02, k0, k1, k2, k3]

theorem clz (d : SReg) (a : SReg) : Statement (.clz d a) := by
  refine roundS 0x02 (e17 d + e10 a + 5) rfl (by decide) ?_
  generalize h : e17 d + e10 a + 5 = o
  obtain ⟨k, k0, k1, k2, k3⟩ := shape1 d a 5 5 (by decide) (by decide) o h
  refine ⟨k, ?_⟩
  rw [decodeS_2]
  simp only [decS02, zero, if_true, k0, k1, k2, k3]

theorem ctz (d : SReg) (a : SReg) : Statement (.ctz d a) := by
  refine roundS 0x02 (e17 d + e10 a + 6) rfl (by decide) ?_
  generalize h : e17 d + e10 a + 6 = o
  obtain ⟨k, k0, k1, k2, k3⟩ := shape1 d a 6 6 (by decide) (by decide) o h
  refine ⟨k, ?_⟩
  rw [decodeS_2]
  simp only [decS02, zero, if_true, k0, k1, k2, k3]

theorem popc (d : SReg) (a : SReg) : Statement (.popc d a) := by
  refine roundS 0x02 (e17 d + e10 a + 7) rfl (by decide) ?_
  generalize h : e17 d + e10 a + 7 = o
  obtain ⟨k, k0, k1, k2, k3⟩ := shape1 d a 7 7 (by decide) (by decide) o h
  refine ⟨k, ?_⟩
  rw [decodeS_2]
  simp only [decS02, zero, if_true, k0, k1, k2, k3]

theorem sxb (d : SReg) (a : SReg) : Statement (.sxb d a) := by
  refine roundS 0x03 (e17 d + e10 a + 0) rfl (by decide) ?_
  generalize h : e17 d + e10 a + 0 = o
  obtain ⟨k, k0, k1, k2, k3⟩ := shape1 d a 0 0 (by decide) (by decide) o h
  refine ⟨k, ?_⟩
  rw [decodeS_3]
  simp only [decS03, zero, if_true, k0, k1, k2, k3]

theorem sxh (d : SReg) (a : SReg) : Statement (.sxh d a) := by
  refine roundS 0x03 (e17 d + e10 a + 1) rfl (by decide) ?_
  generalize h : e17 d + e10 a + 1 = o
  obtain ⟨k, k0, k1, k2, k3⟩ := shape1 d a 1 1 (by decide) (by decide) o h
  refine ⟨k, ?_⟩
  rw [decodeS_3]
  simp only [decS03, zero, if_true, k0, k1, k2, k3]

theorem sxw (d : SReg) (a : SReg) : Statement (.sxw d a) := by
  refine roundS 0x03 (e17 d + e10 a + 2) rfl (by decide) ?_
  generalize h : e17 d + e10 a + 2 = o
  obtain ⟨k, k0, k1, k2, k3⟩ := shape1 d a 2 2 (by decide) (by decide) o h
  refine ⟨k, ?_⟩
  rw [decodeS_3]
  simp only [decS03, zero, if_true, k0, k1, k2, k3]

theorem zxb (d : SReg) (a : SReg) : Statement (.zxb d a) := by
  refine roundS 0x03 (e17 d + e10 a + 3) rfl (by decide) ?_
  generalize h : e17 d + e10 a + 3 = o
  obtain ⟨k, k0, k1, k2, k3⟩ := shape1 d a 3 3 (by decide) (by decide) o h
  refine ⟨k, ?_⟩
  rw [decodeS_3]
  simp only [decS03, zero, if_true, k0, k1, k2, k3]

theorem zxh (d : SReg) (a : SReg) : Statement (.zxh d a) := by
  refine roundS 0x03 (e17 d + e10 a + 4) rfl (by decide) ?_
  generalize h : e17 d + e10 a + 4 = o
  obtain ⟨k, k0, k1, k2, k3⟩ := shape1 d a 4 4 (by decide) (by decide) o h
  refine ⟨k, ?_⟩
  rw [decodeS_3]
  simp only [decS03, zero, if_true, k0, k1, k2, k3]

theorem zxw (d : SReg) (a : SReg) : Statement (.zxw d a) := by
  refine roundS 0x03 (e17 d + e10 a + 5) rfl (by decide) ?_
  generalize h : e17 d + e10 a + 5 = o
  obtain ⟨k, k0, k1, k2, k3⟩ := shape1 d a 5 5 (by decide) (by decide) o h
  refine ⟨k, ?_⟩
  rw [decodeS_3]
  simp only [decS03, zero, if_true, k0, k1, k2, k3]

theorem bext (d : SReg) (a : SReg) (b : SReg) : Statement (.bext d a b) := by
  refine roundS 0x03 (e17 d + e10 a + e3 b + 6) rfl (by decide) ?_
  generalize h : e17 d + e10 a + e3 b + 6 = o
  obtain ⟨k, k0, k1, k2, k3⟩ := shape0 d a b 6 6 (by decide) (by decide) o h
  refine ⟨k, ?_⟩
  rw [decodeS_3]
  simp only [decS03, k0, k1, k2, k3]

theorem bins (d : SReg) (a : SReg) (b : SReg) : Statement (.bins d a b) := by
  refine roundS 0x03 (e17 d + e10 a + e3 b + 7) rfl (by decide) ?_
  generalize h : e17 d + e10 a + e3 b + 7 = o
  obtain ⟨k, k0, k1, k2, k3⟩ := shape0 d a b 7 7 (by decide) (by decide) o h
  refine ⟨k, ?_⟩
  rw [decodeS_3]
  simp only [decS03, k0, k1, k2, k3]

theorem lea (d : SReg) (a : SReg) (b : SReg) (f : BitVec 3) : Statement (.lea d a b f) := by
  refine roundS 0x04 (e17 d + e10 a + e3 b + f.toNat) rfl (by decide) ?_
  generalize h : e17 d + e10 a + e3 b + f.toNat = o
  obtain ⟨k, k0, k1, k2, k3⟩ := shape2 d a b f o h
  refine ⟨k, ?_⟩
  rw [decodeS_4]
  simp only [decS04, k0, k1, k2, k3]

theorem cmp (pd : PReg) (c : Cond) (a : SReg) (b : SReg) : Statement (.cmp pd c a b) := by
  refine roundS 0x05 (e21 pd + e10 a + e3 b + c.code) rfl (by decide) ?_
  generalize h : e21 pd + e10 a + e3 b + c.code = o
  obtain ⟨k, k0, k1, k2, k3, k4⟩ := shape3 pd c a b o h
  refine ⟨k, ?_⟩
  rw [decodeS_5]
  simp only [decS05, zero, if_true, k0, k1, k2, k3, k4, Cond.ofCode_code]

theorem cmpi (pd : PReg) (c : Cond) (a : SReg) (imm : BitVec 10) : Statement (.cmpi pd c a imm) := by
  refine roundS 0x06 (e21 pd + c.code * 2 ^ 18 + e10 a + imm.toNat) rfl (by decide) ?_
  generalize h : e21 pd + c.code * 2 ^ 18 + e10 a + imm.toNat = o
  obtain ⟨k, k0, k1, k2, k3, k4⟩ := shape4 pd c a imm o h
  refine ⟨k, ?_⟩
  rw [decodeS_6]
  simp only [decS06, zero, if_true, k0, k1, k2, k3, k4, Cond.ofCode_code]

theorem sel (d : SReg) (p : PReg) (a : SReg) (b : SReg) : Statement (.sel d p a b) := by
  refine roundS 0x07 (e17 d + e10 a + e3 b + p.toNat) rfl (by decide) ?_
  generalize h : e17 d + e10 a + e3 b + p.toNat = o
  obtain ⟨k, k0, k1, k2, k3⟩ := shape5 d p a b o h
  refine ⟨k, ?_⟩
  rw [decodeS_7]
  simp only [decS07, k0, k1, k2, k3]

theorem addi (d : SReg) (a : SReg) (imm : BitVec 10) : Statement (.addi d a imm) := by
  refine roundS 0x08 (e17 d + e10 a + imm.toNat) rfl (by decide) ?_
  generalize h : e17 d + e10 a + imm.toNat = o
  obtain ⟨k, k0, k1, k2⟩ := shape6 d a imm o h
  refine ⟨k, ?_⟩
  rw [decodeS_8]
  simp only [decS08, k0, k1, k2]

theorem andi (d : SReg) (a : SReg) (imm : BitVec 10) : Statement (.andi d a imm) := by
  refine roundS 0x09 (e17 d + e10 a + imm.toNat) rfl (by decide) ?_
  generalize h : e17 d + e10 a + imm.toNat = o
  obtain ⟨k, k0, k1, k2⟩ := shape6 d a imm o h
  refine ⟨k, ?_⟩
  rw [decodeS_9]
  simp only [decS09, k0, k1, k2]

theorem ori (d : SReg) (a : SReg) (imm : BitVec 10) : Statement (.ori d a imm) := by
  refine roundS 0x0A (e17 d + e10 a + imm.toNat) rfl (by decide) ?_
  generalize h : e17 d + e10 a + imm.toNat = o
  obtain ⟨k, k0, k1, k2⟩ := shape6 d a imm o h
  refine ⟨k, ?_⟩
  rw [decodeS_10]
  simp only [decS10, k0, k1, k2]

theorem xori (d : SReg) (a : SReg) (imm : BitVec 10) : Statement (.xori d a imm) := by
  refine roundS 0x0B (e17 d + e10 a + imm.toNat) rfl (by decide) ?_
  generalize h : e17 d + e10 a + imm.toNat = o
  obtain ⟨k, k0, k1, k2⟩ := shape6 d a imm o h
  refine ⟨k, ?_⟩
  rw [decodeS_11]
  simp only [decS11, k0, k1, k2]

theorem shfi (k : ShiftKind) (d : SReg) (a : SReg) (n : BitVec 6) : Statement (.shfi k d a n) := by
  refine roundS 0x0C (e17 d + e10 a + k.code * 2 ^ 8 + n.toNat) rfl (by decide) ?_
  generalize h : e17 d + e10 a + k.code * 2 ^ 8 + n.toNat = o
  obtain ⟨k, k0, k1, k2, k3, k4⟩ := shape7 k d a n o h
  refine ⟨k, ?_⟩
  rw [decodeS_12]
  simp only [decS12, zero, if_true, k0, k1, k2, k3, k4, ShiftKind.ofCode_code]

theorem movi (d : SReg) (imm : BitVec 17) : Statement (.movi d imm) := by
  refine roundS 0x0D (e17 d + imm.toNat) rfl (by decide) ?_
  generalize h : e17 d + imm.toNat = o
  obtain ⟨k, k0, k1⟩ := shape8 d imm o h
  refine ⟨k, ?_⟩
  rw [decodeS_13]
  simp only [decS13, k0, k1]

theorem lui (d : SReg) (imm : BitVec 17) : Statement (.lui d imm) := by
  refine roundS 0x0E (e17 d + imm.toNat) rfl (by decide) ?_
  generalize h : e17 d + imm.toNat = o
  obtain ⟨k, k0, k1⟩ := shape8 d imm o h
  refine ⟨k, ?_⟩
  rw [decodeS_14]
  simp only [decS14, k0, k1]

theorem pand (pd : PReg) (pa : PReg) (pb : PReg) : Statement (.pand pd pa pb) := by
  refine roundS 0x0F (e21 pd + e18 pa + e15 pb + 0) rfl (by decide) ?_
  generalize h : e21 pd + e18 pa + e15 pb + 0 = o
  obtain ⟨k, k0, k1, k2, k3, k4⟩ := shape9 pd pa pb 0 0 (by decide) (by decide) o h
  refine ⟨k, ?_⟩
  rw [decodeS_15]
  simp only [decS15, zero, if_true, k0, k1, k2, k3, k4]

theorem por (pd : PReg) (pa : PReg) (pb : PReg) : Statement (.por pd pa pb) := by
  refine roundS 0x0F (e21 pd + e18 pa + e15 pb + 1) rfl (by decide) ?_
  generalize h : e21 pd + e18 pa + e15 pb + 1 = o
  obtain ⟨k, k0, k1, k2, k3, k4⟩ := shape9 pd pa pb 1 1 (by decide) (by decide) o h
  refine ⟨k, ?_⟩
  rw [decodeS_15]
  simp only [decS15, zero, if_true, k0, k1, k2, k3, k4]

theorem pxor (pd : PReg) (pa : PReg) (pb : PReg) : Statement (.pxor pd pa pb) := by
  refine roundS 0x0F (e21 pd + e18 pa + e15 pb + 2) rfl (by decide) ?_
  generalize h : e21 pd + e18 pa + e15 pb + 2 = o
  obtain ⟨k, k0, k1, k2, k3, k4⟩ := shape9 pd pa pb 2 2 (by decide) (by decide) o h
  refine ⟨k, ?_⟩
  rw [decodeS_15]
  simp only [decS15, zero, if_true, k0, k1, k2, k3, k4]

theorem pandn (pd : PReg) (pa : PReg) (pb : PReg) : Statement (.pandn pd pa pb) := by
  refine roundS 0x0F (e21 pd + e18 pa + e15 pb + 3) rfl (by decide) ?_
  generalize h : e21 pd + e18 pa + e15 pb + 3 = o
  obtain ⟨k, k0, k1, k2, k3, k4⟩ := shape9 pd pa pb 3 3 (by decide) (by decide) o h
  refine ⟨k, ?_⟩
  rw [decodeS_15]
  simp only [decS15, zero, if_true, k0, k1, k2, k3, k4]

theorem pnot (pd : PReg) (pa : PReg) : Statement (.pnot pd pa) := by
  refine roundS 0x0F (e21 pd + e18 pa + 4) rfl (by decide) ?_
  generalize h : e21 pd + e18 pa + 4 = o
  obtain ⟨k, k0, k1, k2, k3⟩ := shape10 pd pa 4 4 (by decide) (by decide) o h
  refine ⟨k, ?_⟩
  rw [decodeS_15]
  simp only [decS15, zero, if_true, k0, k1, k2, k3]

theorem pset (pd : PReg) : Statement (.pset pd) := by
  refine roundS 0x0F (e21 pd + 5) rfl (by decide) ?_
  generalize h : e21 pd + 5 = o
  obtain ⟨k, k0, k1, k2⟩ := shape11 pd 5 5 (by decide) (by decide) o h
  refine ⟨k, ?_⟩
  rw [decodeS_15]
  simp only [decS15, zero, if_true, k0, k1, k2]

theorem pclr (pd : PReg) : Statement (.pclr pd) := by
  refine roundS 0x0F (e21 pd + 6) rfl (by decide) ?_
  generalize h : e21 pd + 6 = o
  obtain ⟨k, k0, k1, k2⟩ := shape11 pd 6 6 (by decide) (by decide) o h
  refine ⟨k, ?_⟩
  rw [decodeS_15]
  simp only [decS15, zero, if_true, k0, k1, k2]

theorem ldb (d : SReg) (a : SReg) (off : BitVec 10) : Statement (.ldb d a off) := by
  refine roundS 0x10 (e17 d + e10 a + off.toNat) rfl (by decide) ?_
  generalize h : e17 d + e10 a + off.toNat = o
  obtain ⟨k, k0, k1, k2⟩ := shape12 d a off o h
  refine ⟨k, ?_⟩
  rw [decodeS_16]
  simp only [decS16, k0, k1, k2]

theorem ldh (d : SReg) (a : SReg) (off : BitVec 10) : Statement (.ldh d a off) := by
  refine roundS 0x11 (e17 d + e10 a + off.toNat) rfl (by decide) ?_
  generalize h : e17 d + e10 a + off.toNat = o
  obtain ⟨k, k0, k1, k2⟩ := shape12 d a off o h
  refine ⟨k, ?_⟩
  rw [decodeS_17]
  simp only [decS17, k0, k1, k2]

theorem ldw (d : SReg) (a : SReg) (off : BitVec 10) : Statement (.ldw d a off) := by
  refine roundS 0x12 (e17 d + e10 a + off.toNat) rfl (by decide) ?_
  generalize h : e17 d + e10 a + off.toNat = o
  obtain ⟨k, k0, k1, k2⟩ := shape12 d a off o h
  refine ⟨k, ?_⟩
  rw [decodeS_18]
  simp only [decS18, k0, k1, k2]

theorem ldd (d : SReg) (a : SReg) (off : BitVec 10) : Statement (.ldd d a off) := by
  refine roundS 0x13 (e17 d + e10 a + off.toNat) rfl (by decide) ?_
  generalize h : e17 d + e10 a + off.toNat = o
  obtain ⟨k, k0, k1, k2⟩ := shape12 d a off o h
  refine ⟨k, ?_⟩
  rw [decodeS_19]
  simp only [decS19, k0, k1, k2]

theorem ldbu (d : SReg) (a : SReg) (off : BitVec 10) : Statement (.ldbu d a off) := by
  refine roundS 0x14 (e17 d + e10 a + off.toNat) rfl (by decide) ?_
  generalize h : e17 d + e10 a + off.toNat = o
  obtain ⟨k, k0, k1, k2⟩ := shape12 d a off o h
  refine ⟨k, ?_⟩
  rw [decodeS_20]
  simp only [decS20, k0, k1, k2]

theorem ldhu (d : SReg) (a : SReg) (off : BitVec 10) : Statement (.ldhu d a off) := by
  refine roundS 0x15 (e17 d + e10 a + off.toNat) rfl (by decide) ?_
  generalize h : e17 d + e10 a + off.toNat = o
  obtain ⟨k, k0, k1, k2⟩ := shape12 d a off o h
  refine ⟨k, ?_⟩
  rw [decodeS_21]
  simp only [decS21, k0, k1, k2]

theorem ldwu (d : SReg) (a : SReg) (off : BitVec 10) : Statement (.ldwu d a off) := by
  refine roundS 0x16 (e17 d + e10 a + off.toNat) rfl (by decide) ?_
  generalize h : e17 d + e10 a + off.toNat = o
  obtain ⟨k, k0, k1, k2⟩ := shape12 d a off o h
  refine ⟨k, ?_⟩
  rw [decodeS_22]
  simp only [decS22, k0, k1, k2]

theorem ldq (d : SReg) (a : SReg) (off : BitVec 10) : Statement (.ldq d a off) := by
  refine roundS 0x17 (e17 d + e10 a + off.toNat) rfl (by decide) ?_
  generalize h : e17 d + e10 a + off.toNat = o
  obtain ⟨k, k0, k1, k2⟩ := shape12 d a off o h
  refine ⟨k, ?_⟩
  rw [decodeS_23]
  simp only [decS23, k0, k1, k2]

theorem stb (s : SReg) (a : SReg) (off : BitVec 10) : Statement (.stb s a off) := by
  refine roundS 0x18 (e17 s + e10 a + off.toNat) rfl (by decide) ?_
  generalize h : e17 s + e10 a + off.toNat = o
  obtain ⟨k, k0, k1, k2⟩ := shape13 s a off o h
  refine ⟨k, ?_⟩
  rw [decodeS_24]
  simp only [decS24, k0, k1, k2]

theorem sth (s : SReg) (a : SReg) (off : BitVec 10) : Statement (.sth s a off) := by
  refine roundS 0x19 (e17 s + e10 a + off.toNat) rfl (by decide) ?_
  generalize h : e17 s + e10 a + off.toNat = o
  obtain ⟨k, k0, k1, k2⟩ := shape13 s a off o h
  refine ⟨k, ?_⟩
  rw [decodeS_25]
  simp only [decS25, k0, k1, k2]

theorem stw (s : SReg) (a : SReg) (off : BitVec 10) : Statement (.stw s a off) := by
  refine roundS 0x1A (e17 s + e10 a + off.toNat) rfl (by decide) ?_
  generalize h : e17 s + e10 a + off.toNat = o
  obtain ⟨k, k0, k1, k2⟩ := shape13 s a off o h
  refine ⟨k, ?_⟩
  rw [decodeS_26]
  simp only [decS26, k0, k1, k2]

theorem std (s : SReg) (a : SReg) (off : BitVec 10) : Statement (.std s a off) := by
  refine roundS 0x1B (e17 s + e10 a + off.toNat) rfl (by decide) ?_
  generalize h : e17 s + e10 a + off.toNat = o
  obtain ⟨k, k0, k1, k2⟩ := shape13 s a off o h
  refine ⟨k, ?_⟩
  rw [decodeS_27]
  simp only [decS27, k0, k1, k2]

theorem stq (s : SReg) (a : SReg) (off : BitVec 10) : Statement (.stq s a off) := by
  refine roundS 0x1C (e17 s + e10 a + off.toNat) rfl (by decide) ?_
  generalize h : e17 s + e10 a + off.toNat = o
  obtain ⟨k, k0, k1, k2⟩ := shape13 s a off o h
  refine ⟨k, ?_⟩
  rw [decodeS_28]
  simp only [decS28, k0, k1, k2]

theorem ldx (wd : LoadWidth) (d : SReg) (a : SReg) (b : SReg) : Statement (.ldx wd d a b) := by
  refine roundS 0x1D (e17 d + e10 a + e3 b + wd.code) rfl (by decide) ?_
  generalize h : e17 d + e10 a + e3 b + wd.code = o
  obtain ⟨k, k0, k1, k2, k3⟩ := shape14 wd d a b o h
  refine ⟨k, ?_⟩
  rw [decodeS_29]
  simp only [decS29, k0, k1, k2, k3, LoadWidth.ofCode_code]

theorem stx (wd : StoreWidth) (s : SReg) (a : SReg) (b : SReg) : Statement (.stx wd s a b) := by
  refine roundS 0x1E (e17 s + e10 a + e3 b + wd.code) rfl (by decide) ?_
  generalize h : e17 s + e10 a + e3 b + wd.code = o
  obtain ⟨k, k0, k1, k2, k3⟩ := shape15 wd s a b o h
  refine ⟨k, ?_⟩
  rw [decodeS_30]
  simp only [decS30, Option.map_some, k0, k1, k2, k3, StoreWidth.ofCode_code]

theorem amoC (op : AmoOp) (d : SReg) (a : SReg) (b : SReg) : Statement (.amoC op d a b) := by
  refine roundS 0x1F (e17 d + e10 a + e3 b + op.code) rfl (by decide) ?_
  generalize h : e17 d + e10 a + e3 b + op.code = o
  obtain ⟨k, k0, k1, k2, k3⟩ := shape16 op d a b o h
  refine ⟨k, ?_⟩
  rw [decodeS_31]
  simp only [decS31, k0, k1, k2, k3, AmoOp.ofCode_code]

theorem amoG (op : AmoOp) (d : SReg) (a : SReg) (b : SReg) : Statement (.amoG op d a b) := by
  refine roundS 0x20 (e17 d + e10 a + e3 b + op.code) rfl (by decide) ?_
  generalize h : e17 d + e10 a + e3 b + op.code = o
  obtain ⟨k, k0, k1, k2, k3⟩ := shape16 op d a b o h
  refine ⟨k, ?_⟩
  rw [decodeS_32]
  simp only [decS32, k0, k1, k2, k3, AmoOp.ofCode_code]

theorem cas (g : Bool) (q : Bool) (d : SReg) (a : SReg) (b : SReg) : Statement (.cas g q d a b) := by
  refine roundS 0x21 (e17 d + e10 a + e3 b + bitNat q * 2 + bitNat g) rfl (by decide) ?_
  generalize h : e17 d + e10 a + e3 b + bitNat q * 2 + bitNat g = o
  obtain ⟨k, k0, k1, k2, k3, k4, k5⟩ := shape17 g q d a b o h
  refine ⟨k, ?_⟩
  rw [decodeS_33]
  simp only [decS33, zero, if_true, k0, k1, k2, k3, k4, k5]

theorem faadd (dbl : Bool) (ord : Bool) (d : SReg) (a : SReg) (b : SReg) : Statement (.faadd dbl ord d a b) := by
  refine roundS 0x22 (e17 d + e10 a + e3 b + bitNat ord * 2 + bitNat dbl) rfl (by decide) ?_
  generalize h : e17 d + e10 a + e3 b + bitNat ord * 2 + bitNat dbl = o
  obtain ⟨k, k0, k1, k2, k3, k4, k5⟩ := shape18 dbl ord d a b o h
  refine ⟨k, ?_⟩
  rw [decodeS_34]
  simp only [decS34, zero, if_true, k0, k1, k2, k3, k4, k5]

theorem fence (scope : FenceScope) (kind : FenceKind) (e : Bool) : Statement (.fence scope kind e) := by
  refine roundS 0x23 (scope.code * 2 ^ 21 + kind.code * 2 ^ 19 + bitNat e * 2 ^ 18) rfl (by decide) ?_
  generalize h : scope.code * 2 ^ 21 + kind.code * 2 ^ 19 + bitNat e * 2 ^ 18 = o
  obtain ⟨k, k0, k1, k2, k3⟩ := shape19 scope kind e o h
  refine ⟨k, ?_⟩
  rw [decodeS_35]
  simp only [decS35, zero, if_true, Option.bind_some, k0, k1, k2, k3, FenceKind.ofCode_code, FenceScope.ofCode_code]

theorem br (p : PReg) (n : Bool) (disp : BitVec 20) : Statement (.br p n disp) := by
  refine roundS 0x24 (e21 p + bitNat n * 2 ^ 20 + disp.toNat) rfl (by decide) ?_
  generalize h : e21 p + bitNat n * 2 ^ 20 + disp.toNat = o
  obtain ⟨k, k0, k1, k2⟩ := shape20 p n disp o h
  refine ⟨k, ?_⟩
  rw [decodeS_36]
  simp only [decS36, k0, k1, k2]

theorem call (disp : BitVec 24) : Statement (.call disp) := by
  refine roundS 0x25 (disp.toNat) rfl (by decide) ?_
  generalize h : disp.toNat = o
  obtain ⟨k, k0⟩ := shape21 disp o h
  refine ⟨k, ?_⟩
  rw [decodeS_37]
  simp only [decS37, k0]

theorem jmpr (d : SReg) (a : SReg) : Statement (.jmpr d a) := by
  refine roundS 0x26 (e17 d + e10 a) rfl (by decide) ?_
  generalize h : e17 d + e10 a = o
  obtain ⟨k, k0, k1, k2⟩ := shape22 d a o h
  refine ⟨k, ?_⟩
  rw [decodeS_38]
  simp only [decS38, zero, if_true, k0, k1, k2]

theorem faddD (d : SReg) (a : SReg) (b : SReg) : Statement (.faddD d a b) := by
  refine roundS 0x27 (e17 d + e10 a + e3 b + 0) rfl (by decide) ?_
  generalize h : e17 d + e10 a + e3 b + 0 = o
  obtain ⟨k, k0, k1, k2, k3⟩ := shape0 d a b 0 0 (by decide) (by decide) o h
  refine ⟨k, ?_⟩
  rw [decodeS_39]
  simp only [decS39, k0, k1, k2, k3]

theorem fsubD (d : SReg) (a : SReg) (b : SReg) : Statement (.fsubD d a b) := by
  refine roundS 0x27 (e17 d + e10 a + e3 b + 1) rfl (by decide) ?_
  generalize h : e17 d + e10 a + e3 b + 1 = o
  obtain ⟨k, k0, k1, k2, k3⟩ := shape0 d a b 1 1 (by decide) (by decide) o h
  refine ⟨k, ?_⟩
  rw [decodeS_39]
  simp only [decS39, k0, k1, k2, k3]

theorem fmulD (d : SReg) (a : SReg) (b : SReg) : Statement (.fmulD d a b) := by
  refine roundS 0x27 (e17 d + e10 a + e3 b + 2) rfl (by decide) ?_
  generalize h : e17 d + e10 a + e3 b + 2 = o
  obtain ⟨k, k0, k1, k2, k3⟩ := shape0 d a b 2 2 (by decide) (by decide) o h
  refine ⟨k, ?_⟩
  rw [decodeS_39]
  simp only [decS39, k0, k1, k2, k3]

theorem fdivD (d : SReg) (a : SReg) (b : SReg) : Statement (.fdivD d a b) := by
  refine roundS 0x27 (e17 d + e10 a + e3 b + 3) rfl (by decide) ?_
  generalize h : e17 d + e10 a + e3 b + 3 = o
  obtain ⟨k, k0, k1, k2, k3⟩ := shape0 d a b 3 3 (by decide) (by decide) o h
  refine ⟨k, ?_⟩
  rw [decodeS_39]
  simp only [decS39, k0, k1, k2, k3]

theorem fminD (d : SReg) (a : SReg) (b : SReg) : Statement (.fminD d a b) := by
  refine roundS 0x27 (e17 d + e10 a + e3 b + 4) rfl (by decide) ?_
  generalize h : e17 d + e10 a + e3 b + 4 = o
  obtain ⟨k, k0, k1, k2, k3⟩ := shape0 d a b 4 4 (by decide) (by decide) o h
  refine ⟨k, ?_⟩
  rw [decodeS_39]
  simp only [decS39, k0, k1, k2, k3]

theorem fmaxD (d : SReg) (a : SReg) (b : SReg) : Statement (.fmaxD d a b) := by
  refine roundS 0x27 (e17 d + e10 a + e3 b + 5) rfl (by decide) ?_
  generalize h : e17 d + e10 a + e3 b + 5 = o
  obtain ⟨k, k0, k1, k2, k3⟩ := shape0 d a b 5 5 (by decide) (by decide) o h
  refine ⟨k, ?_⟩
  rw [decodeS_39]
  simp only [decS39, k0, k1, k2, k3]

theorem fsqrtD (d : SReg) (a : SReg) : Statement (.fsqrtD d a) := by
  refine roundS 0x27 (e17 d + e10 a + 6) rfl (by decide) ?_
  generalize h : e17 d + e10 a + 6 = o
  obtain ⟨k, k0, k1, k2, k3⟩ := shape1 d a 6 6 (by decide) (by decide) o h
  refine ⟨k, ?_⟩
  rw [decodeS_39]
  simp only [decS39, zero, if_true, k0, k1, k2, k3]

theorem fsgnD (d : SReg) (a : SReg) (b : SReg) : Statement (.fsgnD d a b) := by
  refine roundS 0x27 (e17 d + e10 a + e3 b + 7) rfl (by decide) ?_
  generalize h : e17 d + e10 a + e3 b + 7 = o
  obtain ⟨k, k0, k1, k2, k3⟩ := shape0 d a b 7 7 (by decide) (by decide) o h
  refine ⟨k, ?_⟩
  rw [decodeS_39]
  simp only [decS39, k0, k1, k2, k3]

theorem faddS (d : SReg) (a : SReg) (b : SReg) : Statement (.faddS d a b) := by
  refine roundS 0x28 (e17 d + e10 a + e3 b + 0) rfl (by decide) ?_
  generalize h : e17 d + e10 a + e3 b + 0 = o
  obtain ⟨k, k0, k1, k2, k3⟩ := shape0 d a b 0 0 (by decide) (by decide) o h
  refine ⟨k, ?_⟩
  rw [decodeS_40]
  simp only [decS40, k0, k1, k2, k3]

theorem fsubS (d : SReg) (a : SReg) (b : SReg) : Statement (.fsubS d a b) := by
  refine roundS 0x28 (e17 d + e10 a + e3 b + 1) rfl (by decide) ?_
  generalize h : e17 d + e10 a + e3 b + 1 = o
  obtain ⟨k, k0, k1, k2, k3⟩ := shape0 d a b 1 1 (by decide) (by decide) o h
  refine ⟨k, ?_⟩
  rw [decodeS_40]
  simp only [decS40, k0, k1, k2, k3]

theorem fmulS (d : SReg) (a : SReg) (b : SReg) : Statement (.fmulS d a b) := by
  refine roundS 0x28 (e17 d + e10 a + e3 b + 2) rfl (by decide) ?_
  generalize h : e17 d + e10 a + e3 b + 2 = o
  obtain ⟨k, k0, k1, k2, k3⟩ := shape0 d a b 2 2 (by decide) (by decide) o h
  refine ⟨k, ?_⟩
  rw [decodeS_40]
  simp only [decS40, k0, k1, k2, k3]

theorem fdivS (d : SReg) (a : SReg) (b : SReg) : Statement (.fdivS d a b) := by
  refine roundS 0x28 (e17 d + e10 a + e3 b + 3) rfl (by decide) ?_
  generalize h : e17 d + e10 a + e3 b + 3 = o
  obtain ⟨k, k0, k1, k2, k3⟩ := shape0 d a b 3 3 (by decide) (by decide) o h
  refine ⟨k, ?_⟩
  rw [decodeS_40]
  simp only [decS40, k0, k1, k2, k3]

theorem fminS (d : SReg) (a : SReg) (b : SReg) : Statement (.fminS d a b) := by
  refine roundS 0x28 (e17 d + e10 a + e3 b + 4) rfl (by decide) ?_
  generalize h : e17 d + e10 a + e3 b + 4 = o
  obtain ⟨k, k0, k1, k2, k3⟩ := shape0 d a b 4 4 (by decide) (by decide) o h
  refine ⟨k, ?_⟩
  rw [decodeS_40]
  simp only [decS40, k0, k1, k2, k3]

theorem fmaxS (d : SReg) (a : SReg) (b : SReg) : Statement (.fmaxS d a b) := by
  refine roundS 0x28 (e17 d + e10 a + e3 b + 5) rfl (by decide) ?_
  generalize h : e17 d + e10 a + e3 b + 5 = o
  obtain ⟨k, k0, k1, k2, k3⟩ := shape0 d a b 5 5 (by decide) (by decide) o h
  refine ⟨k, ?_⟩
  rw [decodeS_40]
  simp only [decS40, k0, k1, k2, k3]

theorem fsqrtS (d : SReg) (a : SReg) : Statement (.fsqrtS d a) := by
  refine roundS 0x28 (e17 d + e10 a + 6) rfl (by decide) ?_
  generalize h : e17 d + e10 a + 6 = o
  obtain ⟨k, k0, k1, k2, k3⟩ := shape1 d a 6 6 (by decide) (by decide) o h
  refine ⟨k, ?_⟩
  rw [decodeS_40]
  simp only [decS40, zero, if_true, k0, k1, k2, k3]

theorem fsgnS (d : SReg) (a : SReg) (b : SReg) : Statement (.fsgnS d a b) := by
  refine roundS 0x28 (e17 d + e10 a + e3 b + 7) rfl (by decide) ?_
  generalize h : e17 d + e10 a + e3 b + 7 = o
  obtain ⟨k, k0, k1, k2, k3⟩ := shape0 d a b 7 7 (by decide) (by decide) o h
  refine ⟨k, ?_⟩
  rw [decodeS_40]
  simp only [decS40, k0, k1, k2, k3]

theorem ffma (sgl : Bool) (neg : Bool) (d : SReg) (a : SReg) (b : SReg) : Statement (.ffma sgl neg d a b) := by
  refine roundS 0x29 (e17 d + e10 a + e3 b + bitNat neg * 2 + bitNat sgl) rfl (by decide) ?_
  generalize h : e17 d + e10 a + e3 b + bitNat neg * 2 + bitNat sgl = o
  obtain ⟨k, k0, k1, k2, k3, k4, k5⟩ := shape23 sgl neg d a b o h
  refine ⟨k, ?_⟩
  rw [decodeS_41]
  simp only [decS41, zero, if_true, k0, k1, k2, k3, k4, k5]

theorem fcvt (c : FConv) (d : SReg) (a : SReg) : Statement (.fcvt c d a) := by
  refine roundS 0x2A (e17 d + e10 a + c.code) rfl (by decide) ?_
  generalize h : e17 d + e10 a + c.code = o
  obtain ⟨k, k0, k1, k2, k3⟩ := shape24 c d a o h
  refine ⟨k, ?_⟩
  rw [decodeS_42]
  simp only [decS42, zero, if_true, k0, k1, k2, k3, FConv.ofCode_code]

theorem fcmp (pd : PReg) (c : FCond) (sgl : Bool) (a : SReg) (b : SReg) : Statement (.fcmp pd c sgl a b) := by
  refine roundS 0x2B (e21 pd + e10 a + e3 b + bitNat sgl * 4 + c.code) rfl (by decide) ?_
  generalize h : e21 pd + e10 a + e3 b + bitNat sgl * 4 + c.code = o
  obtain ⟨k, k0, k1, k2, k3, k4, k5⟩ := shape25 pd c sgl a b o h
  refine ⟨k, ?_⟩
  rw [decodeS_43]
  simp only [decS43, zero, if_true, k0, k1, k2, k3, k4, k5, FCond.ofCode_code]

theorem spawn (d : SReg) (a : SReg) : Statement (.spawn d a) := by
  refine roundS 0x2C (e17 d + e10 a + 0) rfl (by decide) ?_
  generalize h : e17 d + e10 a + 0 = o
  obtain ⟨k, k0, k1, k2, k3⟩ := shape1 d a 0 0 (by decide) (by decide) o h
  refine ⟨k, ?_⟩
  rw [decodeS_44]
  simp only [decS44, zero, if_true, k0, k1, k2, k3]

theorem spawnQ (d : SReg) (a : SReg) : Statement (.spawnQ d a) := by
  refine roundS 0x2C (e17 d + e10 a + 1) rfl (by decide) ?_
  generalize h : e17 d + e10 a + 1 = o
  obtain ⟨k, k0, k1, k2, k3⟩ := shape1 d a 1 1 (by decide) (by decide) o h
  refine ⟨k, ?_⟩
  rw [decodeS_44]
  simp only [decS44, zero, if_true, k0, k1, k2, k3]

theorem rss (d : SReg) (a : SReg) (b : SReg) : Statement (.rss d a b) := by
  refine roundS 0x2D (e17 d + e10 a + e3 b + 0) rfl (by decide) ?_
  generalize h : e17 d + e10 a + e3 b + 0 = o
  obtain ⟨k, k0, k1, k2, k3⟩ := shape0 d a b 0 0 (by decide) (by decide) o h
  refine ⟨k, ?_⟩
  rw [decodeS_45]
  simp only [decS45, k0, k1, k2, k3]

theorem rssT (d : SReg) (a : SReg) (b : SReg) : Statement (.rssT d a b) := by
  refine roundS 0x2D (e17 d + e10 a + e3 b + 1) rfl (by decide) ?_
  generalize h : e17 d + e10 a + e3 b + 1 = o
  obtain ⟨k, k0, k1, k2, k3⟩ := shape0 d a b 1 1 (by decide) (by decide) o h
  refine ⟨k, ?_⟩
  rw [decodeS_45]
  simp only [decS45, k0, k1, k2, k3]

theorem rsv (vs : VReg) (a : SReg) (b : SReg) : Statement (.rsv vs a b) := by
  refine roundS 0x2E (e20 vs + e10 a + e3 b + 0) rfl (by decide) ?_
  generalize h : e20 vs + e10 a + e3 b + 0 = o
  obtain ⟨k, k0, k1, k2, k3, k4⟩ := shape26 vs a b 0 0 (by decide) (by decide) o h
  refine ⟨k, ?_⟩
  rw [decodeS_46]
  simp only [decS46, zero, if_true, k0, k1, k2, k3, k4]

theorem rsvT (vs : VReg) (a : SReg) (b : SReg) : Statement (.rsvT vs a b) := by
  refine roundS 0x2E (e20 vs + e10 a + e3 b + 1) rfl (by decide) ?_
  generalize h : e20 vs + e10 a + e3 b + 1 = o
  obtain ⟨k, k0, k1, k2, k3, k4⟩ := shape26 vs a b 1 1 (by decide) (by decide) o h
  refine ⟨k, ?_⟩
  rw [decodeS_46]
  simp only [decS46, zero, if_true, k0, k1, k2, k3, k4]

theorem self (d : SReg) : Statement (.self d) := by
  refine roundS 0x2F (e17 d + 0) rfl (by decide) ?_
  generalize h : e17 d + 0 = o
  obtain ⟨k, k0, k1, k2⟩ := shape27 d 0 0 (by decide) (by decide) o h
  refine ⟨k, ?_⟩
  rw [decodeS_47]
  simp only [decS47, zero, if_true, k0, k1, k2]

theorem parent (d : SReg) : Statement (.parent d) := by
  refine roundS 0x2F (e17 d + 1) rfl (by decide) ?_
  generalize h : e17 d + 1 = o
  obtain ⟨k, k0, k1, k2⟩ := shape27 d 1 1 (by decide) (by decide) o h
  refine ⟨k, ?_⟩
  rw [decodeS_47]
  simp only [decS47, zero, if_true, k0, k1, k2]

theorem lane (d : SReg) : Statement (.lane d) := by
  refine roundS 0x2F (e17 d + 2) rfl (by decide) ?_
  generalize h : e17 d + 2 = o
  obtain ⟨k, k0, k1, k2⟩ := shape27 d 2 2 (by decide) (by decide) o h
  refine ⟨k, ?_⟩
  rw [decodeS_47]
  simp only [decS47, zero, if_true, k0, k1, k2]

theorem exit (a : SReg) : Statement (.exit a) := by
  refine roundS 0x2F (e10 a + 3) rfl (by decide) ?_
  generalize h : e10 a + 3 = o
  obtain ⟨k, k0, k1, k2⟩ := shape28 a 3 3 (by decide) (by decide) o h
  refine ⟨k, ?_⟩
  rw [decodeS_47]
  simp only [decS47, zero, if_true, k0, k1, k2]

theorem join (d : SReg) (a : SReg) : Statement (.join d a) := by
  refine roundS 0x2F (e17 d + e10 a + 4) rfl (by decide) ?_
  generalize h : e17 d + e10 a + 4 = o
  obtain ⟨k, k0, k1, k2, k3⟩ := shape1 d a 4 4 (by decide) (by decide) o h
  refine ⟨k, ?_⟩
  rw [decodeS_47]
  simp only [decS47, zero, if_true, k0, k1, k2, k3]

theorem cancel (a : SReg) : Statement (.cancel a) := by
  refine roundS 0x2F (e10 a + 5) rfl (by decide) ?_
  generalize h : e10 a + 5 = o
  obtain ⟨k, k0, k1, k2⟩ := shape28 a 5 5 (by decide) (by decide) o h
  refine ⟨k, ?_⟩
  rw [decodeS_47]
  simp only [decS47, zero, if_true, k0, k1, k2]

theorem barg : Statement (.barg) := by
  refine roundS 0x2F (6) rfl (by decide) ?_
  exact ⟨by decide, by decide⟩

theorem yield : Statement (.yield) := by
  refine roundS 0x2F (7) rfl (by decide) ?_
  exact ⟨by decide, by decide⟩

theorem take (d : SReg) (a : SReg) : Statement (.take d a) := by
  refine roundS 0x30 (e17 d + e10 a + 0) rfl (by decide) ?_
  generalize h : e17 d + e10 a + 0 = o
  obtain ⟨k, k0, k1, k2, k3⟩ := shape1 d a 0 0 (by decide) (by decide) o h
  refine ⟨k, ?_⟩
  rw [decodeS_48]
  simp only [decS48, zero, if_true, k0, k1, k2, k3]

theorem hold (a : SReg) : Statement (.hold a) := by
  refine roundS 0x30 (e10 a + 1) rfl (by decide) ?_
  generalize h : e10 a + 1 = o
  obtain ⟨k, k0, k1, k2⟩ := shape28 a 1 1 (by decide) (by decide) o h
  refine ⟨k, ?_⟩
  rw [decodeS_48]
  simp only [decS48, zero, if_true, k0, k1, k2]

theorem test (pd : PReg) (a : SReg) : Statement (.test pd a) := by
  refine roundS 0x30 (e17p pd + e10 a + 2) rfl (by decide) ?_
  generalize h : e17p pd + e10 a + 2 = o
  obtain ⟨k, k0, k1, k2, k3⟩ := shape29 pd a 2 2 (by decide) (by decide) o h
  refine ⟨k, ?_⟩
  rw [decodeS_48]
  simp only [decS48, zero, if_true, k0, k1, k2, k3]

theorem vtake (vd : VReg) (va : VReg) : Statement (.vtake vd va) := by
  refine roundS 0x30 (e17v vd + e10v va + 3) rfl (by decide) ?_
  generalize h : e17v vd + e10v va + 3 = o
  obtain ⟨k, k0, k1, k2, k3⟩ := shape30 vd va 3 3 (by decide) (by decide) o h
  refine ⟨k, ?_⟩
  rw [decodeS_48]
  simp only [decS48, zero, if_true, k0, k1, k2, k3]

theorem vhold (va : VReg) : Statement (.vhold va) := by
  refine roundS 0x30 (e10v va + 4) rfl (by decide) ?_
  generalize h : e10v va + 4 = o
  obtain ⟨k, k0, k1, k2⟩ := shape31 va 4 4 (by decide) (by decide) o h
  refine ⟨k, ?_⟩
  rw [decodeS_48]
  simp only [decS48, zero, if_true, k0, k1, k2]

theorem wld (vd : VReg) (w : BitVec 2) (key : SReg) (inst : SReg) (pd : PReg) : Statement (.wld vd w key inst pd) := by
  refine roundS 0x31 (e20 vd + e18w w + e11 key + e4 inst + 0 + pd.toNat) rfl (by decide) ?_
  generalize h : e20 vd + e18w w + e11 key + e4 inst + 0 + pd.toNat = o
  obtain ⟨k, k0, k1, k2, k3, k4, k5⟩ := shape32 vd w key inst pd 0 0 (by decide) (by decide) o h
  refine ⟨k, ?_⟩
  rw [decodeS_49]
  simp only [decS49, k0, k1, k2, k3, k4, k5]

theorem wldN (vd : VReg) (w : BitVec 2) (key : SReg) (inst : SReg) (pd : PReg) : Statement (.wldN vd w key inst pd) := by
  refine roundS 0x31 (e20 vd + e18w w + e11 key + e4 inst + 8 + pd.toNat) rfl (by decide) ?_
  generalize h : e20 vd + e18w w + e11 key + e4 inst + 8 + pd.toNat = o
  obtain ⟨k, k0, k1, k2, k3, k4, k5⟩ := shape32 vd w key inst pd 8 1 (by decide) (by decide) o h
  refine ⟨k, ?_⟩
  rw [decodeS_49]
  simp only [decS49, k0, k1, k2, k3, k4, k5]

theorem wst (vs : VReg) (w : BitVec 2) (key : SReg) (inst : SReg) : Statement (.wst vs w key inst) := by
  refine roundS 0x32 (e20 vs + e18w w + e11 key + e4 inst) rfl (by decide) ?_
  generalize h : e20 vs + e18w w + e11 key + e4 inst = o
  obtain ⟨k, k0, k1, k2, k3, k4⟩ := shape33 vs w key inst o h
  refine ⟨k, ?_⟩
  rw [decodeS_50]
  simp only [decS50, zero, if_true, k0, k1, k2, k3, k4]

theorem wbind (w : BitVec 2) (a : SReg) : Statement (.wbind w a) := by
  refine roundS 0x33 (e10 a + e8 w + 0) rfl (by decide) ?_
  generalize h : e10 a + e8 w + 0 = o
  obtain ⟨k, k0, k1, k2, k3⟩ := shape34 w a 0 0 (by decide) (by decide) o h
  refine ⟨k, ?_⟩
  rw [decodeS_51]
  simp only [decS51, zero, if_true, k0, k1, k2, k3]

theorem wcommit (w : BitVec 2) (a : SReg) : Statement (.wcommit w a) := by
  refine roundS 0x33 (e10 a + e8 w + 1) rfl (by decide) ?_
  generalize h : e10 a + e8 w + 1 = o
  obtain ⟨k, k0, k1, k2, k3⟩ := shape34 w a 1 1 (by decide) (by decide) o h
  refine ⟨k, ?_⟩
  rw [decodeS_51]
  simp only [decS51, zero, if_true, k0, k1, k2, k3]

theorem whor (w : BitVec 2) (a : SReg) : Statement (.whor w a) := by
  refine roundS 0x33 (e10 a + e8 w + 2) rfl (by decide) ?_
  generalize h : e10 a + e8 w + 2 = o
  obtain ⟨k, k0, k1, k2, k3⟩ := shape34 w a 2 2 (by decide) (by decide) o h
  refine ⟨k, ?_⟩
  rw [decodeS_51]
  simp only [decS51, zero, if_true, k0, k1, k2, k3]

theorem wstat (d : SReg) (w : BitVec 2) (a : SReg) : Statement (.wstat d w a) := by
  refine roundS 0x33 (e17 d + e10 a + e8 w + 3) rfl (by decide) ?_
  generalize h : e17 d + e10 a + e8 w + 3 = o
  obtain ⟨k, k0, k1, k2, k3, k4⟩ := shape35 d w a 3 3 (by decide) (by decide) o h
  refine ⟨k, ?_⟩
  rw [decodeS_51]
  simp only [decS51, zero, if_true, k0, k1, k2, k3, k4]

theorem wclock (d : SReg) (w : BitVec 2) : Statement (.wclock d w) := by
  refine roundS 0x33 (e17 d + e8 w + 4) rfl (by decide) ?_
  generalize h : e17 d + e8 w + 4 = o
  obtain ⟨k, k0, k1, k2, k3⟩ := shape36 d w 4 4 (by decide) (by decide) o h
  refine ⟨k, ?_⟩
  rw [decodeS_51]
  simp only [decS51, zero, if_true, k0, k1, k2, k3]

theorem fork (d : SReg) (a : SReg) (b : SReg) : Statement (.fork d a b) := by
  refine roundS 0x34 (e17 d + e10 a + e3 b + 0) rfl (by decide) ?_
  generalize h : e17 d + e10 a + e3 b + 0 = o
  obtain ⟨k, k0, k1, k2, k3⟩ := shape0 d a b 0 0 (by decide) (by decide) o h
  refine ⟨k, ?_⟩
  rw [decodeS_52]
  simp only [decS52, k0, k1, k2, k3]

theorem brset (a : SReg) : Statement (.brset a) := by
  refine roundS 0x34 (e10 a + 1) rfl (by decide) ?_
  generalize h : e10 a + 1 = o
  obtain ⟨k, k0, k1, k2⟩ := shape28 a 1 1 (by decide) (by decide) o h
  refine ⟨k, ?_⟩
  rw [decodeS_52]
  simp only [decS52, zero, if_true, k0, k1, k2]

theorem brdrop (a : SReg) : Statement (.brdrop a) := by
  refine roundS 0x34 (e10 a + 2) rfl (by decide) ?_
  generalize h : e10 a + 2 = o
  obtain ⟨k, k0, k1, k2⟩ := shape28 a 2 2 (by decide) (by decide) o h
  refine ⟨k, ?_⟩
  rw [decodeS_52]
  simp only [decS52, zero, if_true, k0, k1, k2]

theorem swait (s : SReg) (sem : BitVec 8) : Statement (.swait s sem) := by
  refine roundS 0x35 (e17 s + e9 sem + 0) rfl (by decide) ?_
  generalize h : e17 s + e9 sem + 0 = o
  obtain ⟨k, k0, k1, k2, k3⟩ := shape37 s sem 0 0 (by decide) (by decide) o h
  refine ⟨k, ?_⟩
  rw [decodeS_53]
  simp only [decS53, zero, if_true, k0, k1, k2, k3]

theorem sadd (s : SReg) (sem : BitVec 8) : Statement (.sadd s sem) := by
  refine roundS 0x35 (e17 s + e9 sem + 1) rfl (by decide) ?_
  generalize h : e17 s + e9 sem + 1 = o
  obtain ⟨k, k0, k1, k2, k3⟩ := shape37 s sem 1 1 (by decide) (by decide) o h
  refine ⟨k, ?_⟩
  rw [decodeS_53]
  simp only [decS53, zero, if_true, k0, k1, k2, k3]

theorem sset (s : SReg) (sem : BitVec 8) : Statement (.sset s sem) := by
  refine roundS 0x35 (e17 s + e9 sem + 2) rfl (by decide) ?_
  generalize h : e17 s + e9 sem + 2 = o
  obtain ⟨k, k0, k1, k2, k3⟩ := shape37 s sem 2 2 (by decide) (by decide) o h
  refine ⟨k, ?_⟩
  rw [decodeS_53]
  simp only [decS53, zero, if_true, k0, k1, k2, k3]

theorem sread (s : SReg) (sem : BitVec 8) : Statement (.sread s sem) := by
  refine roundS 0x35 (e17 s + e9 sem + 3) rfl (by decide) ?_
  generalize h : e17 s + e9 sem + 3 = o
  obtain ⟨k, k0, k1, k2, k3⟩ := shape37 s sem 3 3 (by decide) (by decide) o h
  refine ⟨k, ?_⟩
  rw [decodeS_53]
  simp only [decS53, zero, if_true, k0, k1, k2, k3]

theorem enq (q : BitVec 3) (a : SReg) : Statement (.enq q a) := by
  refine roundS 0x36 (e21 q + e10 a) rfl (by decide) ?_
  generalize h : e21 q + e10 a = o
  obtain ⟨k, k0, k1, k2⟩ := shape38 q a o h
  refine ⟨k, ?_⟩
  rw [decodeS_54]
  simp only [decS54, zero, if_true, k0, k1, k2]

theorem csrr (d : SReg) (csr : BitVec 10) : Statement (.csrr d csr) := by
  refine roundS 0x37 (e17 d + csr.toNat) rfl (by decide) ?_
  generalize h : e17 d + csr.toNat = o
  obtain ⟨k, k0, k1, k2⟩ := shape39 d csr o h
  refine ⟨k, ?_⟩
  rw [decodeS_55]
  simp only [decS55, zero, if_true, k0, k1, k2]

theorem csrw (a : SReg) (csr : BitVec 10) : Statement (.csrw a csr) := by
  refine roundS 0x38 (e10 a + csr.toNat) rfl (by decide) ?_
  generalize h : e10 a + csr.toNat = o
  obtain ⟨k, k0, k1, k2⟩ := shape40 a csr o h
  refine ⟨k, ?_⟩
  rw [decodeS_56]
  simp only [decS56, zero, if_true, k0, k1, k2]

theorem nop : Statement (.nop) := by
  refine roundS 0x39 (0) rfl (by decide) ?_
  exact ⟨by decide, by decide⟩

theorem trap (a : SReg) : Statement (.trap a) := by
  refine roundS 0x39 (e10 a + 1) rfl (by decide) ?_
  generalize h : e10 a + 1 = o
  obtain ⟨k, k0, k1, k2⟩ := shape28 a 1 1 (by decide) (by decide) o h
  refine ⟨k, ?_⟩
  rw [decodeS_57]
  simp only [decS57, zero, if_true, k0, k1, k2]

theorem eret : Statement (.eret) := by
  refine roundS 0x39 (2) rfl (by decide) ?_
  exact ⟨by decide, by decide⟩

theorem halt : Statement (.halt) := by
  refine roundS 0x39 (3) rfl (by decide) ?_
  exact ⟨by decide, by decide⟩

theorem time (d : SReg) : Statement (.time d) := by
  refine roundS 0x39 (e17 d + 4) rfl (by decide) ?_
  generalize h : e17 d + 4 = o
  obtain ⟨k, k0, k1, k2⟩ := shape27 d 4 4 (by decide) (by decide) o h
  refine ⟨k, ?_⟩
  rw [decodeS_57]
  simp only [decS57, zero, if_true, k0, k1, k2]

theorem brk : Statement (.brk) := by
  refine roundS 0x39 (5) rfl (by decide) ?_
  exact ⟨by decide, by decide⟩

theorem vsetl (a : SReg) : Statement (.vsetl a) := by
  refine roundS 0x39 (e10 a + 6) rfl (by decide) ?_
  generalize h : e10 a + 6 = o
  obtain ⟨k, k0, k1, k2⟩ := shape28 a 6 6 (by decide) (by decide) o h
  refine ⟨k, ?_⟩
  rw [decodeS_57]
  simp only [decS57, zero, if_true, k0, k1, k2]

theorem kidx (a : SReg) : Statement (.kidx a) := by
  refine roundS 0x39 (e10 a + 7) rfl (by decide) ?_
  generalize h : e10 a + 7 = o
  obtain ⟨k, k0, k1, k2⟩ := shape28 a 7 7 (by decide) (by decide) o h
  refine ⟨k, ?_⟩
  rw [decodeS_57]
  simp only [decS57, zero, if_true, k0, k1, k2]

theorem vadd (vd : VReg) (va : VReg) (vb : VReg) (vm : VReg) (t : ElemType) : Statement (.vadd vd va vb vm t) := by
  refine roundV 0x00 (e20 vd + e16 va + e12 vb + e8v vm + t.code * 16 + 0) rfl (by decide) ?_
  generalize h : e20 vd + e16 va + e12 vb + e8v vm + t.code * 16 + 0 = o
  obtain ⟨k, k0, k1, k2, k3, k4, k5⟩ := shape41 vd va vb vm t 0 0 (by decide) (by decide) o h
  refine ⟨k, ?_⟩
  rw [decodeV_0]
  simp only [decV00, Option.map_some, k0, k1, k2, k3, k4, k5, ElemType.ofCode_code]

theorem vsub (vd : VReg) (va : VReg) (vb : VReg) (vm : VReg) (t : ElemType) : Statement (.vsub vd va vb vm t) := by
  refine roundV 0x00 (e20 vd + e16 va + e12 vb + e8v vm + t.code * 16 + 1) rfl (by decide) ?_
  generalize h : e20 vd + e16 va + e12 vb + e8v vm + t.code * 16 + 1 = o
  obtain ⟨k, k0, k1, k2, k3, k4, k5⟩ := shape41 vd va vb vm t 1 1 (by decide) (by decide) o h
  refine ⟨k, ?_⟩
  rw [decodeV_0]
  simp only [decV00, Option.map_some, k0, k1, k2, k3, k4, k5, ElemType.ofCode_code]

theorem vmul (vd : VReg) (va : VReg) (vb : VReg) (vm : VReg) (t : ElemType) : Statement (.vmul vd va vb vm t) := by
  refine roundV 0x00 (e20 vd + e16 va + e12 vb + e8v vm + t.code * 16 + 2) rfl (by decide) ?_
  generalize h : e20 vd + e16 va + e12 vb + e8v vm + t.code * 16 + 2 = o
  obtain ⟨k, k0, k1, k2, k3, k4, k5⟩ := shape41 vd va vb vm t 2 2 (by decide) (by decide) o h
  refine ⟨k, ?_⟩
  rw [decodeV_0]
  simp only [decV00, Option.map_some, k0, k1, k2, k3, k4, k5, ElemType.ofCode_code]

theorem vdiv (vd : VReg) (va : VReg) (vb : VReg) (vm : VReg) (t : ElemType) : Statement (.vdiv vd va vb vm t) := by
  refine roundV 0x00 (e20 vd + e16 va + e12 vb + e8v vm + t.code * 16 + 3) rfl (by decide) ?_
  generalize h : e20 vd + e16 va + e12 vb + e8v vm + t.code * 16 + 3 = o
  obtain ⟨k, k0, k1, k2, k3, k4, k5⟩ := shape41 vd va vb vm t 3 3 (by decide) (by decide) o h
  refine ⟨k, ?_⟩
  rw [decodeV_0]
  simp only [decV00, Option.map_some, k0, k1, k2, k3, k4, k5, ElemType.ofCode_code]

theorem vmin (vd : VReg) (va : VReg) (vb : VReg) (vm : VReg) (t : ElemType) : Statement (.vmin vd va vb vm t) := by
  refine roundV 0x00 (e20 vd + e16 va + e12 vb + e8v vm + t.code * 16 + 4) rfl (by decide) ?_
  generalize h : e20 vd + e16 va + e12 vb + e8v vm + t.code * 16 + 4 = o
  obtain ⟨k, k0, k1, k2, k3, k4, k5⟩ := shape41 vd va vb vm t 4 4 (by decide) (by decide) o h
  refine ⟨k, ?_⟩
  rw [decodeV_0]
  simp only [decV00, Option.map_some, k0, k1, k2, k3, k4, k5, ElemType.ofCode_code]

theorem vmax (vd : VReg) (va : VReg) (vb : VReg) (vm : VReg) (t : ElemType) : Statement (.vmax vd va vb vm t) := by
  refine roundV 0x00 (e20 vd + e16 va + e12 vb + e8v vm + t.code * 16 + 5) rfl (by decide) ?_
  generalize h : e20 vd + e16 va + e12 vb + e8v vm + t.code * 16 + 5 = o
  obtain ⟨k, k0, k1, k2, k3, k4, k5⟩ := shape41 vd va vb vm t 5 5 (by decide) (by decide) o h
  refine ⟨k, ?_⟩
  rw [decodeV_0]
  simp only [decV00, Option.map_some, k0, k1, k2, k3, k4, k5, ElemType.ofCode_code]

theorem vand (vd : VReg) (va : VReg) (vb : VReg) (vm : VReg) (t : ElemType) : Statement (.vand vd va vb vm t) := by
  refine roundV 0x00 (e20 vd + e16 va + e12 vb + e8v vm + t.code * 16 + 6) rfl (by decide) ?_
  generalize h : e20 vd + e16 va + e12 vb + e8v vm + t.code * 16 + 6 = o
  obtain ⟨k, k0, k1, k2, k3, k4, k5⟩ := shape41 vd va vb vm t 6 6 (by decide) (by decide) o h
  refine ⟨k, ?_⟩
  rw [decodeV_0]
  simp only [decV00, Option.map_some, k0, k1, k2, k3, k4, k5, ElemType.ofCode_code]

theorem vor (vd : VReg) (va : VReg) (vb : VReg) (vm : VReg) (t : ElemType) : Statement (.vor vd va vb vm t) := by
  refine roundV 0x00 (e20 vd + e16 va + e12 vb + e8v vm + t.code * 16 + 7) rfl (by decide) ?_
  generalize h : e20 vd + e16 va + e12 vb + e8v vm + t.code * 16 + 7 = o
  obtain ⟨k, k0, k1, k2, k3, k4, k5⟩ := shape41 vd va vb vm t 7 7 (by decide) (by decide) o h
  refine ⟨k, ?_⟩
  rw [decodeV_0]
  simp only [decV00, Option.map_some, k0, k1, k2, k3, k4, k5, ElemType.ofCode_code]

theorem vxor (vd : VReg) (va : VReg) (vb : VReg) (vm : VReg) (t : ElemType) : Statement (.vxor vd va vb vm t) := by
  refine roundV 0x00 (e20 vd + e16 va + e12 vb + e8v vm + t.code * 16 + 8) rfl (by decide) ?_
  generalize h : e20 vd + e16 va + e12 vb + e8v vm + t.code * 16 + 8 = o
  obtain ⟨k, k0, k1, k2, k3, k4, k5⟩ := shape41 vd va vb vm t 8 8 (by decide) (by decide) o h
  refine ⟨k, ?_⟩
  rw [decodeV_0]
  simp only [decV00, Option.map_some, k0, k1, k2, k3, k4, k5, ElemType.ofCode_code]

theorem vandn (vd : VReg) (va : VReg) (vb : VReg) (vm : VReg) (t : ElemType) : Statement (.vandn vd va vb vm t) := by
  refine roundV 0x00 (e20 vd + e16 va + e12 vb + e8v vm + t.code * 16 + 9) rfl (by decide) ?_
  generalize h : e20 vd + e16 va + e12 vb + e8v vm + t.code * 16 + 9 = o
  obtain ⟨k, k0, k1, k2, k3, k4, k5⟩ := shape41 vd va vb vm t 9 9 (by decide) (by decide) o h
  refine ⟨k, ?_⟩
  rw [decodeV_0]
  simp only [decV00, Option.map_some, k0, k1, k2, k3, k4, k5, ElemType.ofCode_code]

theorem vshl (vd : VReg) (va : VReg) (vb : VReg) (vm : VReg) (t : ElemType) : Statement (.vshl vd va vb vm t) := by
  refine roundV 0x00 (e20 vd + e16 va + e12 vb + e8v vm + t.code * 16 + 10) rfl (by decide) ?_
  generalize h : e20 vd + e16 va + e12 vb + e8v vm + t.code * 16 + 10 = o
  obtain ⟨k, k0, k1, k2, k3, k4, k5⟩ := shape41 vd va vb vm t 10 10 (by decide) (by decide) o h
  refine ⟨k, ?_⟩
  rw [decodeV_0]
  simp only [decV00, Option.map_some, k0, k1, k2, k3, k4, k5, ElemType.ofCode_code]

theorem vshr (vd : VReg) (va : VReg) (vb : VReg) (vm : VReg) (t : ElemType) : Statement (.vshr vd va vb vm t) := by
  refine roundV 0x00 (e20 vd + e16 va + e12 vb + e8v vm + t.code * 16 + 11) rfl (by decide) ?_
  generalize h : e20 vd + e16 va + e12 vb + e8v vm + t.code * 16 + 11 = o
  obtain ⟨k, k0, k1, k2, k3, k4, k5⟩ := shape41 vd va vb vm t 11 11 (by decide) (by decide) o h
  refine ⟨k, ?_⟩
  rw [decodeV_0]
  simp only [decV00, Option.map_some, k0, k1, k2, k3, k4, k5, ElemType.ofCode_code]

theorem vsra (vd : VReg) (va : VReg) (vb : VReg) (vm : VReg) (t : ElemType) : Statement (.vsra vd va vb vm t) := by
  refine roundV 0x00 (e20 vd + e16 va + e12 vb + e8v vm + t.code * 16 + 12) rfl (by decide) ?_
  generalize h : e20 vd + e16 va + e12 vb + e8v vm + t.code * 16 + 12 = o
  obtain ⟨k, k0, k1, k2, k3, k4, k5⟩ := shape41 vd va vb vm t 12 12 (by decide) (by decide) o h
  refine ⟨k, ?_⟩
  rw [decodeV_0]
  simp only [decV00, Option.map_some, k0, k1, k2, k3, k4, k5, ElemType.ofCode_code]

theorem vabsd (vd : VReg) (va : VReg) (vb : VReg) (vm : VReg) (t : ElemType) : Statement (.vabsd vd va vb vm t) := by
  refine roundV 0x00 (e20 vd + e16 va + e12 vb + e8v vm + t.code * 16 + 13) rfl (by decide) ?_
  generalize h : e20 vd + e16 va + e12 vb + e8v vm + t.code * 16 + 13 = o
  obtain ⟨k, k0, k1, k2, k3, k4, k5⟩ := shape41 vd va vb vm t 13 13 (by decide) (by decide) o h
  refine ⟨k, ?_⟩
  rw [decodeV_0]
  simp only [decV00, Option.map_some, k0, k1, k2, k3, k4, k5, ElemType.ofCode_code]

theorem vcpsgn (vd : VReg) (va : VReg) (vb : VReg) (vm : VReg) (t : ElemType) : Statement (.vcpsgn vd va vb vm t) := by
  refine roundV 0x00 (e20 vd + e16 va + e12 vb + e8v vm + t.code * 16 + 14) rfl (by decide) ?_
  generalize h : e20 vd + e16 va + e12 vb + e8v vm + t.code * 16 + 14 = o
  obtain ⟨k, k0, k1, k2, k3, k4, k5⟩ := shape41 vd va vb vm t 14 14 (by decide) (by decide) o h
  refine ⟨k, ?_⟩
  rw [decodeV_0]
  simp only [decV00, Option.map_some, k0, k1, k2, k3, k4, k5, ElemType.ofCode_code]

theorem vaddS (vd : VReg) (va : VReg) (s : SReg) (t : ElemType) (rev : Bool) : Statement (.vaddS vd va s t rev) := by
  refine roundV 0x01 (e20 vd + e16 va + e9s s + t.code * 32 + 0 + bitNat rev) rfl (by decide) ?_
  generalize h : e20 vd + e16 va + e9s s + t.code * 32 + 0 + bitNat rev = o
  obtain ⟨k, k0, k1, k2, k3, k4, k5⟩ := shape42 vd va s t rev 0 0 (by decide) (by decide) o h
  refine ⟨k, ?_⟩
  rw [decodeV_1]
  simp only [decV01, Option.map_some, k0, k1, k2, k3, k4, k5, ElemType.ofCode_code]

theorem vsubS (vd : VReg) (va : VReg) (s : SReg) (t : ElemType) (rev : Bool) : Statement (.vsubS vd va s t rev) := by
  refine roundV 0x01 (e20 vd + e16 va + e9s s + t.code * 32 + 2 + bitNat rev) rfl (by decide) ?_
  generalize h : e20 vd + e16 va + e9s s + t.code * 32 + 2 + bitNat rev = o
  obtain ⟨k, k0, k1, k2, k3, k4, k5⟩ := shape42 vd va s t rev 2 1 (by decide) (by decide) o h
  refine ⟨k, ?_⟩
  rw [decodeV_1]
  simp only [decV01, Option.map_some, k0, k1, k2, k3, k4, k5, ElemType.ofCode_code]

theorem vmulS (vd : VReg) (va : VReg) (s : SReg) (t : ElemType) (rev : Bool) : Statement (.vmulS vd va s t rev) := by
  refine roundV 0x01 (e20 vd + e16 va + e9s s + t.code * 32 + 4 + bitNat rev) rfl (by decide) ?_
  generalize h : e20 vd + e16 va + e9s s + t.code * 32 + 4 + bitNat rev = o
  obtain ⟨k, k0, k1, k2, k3, k4, k5⟩ := shape42 vd va s t rev 4 2 (by decide) (by decide) o h
  refine ⟨k, ?_⟩
  rw [decodeV_1]
  simp only [decV01, Option.map_some, k0, k1, k2, k3, k4, k5, ElemType.ofCode_code]

theorem vdivS (vd : VReg) (va : VReg) (s : SReg) (t : ElemType) (rev : Bool) : Statement (.vdivS vd va s t rev) := by
  refine roundV 0x01 (e20 vd + e16 va + e9s s + t.code * 32 + 6 + bitNat rev) rfl (by decide) ?_
  generalize h : e20 vd + e16 va + e9s s + t.code * 32 + 6 + bitNat rev = o
  obtain ⟨k, k0, k1, k2, k3, k4, k5⟩ := shape42 vd va s t rev 6 3 (by decide) (by decide) o h
  refine ⟨k, ?_⟩
  rw [decodeV_1]
  simp only [decV01, Option.map_some, k0, k1, k2, k3, k4, k5, ElemType.ofCode_code]

theorem vminS (vd : VReg) (va : VReg) (s : SReg) (t : ElemType) (rev : Bool) : Statement (.vminS vd va s t rev) := by
  refine roundV 0x01 (e20 vd + e16 va + e9s s + t.code * 32 + 8 + bitNat rev) rfl (by decide) ?_
  generalize h : e20 vd + e16 va + e9s s + t.code * 32 + 8 + bitNat rev = o
  obtain ⟨k, k0, k1, k2, k3, k4, k5⟩ := shape42 vd va s t rev 8 4 (by decide) (by decide) o h
  refine ⟨k, ?_⟩
  rw [decodeV_1]
  simp only [decV01, Option.map_some, k0, k1, k2, k3, k4, k5, ElemType.ofCode_code]

theorem vmaxS (vd : VReg) (va : VReg) (s : SReg) (t : ElemType) (rev : Bool) : Statement (.vmaxS vd va s t rev) := by
  refine roundV 0x01 (e20 vd + e16 va + e9s s + t.code * 32 + 10 + bitNat rev) rfl (by decide) ?_
  generalize h : e20 vd + e16 va + e9s s + t.code * 32 + 10 + bitNat rev = o
  obtain ⟨k, k0, k1, k2, k3, k4, k5⟩ := shape42 vd va s t rev 10 5 (by decide) (by decide) o h
  refine ⟨k, ?_⟩
  rw [decodeV_1]
  simp only [decV01, Option.map_some, k0, k1, k2, k3, k4, k5, ElemType.ofCode_code]

theorem vandS (vd : VReg) (va : VReg) (s : SReg) (t : ElemType) (rev : Bool) : Statement (.vandS vd va s t rev) := by
  refine roundV 0x01 (e20 vd + e16 va + e9s s + t.code * 32 + 12 + bitNat rev) rfl (by decide) ?_
  generalize h : e20 vd + e16 va + e9s s + t.code * 32 + 12 + bitNat rev = o
  obtain ⟨k, k0, k1, k2, k3, k4, k5⟩ := shape42 vd va s t rev 12 6 (by decide) (by decide) o h
  refine ⟨k, ?_⟩
  rw [decodeV_1]
  simp only [decV01, Option.map_some, k0, k1, k2, k3, k4, k5, ElemType.ofCode_code]

theorem vorS (vd : VReg) (va : VReg) (s : SReg) (t : ElemType) (rev : Bool) : Statement (.vorS vd va s t rev) := by
  refine roundV 0x01 (e20 vd + e16 va + e9s s + t.code * 32 + 14 + bitNat rev) rfl (by decide) ?_
  generalize h : e20 vd + e16 va + e9s s + t.code * 32 + 14 + bitNat rev = o
  obtain ⟨k, k0, k1, k2, k3, k4, k5⟩ := shape42 vd va s t rev 14 7 (by decide) (by decide) o h
  refine ⟨k, ?_⟩
  rw [decodeV_1]
  simp only [decV01, Option.map_some, k0, k1, k2, k3, k4, k5, ElemType.ofCode_code]

theorem vxorS (vd : VReg) (va : VReg) (s : SReg) (t : ElemType) (rev : Bool) : Statement (.vxorS vd va s t rev) := by
  refine roundV 0x01 (e20 vd + e16 va + e9s s + t.code * 32 + 16 + bitNat rev) rfl (by decide) ?_
  generalize h : e20 vd + e16 va + e9s s + t.code * 32 + 16 + bitNat rev = o
  obtain ⟨k, k0, k1, k2, k3, k4, k5⟩ := shape42 vd va s t rev 16 8 (by decide) (by decide) o h
  refine ⟨k, ?_⟩
  rw [decodeV_1]
  simp only [decV01, Option.map_some, k0, k1, k2, k3, k4, k5, ElemType.ofCode_code]

theorem vandnS (vd : VReg) (va : VReg) (s : SReg) (t : ElemType) (rev : Bool) : Statement (.vandnS vd va s t rev) := by
  refine roundV 0x01 (e20 vd + e16 va + e9s s + t.code * 32 + 18 + bitNat rev) rfl (by decide) ?_
  generalize h : e20 vd + e16 va + e9s s + t.code * 32 + 18 + bitNat rev = o
  obtain ⟨k, k0, k1, k2, k3, k4, k5⟩ := shape42 vd va s t rev 18 9 (by decide) (by decide) o h
  refine ⟨k, ?_⟩
  rw [decodeV_1]
  simp only [decV01, Option.map_some, k0, k1, k2, k3, k4, k5, ElemType.ofCode_code]

theorem vshlS (vd : VReg) (va : VReg) (s : SReg) (t : ElemType) (rev : Bool) : Statement (.vshlS vd va s t rev) := by
  refine roundV 0x01 (e20 vd + e16 va + e9s s + t.code * 32 + 20 + bitNat rev) rfl (by decide) ?_
  generalize h : e20 vd + e16 va + e9s s + t.code * 32 + 20 + bitNat rev = o
  obtain ⟨k, k0, k1, k2, k3, k4, k5⟩ := shape42 vd va s t rev 20 10 (by decide) (by decide) o h
  refine ⟨k, ?_⟩
  rw [decodeV_1]
  simp only [decV01, Option.map_some, k0, k1, k2, k3, k4, k5, ElemType.ofCode_code]

theorem vshrS (vd : VReg) (va : VReg) (s : SReg) (t : ElemType) (rev : Bool) : Statement (.vshrS vd va s t rev) := by
  refine roundV 0x01 (e20 vd + e16 va + e9s s + t.code * 32 + 22 + bitNat rev) rfl (by decide) ?_
  generalize h : e20 vd + e16 va + e9s s + t.code * 32 + 22 + bitNat rev = o
  obtain ⟨k, k0, k1, k2, k3, k4, k5⟩ := shape42 vd va s t rev 22 11 (by decide) (by decide) o h
  refine ⟨k, ?_⟩
  rw [decodeV_1]
  simp only [decV01, Option.map_some, k0, k1, k2, k3, k4, k5, ElemType.ofCode_code]

theorem vsraS (vd : VReg) (va : VReg) (s : SReg) (t : ElemType) (rev : Bool) : Statement (.vsraS vd va s t rev) := by
  refine roundV 0x01 (e20 vd + e16 va + e9s s + t.code * 32 + 24 + bitNat rev) rfl (by decide) ?_
  generalize h : e20 vd + e16 va + e9s s + t.code * 32 + 24 + bitNat rev = o
  obtain ⟨k, k0, k1, k2, k3, k4, k5⟩ := shape42 vd va s t rev 24 12 (by decide) (by decide) o h
  refine ⟨k, ?_⟩
  rw [decodeV_1]
  simp only [decV01, Option.map_some, k0, k1, k2, k3, k4, k5, ElemType.ofCode_code]

theorem vabsdS (vd : VReg) (va : VReg) (s : SReg) (t : ElemType) (rev : Bool) : Statement (.vabsdS vd va s t rev) := by
  refine roundV 0x01 (e20 vd + e16 va + e9s s + t.code * 32 + 26 + bitNat rev) rfl (by decide) ?_
  generalize h : e20 vd + e16 va + e9s s + t.code * 32 + 26 + bitNat rev = o
  obtain ⟨k, k0, k1, k2, k3, k4, k5⟩ := shape42 vd va s t rev 26 13 (by decide) (by decide) o h
  refine ⟨k, ?_⟩
  rw [decodeV_1]
  simp only [decV01, Option.map_some, k0, k1, k2, k3, k4, k5, ElemType.ofCode_code]

theorem vcpsgnS (vd : VReg) (va : VReg) (s : SReg) (t : ElemType) (rev : Bool) : Statement (.vcpsgnS vd va s t rev) := by
  refine roundV 0x01 (e20 vd + e16 va + e9s s + t.code * 32 + 28 + bitNat rev) rfl (by decide) ?_
  generalize h : e20 vd + e16 va + e9s s + t.code * 32 + 28 + bitNat rev = o
  obtain ⟨k, k0, k1, k2, k3, k4, k5⟩ := shape42 vd va s t rev 28 14 (by decide) (by decide) o h
  refine ⟨k, ?_⟩
  rw [decodeV_1]
  simp only [decV01, Option.map_some, k0, k1, k2, k3, k4, k5, ElemType.ofCode_code]

theorem vfma (vd : VReg) (va : VReg) (vb : VReg) (vm : VReg) (t : ElemType) : Statement (.vfma vd va vb vm t) := by
  refine roundV 0x02 (e20 vd + e16 va + e12 vb + e8v vm + t.code * 16 + 0) rfl (by decide) ?_
  generalize h : e20 vd + e16 va + e12 vb + e8v vm + t.code * 16 + 0 = o
  obtain ⟨k, k0, k1, k2, k3, k4, k5⟩ := shape41 vd va vb vm t 0 0 (by decide) (by decide) o h
  refine ⟨k, ?_⟩
  rw [decodeV_2]
  simp only [decV02, Option.map_some, k0, k1, k2, k3, k4, k5, ElemType.ofCode_code]

theorem vfmaN (vd : VReg) (va : VReg) (vb : VReg) (vm : VReg) (t : ElemType) : Statement (.vfmaN vd va vb vm t) := by
  refine roundV 0x02 (e20 vd + e16 va + e12 vb + e8v vm + t.code * 16 + 1) rfl (by decide) ?_
  generalize h : e20 vd + e16 va + e12 vb + e8v vm + t.code * 16 + 1 = o
  obtain ⟨k, k0, k1, k2, k3, k4, k5⟩ := shape41 vd va vb vm t 1 1 (by decide) (by decide) o h
  refine ⟨k, ?_⟩
  rw [decodeV_2]
  simp only [decV02, Option.map_some, k0, k1, k2, k3, k4, k5, ElemType.ofCode_code]

theorem vfmaE (vd : VReg) (va : VReg) (vb : VReg) (vm : VReg) (t : ElemType) : Statement (.vfmaE vd va vb vm t) := by
  refine roundV 0x02 (e20 vd + e16 va + e12 vb + e8v vm + t.code * 16 + 2) rfl (by decide) ?_
  generalize h : e20 vd + e16 va + e12 vb + e8v vm + t.code * 16 + 2 = o
  obtain ⟨k, k0, k1, k2, k3, k4, k5⟩ := shape41 vd va vb vm t 2 2 (by decide) (by decide) o h
  refine ⟨k, ?_⟩
  rw [decodeV_2]
  simp only [decV02, Option.map_some, k0, k1, k2, k3, k4, k5, ElemType.ofCode_code]

theorem vneg (vd : VReg) (va : VReg) (vm : VReg) (t : ElemType) : Statement (.vneg vd va vm t) := by
  refine roundV 0x03 (e20 vd + e16 va + e8v vm + t.code * 16 + 0) rfl (by decide) ?_
  generalize h : e20 vd + e16 va + e8v vm + t.code * 16 + 0 = o
  obtain ⟨k, k0, k1, k2, k3, k4, k5⟩ := shape43 vd va vm t 0 0 (by decide) (by decide) o h
  refine ⟨k, ?_⟩
  rw [decodeV_3]
  simp only [decV03, zero, if_true, Option.bind_some, k0, k1, k2, k3, k4, k5, ElemType.ofCode_code]

theorem vabs (vd : VReg) (va : VReg) (vm : VReg) (t : ElemType) : Statement (.vabs vd va vm t) := by
  refine roundV 0x03 (e20 vd + e16 va + e8v vm + t.code * 16 + 1) rfl (by decide) ?_
  generalize h : e20 vd + e16 va + e8v vm + t.code * 16 + 1 = o
  obtain ⟨k, k0, k1, k2, k3, k4, k5⟩ := shape43 vd va vm t 1 1 (by decide) (by decide) o h
  refine ⟨k, ?_⟩
  rw [decodeV_3]
  simp only [decV03, zero, if_true, Option.bind_some, k0, k1, k2, k3, k4, k5, ElemType.ofCode_code]

theorem vnot (vd : VReg) (va : VReg) (vm : VReg) (t : ElemType) : Statement (.vnot vd va vm t) := by
  refine roundV 0x03 (e20 vd + e16 va + e8v vm + t.code * 16 + 2) rfl (by decide) ?_
  generalize h : e20 vd + e16 va + e8v vm + t.code * 16 + 2 = o
  obtain ⟨k, k0, k1, k2, k3, k4, k5⟩ := shape43 vd va vm t 2 2 (by decide) (by decide) o h
  refine ⟨k, ?_⟩
  rw [decodeV_3]
  simp only [decV03, zero, if_true, Option.bind_some, k0, k1, k2, k3, k4, k5, ElemType.ofCode_code]

theorem vsqrt (vd : VReg) (va : VReg) (vm : VReg) (t : ElemType) : Statement (.vsqrt vd va vm t) := by
  refine roundV 0x03 (e20 vd + e16 va + e8v vm + t.code * 16 + 3) rfl (by decide) ?_
  generalize h : e20 vd + e16 va + e8v vm + t.code * 16 + 3 = o
  obtain ⟨k, k0, k1, k2, k3, k4, k5⟩ := shape43 vd va vm t 3 3 (by decide) (by decide) o h
  refine ⟨k, ?_⟩
  rw [decodeV_3]
  simp only [decV03, zero, if_true, Option.bind_some, k0, k1, k2, k3, k4, k5, ElemType.ofCode_code]

theorem vrsq (vd : VReg) (va : VReg) (vm : VReg) (t : ElemType) : Statement (.vrsq vd va vm t) := by
  refine roundV 0x03 (e20 vd + e16 va + e8v vm + t.code * 16 + 4) rfl (by decide) ?_
  generalize h : e20 vd + e16 va + e8v vm + t.code * 16 + 4 = o
  obtain ⟨k, k0, k1, k2, k3, k4, k5⟩ := shape43 vd va vm t 4 4 (by decide) (by decide) o h
  refine ⟨k, ?_⟩
  rw [decodeV_3]
  simp only [decV03, zero, if_true, Option.bind_some, k0, k1, k2, k3, k4, k5, ElemType.ofCode_code]

theorem vrcp (vd : VReg) (va : VReg) (vm : VReg) (t : ElemType) : Statement (.vrcp vd va vm t) := by
  refine roundV 0x03 (e20 vd + e16 va + e8v vm + t.code * 16 + 5) rfl (by decide) ?_
  generalize h : e20 vd + e16 va + e8v vm + t.code * 16 + 5 = o
  obtain ⟨k, k0, k1, k2, k3, k4, k5⟩ := shape43 vd va vm t 5 5 (by decide) (by decide) o h
  refine ⟨k, ?_⟩
  rw [decodeV_3]
  simp only [decV03, zero, if_true, Option.bind_some, k0, k1, k2, k3, k4, k5, ElemType.ofCode_code]

theorem vexp2 (vd : VReg) (va : VReg) (vm : VReg) (t : ElemType) : Statement (.vexp2 vd va vm t) := by
  refine roundV 0x03 (e20 vd + e16 va + e8v vm + t.code * 16 + 6) rfl (by decide) ?_
  generalize h : e20 vd + e16 va + e8v vm + t.code * 16 + 6 = o
  obtain ⟨k, k0, k1, k2, k3, k4, k5⟩ := shape43 vd va vm t 6 6 (by decide) (by decide) o h
  refine ⟨k, ?_⟩
  rw [decodeV_3]
  simp only [decV03, zero, if_true, Option.bind_some, k0, k1, k2, k3, k4, k5, ElemType.ofCode_code]

theorem vlog2 (vd : VReg) (va : VReg) (vm : VReg) (t : ElemType) : Statement (.vlog2 vd va vm t) := by
  refine roundV 0x03 (e20 vd + e16 va + e8v vm + t.code * 16 + 7) rfl (by decide) ?_
  generalize h : e20 vd + e16 va + e8v vm + t.code * 16 + 7 = o
  obtain ⟨k, k0, k1, k2, k3, k4, k5⟩ := shape43 vd va vm t 7 7 (by decide) (by decide) o h
  refine ⟨k, ?_⟩
  rw [decodeV_3]
  simp only [decV03, zero, if_true, Option.bind_some, k0, k1, k2, k3, k4, k5, ElemType.ofCode_code]

theorem vfloor (vd : VReg) (va : VReg) (vm : VReg) (t : ElemType) : Statement (.vfloor vd va vm t) := by
  refine roundV 0x03 (e20 vd + e16 va + e8v vm + t.code * 16 + 8) rfl (by decide) ?_
  generalize h : e20 vd + e16 va + e8v vm + t.code * 16 + 8 = o
  obtain ⟨k, k0, k1, k2, k3, k4, k5⟩ := shape43 vd va vm t 8 8 (by decide) (by decide) o h
  refine ⟨k, ?_⟩
  rw [decodeV_3]
  simp only [decV03, zero, if_true, Option.bind_some, k0, k1, k2, k3, k4, k5, ElemType.ofCode_code]

theorem vround (vd : VReg) (va : VReg) (vm : VReg) (t : ElemType) : Statement (.vround vd va vm t) := by
  refine roundV 0x03 (e20 vd + e16 va + e8v vm + t.code * 16 + 9) rfl (by decide) ?_
  generalize h : e20 vd + e16 va + e8v vm + t.code * 16 + 9 = o
  obtain ⟨k, k0, k1, k2, k3, k4, k5⟩ := shape43 vd va vm t 9 9 (by decide) (by decide) o h
  refine ⟨k, ?_⟩
  rw [decodeV_3]
  simp only [decV03, zero, if_true, Option.bind_some, k0, k1, k2, k3, k4, k5, ElemType.ofCode_code]

theorem vclz (vd : VReg) (va : VReg) (vm : VReg) (t : ElemType) : Statement (.vclz vd va vm t) := by
  refine roundV 0x03 (e20 vd + e16 va + e8v vm + t.code * 16 + 10) rfl (by decide) ?_
  generalize h : e20 vd + e16 va + e8v vm + t.code * 16 + 10 = o
  obtain ⟨k, k0, k1, k2, k3, k4, k5⟩ := shape43 vd va vm t 10 10 (by decide) (by decide) o h
  refine ⟨k, ?_⟩
  rw [decodeV_3]
  simp only [decV03, zero, if_true, Option.bind_some, k0, k1, k2, k3, k4, k5, ElemType.ofCode_code]

theorem vpopc (vd : VReg) (va : VReg) (vm : VReg) (t : ElemType) : Statement (.vpopc vd va vm t) := by
  refine roundV 0x03 (e20 vd + e16 va + e8v vm + t.code * 16 + 11) rfl (by decide) ?_
  generalize h : e20 vd + e16 va + e8v vm + t.code * 16 + 11 = o
  obtain ⟨k, k0, k1, k2, k3, k4, k5⟩ := shape43 vd va vm t 11 11 (by decide) (by decide) o h
  refine ⟨k, ?_⟩
  rw [decodeV_3]
  simp only [decV03, zero, if_true, Option.bind_some, k0, k1, k2, k3, k4, k5, ElemType.ofCode_code]

theorem vcmp (c : VCond) (vd : VReg) (va : VReg) (vb : VReg) (vm : VReg) (t : ElemType) : Statement (.vcmp c vd va vb vm t) := by
  refine roundV 0x04 (e20 vd + e16 va + e12 vb + e8v vm + t.code * 16 + c.code) rfl (by decide) ?_
  generalize h : e20 vd + e16 va + e12 vb + e8v vm + t.code * 16 + c.code = o
  obtain ⟨k, k0, k1, k2, k3, k4, k5⟩ := shape44 c vd va vb vm t o h
  refine ⟨k, ?_⟩
  rw [decodeV_4]
  simp only [decV04, Option.map_some, Option.bind_some, k0, k1, k2, k3, k4, k5, ElemType.ofCode_code, VCond.ofCode_code]

theorem vsel (vd : VReg) (va : VReg) (vb : VReg) (vm : VReg) (t : ElemType) : Statement (.vsel vd va vb vm t) := by
  refine roundV 0x05 (e20 vd + e16 va + e12 vb + e8v vm + t.code * 16 + 0) rfl (by decide) ?_
  generalize h : e20 vd + e16 va + e12 vb + e8v vm + t.code * 16 + 0 = o
  obtain ⟨k, k0, k1, k2, k3, k4, k5⟩ := shape41 vd va vb vm t 0 0 (by decide) (by decide) o h
  refine ⟨k, ?_⟩
  rw [decodeV_5]
  simp only [decV05, Option.map_some, k0, k1, k2, k3, k4, k5, ElemType.ofCode_code]

theorem vcvt (vd : VReg) (va : VReg) (src : ElemType) (vm : VReg) (t : ElemType) (r : RoundSel) : Statement (.vcvt vd va src vm t r) := by
  refine roundV 0x06 (e20 vd + e16 va + src.code * 2 ^ 12 + e8v vm + t.code * 16 + r.code) rfl (by decide) ?_
  generalize h : e20 vd + e16 va + src.code * 2 ^ 12 + e8v vm + t.code * 16 + r.code = o
  obtain ⟨k, k0, k1, k2, k3, k4, k5⟩ := shape45 vd va src vm t r o h
  refine ⟨k, ?_⟩
  rw [decodeV_6]
  simp only [decV06, Option.map_some, Option.bind_some, k0, k1, k2, k3, k4, k5, ElemType.ofCode_code, RoundSel.ofCode_code]

theorem vspl (vd : VReg) (s : SReg) (t : ElemType) : Statement (.vspl vd s t) := by
  refine roundV 0x07 (e20 vd + e9s s + t.code * 32 + 0) rfl (by decide) ?_
  generalize h : e20 vd + e9s s + t.code * 32 + 0 = o
  obtain ⟨k, k0, k1, k2, k3, k4⟩ := shape46 vd s t 0 0 (by decide) (by decide) o h
  refine ⟨k, ?_⟩
  rw [decodeV_7]
  simp only [decV07, zero, if_true, Option.bind_some, k0, k1, k2, k3, k4, ElemType.ofCode_code]

theorem viota (vd : VReg) (t : ElemType) : Statement (.viota vd t) := by
  refine roundV 0x07 (e20 vd + t.code * 32 + 2) rfl (by decide) ?_
  generalize h : e20 vd + t.code * 32 + 2 = o
  obtain ⟨k, k0, k1, k2, k3⟩ := shape47 vd t 2 1 (by decide) (by decide) o h
  refine ⟨k, ?_⟩
  rw [decodeV_7]
  simp only [decV07, zero, if_true, Option.bind_some, k0, k1, k2, k3, ElemType.ofCode_code]

theorem vclr (vd : VReg) (t : ElemType) : Statement (.vclr vd t) := by
  refine roundV 0x07 (e20 vd + t.code * 32 + 4) rfl (by decide) ?_
  generalize h : e20 vd + t.code * 32 + 4 = o
  obtain ⟨k, k0, k1, k2, k3⟩ := shape47 vd t 4 2 (by decide) (by decide) o h
  refine ⟨k, ?_⟩
  rw [decodeV_7]
  simp only [decV07, zero, if_true, Option.bind_some, k0, k1, k2, k3, ElemType.ofCode_code]

theorem vmask (vd : VReg) (s : SReg) : Statement (.vmask vd s) := by
  refine roundV 0x07 (e20 vd + e9s s + 14 * 32 + 6) rfl (by decide) ?_
  generalize h : e20 vd + e9s s + 14 * 32 + 6 = o
  obtain ⟨k, k0, k1, k2, k3, k4⟩ := shape48 vd s o h
  refine ⟨k, ?_⟩
  rw [decodeV_7]
  simp only [decV07, zero, if_true, k0, k1, k2, k3, k4]

theorem vred (op : RedOp) (s : SReg) (va : VReg) (t : ElemType) : Statement (.vred op s va t) := by
  refine roundV 0x08 (e16 va + e9s s + t.code * 32 + op.code * 2) rfl (by decide) ?_
  generalize h : e16 va + e9s s + t.code * 32 + op.code * 2 = o
  obtain ⟨k, k0, k1, k2, k3, k4⟩ := shape49 op s va t o h
  refine ⟨k, ?_⟩
  rw [decodeV_8]
  simp only [decV08, zero, if_true, Option.bind_some, k0, k1, k2, k3, k4, ElemType.ofCode_code, RedOp.ofCode_code]

theorem vcoal (vd : VReg) (va : VReg) (t : ElemType) : Statement (.vcoal vd va t) := by
  refine roundV 0x09 (e20 vd + e16 va + t.code * 32 + 0) rfl (by decide) ?_
  generalize h : e20 vd + e16 va + t.code * 32 + 0 = o
  obtain ⟨k, k0, k1, k2, k3, k4⟩ := shape50 vd va t 0 0 (by decide) (by decide) o h
  refine ⟨k, ?_⟩
  rw [decodeV_9]
  simp only [decV09, zero, if_true, Option.bind_some, k0, k1, k2, k3, k4, ElemType.ofCode_code]

theorem vlen (s : SReg) (va : VReg) (t : ElemType) : Statement (.vlen s va t) := by
  refine roundV 0x09 (e9s s + e16 va + t.code * 32 + 2) rfl (by decide) ?_
  generalize h : e9s s + e16 va + t.code * 32 + 2 = o
  obtain ⟨k, k0, k1, k2, k3, k4⟩ := shape51 s va t 2 1 (by decide) (by decide) o h
  refine ⟨k, ?_⟩
  rw [decodeV_9]
  simp only [decV09, zero, if_true, Option.bind_some, k0, k1, k2, k3, k4, ElemType.ofCode_code]

theorem vnrun (s : SReg) (va : VReg) (t : ElemType) : Statement (.vnrun s va t) := by
  refine roundV 0x09 (e9s s + e16 va + t.code * 32 + 4) rfl (by decide) ?_
  generalize h : e9s s + e16 va + t.code * 32 + 4 = o
  obtain ⟨k, k0, k1, k2, k3, k4⟩ := shape51 s va t 4 2 (by decide) (by decide) o h
  refine ⟨k, ?_⟩
  rw [decodeV_9]
  simp only [decV09, zero, if_true, Option.bind_some, k0, k1, k2, k3, k4, ElemType.ofCode_code]

theorem vextr (s : SReg) (va : VReg) (t : ElemType) : Statement (.vextr s va t) := by
  refine roundV 0x09 (e9s s + e16 va + t.code * 32 + 6) rfl (by decide) ?_
  generalize h : e9s s + e16 va + t.code * 32 + 6 = o
  obtain ⟨k, k0, k1, k2, k3, k4⟩ := shape51 s va t 6 3 (by decide) (by decide) o h
  refine ⟨k, ?_⟩
  rw [decodeV_9]
  simp only [decV09, zero, if_true, Option.bind_some, k0, k1, k2, k3, k4, ElemType.ofCode_code]

theorem vexpand (vd : VReg) (va : VReg) (t : ElemType) : Statement (.vexpand vd va t) := by
  refine roundV 0x09 (e20 vd + e16 va + t.code * 32 + 8) rfl (by decide) ?_
  generalize h : e20 vd + e16 va + t.code * 32 + 8 = o
  obtain ⟨k, k0, k1, k2, k3, k4⟩ := shape50 vd va t 8 4 (by decide) (by decide) o h
  refine ⟨k, ?_⟩
  rw [decodeV_9]
  simp only [decV09, zero, if_true, Option.bind_some, k0, k1, k2, k3, k4, ElemType.ofCode_code]

theorem vsldu (vd : VReg) (va : VReg) (s : SReg) (t : ElemType) : Statement (.vsldu vd va s t) := by
  refine roundV 0x0A (e20 vd + e16 va + e9s s + t.code * 32 + 0) rfl (by decide) ?_
  generalize h : e20 vd + e16 va + e9s s + t.code * 32 + 0 = o
  obtain ⟨k, k0, k1, k2, k3, k4, k5⟩ := shape52 vd va s t 0 0 (by decide) (by decide) o h
  refine ⟨k, ?_⟩
  rw [decodeV_10]
  simp only [decV10, zero, if_true, Option.bind_some, k0, k1, k2, k3, k4, k5, ElemType.ofCode_code]

theorem vsldd (vd : VReg) (va : VReg) (s : SReg) (t : ElemType) : Statement (.vsldd vd va s t) := by
  refine roundV 0x0A (e20 vd + e16 va + e9s s + t.code * 32 + 2) rfl (by decide) ?_
  generalize h : e20 vd + e16 va + e9s s + t.code * 32 + 2 = o
  obtain ⟨k, k0, k1, k2, k3, k4, k5⟩ := shape52 vd va s t 2 1 (by decide) (by decide) o h
  refine ⟨k, ?_⟩
  rw [decodeV_10]
  simp only [decV10, zero, if_true, Option.bind_some, k0, k1, k2, k3, k4, k5, ElemType.ofCode_code]

theorem vslice (vd : VReg) (va : VReg) (s : SReg) (t : ElemType) : Statement (.vslice vd va s t) := by
  refine roundV 0x0A (e20 vd + e16 va + e9s s + t.code * 32 + 4) rfl (by decide) ?_
  generalize h : e20 vd + e16 va + e9s s + t.code * 32 + 4 = o
  obtain ⟨k, k0, k1, k2, k3, k4, k5⟩ := shape52 vd va s t 4 2 (by decide) (by decide) o h
  refine ⟨k, ?_⟩
  rw [decodeV_10]
  simp only [decV10, zero, if_true, Option.bind_some, k0, k1, k2, k3, k4, k5, ElemType.ofCode_code]

theorem vcat (vd : VReg) (va : VReg) (vb : VReg) (t : ElemType) : Statement (.vcat vd va vb t) := by
  refine roundV 0x0A (e20 vd + e16 va + e9v vb + t.code * 32 + 6) rfl (by decide) ?_
  generalize h : e20 vd + e16 va + e9v vb + t.code * 32 + 6 = o
  obtain ⟨k, k0, k1, k2, k3, k4, k5⟩ := shape53 vd va vb t 6 3 (by decide) (by decide) o h
  refine ⟨k, ?_⟩
  rw [decodeV_10]
  simp only [decV10, zero, if_true, Option.bind_some, k0, k1, k2, k3, k4, k5, ElemType.ofCode_code]

theorem vmov (vd : VReg) (va : VReg) (t : ElemType) : Statement (.vmov vd va t) := by
  refine roundV 0x0A (e20 vd + e16 va + t.code * 32 + 8) rfl (by decide) ?_
  generalize h : e20 vd + e16 va + t.code * 32 + 8 = o
  obtain ⟨k, k0, k1, k2, k3, k4⟩ := shape50 vd va t 8 4 (by decide) (by decide) o h
  refine ⟨k, ?_⟩
  rw [decodeV_10]
  simp only [decV10, zero, if_true, Option.bind_some, k0, k1, k2, k3, k4, ElemType.ofCode_code]

theorem vrev (vd : VReg) (va : VReg) (t : ElemType) : Statement (.vrev vd va t) := by
  refine roundV 0x0A (e20 vd + e16 va + t.code * 32 + 10) rfl (by decide) ?_
  generalize h : e20 vd + e16 va + t.code * 32 + 10 = o
  obtain ⟨k, k0, k1, k2, k3, k4⟩ := shape50 vd va t 10 5 (by decide) (by decide) o h
  refine ⟨k, ?_⟩
  rw [decodeV_10]
  simp only [decV10, zero, if_true, Option.bind_some, k0, k1, k2, k3, k4, ElemType.ofCode_code]

theorem vldDense (vd : VReg) (b : SReg) (t : ElemType) : Statement (.vldDense vd b t) := by
  refine roundV 0x0B (e20 vd + e13 b + t.code * 4 + 0) rfl (by decide) ?_
  generalize h : e20 vd + e13 b + t.code * 4 + 0 = o
  obtain ⟨k, k0, k1, k2, k3, k4⟩ := shape54 vd b t 0 0 (by decide) (by decide) o h
  refine ⟨k, ?_⟩
  rw [decodeV_11]
  simp only [decV11, zero, if_true, Option.bind_some, k0, k1, k2, k3, k4, ElemType.ofCode_code]

theorem vldStr (vd : VReg) (b : SReg) (s : SReg) (t : ElemType) : Statement (.vldStr vd b s t) := by
  refine roundV 0x0B (e20 vd + e13 b + e6 s + t.code * 4 + 1) rfl (by decide) ?_
  generalize h : e20 vd + e13 b + e6 s + t.code * 4 + 1 = o
  obtain ⟨k, k0, k1, k2, k3, k4⟩ := shape55 vd b s t 1 1 (by decide) (by decide) o h
  refine ⟨k, ?_⟩
  rw [decodeV_11]
  simp only [decV11, Option.map_some, k0, k1, k2, k3, k4, ElemType.ofCode_code]

theorem vldRuns (vd : VReg) (b : SReg) (t : ElemType) : Statement (.vldRuns vd b t) := by
  refine roundV 0x0B (e20 vd + e13 b + t.code * 4 + 2) rfl (by decide) ?_
  generalize h : e20 vd + e13 b + t.code * 4 + 2 = o
  obtain ⟨k, k0, k1, k2, k3, k4⟩ := shape54 vd b t 2 2 (by decide) (by decide) o h
  refine ⟨k, ?_⟩
  rw [decodeV_11]
  simp only [decV11, zero, if_true, Option.bind_some, k0, k1, k2, k3, k4, ElemType.ofCode_code]

theorem vldBank (vd : VReg) (b : SReg) (e : SReg) (t : ElemType) : Statement (.vldBank vd b e t) := by
  refine roundV 0x0B (e20 vd + e13 b + e6 e + t.code * 4 + 3) rfl (by decide) ?_
  generalize h : e20 vd + e13 b + e6 e + t.code * 4 + 3 = o
  obtain ⟨k, k0, k1, k2, k3, k4⟩ := shape56 vd b e t 3 3 (by decide) (by decide) o h
  refine ⟨k, ?_⟩
  rw [decodeV_11]
  simp only [decV11, Option.map_some, k0, k1, k2, k3, k4, ElemType.ofCode_code]

theorem vstDense (vs : VReg) (b : SReg) (t : ElemType) : Statement (.vstDense vs b t) := by
  refine roundV 0x0C (e20 vs + e13 b + t.code * 4 + 0) rfl (by decide) ?_
  generalize h : e20 vs + e13 b + t.code * 4 + 0 = o
  obtain ⟨k, k0, k1, k2, k3, k4⟩ := shape57 vs b t 0 0 (by decide) (by decide) o h
  refine ⟨k, ?_⟩
  rw [decodeV_12]
  simp only [decV12, zero, if_true, Option.bind_some, k0, k1, k2, k3, k4, ElemType.ofCode_code]

theorem vstStr (vs : VReg) (b : SReg) (s : SReg) (t : ElemType) : Statement (.vstStr vs b s t) := by
  refine roundV 0x0C (e20 vs + e13 b + e6 s + t.code * 4 + 1) rfl (by decide) ?_
  generalize h : e20 vs + e13 b + e6 s + t.code * 4 + 1 = o
  obtain ⟨k, k0, k1, k2, k3, k4⟩ := shape58 vs b s t 1 1 (by decide) (by decide) o h
  refine ⟨k, ?_⟩
  rw [decodeV_12]
  simp only [decV12, Option.map_some, k0, k1, k2, k3, k4, ElemType.ofCode_code]

theorem vstRuns (vs : VReg) (b : SReg) (t : ElemType) : Statement (.vstRuns vs b t) := by
  refine roundV 0x0C (e20 vs + e13 b + t.code * 4 + 2) rfl (by decide) ?_
  generalize h : e20 vs + e13 b + t.code * 4 + 2 = o
  obtain ⟨k, k0, k1, k2, k3, k4⟩ := shape57 vs b t 2 2 (by decide) (by decide) o h
  refine ⟨k, ?_⟩
  rw [decodeV_12]
  simp only [decV12, zero, if_true, Option.bind_some, k0, k1, k2, k3, k4, ElemType.ofCode_code]

theorem vstBank (vs : VReg) (b : SReg) (e : SReg) (t : ElemType) : Statement (.vstBank vs b e t) := by
  refine roundV 0x0C (e20 vs + e13 b + e6 e + t.code * 4 + 3) rfl (by decide) ?_
  generalize h : e20 vs + e13 b + e6 e + t.code * 4 + 3 = o
  obtain ⟨k, k0, k1, k2, k3, k4⟩ := shape59 vs b e t 3 3 (by decide) (by decide) o h
  refine ⟨k, ?_⟩
  rw [decodeV_12]
  simp only [decV12, Option.map_some, k0, k1, k2, k3, k4, ElemType.ofCode_code]

theorem vgth (vd : VReg) (b : SReg) (vi : VReg) (t : ElemType) (elem : Bool) : Statement (.vgth vd b vi t elem) := by
  refine roundV 0x0D (e20 vd + e13 b + e6v vi + t.code * 4 + bitNat elem) rfl (by decide) ?_
  generalize h : e20 vd + e13 b + e6v vi + t.code * 4 + bitNat elem = o
  obtain ⟨k, k0, k1, k2, k3, k4, k5⟩ := shape60 vd b vi t elem o h
  refine ⟨k, ?_⟩
  rw [decodeV_13]
  simp only [decV13, zero, if_true, Option.bind_some, k0, k1, k2, k3, k4, k5, ElemType.ofCode_code]

theorem vsct (vs : VReg) (b : SReg) (vi : VReg) (t : ElemType) (elem : Bool) : Statement (.vsct vs b vi t elem) := by
  refine roundV 0x0E (e20 vs + e13 b + e6v vi + t.code * 4 + bitNat elem) rfl (by decide) ?_
  generalize h : e20 vs + e13 b + e6v vi + t.code * 4 + bitNat elem = o
  obtain ⟨k, k0, k1, k2, k3, k4, k5⟩ := shape61 vs b vi t elem o h
  refine ⟨k, ?_⟩
  rw [decodeV_14]
  simp only [decV14, zero, if_true, Option.bind_some, k0, k1, k2, k3, k4, k5, ElemType.ofCode_code]

theorem unassignedEncoding (a0 : Code) : Statement (.unassignedEncoding a0) := noWord rfl

theorem postedTrapTaken (a0 : Nat) (a1 : Nat) : Statement (.postedTrapTaken a0 a1) := noWord rfl

theorem loadDataReturn (a0 : Nat) (a1 : Nat × Nat) : Statement (.loadDataReturn a0 a1) := noWord rfl

theorem storePerform (a0 : Nat) (a1 : Nat) (a2 : Bool) : Statement (.storePerform a0 a1 a2) := noWord rfl

theorem atomicPerform (a0 : Nat) : Statement (.atomicPerform a0) := noWord rfl

theorem faaddApply (a0 : Nat) : Statement (.faaddApply a0) := noWord rfl

theorem faaddRetry (a0 : Nat) : Statement (.faaddRetry a0) := noWord rfl

theorem pageWalkComplete (a0 : Nat) : Statement (.pageWalkComplete a0) := noWord rfl

theorem cowCopyComplete (a0 : Nat) : Statement (.cowCopyComplete a0) := noWord rfl

theorem remoteStoreArrival (a0 : Nat) : Statement (.remoteStoreArrival a0) := noWord rfl

theorem bounceReturn (a0 : Nat) : Statement (.bounceReturn a0) := noWord rfl

theorem wldClassify (a0 : Nat) : Statement (.wldClassify a0) := noWord rfl

theorem wldComplete (a0 : Nat) : Statement (.wldComplete a0) := noWord rfl

theorem wldCycle (a0 : Nat) : Statement (.wldCycle a0) := noWord rfl

theorem wldTimeout (a0 : Nat) : Statement (.wldTimeout a0) := noWord rfl

theorem wstStage (a0 : Nat) : Statement (.wstStage a0) := noWord rfl

theorem wstRingWaitEnd (a0 : Nat) : Statement (.wstRingWaitEnd a0) := noWord rfl

theorem wcommitPerform (a0 : Nat) : Statement (.wcommitPerform a0) := noWord rfl

theorem whorPerform (a0 : Nat) : Statement (.whorPerform a0) := noWord rfl

theorem groupExit (a0 : Nat) : Statement (.groupExit a0) := noWord rfl

theorem cancelMarked (a0 : Nat) : Statement (.cancelMarked a0) := noWord rfl

theorem cancelHandlerLimit (a0 : Nat) (a1 : Nat) : Statement (.cancelHandlerLimit a0 a1) := noWord rfl

theorem cancelReclaimComplete (a0 : Nat) : Statement (.cancelReclaimComplete a0) := noWord rfl

theorem taskQueuePush (a0 : Nat) : Statement (.taskQueuePush a0) := noWord rfl

theorem taskAging (a0 : Nat) (a1 : Nat) : Statement (.taskAging a0 a1) := noWord rfl

theorem taskDispatch (a0 : Nat) : Statement (.taskDispatch a0) := noWord rfl

theorem threadSwap (a0 : Nat) (a1 : Nat) : Statement (.threadSwap a0 a1) := noWord rfl

theorem threadSwapRestore (a0 : Nat) (a1 : Nat) : Statement (.threadSwapRestore a0 a1) := noWord rfl

theorem groupEvict (a0 : Nat) : Statement (.groupEvict a0) := noWord rfl

theorem groupRestore (a0 : Nat) (a1 : Nat) : Statement (.groupRestore a0 a1) := noWord rfl

theorem faultRecordPost (a0 : Nat) : Statement (.faultRecordPost a0) := noWord rfl

theorem faultAnswer (a0 : Nat) (a1 : Nat) : Statement (.faultAnswer a0 a1) := noWord rfl

theorem commandStart (a0 : Nat) (a1 : Nat) : Statement (.commandStart a0 a1) := noWord rfl

theorem commandComplete (a0 : Nat) (a1 : Nat) : Statement (.commandComplete a0 a1) := noWord rfl

theorem hallPassGrant (a0 : Nat) : Statement (.hallPassGrant a0) := noWord rfl

theorem hallPassTimeout (a0 : Nat) (a1 : Nat) : Statement (.hallPassTimeout a0 a1) := noWord rfl

theorem nopc (a0 : Nat) (a1 : Nat) : Statement (.nopc a0 a1) := noWord rfl

theorem mxLease (a0 : Nat) (a1 : Nat) : Statement (.mxLease a0 a1) := noWord rfl

theorem mxFree (a0 : Nat) (a1 : Nat) : Statement (.mxFree a0 a1) := noWord rfl

theorem mxZero (a0 : Nat) (a1 : Nat) : Statement (.mxZero a0 a1) := noWord rfl

theorem mxMul (a0 : Nat) (a1 : Nat) : Statement (.mxMul a0 a1) := noWord rfl

theorem mxAcc (a0 : Nat) (a1 : Nat) : Statement (.mxAcc a0 a1) := noWord rfl

theorem mxStore (a0 : Nat) (a1 : Nat) : Statement (.mxStore a0 a1) := noWord rfl

theorem mxRes (a0 : Nat) (a1 : Nat) : Statement (.mxRes a0 a1) := noWord rfl

theorem cpCopy (a0 : Nat) (a1 : Nat) : Statement (.cpCopy a0 a1) := noWord rfl

theorem cpConv (a0 : Nat) (a1 : Nat) : Statement (.cpConv a0 a1) := noWord rfl

theorem cpFill (a0 : Nat) (a1 : Nat) : Statement (.cpFill a0 a1) := noWord rfl

theorem cpPack (a0 : Nat) (a1 : Nat) : Statement (.cpPack a0 a1) := noWord rfl

theorem cpUnpack (a0 : Nat) (a1 : Nat) : Statement (.cpUnpack a0 a1) := noWord rfl

theorem cpGath (a0 : Nat) (a1 : Nat) : Statement (.cpGath a0 a1) := noWord rfl

theorem cpScat (a0 : Nat) (a1 : Nat) : Statement (.cpScat a0 a1) := noWord rfl

theorem cpSig (a0 : Nat) (a1 : Nat) : Statement (.cpSig a0 a1) := noWord rfl

theorem wsSample (a0 : Nat) : Statement (.wsSample a0) := noWord rfl

theorem wsSnap (a0 : Nat) : Statement (.wsSnap a0) := noWord rfl

theorem remoteCopyAccess (a0 : Nat) (a1 : Nat) (a2 : Bool) (a3 : Nat × Nat) : Statement (.remoteCopyAccess a0 a1 a2 a3) := noWord rfl

theorem qerrClear (a0 : Nat) : Statement (.qerrClear a0) := noWord rfl

theorem vlenWrite (a0 : Word) : Statement (.vlenWrite a0) := noWord rfl

theorem poolBoundaryWrite (a0 : BitVec 10) (a1 : Word) : Statement (.poolBoundaryWrite a0 a1) := noWord rfl

theorem trapRegisterWrite (a0 : BitVec 10) (a1 : Word) : Statement (.trapRegisterWrite a0 a1) := noWord rfl

theorem registerWrite (a0 : Nat) (a1 : Word) : Statement (.registerWrite a0 a1) := noWord rfl

theorem lqTailWrite (a0 : Nat) (a1 : BitVec 32) : Statement (.lqTailWrite a0 a1) := noWord rfl

theorem lqEnable (a0 : Nat) (a1 : Word) : Statement (.lqEnable a0 a1) := noWord rfl

theorem lqDestroy (a0 : Nat) : Statement (.lqDestroy a0) := noWord rfl

theorem lqDestroyCancel (a0 : Nat) : Statement (.lqDestroyCancel a0) := noWord rfl

theorem lqStatClear (a0 : Nat) (a1 : BitVec 4) : Statement (.lqStatClear a0 a1) := noWord rfl

theorem tqEnable (a0 : Nat) (a1 : Word) : Statement (.tqEnable a0 a1) := noWord rfl

theorem launchSlotRead (a0 : Nat) : Statement (.launchSlotRead a0) := noWord rfl

theorem launchStart (a0 : Nat) : Statement (.launchStart a0) := noWord rfl

theorem launchComplete (a0 : Nat) : Statement (.launchComplete a0) := noWord rfl

theorem prShoot (a0 : Nat) (a1 : Word) : Statement (.prShoot a0 a1) := noWord rfl

theorem shootdownComplete (a0 : Nat) : Statement (.shootdownComplete a0) := noWord rfl

theorem gangStop (a0 : Nat) : Statement (.gangStop a0) := noWord rfl

theorem gangStopDump (a0 : Nat) : Statement (.gangStopDump a0) := noWord rfl

theorem gangStopComplete (a0 : Nat) : Statement (.gangStopComplete a0) := noWord rfl

theorem gangResume (a0 : Nat) : Statement (.gangResume a0) := noWord rfl

theorem prResume (a0 : Nat) (a1 : Word) : Statement (.prResume a0 a1) := noWord rfl

theorem partitionMoveRequest (a0 : Nat) (a1 : BitVec 9) : Statement (.partitionMoveRequest a0 a1) := noWord rfl

theorem partitionMoveComplete (a0 : Nat) : Statement (.partitionMoveComplete a0) := noWord rfl

theorem managementPoll : Statement (.managementPoll) := noWord rfl

theorem updateFw : Statement (.updateFw) := noWord rfl

theorem recordFw : Statement (.recordFw) := noWord rfl

theorem attest : Statement (.attest) := noWord rfl

theorem idkey : Statement (.idkey) := noWord rfl

theorem setkey : Statement (.setkey) := noWord rfl

theorem clrkey : Statement (.clrkey) := noWord rfl

theorem coldReset : Statement (.coldReset) := noWord rfl

theorem serialMarkAdvance : Statement (.serialMarkAdvance) := noWord rfl

theorem hostWindowRead (a0 : Nat) (a1 : Nat) : Statement (.hostWindowRead a0 a1) := noWord rfl

theorem hostWindowWrite (a0 : Nat) (a1 : Nat) (a2 : Nat) : Statement (.hostWindowWrite a0 a1 a2) := noWord rfl

theorem hostSnoop (a0 : Nat) : Statement (.hostSnoop a0) := noWord rfl

theorem hostInvalidation (a0 : Nat) (a1 : Nat) (a2 : Nat) : Statement (.hostInvalidation a0 a1 a2) := noWord rfl

theorem atomicopCompletion (a0 : Nat) (a1 : Bool) : Statement (.atomicopCompletion a0 a1) := noWord rfl

theorem atomicopTimeout (a0 : Nat) : Statement (.atomicopTimeout a0) := noWord rfl

theorem linkTraining (a0 : Bool) : Statement (.linkTraining a0) := noWord rfl

theorem flitReceive (a0 : Nat) (a1 : Nat) : Statement (.flitReceive a0 a1) := noWord rfl

theorem flitNak (a0 : Nat) (a1 : BitVec 12) : Statement (.flitNak a0 a1) := noWord rfl

theorem resendTimeout (a0 : Nat) : Statement (.resendTimeout a0) := noWord rfl

theorem portRetrain (a0 : Nat) : Statement (.portRetrain a0) := noWord rfl

theorem directoryForward (a0 : Nat) : Statement (.directoryForward a0) := noWord rfl

theorem hbmRefresh : Statement (.hbmRefresh) := noWord rfl

theorem scrub (a0 : Nat) (a1 : Nat) (a2 : Nat) (a3 : List (Nat × Nat)) : Statement (.scrub a0 a1 a2 a3) := noWord rfl

theorem directorySweep (a0 : Nat) (a1 : Nat) : Statement (.directorySweep a0 a1) := noWord rfl

theorem retentionSweep : Statement .retentionSweep := noWord rfl

theorem telemetry (a0 : Nat × BitVec 16) : Statement (.telemetry a0) := noWord rfl

theorem thermalLimit (a0 : Nat) (a1 : BitVec 16) : Statement (.thermalLimit a0 a1) := noWord rfl

theorem thermalRecover (a0 : Nat) (a1 : BitVec 16) : Statement (.thermalRecover a0 a1) := noWord rfl

theorem thermalShutdown (a0 : Nat) (a1 : BitVec 16) : Statement (.thermalShutdown a0 a1) := noWord rfl

theorem portTrainingComplete (a0 : Nat) : Statement (.portTrainingComplete a0) := noWord rfl

end Sys2Proof.Laws.Encoding
end

