-- ==== Sys2Proof/Laws/State.lean ====
section
/-! SUPPORT. What each update of the state does to each of its fields, so that no proof unfolds a record update; what the register
operations leave alone; and the canonical form of the two memories under every write (spec 01 R25, R33; 03 R74). -/

namespace Sys2Proof.Machine

/-! ## `onCur` -/

@[simp] theorem State.onCur_cur (s : State) (f : Thread → Thread) : (s.onCur f).cur = f s.cur := rfl
@[simp] theorem State.onCur_cycle (s : State) (f : Thread → Thread) : (s.onCur f).cycle = s.cycle := rfl
@[simp] theorem State.onCur_turnPtr (s : State) (f : Thread → Thread) : (s.onCur f).turnPtr = s.turnPtr := rfl
@[simp] theorem State.onCur_agenda (s : State) (f : Thread → Thread) : (s.onCur f).agenda = s.agenda := rfl
@[simp] theorem State.onCur_pre (s : State) (f : Thread → Thread) : (s.onCur f).pre = s.pre := rfl
@[simp] theorem State.onCur_iss (s : State) (f : Thread → Thread) : (s.onCur f).iss = s.iss := rfl
@[simp] theorem State.onCur_nextId (s : State) (f : Thread → Thread) : (s.onCur f).nextId = s.nextId := rfl
@[simp] theorem State.onCur_freeCount (s : State) (f : Thread → Thread) : (s.onCur f).freeCount = s.freeCount := rfl
@[simp] theorem State.onCur_hbm (s : State) (f : Thread → Thread) : (s.onCur f).hbm = s.hbm := rfl
@[simp] theorem State.onCur_hostMem (s : State) (f : Thread → Thread) : (s.onCur f).hostMem = s.hostMem := rfl
@[simp] theorem State.onCur_lineKeys (s : State) (f : Thread → Thread) : (s.onCur f).lineKeys = s.lineKeys := rfl
@[simp] theorem State.onCur_poison (s : State) (f : Thread → Thread) : (s.onCur f).poison = s.poison := rfl
@[simp] theorem State.onCur_dir (s : State) (f : Thread → Thread) : (s.onCur f).dir = s.dir := rfl
@[simp] theorem State.onCur_groups (s : State) (f : Thread → Thread) : (s.onCur f).groups = s.groups := rfl
@[simp] theorem State.onCur_roll (s : State) (f : Thread → Thread) : (s.onCur f).roll = s.roll := rfl
@[simp] theorem State.onCur_cores (s : State) (f : Thread → Thread) : (s.onCur f).cores = s.cores := rfl
@[simp] theorem State.onCur_clus (s : State) (f : Thread → Thread) : (s.onCur f).clus = s.clus := rfl
@[simp] theorem State.onCur_dies (s : State) (f : Thread → Thread) : (s.onCur f).dies = s.dies := rfl
@[simp] theorem State.onCur_parts (s : State) (f : Thread → Thread) : (s.onCur f).parts = s.parts := rfl
@[simp] theorem State.onCur_lqs (s : State) (f : Thread → Thread) : (s.onCur f).lqs = s.lqs := rfl
@[simp] theorem State.onCur_pending (s : State) (f : Thread → Thread) : (s.onCur f).pending = s.pending := rfl
@[simp] theorem State.onCur_running (s : State) (f : Thread → Thread) : (s.onCur f).running = s.running := rfl
@[simp] theorem State.onCur_acc (s : State) (f : Thread → Thread) : (s.onCur f).acc = s.acc := rfl
@[simp] theorem State.onCur_past (s : State) (f : Thread → Thread) : (s.onCur f).past = s.past := rfl
@[simp] theorem State.onCur_wrote (s : State) (f : Thread → Thread) : (s.onCur f).wrote = s.wrote := rfl
@[simp] theorem State.onCur_away (s : State) (f : Thread → Thread) : (s.onCur f).away = s.away := rfl
@[simp] theorem State.onCur_walks (s : State) (f : Thread → Thread) : (s.onCur f).walks = s.walks := rfl
@[simp] theorem State.onCur_cows (s : State) (f : Thread → Thread) : (s.onCur f).cows = s.cows := rfl
@[simp] theorem State.onCur_rstores (s : State) (f : Thread → Thread) : (s.onCur f).rstores = s.rstores := rfl
@[simp] theorem State.onCur_bounces (s : State) (f : Thread → Thread) : (s.onCur f).bounces = s.bounces := rfl
@[simp] theorem State.onCur_cancels (s : State) (f : Thread → Thread) : (s.onCur f).cancels = s.cancels := rfl
@[simp] theorem State.onCur_joins (s : State) (f : Thread → Thread) : (s.onCur f).joins = s.joins := rfl
@[simp] theorem State.onCur_seqs (s : State) (f : Thread → Thread) : (s.onCur f).seqs = s.seqs := rfl
@[simp] theorem State.onCur_regions (s : State) (f : Thread → Thread) : (s.onCur f).regions = s.regions := rfl
@[simp] theorem State.onCur_worldOps (s : State) (f : Thread → Thread) : (s.onCur f).worldOps = s.worldOps := rfl
@[simp] theorem State.onCur_edges (s : State) (f : Thread → Thread) : (s.onCur f).edges = s.edges := rfl
@[simp] theorem State.onCur_ports (s : State) (f : Thread → Thread) : (s.onCur f).ports = s.ports := rfl
@[simp] theorem State.onCur_firm (s : State) (f : Thread → Thread) : (s.onCur f).firm = s.firm := rfl
@[simp] theorem State.onCur_port (s : State) (f : Thread → Thread) : (s.onCur f).port = s.port := rfl

/-! ## `fresh` -/

@[simp] theorem State.fresh_nextId (s : State) : (s.fresh).nextId = s.nextId + 1 := rfl
@[simp] theorem State.fresh_cycle (s : State) : (s.fresh).cycle = s.cycle := rfl
@[simp] theorem State.fresh_turnPtr (s : State) : (s.fresh).turnPtr = s.turnPtr := rfl
@[simp] theorem State.fresh_agenda (s : State) : (s.fresh).agenda = s.agenda := rfl
@[simp] theorem State.fresh_cur (s : State) : (s.fresh).cur = s.cur := rfl
@[simp] theorem State.fresh_pre (s : State) : (s.fresh).pre = s.pre := rfl
@[simp] theorem State.fresh_iss (s : State) : (s.fresh).iss = s.iss := rfl
@[simp] theorem State.fresh_freeCount (s : State) : (s.fresh).freeCount = s.freeCount := rfl
@[simp] theorem State.fresh_hbm (s : State) : (s.fresh).hbm = s.hbm := rfl
@[simp] theorem State.fresh_hostMem (s : State) : (s.fresh).hostMem = s.hostMem := rfl
@[simp] theorem State.fresh_lineKeys (s : State) : (s.fresh).lineKeys = s.lineKeys := rfl
@[simp] theorem State.fresh_poison (s : State) : (s.fresh).poison = s.poison := rfl
@[simp] theorem State.fresh_dir (s : State) : (s.fresh).dir = s.dir := rfl
@[simp] theorem State.fresh_groups (s : State) : (s.fresh).groups = s.groups := rfl
@[simp] theorem State.fresh_roll (s : State) : (s.fresh).roll = s.roll := rfl
@[simp] theorem State.fresh_cores (s : State) : (s.fresh).cores = s.cores := rfl
@[simp] theorem State.fresh_clus (s : State) : (s.fresh).clus = s.clus := rfl
@[simp] theorem State.fresh_dies (s : State) : (s.fresh).dies = s.dies := rfl
@[simp] theorem State.fresh_parts (s : State) : (s.fresh).parts = s.parts := rfl
@[simp] theorem State.fresh_lqs (s : State) : (s.fresh).lqs = s.lqs := rfl
@[simp] theorem State.fresh_pending (s : State) : (s.fresh).pending = s.pending := rfl
@[simp] theorem State.fresh_running (s : State) : (s.fresh).running = s.running := rfl
@[simp] theorem State.fresh_acc (s : State) : (s.fresh).acc = s.acc := rfl
@[simp] theorem State.fresh_past (s : State) : (s.fresh).past = s.past := rfl
@[simp] theorem State.fresh_wrote (s : State) : (s.fresh).wrote = s.wrote := rfl
@[simp] theorem State.fresh_away (s : State) : (s.fresh).away = s.away := rfl
@[simp] theorem State.fresh_walks (s : State) : (s.fresh).walks = s.walks := rfl
@[simp] theorem State.fresh_cows (s : State) : (s.fresh).cows = s.cows := rfl
@[simp] theorem State.fresh_rstores (s : State) : (s.fresh).rstores = s.rstores := rfl
@[simp] theorem State.fresh_bounces (s : State) : (s.fresh).bounces = s.bounces := rfl
@[simp] theorem State.fresh_cancels (s : State) : (s.fresh).cancels = s.cancels := rfl
@[simp] theorem State.fresh_joins (s : State) : (s.fresh).joins = s.joins := rfl
@[simp] theorem State.fresh_seqs (s : State) : (s.fresh).seqs = s.seqs := rfl
@[simp] theorem State.fresh_regions (s : State) : (s.fresh).regions = s.regions := rfl
@[simp] theorem State.fresh_worldOps (s : State) : (s.fresh).worldOps = s.worldOps := rfl
@[simp] theorem State.fresh_edges (s : State) : (s.fresh).edges = s.edges := rfl
@[simp] theorem State.fresh_ports (s : State) : (s.fresh).ports = s.ports := rfl
@[simp] theorem State.fresh_firm (s : State) : (s.fresh).firm = s.firm := rfl
@[simp] theorem State.fresh_port (s : State) : (s.fresh).port = s.port := rfl

/-! ## `onCore` -/

@[simp] theorem State.onCore_cores (s : State) (k : Nat) (f : Core → Core) : (s.onCore k f).cores = Tab.alter {} k f s.cores := rfl
@[simp] theorem State.onCore_cycle (s : State) (k : Nat) (f : Core → Core) : (s.onCore k f).cycle = s.cycle := rfl
@[simp] theorem State.onCore_turnPtr (s : State) (k : Nat) (f : Core → Core) : (s.onCore k f).turnPtr = s.turnPtr := rfl
@[simp] theorem State.onCore_agenda (s : State) (k : Nat) (f : Core → Core) : (s.onCore k f).agenda = s.agenda := rfl
@[simp] theorem State.onCore_cur (s : State) (k : Nat) (f : Core → Core) : (s.onCore k f).cur = s.cur := rfl
@[simp] theorem State.onCore_pre (s : State) (k : Nat) (f : Core → Core) : (s.onCore k f).pre = s.pre := rfl
@[simp] theorem State.onCore_iss (s : State) (k : Nat) (f : Core → Core) : (s.onCore k f).iss = s.iss := rfl
@[simp] theorem State.onCore_nextId (s : State) (k : Nat) (f : Core → Core) : (s.onCore k f).nextId = s.nextId := rfl
@[simp] theorem State.onCore_freeCount (s : State) (k : Nat) (f : Core → Core) : (s.onCore k f).freeCount = s.freeCount := rfl
@[simp] theorem State.onCore_hbm (s : State) (k : Nat) (f : Core → Core) : (s.onCore k f).hbm = s.hbm := rfl
@[simp] theorem State.onCore_hostMem (s : State) (k : Nat) (f : Core → Core) : (s.onCore k f).hostMem = s.hostMem := rfl
@[simp] theorem State.onCore_lineKeys (s : State) (k : Nat) (f : Core → Core) : (s.onCore k f).lineKeys = s.lineKeys := rfl
@[simp] theorem State.onCore_poison (s : State) (k : Nat) (f : Core → Core) : (s.onCore k f).poison = s.poison := rfl
@[simp] theorem State.onCore_dir (s : State) (k : Nat) (f : Core → Core) : (s.onCore k f).dir = s.dir := rfl
@[simp] theorem State.onCore_groups (s : State) (k : Nat) (f : Core → Core) : (s.onCore k f).groups = s.groups := rfl
@[simp] theorem State.onCore_roll (s : State) (k : Nat) (f : Core → Core) : (s.onCore k f).roll = s.roll := rfl
@[simp] theorem State.onCore_clus (s : State) (k : Nat) (f : Core → Core) : (s.onCore k f).clus = s.clus := rfl
@[simp] theorem State.onCore_dies (s : State) (k : Nat) (f : Core → Core) : (s.onCore k f).dies = s.dies := rfl
@[simp] theorem State.onCore_parts (s : State) (k : Nat) (f : Core → Core) : (s.onCore k f).parts = s.parts := rfl
@[simp] theorem State.onCore_lqs (s : State) (k : Nat) (f : Core → Core) : (s.onCore k f).lqs = s.lqs := rfl
@[simp] theorem State.onCore_pending (s : State) (k : Nat) (f : Core → Core) : (s.onCore k f).pending = s.pending := rfl
@[simp] theorem State.onCore_running (s : State) (k : Nat) (f : Core → Core) : (s.onCore k f).running = s.running := rfl
@[simp] theorem State.onCore_acc (s : State) (k : Nat) (f : Core → Core) : (s.onCore k f).acc = s.acc := rfl
@[simp] theorem State.onCore_past (s : State) (k : Nat) (f : Core → Core) : (s.onCore k f).past = s.past := rfl
@[simp] theorem State.onCore_wrote (s : State) (k : Nat) (f : Core → Core) : (s.onCore k f).wrote = s.wrote := rfl
@[simp] theorem State.onCore_away (s : State) (k : Nat) (f : Core → Core) : (s.onCore k f).away = s.away := rfl
@[simp] theorem State.onCore_walks (s : State) (k : Nat) (f : Core → Core) : (s.onCore k f).walks = s.walks := rfl
@[simp] theorem State.onCore_cows (s : State) (k : Nat) (f : Core → Core) : (s.onCore k f).cows = s.cows := rfl
@[simp] theorem State.onCore_rstores (s : State) (k : Nat) (f : Core → Core) : (s.onCore k f).rstores = s.rstores := rfl
@[simp] theorem State.onCore_bounces (s : State) (k : Nat) (f : Core → Core) : (s.onCore k f).bounces = s.bounces := rfl
@[simp] theorem State.onCore_cancels (s : State) (k : Nat) (f : Core → Core) : (s.onCore k f).cancels = s.cancels := rfl
@[simp] theorem State.onCore_joins (s : State) (k : Nat) (f : Core → Core) : (s.onCore k f).joins = s.joins := rfl
@[simp] theorem State.onCore_seqs (s : State) (k : Nat) (f : Core → Core) : (s.onCore k f).seqs = s.seqs := rfl
@[simp] theorem State.onCore_regions (s : State) (k : Nat) (f : Core → Core) : (s.onCore k f).regions = s.regions := rfl
@[simp] theorem State.onCore_worldOps (s : State) (k : Nat) (f : Core → Core) : (s.onCore k f).worldOps = s.worldOps := rfl
@[simp] theorem State.onCore_edges (s : State) (k : Nat) (f : Core → Core) : (s.onCore k f).edges = s.edges := rfl
@[simp] theorem State.onCore_ports (s : State) (k : Nat) (f : Core → Core) : (s.onCore k f).ports = s.ports := rfl
@[simp] theorem State.onCore_firm (s : State) (k : Nat) (f : Core → Core) : (s.onCore k f).firm = s.firm := rfl
@[simp] theorem State.onCore_port (s : State) (k : Nat) (f : Core → Core) : (s.onCore k f).port = s.port := rfl

/-! ## `onCluster` -/

@[simp] theorem State.onCluster_clus (s : State) (k : Nat) (f : Cluster → Cluster) : (s.onCluster k f).clus = Tab.alter {} k f s.clus := rfl
@[simp] theorem State.onCluster_cycle (s : State) (k : Nat) (f : Cluster → Cluster) : (s.onCluster k f).cycle = s.cycle := rfl
@[simp] theorem State.onCluster_turnPtr (s : State) (k : Nat) (f : Cluster → Cluster) : (s.onCluster k f).turnPtr = s.turnPtr := rfl
@[simp] theorem State.onCluster_agenda (s : State) (k : Nat) (f : Cluster → Cluster) : (s.onCluster k f).agenda = s.agenda := rfl
@[simp] theorem State.onCluster_cur (s : State) (k : Nat) (f : Cluster → Cluster) : (s.onCluster k f).cur = s.cur := rfl
@[simp] theorem State.onCluster_pre (s : State) (k : Nat) (f : Cluster → Cluster) : (s.onCluster k f).pre = s.pre := rfl
@[simp] theorem State.onCluster_iss (s : State) (k : Nat) (f : Cluster → Cluster) : (s.onCluster k f).iss = s.iss := rfl
@[simp] theorem State.onCluster_nextId (s : State) (k : Nat) (f : Cluster → Cluster) : (s.onCluster k f).nextId = s.nextId := rfl
@[simp] theorem State.onCluster_freeCount (s : State) (k : Nat) (f : Cluster → Cluster) : (s.onCluster k f).freeCount = s.freeCount := rfl
@[simp] theorem State.onCluster_hbm (s : State) (k : Nat) (f : Cluster → Cluster) : (s.onCluster k f).hbm = s.hbm := rfl
@[simp] theorem State.onCluster_hostMem (s : State) (k : Nat) (f : Cluster → Cluster) : (s.onCluster k f).hostMem = s.hostMem := rfl
@[simp] theorem State.onCluster_lineKeys (s : State) (k : Nat) (f : Cluster → Cluster) : (s.onCluster k f).lineKeys = s.lineKeys := rfl
@[simp] theorem State.onCluster_poison (s : State) (k : Nat) (f : Cluster → Cluster) : (s.onCluster k f).poison = s.poison := rfl
@[simp] theorem State.onCluster_dir (s : State) (k : Nat) (f : Cluster → Cluster) : (s.onCluster k f).dir = s.dir := rfl
@[simp] theorem State.onCluster_groups (s : State) (k : Nat) (f : Cluster → Cluster) : (s.onCluster k f).groups = s.groups := rfl
@[simp] theorem State.onCluster_roll (s : State) (k : Nat) (f : Cluster → Cluster) : (s.onCluster k f).roll = s.roll := rfl
@[simp] theorem State.onCluster_cores (s : State) (k : Nat) (f : Cluster → Cluster) : (s.onCluster k f).cores = s.cores := rfl
@[simp] theorem State.onCluster_dies (s : State) (k : Nat) (f : Cluster → Cluster) : (s.onCluster k f).dies = s.dies := rfl
@[simp] theorem State.onCluster_parts (s : State) (k : Nat) (f : Cluster → Cluster) : (s.onCluster k f).parts = s.parts := rfl
@[simp] theorem State.onCluster_lqs (s : State) (k : Nat) (f : Cluster → Cluster) : (s.onCluster k f).lqs = s.lqs := rfl
@[simp] theorem State.onCluster_pending (s : State) (k : Nat) (f : Cluster → Cluster) : (s.onCluster k f).pending = s.pending := rfl
@[simp] theorem State.onCluster_running (s : State) (k : Nat) (f : Cluster → Cluster) : (s.onCluster k f).running = s.running := rfl
@[simp] theorem State.onCluster_acc (s : State) (k : Nat) (f : Cluster → Cluster) : (s.onCluster k f).acc = s.acc := rfl
@[simp] theorem State.onCluster_past (s : State) (k : Nat) (f : Cluster → Cluster) : (s.onCluster k f).past = s.past := rfl
@[simp] theorem State.onCluster_wrote (s : State) (k : Nat) (f : Cluster → Cluster) : (s.onCluster k f).wrote = s.wrote := rfl
@[simp] theorem State.onCluster_away (s : State) (k : Nat) (f : Cluster → Cluster) : (s.onCluster k f).away = s.away := rfl
@[simp] theorem State.onCluster_walks (s : State) (k : Nat) (f : Cluster → Cluster) : (s.onCluster k f).walks = s.walks := rfl
@[simp] theorem State.onCluster_cows (s : State) (k : Nat) (f : Cluster → Cluster) : (s.onCluster k f).cows = s.cows := rfl
@[simp] theorem State.onCluster_rstores (s : State) (k : Nat) (f : Cluster → Cluster) : (s.onCluster k f).rstores = s.rstores := rfl
@[simp] theorem State.onCluster_bounces (s : State) (k : Nat) (f : Cluster → Cluster) : (s.onCluster k f).bounces = s.bounces := rfl
@[simp] theorem State.onCluster_cancels (s : State) (k : Nat) (f : Cluster → Cluster) : (s.onCluster k f).cancels = s.cancels := rfl
@[simp] theorem State.onCluster_joins (s : State) (k : Nat) (f : Cluster → Cluster) : (s.onCluster k f).joins = s.joins := rfl
@[simp] theorem State.onCluster_seqs (s : State) (k : Nat) (f : Cluster → Cluster) : (s.onCluster k f).seqs = s.seqs := rfl
@[simp] theorem State.onCluster_regions (s : State) (k : Nat) (f : Cluster → Cluster) : (s.onCluster k f).regions = s.regions := rfl
@[simp] theorem State.onCluster_worldOps (s : State) (k : Nat) (f : Cluster → Cluster) : (s.onCluster k f).worldOps = s.worldOps := rfl
@[simp] theorem State.onCluster_edges (s : State) (k : Nat) (f : Cluster → Cluster) : (s.onCluster k f).edges = s.edges := rfl
@[simp] theorem State.onCluster_ports (s : State) (k : Nat) (f : Cluster → Cluster) : (s.onCluster k f).ports = s.ports := rfl
@[simp] theorem State.onCluster_firm (s : State) (k : Nat) (f : Cluster → Cluster) : (s.onCluster k f).firm = s.firm := rfl
@[simp] theorem State.onCluster_port (s : State) (k : Nat) (f : Cluster → Cluster) : (s.onCluster k f).port = s.port := rfl

/-! ## `onDie` -/

@[simp] theorem State.onDie_dies (s : State) (k : Nat) (f : Die → Die) : (s.onDie k f).dies = Tab.alter {} k f s.dies := rfl
@[simp] theorem State.onDie_cycle (s : State) (k : Nat) (f : Die → Die) : (s.onDie k f).cycle = s.cycle := rfl
@[simp] theorem State.onDie_turnPtr (s : State) (k : Nat) (f : Die → Die) : (s.onDie k f).turnPtr = s.turnPtr := rfl
@[simp] theorem State.onDie_agenda (s : State) (k : Nat) (f : Die → Die) : (s.onDie k f).agenda = s.agenda := rfl
@[simp] theorem State.onDie_cur (s : State) (k : Nat) (f : Die → Die) : (s.onDie k f).cur = s.cur := rfl
@[simp] theorem State.onDie_pre (s : State) (k : Nat) (f : Die → Die) : (s.onDie k f).pre = s.pre := rfl
@[simp] theorem State.onDie_iss (s : State) (k : Nat) (f : Die → Die) : (s.onDie k f).iss = s.iss := rfl
@[simp] theorem State.onDie_nextId (s : State) (k : Nat) (f : Die → Die) : (s.onDie k f).nextId = s.nextId := rfl
@[simp] theorem State.onDie_freeCount (s : State) (k : Nat) (f : Die → Die) : (s.onDie k f).freeCount = s.freeCount := rfl
@[simp] theorem State.onDie_hbm (s : State) (k : Nat) (f : Die → Die) : (s.onDie k f).hbm = s.hbm := rfl
@[simp] theorem State.onDie_hostMem (s : State) (k : Nat) (f : Die → Die) : (s.onDie k f).hostMem = s.hostMem := rfl
@[simp] theorem State.onDie_lineKeys (s : State) (k : Nat) (f : Die → Die) : (s.onDie k f).lineKeys = s.lineKeys := rfl
@[simp] theorem State.onDie_poison (s : State) (k : Nat) (f : Die → Die) : (s.onDie k f).poison = s.poison := rfl
@[simp] theorem State.onDie_dir (s : State) (k : Nat) (f : Die → Die) : (s.onDie k f).dir = s.dir := rfl
@[simp] theorem State.onDie_groups (s : State) (k : Nat) (f : Die → Die) : (s.onDie k f).groups = s.groups := rfl
@[simp] theorem State.onDie_roll (s : State) (k : Nat) (f : Die → Die) : (s.onDie k f).roll = s.roll := rfl
@[simp] theorem State.onDie_cores (s : State) (k : Nat) (f : Die → Die) : (s.onDie k f).cores = s.cores := rfl
@[simp] theorem State.onDie_clus (s : State) (k : Nat) (f : Die → Die) : (s.onDie k f).clus = s.clus := rfl
@[simp] theorem State.onDie_parts (s : State) (k : Nat) (f : Die → Die) : (s.onDie k f).parts = s.parts := rfl
@[simp] theorem State.onDie_lqs (s : State) (k : Nat) (f : Die → Die) : (s.onDie k f).lqs = s.lqs := rfl
@[simp] theorem State.onDie_pending (s : State) (k : Nat) (f : Die → Die) : (s.onDie k f).pending = s.pending := rfl
@[simp] theorem State.onDie_running (s : State) (k : Nat) (f : Die → Die) : (s.onDie k f).running = s.running := rfl
@[simp] theorem State.onDie_acc (s : State) (k : Nat) (f : Die → Die) : (s.onDie k f).acc = s.acc := rfl
@[simp] theorem State.onDie_past (s : State) (k : Nat) (f : Die → Die) : (s.onDie k f).past = s.past := rfl
@[simp] theorem State.onDie_wrote (s : State) (k : Nat) (f : Die → Die) : (s.onDie k f).wrote = s.wrote := rfl
@[simp] theorem State.onDie_away (s : State) (k : Nat) (f : Die → Die) : (s.onDie k f).away = s.away := rfl
@[simp] theorem State.onDie_walks (s : State) (k : Nat) (f : Die → Die) : (s.onDie k f).walks = s.walks := rfl
@[simp] theorem State.onDie_cows (s : State) (k : Nat) (f : Die → Die) : (s.onDie k f).cows = s.cows := rfl
@[simp] theorem State.onDie_rstores (s : State) (k : Nat) (f : Die → Die) : (s.onDie k f).rstores = s.rstores := rfl
@[simp] theorem State.onDie_bounces (s : State) (k : Nat) (f : Die → Die) : (s.onDie k f).bounces = s.bounces := rfl
@[simp] theorem State.onDie_cancels (s : State) (k : Nat) (f : Die → Die) : (s.onDie k f).cancels = s.cancels := rfl
@[simp] theorem State.onDie_joins (s : State) (k : Nat) (f : Die → Die) : (s.onDie k f).joins = s.joins := rfl
@[simp] theorem State.onDie_seqs (s : State) (k : Nat) (f : Die → Die) : (s.onDie k f).seqs = s.seqs := rfl
@[simp] theorem State.onDie_regions (s : State) (k : Nat) (f : Die → Die) : (s.onDie k f).regions = s.regions := rfl
@[simp] theorem State.onDie_worldOps (s : State) (k : Nat) (f : Die → Die) : (s.onDie k f).worldOps = s.worldOps := rfl
@[simp] theorem State.onDie_edges (s : State) (k : Nat) (f : Die → Die) : (s.onDie k f).edges = s.edges := rfl
@[simp] theorem State.onDie_ports (s : State) (k : Nat) (f : Die → Die) : (s.onDie k f).ports = s.ports := rfl
@[simp] theorem State.onDie_firm (s : State) (k : Nat) (f : Die → Die) : (s.onDie k f).firm = s.firm := rfl
@[simp] theorem State.onDie_port (s : State) (k : Nat) (f : Die → Die) : (s.onDie k f).port = s.port := rfl

/-! ## `onPart` -/

@[simp] theorem State.onPart_parts (s : State) (k : Nat) (f : Partition → Partition) : (s.onPart k f).parts = Tab.alter {} k f s.parts := rfl
@[simp] theorem State.onPart_cycle (s : State) (k : Nat) (f : Partition → Partition) : (s.onPart k f).cycle = s.cycle := rfl
@[simp] theorem State.onPart_turnPtr (s : State) (k : Nat) (f : Partition → Partition) : (s.onPart k f).turnPtr = s.turnPtr := rfl
@[simp] theorem State.onPart_agenda (s : State) (k : Nat) (f : Partition → Partition) : (s.onPart k f).agenda = s.agenda := rfl
@[simp] theorem State.onPart_cur (s : State) (k : Nat) (f : Partition → Partition) : (s.onPart k f).cur = s.cur := rfl
@[simp] theorem State.onPart_pre (s : State) (k : Nat) (f : Partition → Partition) : (s.onPart k f).pre = s.pre := rfl
@[simp] theorem State.onPart_iss (s : State) (k : Nat) (f : Partition → Partition) : (s.onPart k f).iss = s.iss := rfl
@[simp] theorem State.onPart_nextId (s : State) (k : Nat) (f : Partition → Partition) : (s.onPart k f).nextId = s.nextId := rfl
@[simp] theorem State.onPart_freeCount (s : State) (k : Nat) (f : Partition → Partition) : (s.onPart k f).freeCount = s.freeCount := rfl
@[simp] theorem State.onPart_hbm (s : State) (k : Nat) (f : Partition → Partition) : (s.onPart k f).hbm = s.hbm := rfl
@[simp] theorem State.onPart_hostMem (s : State) (k : Nat) (f : Partition → Partition) : (s.onPart k f).hostMem = s.hostMem := rfl
@[simp] theorem State.onPart_lineKeys (s : State) (k : Nat) (f : Partition → Partition) : (s.onPart k f).lineKeys = s.lineKeys := rfl
@[simp] theorem State.onPart_poison (s : State) (k : Nat) (f : Partition → Partition) : (s.onPart k f).poison = s.poison := rfl
@[simp] theorem State.onPart_dir (s : State) (k : Nat) (f : Partition → Partition) : (s.onPart k f).dir = s.dir := rfl
@[simp] theorem State.onPart_groups (s : State) (k : Nat) (f : Partition → Partition) : (s.onPart k f).groups = s.groups := rfl
@[simp] theorem State.onPart_roll (s : State) (k : Nat) (f : Partition → Partition) : (s.onPart k f).roll = s.roll := rfl
@[simp] theorem State.onPart_cores (s : State) (k : Nat) (f : Partition → Partition) : (s.onPart k f).cores = s.cores := rfl
@[simp] theorem State.onPart_clus (s : State) (k : Nat) (f : Partition → Partition) : (s.onPart k f).clus = s.clus := rfl
@[simp] theorem State.onPart_dies (s : State) (k : Nat) (f : Partition → Partition) : (s.onPart k f).dies = s.dies := rfl
@[simp] theorem State.onPart_lqs (s : State) (k : Nat) (f : Partition → Partition) : (s.onPart k f).lqs = s.lqs := rfl
@[simp] theorem State.onPart_pending (s : State) (k : Nat) (f : Partition → Partition) : (s.onPart k f).pending = s.pending := rfl
@[simp] theorem State.onPart_running (s : State) (k : Nat) (f : Partition → Partition) : (s.onPart k f).running = s.running := rfl
@[simp] theorem State.onPart_acc (s : State) (k : Nat) (f : Partition → Partition) : (s.onPart k f).acc = s.acc := rfl
@[simp] theorem State.onPart_past (s : State) (k : Nat) (f : Partition → Partition) : (s.onPart k f).past = s.past := rfl
@[simp] theorem State.onPart_wrote (s : State) (k : Nat) (f : Partition → Partition) : (s.onPart k f).wrote = s.wrote := rfl
@[simp] theorem State.onPart_away (s : State) (k : Nat) (f : Partition → Partition) : (s.onPart k f).away = s.away := rfl
@[simp] theorem State.onPart_walks (s : State) (k : Nat) (f : Partition → Partition) : (s.onPart k f).walks = s.walks := rfl
@[simp] theorem State.onPart_cows (s : State) (k : Nat) (f : Partition → Partition) : (s.onPart k f).cows = s.cows := rfl
@[simp] theorem State.onPart_rstores (s : State) (k : Nat) (f : Partition → Partition) : (s.onPart k f).rstores = s.rstores := rfl
@[simp] theorem State.onPart_bounces (s : State) (k : Nat) (f : Partition → Partition) : (s.onPart k f).bounces = s.bounces := rfl
@[simp] theorem State.onPart_cancels (s : State) (k : Nat) (f : Partition → Partition) : (s.onPart k f).cancels = s.cancels := rfl
@[simp] theorem State.onPart_joins (s : State) (k : Nat) (f : Partition → Partition) : (s.onPart k f).joins = s.joins := rfl
@[simp] theorem State.onPart_seqs (s : State) (k : Nat) (f : Partition → Partition) : (s.onPart k f).seqs = s.seqs := rfl
@[simp] theorem State.onPart_regions (s : State) (k : Nat) (f : Partition → Partition) : (s.onPart k f).regions = s.regions := rfl
@[simp] theorem State.onPart_worldOps (s : State) (k : Nat) (f : Partition → Partition) : (s.onPart k f).worldOps = s.worldOps := rfl
@[simp] theorem State.onPart_edges (s : State) (k : Nat) (f : Partition → Partition) : (s.onPart k f).edges = s.edges := rfl
@[simp] theorem State.onPart_ports (s : State) (k : Nat) (f : Partition → Partition) : (s.onPart k f).ports = s.ports := rfl
@[simp] theorem State.onPart_firm (s : State) (k : Nat) (f : Partition → Partition) : (s.onPart k f).firm = s.firm := rfl
@[simp] theorem State.onPart_port (s : State) (k : Nat) (f : Partition → Partition) : (s.onPart k f).port = s.port := rfl

/-! ## `onLq` -/

@[simp] theorem State.onLq_lqs (s : State) (k : Nat) (f : LaunchQueue → LaunchQueue) : (s.onLq k f).lqs = Tab.alter {} k f s.lqs := rfl
@[simp] theorem State.onLq_cycle (s : State) (k : Nat) (f : LaunchQueue → LaunchQueue) : (s.onLq k f).cycle = s.cycle := rfl
@[simp] theorem State.onLq_turnPtr (s : State) (k : Nat) (f : LaunchQueue → LaunchQueue) : (s.onLq k f).turnPtr = s.turnPtr := rfl
@[simp] theorem State.onLq_agenda (s : State) (k : Nat) (f : LaunchQueue → LaunchQueue) : (s.onLq k f).agenda = s.agenda := rfl
@[simp] theorem State.onLq_cur (s : State) (k : Nat) (f : LaunchQueue → LaunchQueue) : (s.onLq k f).cur = s.cur := rfl
@[simp] theorem State.onLq_pre (s : State) (k : Nat) (f : LaunchQueue → LaunchQueue) : (s.onLq k f).pre = s.pre := rfl
@[simp] theorem State.onLq_iss (s : State) (k : Nat) (f : LaunchQueue → LaunchQueue) : (s.onLq k f).iss = s.iss := rfl
@[simp] theorem State.onLq_nextId (s : State) (k : Nat) (f : LaunchQueue → LaunchQueue) : (s.onLq k f).nextId = s.nextId := rfl
@[simp] theorem State.onLq_freeCount (s : State) (k : Nat) (f : LaunchQueue → LaunchQueue) : (s.onLq k f).freeCount = s.freeCount := rfl
@[simp] theorem State.onLq_hbm (s : State) (k : Nat) (f : LaunchQueue → LaunchQueue) : (s.onLq k f).hbm = s.hbm := rfl
@[simp] theorem State.onLq_hostMem (s : State) (k : Nat) (f : LaunchQueue → LaunchQueue) : (s.onLq k f).hostMem = s.hostMem := rfl
@[simp] theorem State.onLq_lineKeys (s : State) (k : Nat) (f : LaunchQueue → LaunchQueue) : (s.onLq k f).lineKeys = s.lineKeys := rfl
@[simp] theorem State.onLq_poison (s : State) (k : Nat) (f : LaunchQueue → LaunchQueue) : (s.onLq k f).poison = s.poison := rfl
@[simp] theorem State.onLq_dir (s : State) (k : Nat) (f : LaunchQueue → LaunchQueue) : (s.onLq k f).dir = s.dir := rfl
@[simp] theorem State.onLq_groups (s : State) (k : Nat) (f : LaunchQueue → LaunchQueue) : (s.onLq k f).groups = s.groups := rfl
@[simp] theorem State.onLq_roll (s : State) (k : Nat) (f : LaunchQueue → LaunchQueue) : (s.onLq k f).roll = s.roll := rfl
@[simp] theorem State.onLq_cores (s : State) (k : Nat) (f : LaunchQueue → LaunchQueue) : (s.onLq k f).cores = s.cores := rfl
@[simp] theorem State.onLq_clus (s : State) (k : Nat) (f : LaunchQueue → LaunchQueue) : (s.onLq k f).clus = s.clus := rfl
@[simp] theorem State.onLq_dies (s : State) (k : Nat) (f : LaunchQueue → LaunchQueue) : (s.onLq k f).dies = s.dies := rfl
@[simp] theorem State.onLq_parts (s : State) (k : Nat) (f : LaunchQueue → LaunchQueue) : (s.onLq k f).parts = s.parts := rfl
@[simp] theorem State.onLq_pending (s : State) (k : Nat) (f : LaunchQueue → LaunchQueue) : (s.onLq k f).pending = s.pending := rfl
@[simp] theorem State.onLq_running (s : State) (k : Nat) (f : LaunchQueue → LaunchQueue) : (s.onLq k f).running = s.running := rfl
@[simp] theorem State.onLq_acc (s : State) (k : Nat) (f : LaunchQueue → LaunchQueue) : (s.onLq k f).acc = s.acc := rfl
@[simp] theorem State.onLq_past (s : State) (k : Nat) (f : LaunchQueue → LaunchQueue) : (s.onLq k f).past = s.past := rfl
@[simp] theorem State.onLq_wrote (s : State) (k : Nat) (f : LaunchQueue → LaunchQueue) : (s.onLq k f).wrote = s.wrote := rfl
@[simp] theorem State.onLq_away (s : State) (k : Nat) (f : LaunchQueue → LaunchQueue) : (s.onLq k f).away = s.away := rfl
@[simp] theorem State.onLq_walks (s : State) (k : Nat) (f : LaunchQueue → LaunchQueue) : (s.onLq k f).walks = s.walks := rfl
@[simp] theorem State.onLq_cows (s : State) (k : Nat) (f : LaunchQueue → LaunchQueue) : (s.onLq k f).cows = s.cows := rfl
@[simp] theorem State.onLq_rstores (s : State) (k : Nat) (f : LaunchQueue → LaunchQueue) : (s.onLq k f).rstores = s.rstores := rfl
@[simp] theorem State.onLq_bounces (s : State) (k : Nat) (f : LaunchQueue → LaunchQueue) : (s.onLq k f).bounces = s.bounces := rfl
@[simp] theorem State.onLq_cancels (s : State) (k : Nat) (f : LaunchQueue → LaunchQueue) : (s.onLq k f).cancels = s.cancels := rfl
@[simp] theorem State.onLq_joins (s : State) (k : Nat) (f : LaunchQueue → LaunchQueue) : (s.onLq k f).joins = s.joins := rfl
@[simp] theorem State.onLq_seqs (s : State) (k : Nat) (f : LaunchQueue → LaunchQueue) : (s.onLq k f).seqs = s.seqs := rfl
@[simp] theorem State.onLq_regions (s : State) (k : Nat) (f : LaunchQueue → LaunchQueue) : (s.onLq k f).regions = s.regions := rfl
@[simp] theorem State.onLq_worldOps (s : State) (k : Nat) (f : LaunchQueue → LaunchQueue) : (s.onLq k f).worldOps = s.worldOps := rfl
@[simp] theorem State.onLq_edges (s : State) (k : Nat) (f : LaunchQueue → LaunchQueue) : (s.onLq k f).edges = s.edges := rfl
@[simp] theorem State.onLq_ports (s : State) (k : Nat) (f : LaunchQueue → LaunchQueue) : (s.onLq k f).ports = s.ports := rfl
@[simp] theorem State.onLq_firm (s : State) (k : Nat) (f : LaunchQueue → LaunchQueue) : (s.onLq k f).firm = s.firm := rfl
@[simp] theorem State.onLq_port (s : State) (k : Nat) (f : LaunchQueue → LaunchQueue) : (s.onLq k f).port = s.port := rfl

/-! ## `onGroup` -/

@[simp] theorem State.onGroup_cycle (s : State) (k : Nat) (f : Group → Group) : (s.onGroup k f).cycle = s.cycle := by unfold State.onGroup; split <;> rfl
@[simp] theorem State.onGroup_turnPtr (s : State) (k : Nat) (f : Group → Group) : (s.onGroup k f).turnPtr = s.turnPtr := by unfold State.onGroup; split <;> rfl
@[simp] theorem State.onGroup_agenda (s : State) (k : Nat) (f : Group → Group) : (s.onGroup k f).agenda = s.agenda := by unfold State.onGroup; split <;> rfl
@[simp] theorem State.onGroup_cur (s : State) (k : Nat) (f : Group → Group) : (s.onGroup k f).cur = s.cur := by unfold State.onGroup; split <;> rfl
@[simp] theorem State.onGroup_pre (s : State) (k : Nat) (f : Group → Group) : (s.onGroup k f).pre = s.pre := by unfold State.onGroup; split <;> rfl
@[simp] theorem State.onGroup_iss (s : State) (k : Nat) (f : Group → Group) : (s.onGroup k f).iss = s.iss := by unfold State.onGroup; split <;> rfl
@[simp] theorem State.onGroup_nextId (s : State) (k : Nat) (f : Group → Group) : (s.onGroup k f).nextId = s.nextId := by unfold State.onGroup; split <;> rfl
@[simp] theorem State.onGroup_freeCount (s : State) (k : Nat) (f : Group → Group) : (s.onGroup k f).freeCount = s.freeCount := by unfold State.onGroup; split <;> rfl
@[simp] theorem State.onGroup_hbm (s : State) (k : Nat) (f : Group → Group) : (s.onGroup k f).hbm = s.hbm := by unfold State.onGroup; split <;> rfl
@[simp] theorem State.onGroup_hostMem (s : State) (k : Nat) (f : Group → Group) : (s.onGroup k f).hostMem = s.hostMem := by unfold State.onGroup; split <;> rfl
@[simp] theorem State.onGroup_lineKeys (s : State) (k : Nat) (f : Group → Group) : (s.onGroup k f).lineKeys = s.lineKeys := by unfold State.onGroup; split <;> rfl
@[simp] theorem State.onGroup_poison (s : State) (k : Nat) (f : Group → Group) : (s.onGroup k f).poison = s.poison := by unfold State.onGroup; split <;> rfl
@[simp] theorem State.onGroup_dir (s : State) (k : Nat) (f : Group → Group) : (s.onGroup k f).dir = s.dir := by unfold State.onGroup; split <;> rfl
@[simp] theorem State.onGroup_roll (s : State) (k : Nat) (f : Group → Group) : (s.onGroup k f).roll = s.roll := by unfold State.onGroup; split <;> rfl
@[simp] theorem State.onGroup_cores (s : State) (k : Nat) (f : Group → Group) : (s.onGroup k f).cores = s.cores := by unfold State.onGroup; split <;> rfl
@[simp] theorem State.onGroup_clus (s : State) (k : Nat) (f : Group → Group) : (s.onGroup k f).clus = s.clus := by unfold State.onGroup; split <;> rfl
@[simp] theorem State.onGroup_dies (s : State) (k : Nat) (f : Group → Group) : (s.onGroup k f).dies = s.dies := by unfold State.onGroup; split <;> rfl
@[simp] theorem State.onGroup_parts (s : State) (k : Nat) (f : Group → Group) : (s.onGroup k f).parts = s.parts := by unfold State.onGroup; split <;> rfl
@[simp] theorem State.onGroup_lqs (s : State) (k : Nat) (f : Group → Group) : (s.onGroup k f).lqs = s.lqs := by unfold State.onGroup; split <;> rfl
@[simp] theorem State.onGroup_pending (s : State) (k : Nat) (f : Group → Group) : (s.onGroup k f).pending = s.pending := by unfold State.onGroup; split <;> rfl
@[simp] theorem State.onGroup_running (s : State) (k : Nat) (f : Group → Group) : (s.onGroup k f).running = s.running := by unfold State.onGroup; split <;> rfl
@[simp] theorem State.onGroup_acc (s : State) (k : Nat) (f : Group → Group) : (s.onGroup k f).acc = s.acc := by unfold State.onGroup; split <;> rfl
@[simp] theorem State.onGroup_past (s : State) (k : Nat) (f : Group → Group) : (s.onGroup k f).past = s.past := by unfold State.onGroup; split <;> rfl
@[simp] theorem State.onGroup_wrote (s : State) (k : Nat) (f : Group → Group) : (s.onGroup k f).wrote = s.wrote := by unfold State.onGroup; split <;> rfl
@[simp] theorem State.onGroup_away (s : State) (k : Nat) (f : Group → Group) : (s.onGroup k f).away = s.away := by unfold State.onGroup; split <;> rfl
@[simp] theorem State.onGroup_walks (s : State) (k : Nat) (f : Group → Group) : (s.onGroup k f).walks = s.walks := by unfold State.onGroup; split <;> rfl
@[simp] theorem State.onGroup_cows (s : State) (k : Nat) (f : Group → Group) : (s.onGroup k f).cows = s.cows := by unfold State.onGroup; split <;> rfl
@[simp] theorem State.onGroup_rstores (s : State) (k : Nat) (f : Group → Group) : (s.onGroup k f).rstores = s.rstores := by unfold State.onGroup; split <;> rfl
@[simp] theorem State.onGroup_bounces (s : State) (k : Nat) (f : Group → Group) : (s.onGroup k f).bounces = s.bounces := by unfold State.onGroup; split <;> rfl
@[simp] theorem State.onGroup_cancels (s : State) (k : Nat) (f : Group → Group) : (s.onGroup k f).cancels = s.cancels := by unfold State.onGroup; split <;> rfl
@[simp] theorem State.onGroup_joins (s : State) (k : Nat) (f : Group → Group) : (s.onGroup k f).joins = s.joins := by unfold State.onGroup; split <;> rfl
@[simp] theorem State.onGroup_seqs (s : State) (k : Nat) (f : Group → Group) : (s.onGroup k f).seqs = s.seqs := by unfold State.onGroup; split <;> rfl
@[simp] theorem State.onGroup_regions (s : State) (k : Nat) (f : Group → Group) : (s.onGroup k f).regions = s.regions := by unfold State.onGroup; split <;> rfl
@[simp] theorem State.onGroup_worldOps (s : State) (k : Nat) (f : Group → Group) : (s.onGroup k f).worldOps = s.worldOps := by unfold State.onGroup; split <;> rfl
@[simp] theorem State.onGroup_edges (s : State) (k : Nat) (f : Group → Group) : (s.onGroup k f).edges = s.edges := by unfold State.onGroup; split <;> rfl
@[simp] theorem State.onGroup_ports (s : State) (k : Nat) (f : Group → Group) : (s.onGroup k f).ports = s.ports := by unfold State.onGroup; split <;> rfl
@[simp] theorem State.onGroup_firm (s : State) (k : Nat) (f : Group → Group) : (s.onGroup k f).firm = s.firm := by unfold State.onGroup; split <;> rfl
@[simp] theorem State.onGroup_port (s : State) (k : Nat) (f : Group → Group) : (s.onGroup k f).port = s.port := by unfold State.onGroup; split <;> rfl

/-! ## `onRoll` -/

@[simp] theorem State.onRoll_cycle (s : State) (k : Nat) (f : RollEntry → RollEntry) : (s.onRoll k f).cycle = s.cycle := by unfold State.onRoll; split <;> rfl
@[simp] theorem State.onRoll_turnPtr (s : State) (k : Nat) (f : RollEntry → RollEntry) : (s.onRoll k f).turnPtr = s.turnPtr := by unfold State.onRoll; split <;> rfl
@[simp] theorem State.onRoll_agenda (s : State) (k : Nat) (f : RollEntry → RollEntry) : (s.onRoll k f).agenda = s.agenda := by unfold State.onRoll; split <;> rfl
@[simp] theorem State.onRoll_cur (s : State) (k : Nat) (f : RollEntry → RollEntry) : (s.onRoll k f).cur = s.cur := by unfold State.onRoll; split <;> rfl
@[simp] theorem State.onRoll_pre (s : State) (k : Nat) (f : RollEntry → RollEntry) : (s.onRoll k f).pre = s.pre := by unfold State.onRoll; split <;> rfl
@[simp] theorem State.onRoll_iss (s : State) (k : Nat) (f : RollEntry → RollEntry) : (s.onRoll k f).iss = s.iss := by unfold State.onRoll; split <;> rfl
@[simp] theorem State.onRoll_nextId (s : State) (k : Nat) (f : RollEntry → RollEntry) : (s.onRoll k f).nextId = s.nextId := by unfold State.onRoll; split <;> rfl
@[simp] theorem State.onRoll_freeCount (s : State) (k : Nat) (f : RollEntry → RollEntry) : (s.onRoll k f).freeCount = s.freeCount := by unfold State.onRoll; split <;> rfl
@[simp] theorem State.onRoll_hbm (s : State) (k : Nat) (f : RollEntry → RollEntry) : (s.onRoll k f).hbm = s.hbm := by unfold State.onRoll; split <;> rfl
@[simp] theorem State.onRoll_hostMem (s : State) (k : Nat) (f : RollEntry → RollEntry) : (s.onRoll k f).hostMem = s.hostMem := by unfold State.onRoll; split <;> rfl
@[simp] theorem State.onRoll_lineKeys (s : State) (k : Nat) (f : RollEntry → RollEntry) : (s.onRoll k f).lineKeys = s.lineKeys := by unfold State.onRoll; split <;> rfl
@[simp] theorem State.onRoll_poison (s : State) (k : Nat) (f : RollEntry → RollEntry) : (s.onRoll k f).poison = s.poison := by unfold State.onRoll; split <;> rfl
@[simp] theorem State.onRoll_dir (s : State) (k : Nat) (f : RollEntry → RollEntry) : (s.onRoll k f).dir = s.dir := by unfold State.onRoll; split <;> rfl
@[simp] theorem State.onRoll_groups (s : State) (k : Nat) (f : RollEntry → RollEntry) : (s.onRoll k f).groups = s.groups := by unfold State.onRoll; split <;> rfl
@[simp] theorem State.onRoll_cores (s : State) (k : Nat) (f : RollEntry → RollEntry) : (s.onRoll k f).cores = s.cores := by unfold State.onRoll; split <;> rfl
@[simp] theorem State.onRoll_clus (s : State) (k : Nat) (f : RollEntry → RollEntry) : (s.onRoll k f).clus = s.clus := by unfold State.onRoll; split <;> rfl
@[simp] theorem State.onRoll_dies (s : State) (k : Nat) (f : RollEntry → RollEntry) : (s.onRoll k f).dies = s.dies := by unfold State.onRoll; split <;> rfl
@[simp] theorem State.onRoll_parts (s : State) (k : Nat) (f : RollEntry → RollEntry) : (s.onRoll k f).parts = s.parts := by unfold State.onRoll; split <;> rfl
@[simp] theorem State.onRoll_lqs (s : State) (k : Nat) (f : RollEntry → RollEntry) : (s.onRoll k f).lqs = s.lqs := by unfold State.onRoll; split <;> rfl
@[simp] theorem State.onRoll_pending (s : State) (k : Nat) (f : RollEntry → RollEntry) : (s.onRoll k f).pending = s.pending := by unfold State.onRoll; split <;> rfl
@[simp] theorem State.onRoll_running (s : State) (k : Nat) (f : RollEntry → RollEntry) : (s.onRoll k f).running = s.running := by unfold State.onRoll; split <;> rfl
@[simp] theorem State.onRoll_acc (s : State) (k : Nat) (f : RollEntry → RollEntry) : (s.onRoll k f).acc = s.acc := by unfold State.onRoll; split <;> rfl
@[simp] theorem State.onRoll_past (s : State) (k : Nat) (f : RollEntry → RollEntry) : (s.onRoll k f).past = s.past := by unfold State.onRoll; split <;> rfl
@[simp] theorem State.onRoll_wrote (s : State) (k : Nat) (f : RollEntry → RollEntry) : (s.onRoll k f).wrote = s.wrote := by unfold State.onRoll; split <;> rfl
@[simp] theorem State.onRoll_away (s : State) (k : Nat) (f : RollEntry → RollEntry) : (s.onRoll k f).away = s.away := by unfold State.onRoll; split <;> rfl
@[simp] theorem State.onRoll_walks (s : State) (k : Nat) (f : RollEntry → RollEntry) : (s.onRoll k f).walks = s.walks := by unfold State.onRoll; split <;> rfl
@[simp] theorem State.onRoll_cows (s : State) (k : Nat) (f : RollEntry → RollEntry) : (s.onRoll k f).cows = s.cows := by unfold State.onRoll; split <;> rfl
@[simp] theorem State.onRoll_rstores (s : State) (k : Nat) (f : RollEntry → RollEntry) : (s.onRoll k f).rstores = s.rstores := by unfold State.onRoll; split <;> rfl
@[simp] theorem State.onRoll_bounces (s : State) (k : Nat) (f : RollEntry → RollEntry) : (s.onRoll k f).bounces = s.bounces := by unfold State.onRoll; split <;> rfl
@[simp] theorem State.onRoll_cancels (s : State) (k : Nat) (f : RollEntry → RollEntry) : (s.onRoll k f).cancels = s.cancels := by unfold State.onRoll; split <;> rfl
@[simp] theorem State.onRoll_joins (s : State) (k : Nat) (f : RollEntry → RollEntry) : (s.onRoll k f).joins = s.joins := by unfold State.onRoll; split <;> rfl
@[simp] theorem State.onRoll_seqs (s : State) (k : Nat) (f : RollEntry → RollEntry) : (s.onRoll k f).seqs = s.seqs := by unfold State.onRoll; split <;> rfl
@[simp] theorem State.onRoll_regions (s : State) (k : Nat) (f : RollEntry → RollEntry) : (s.onRoll k f).regions = s.regions := by unfold State.onRoll; split <;> rfl
@[simp] theorem State.onRoll_worldOps (s : State) (k : Nat) (f : RollEntry → RollEntry) : (s.onRoll k f).worldOps = s.worldOps := by unfold State.onRoll; split <;> rfl
@[simp] theorem State.onRoll_edges (s : State) (k : Nat) (f : RollEntry → RollEntry) : (s.onRoll k f).edges = s.edges := by unfold State.onRoll; split <;> rfl
@[simp] theorem State.onRoll_ports (s : State) (k : Nat) (f : RollEntry → RollEntry) : (s.onRoll k f).ports = s.ports := by unfold State.onRoll; split <;> rfl
@[simp] theorem State.onRoll_firm (s : State) (k : Nat) (f : RollEntry → RollEntry) : (s.onRoll k f).firm = s.firm := by unfold State.onRoll; split <;> rfl
@[simp] theorem State.onRoll_port (s : State) (k : Nat) (f : RollEntry → RollEntry) : (s.onRoll k f).port = s.port := by unfold State.onRoll; split <;> rfl

/-! ## `onThread` -/

@[simp] theorem State.onThread_cycle (s : State) (g t : Nat) (f : Thread → Thread) : (s.onThread g t f).cycle = s.cycle := by unfold State.onThread; split <;> simp
@[simp] theorem State.onThread_turnPtr (s : State) (g t : Nat) (f : Thread → Thread) : (s.onThread g t f).turnPtr = s.turnPtr := by unfold State.onThread; split <;> simp
@[simp] theorem State.onThread_agenda (s : State) (g t : Nat) (f : Thread → Thread) : (s.onThread g t f).agenda = s.agenda := by unfold State.onThread; split <;> simp
@[simp] theorem State.onThread_pre (s : State) (g t : Nat) (f : Thread → Thread) : (s.onThread g t f).pre = s.pre := by unfold State.onThread; split <;> simp
@[simp] theorem State.onThread_iss (s : State) (g t : Nat) (f : Thread → Thread) : (s.onThread g t f).iss = s.iss := by unfold State.onThread; split <;> simp
@[simp] theorem State.onThread_nextId (s : State) (g t : Nat) (f : Thread → Thread) : (s.onThread g t f).nextId = s.nextId := by unfold State.onThread; split <;> simp
@[simp] theorem State.onThread_freeCount (s : State) (g t : Nat) (f : Thread → Thread) : (s.onThread g t f).freeCount = s.freeCount := by unfold State.onThread; split <;> simp
@[simp] theorem State.onThread_hbm (s : State) (g t : Nat) (f : Thread → Thread) : (s.onThread g t f).hbm = s.hbm := by unfold State.onThread; split <;> simp
@[simp] theorem State.onThread_hostMem (s : State) (g t : Nat) (f : Thread → Thread) : (s.onThread g t f).hostMem = s.hostMem := by unfold State.onThread; split <;> simp
@[simp] theorem State.onThread_lineKeys (s : State) (g t : Nat) (f : Thread → Thread) : (s.onThread g t f).lineKeys = s.lineKeys := by unfold State.onThread; split <;> simp
@[simp] theorem State.onThread_poison (s : State) (g t : Nat) (f : Thread → Thread) : (s.onThread g t f).poison = s.poison := by unfold State.onThread; split <;> simp
@[simp] theorem State.onThread_dir (s : State) (g t : Nat) (f : Thread → Thread) : (s.onThread g t f).dir = s.dir := by unfold State.onThread; split <;> simp
@[simp] theorem State.onThread_roll (s : State) (g t : Nat) (f : Thread → Thread) : (s.onThread g t f).roll = s.roll := by unfold State.onThread; split <;> simp
@[simp] theorem State.onThread_cores (s : State) (g t : Nat) (f : Thread → Thread) : (s.onThread g t f).cores = s.cores := by unfold State.onThread; split <;> simp
@[simp] theorem State.onThread_clus (s : State) (g t : Nat) (f : Thread → Thread) : (s.onThread g t f).clus = s.clus := by unfold State.onThread; split <;> simp
@[simp] theorem State.onThread_dies (s : State) (g t : Nat) (f : Thread → Thread) : (s.onThread g t f).dies = s.dies := by unfold State.onThread; split <;> simp
@[simp] theorem State.onThread_parts (s : State) (g t : Nat) (f : Thread → Thread) : (s.onThread g t f).parts = s.parts := by unfold State.onThread; split <;> simp
@[simp] theorem State.onThread_lqs (s : State) (g t : Nat) (f : Thread → Thread) : (s.onThread g t f).lqs = s.lqs := by unfold State.onThread; split <;> simp
@[simp] theorem State.onThread_pending (s : State) (g t : Nat) (f : Thread → Thread) : (s.onThread g t f).pending = s.pending := by unfold State.onThread; split <;> simp
@[simp] theorem State.onThread_running (s : State) (g t : Nat) (f : Thread → Thread) : (s.onThread g t f).running = s.running := by unfold State.onThread; split <;> simp
@[simp] theorem State.onThread_acc (s : State) (g t : Nat) (f : Thread → Thread) : (s.onThread g t f).acc = s.acc := by unfold State.onThread; split <;> simp
@[simp] theorem State.onThread_past (s : State) (g t : Nat) (f : Thread → Thread) : (s.onThread g t f).past = s.past := by unfold State.onThread; split <;> simp
@[simp] theorem State.onThread_wrote (s : State) (g t : Nat) (f : Thread → Thread) : (s.onThread g t f).wrote = s.wrote := by unfold State.onThread; split <;> simp
@[simp] theorem State.onThread_away (s : State) (g t : Nat) (f : Thread → Thread) : (s.onThread g t f).away = s.away := by unfold State.onThread; split <;> simp
@[simp] theorem State.onThread_walks (s : State) (g t : Nat) (f : Thread → Thread) : (s.onThread g t f).walks = s.walks := by unfold State.onThread; split <;> simp
@[simp] theorem State.onThread_cows (s : State) (g t : Nat) (f : Thread → Thread) : (s.onThread g t f).cows = s.cows := by unfold State.onThread; split <;> simp
@[simp] theorem State.onThread_rstores (s : State) (g t : Nat) (f : Thread → Thread) : (s.onThread g t f).rstores = s.rstores := by unfold State.onThread; split <;> simp
@[simp] theorem State.onThread_bounces (s : State) (g t : Nat) (f : Thread → Thread) : (s.onThread g t f).bounces = s.bounces := by unfold State.onThread; split <;> simp
@[simp] theorem State.onThread_cancels (s : State) (g t : Nat) (f : Thread → Thread) : (s.onThread g t f).cancels = s.cancels := by unfold State.onThread; split <;> simp
@[simp] theorem State.onThread_joins (s : State) (g t : Nat) (f : Thread → Thread) : (s.onThread g t f).joins = s.joins := by unfold State.onThread; split <;> simp
@[simp] theorem State.onThread_seqs (s : State) (g t : Nat) (f : Thread → Thread) : (s.onThread g t f).seqs = s.seqs := by unfold State.onThread; split <;> simp
@[simp] theorem State.onThread_regions (s : State) (g t : Nat) (f : Thread → Thread) : (s.onThread g t f).regions = s.regions := by unfold State.onThread; split <;> simp
@[simp] theorem State.onThread_worldOps (s : State) (g t : Nat) (f : Thread → Thread) : (s.onThread g t f).worldOps = s.worldOps := by unfold State.onThread; split <;> simp
@[simp] theorem State.onThread_edges (s : State) (g t : Nat) (f : Thread → Thread) : (s.onThread g t f).edges = s.edges := by unfold State.onThread; split <;> simp
@[simp] theorem State.onThread_ports (s : State) (g t : Nat) (f : Thread → Thread) : (s.onThread g t f).ports = s.ports := by unfold State.onThread; split <;> simp
@[simp] theorem State.onThread_firm (s : State) (g t : Nat) (f : Thread → Thread) : (s.onThread g t f).firm = s.firm := by unfold State.onThread; split <;> simp
@[simp] theorem State.onThread_port (s : State) (g t : Nat) (f : Thread → Thread) : (s.onThread g t f).port = s.port := by unfold State.onThread; split <;> simp

/-! ## The issuing thread's registers are updates of its live copy -/

theorem State.wr_eq (s : State) (r : SReg) (v : Word) : s.wr r v = s.onCur fun t => t.write s.cycle r.toNat v := rfl
theorem State.wrNext_eq (s : State) (r : SReg) (k : Nat) (v : Word) : s.wrNext r k v = s.onCur fun t => t.write s.cycle (r.toNat + k) v := rfl
theorem State.wrV_eq (s : State) (r : VReg) (x : RunReg) : s.wrV r x = s.onCur fun t => t.writeV s.cycle r.toNat x := rfl
theorem State.wrP_eq (s : State) (p : PReg) (b : Bool) : s.wrP p b = s.onCur fun t => t.setPred p.toNat b := rfl
theorem State.orFlags_eq (s : State) (f : Flags) : s.orFlags f = s.onCur fun t => { t with flags := t.flags ||| f } := rfl
theorem State.jump_eq (s : State) (x : Word) : s.jump x = s.onCur fun t => { t with pc := x } := rfl

theorem modifyNth_length {α : Type} (n : Nat) (f : α → α) (l : List α) : (modifyNth n f l).length = l.length := by
  induction l generalizing n with
  | nil => simp [modifyNth]
  | cons x l ih => cases n <;> simp [modifyNth, ih]

theorem modifyNth_getD_same {α : Type} (n : Nat) (f : α → α) (l : List α) (d : α) (h : n < l.length) :
    (modifyNth n f l).getD n d = f (l.getD n d) := by
  induction l generalizing n with
  | nil => simp at h
  | cons x l ih => cases n with
    | zero => simp [modifyNth]
    | succ n => simpa [modifyNth] using ih n (by simpa using h)

theorem modifyNth_getD_other {α : Type} {n m : Nat} (f : α → α) (l : List α) (d : α) (h : m ≠ n) :
    (modifyNth n f l).getD m d = l.getD m d := by
  induction l generalizing n m with
  | nil => simp [modifyNth]
  | cons x l ih => cases n with
    | zero => cases m with
      | zero => omega
      | succ m => simp [modifyNth]
    | succ n => cases m with
      | zero => simp [modifyNth]
      | succ m => simpa [modifyNth] using ih (n := n) (m := m) (by omega)

/-- A register written is full, unmarked, unpoisoned and holds the value; `s0` stays as it is (R26, R74). -/
theorem Thread.reg_write_same (t : Thread) (now r : Nat) (v : Word) (h : r < t.regs.length) (n : r ≠ 0) :
    (t.write now r v).reg r = { val := v } := by
  simp only [Thread.write, Thread.setReg, Thread.reg, if_neg n]
  rw [modifyNth_getD_same _ _ _ _ h]

/-- Every other register is unchanged. -/
theorem Thread.reg_write_other (t : Thread) (now r q : Nat) (v : Word) (n : q ≠ r) : (t.write now r v).reg q = t.reg q := by
  by_cases h : r = 0
  · simp [Thread.write, h]
  · simp only [Thread.write, Thread.setReg, Thread.reg, if_neg h]
    rw [modifyNth_getD_other _ _ _ n]

theorem Thread.vreg_writeV_same (t : Thread) (now r : Nat) (x : RunReg) (h : r < t.vregs.length) :
    (t.writeV now r x).vreg r = { run := x } := by
  simp only [Thread.writeV, Thread.setVReg, Thread.vreg]
  rw [modifyNth_getD_same _ _ _ _ h]

theorem Thread.vreg_writeV_other (t : Thread) (now r q : Nat) (x : RunReg) (n : q ≠ r) : (t.writeV now r x).vreg q = t.vreg q := by
  simp only [Thread.writeV, Thread.setVReg, Thread.vreg]
  rw [modifyNth_getD_other _ _ _ n]

/-! ## The two memories -/

theorem State.rekey_wf {s : State} (h : Memory.wf s.hbm = true) (k l : Nat) : Memory.wf (s.rekey k l).hbm = true := by
  unfold State.rekey; split
  · exact h
  · generalize s.lineUnder k l = bs
    exact memPuts_wf h (l * 128) bs

theorem State.putHbm_wf {s : State} (h : Memory.wf s.hbm = true) (k a : Nat) (b : Byte) : Memory.wf (s.putHbm k a b).hbm = true :=
  memPut_wf (State.rekey_wf h _ _) _ _

theorem State.putHbms_wf {s : State} (h : Memory.wf s.hbm = true) (k a : Nat) (bs : List Byte) :
    Memory.wf (s.putHbms k a bs).hbm = true := by
  induction bs generalizing s a with
  | nil => exact h
  | cons b bs ih => exact ih (State.putHbm_wf h k a b) (a + 1)

@[simp] theorem State.rekey_hostMem (s : State) (k l : Nat) : (s.rekey k l).hostMem = s.hostMem := by
  unfold State.rekey; split <;> rfl
@[simp] theorem State.putHbms_hostMem (s : State) (k a : Nat) (bs : List Byte) : (s.putHbms k a bs).hostMem = s.hostMem := by
  induction bs generalizing s a with
  | nil => rfl
  | cons b bs ih => rw [State.putHbms, ih]; simp [State.putHbm]

/-- A write of physical memory keeps both memories in canonical form. -/
theorem State.writePhys_wf {s : State} (h : Memory.wf s.hbm = true ∧ Memory.wf s.hostMem = true) (host : Bool) (k a : Nat) (bs : List Byte) :
    Memory.wf (s.writePhys host k a bs).hbm = true ∧ Memory.wf (s.writePhys host k a bs).hostMem = true := by
  unfold State.writePhys; split
  · exact ⟨h.1, memPuts_wf h.2 a bs⟩
  · exact ⟨State.putHbms_wf h.1 k a bs, by simpa using h.2⟩

/-- The memories after a cold reset are in canonical form. -/
theorem State.reset_wf : Memory.wf State.reset.hbm = true ∧ Memory.wf State.reset.hostMem = true := ⟨rfl, rfl⟩

end Sys2Proof.Machine
end

