-- ==== Sys2Proof/Machine/HostRead.lean ====
section
/-! DEFINITION. What the host reads from the register blocks of the port's two functions: reserved bits and offsets, and bits that can
only be written, read as 0 (spec 00 R8; 18 R348; 19 R365, R367, R381; 20 R383, R395, R403; 21 R404, R411). A read changes nothing. -/

namespace Sys2Proof.Machine

/-- A field at bit `lo`. -/
def regField (lo v : Nat) : Word := BitVec.ofNat 64 (v * 2 ^ lo)

/-- The register at offset `o` of launch queue `q` (R348). -/
def LaunchQueue.readReg (q : LaunchQueue) (o : Nat) : Word :=
  match o with
  | 0 => q.base
  | 8 => regField 31 (bitNat q.en) ||| regField 16 q.size ||| regField 0 q.part
  | 16 => q.head.setWidth 64
  | 24 => q.tail.setWidth 64
  | 32 => q.stat.setWidth 64
  | _ => 0#64

/-- The register at offset `o` of a partition's task queue (R348). -/
def Partition.readTask (p : Partition) (o : Nat) : Word :=
  match o with
  | 0 => p.tqBase
  | 8 => regField 31 (bitNat p.tqEn) ||| regField 0 p.tqSize
  | _ => 0#64

/-- The register at offset `o` of a partition's block (R365, R366). -/
def Partition.readReg (p : Partition) (o : Nat) : Word :=
  match o with
  | 0 => p.root
  | 8 => p.mvec
  | 16 => regField 63 (bitNat p.shoot.isSome)
  | 24 => p.bbase
  | 32 => regField 32 p.bhead.toNat ||| regField 31 (bitNat p.ben) ||| regField 0 p.bsize
  | 40 => p.btail.setWidth 64
  | 48 => regField 63 (bitNat p.stopped) ||| regField 0 (bitNat p.stop)
  | 56 => p.dbg
  | _ => 0#64

/-- FULL of a die's fault queue: a record waits, and it cannot be posted (R367). -/
def State.fqFull (s : State) (die : Nat) : Bool :=
  let d := s.die die
  !d.fqWait.isEmpty && (!d.fqEn || !s.fqFree die d.fqNext)

/-- The register at offset `o` of a die's fault registers (R367). -/
def State.readFault (s : State) (die o : Nat) : Word :=
  let d := s.die die
  match o with
  | 0 => d.fqBase
  | 8 => regField 32 d.fqHead.toNat ||| regField 31 (bitNat d.fqEn) ||| regField 30 (bitNat (s.fqFull die)) ||| regField 0 d.fqSize
  | 16 => d.lkBase
  | 24 => regField 0 d.lkSize
  | _ => 0#64

/-- The register at offset `o` of a die's telemetry (R411). -/
def Die.readTelemetry (d : Die) (o : Nat) : Word :=
  match o with
  | 0 => regField 32 290 ||| regField 16 d.copy.cap ||| regField 0 d.copy.est
  | 8 => d.copy.tj.setWidth 64
  | 16 => d.copy.grant
  | 24 => d.copy.half
  | 32 => d.copy.ce
  | 40 => d.copy.ue
  | 48 => d.copy.retry
  | 56 => d.copy.scrub
  | _ => 0#64

/-- PT.MAP of cluster `k` (R404). -/
def Cluster.readMap (k : Cluster) : Word := regField 63 (bitNat k.moving.isSome) ||| regField 0 k.part

/-- The eight bytes at offset `off` of the compute function's BAR0; `none` while it does not respond (R32, R412). -/
def State.readBar0 (s : State) (off : Nat) : Option Word :=
  if !s.serving then none
  else some (
    if off < 0x1000 then (s.lq (off / 64)).readReg (off % 64)
    else if off < 0x1000 + 32 * 288 then (s.partn ((off - 0x1000) / 32)).readTask ((off - 0x1000) % 32)
    else if off < 0x4000 then 0#64
    else if off < 0x4000 + 64 * 288 then (s.partn ((off - 0x4000) / 64)).readReg ((off - 0x4000) % 64)
    else if off < 0x9000 then 0#64
    else if off < 0x9000 + 64 * 24 then s.readFault ((off - 0x9000) / 64) ((off - 0x9000) % 64)
    else if off = 0xA000 then s.port.podBase
    else if off = 0xA008 then regField 0 (bitNat s.port.podEn)
    else if off < 0xB000 then 0#64
    else if off < 0xB000 + 8 * 288 then (if off % 8 = 0 then (s.cluster ((off - 0xB000) / 8)).readMap else 0#64)
    else if off < 0xC000 then 0#64
    else if off < 0xC000 + 128 * 24 then (s.die ((off - 0xC000) / 128)).readTelemetry ((off - 0xC000) % 128)
    else 0#64)

/-- The eight bytes at offset `off` of the management function's BAR0 (R383, R395). -/
def State.readMgmt (s : State) (off : Nat) : Word := if off = 0 then s.firm.mbBase else 0#64

end Sys2Proof.Machine
end

