-- ==== Sys2Proof/Tests/Slice0.lean ====
section
/-! SUPPORT. Tests: fields that no instruction may have, words written out from the encodings of the manual, results that the manual works
out, and for every statement a state that meets its hypotheses. -/

namespace Sys2Proof.Tests

set_option Elab.async false

open Sys2Proof Sys2Proof.Machine

/-! ## Fields that the checks refuse (spec 08 R207, R209, R210, R212, R220; 10 R274) -/

theorem test_ill_formed_scalar :
    (Instr.ldq 3 0 0).illFormed = some .oddPair ∧ (Instr.stq 9 0 0).illFormed = some .oddPair ∧
    (Instr.ldx .q 5 0 0).illFormed = some .oddPair ∧ (Instr.stx .q 127 0 0).illFormed = some .oddPair ∧
    (Instr.cas false true 4 0 7).illFormed = some .oddPair ∧ (Instr.faadd true false 1 2 3).illFormed = some .unusedField ∧
    (Instr.enq 6 0).illFormed = some .noQueue ∧ (Instr.csrr 1 0x00D).illFormed = some .noCsr ∧ (Instr.csrw 1 0x055).illFormed = some .noCsr := by
  decide

theorem test_ill_formed_types :
    (Instr.vadd 1 2 3 0 .b1).illFormed = some .badType ∧ (Instr.vaddS 1 2 3 .f8 false).illFormed = some .badType ∧
    (Instr.vfma 1 2 3 0 .f4).illFormed = some .badType ∧ (Instr.vneg 1 2 0 .b1).illFormed = some .badType ∧
    (Instr.vand 1 2 3 0 .f32).illFormed = some .badType ∧ (Instr.vshl 1 2 3 0 .f64).illFormed = some .badType ∧
    (Instr.vcpsgn 1 2 3 0 .i32).illFormed = some .badType ∧ (Instr.vcmp .un 1 2 3 0 .i8).illFormed = some .badType ∧
    (Instr.viota 1 .f16).illFormed = some .badType ∧ (Instr.vred .xor 1 2 .f32).illFormed = some .badType ∧
    (Instr.vldStr 1 2 3 .f4).illFormed = some .badType ∧ (Instr.vsct 1 2 3 .b1 false).illFormed = some .badType ∧
    (Instr.vldBank 1 2 3 .b1).illFormed = some .badType := by
  decide

theorem test_ill_formed_mask : (Instr.vsel 1 2 3 0 .i8).illFormed = some .noMask ∧ (Instr.vsel 1 2 3 4 .i8).wellFormed = true := by decide

/-! ## Words written out from the manual's encodings (spec 08 R204, R209-R212) -/

/-- A word from its fields, given as values and widths from bit 31 down. -/
def word (fs : List (Nat × Nat)) : Code := BitVec.ofNat 32 (fs.foldl (fun w f => w * 2 ^ f.2 + f.1) 0)

theorem test_decode_arithmetic :
    decodeWord (word [(0, 2), (0, 6), (1, 7), (2, 7), (3, 7), (1, 3)]) = some (.sub 1 2 3) ∧
    decodeWord (word [(0, 2), (1, 6), (127, 7), (64, 7), (33, 7), (6, 3)]) = some (.mul 127 64 33) ∧
    decodeWord (word [(0, 2), (2, 6), (5, 7), (6, 7), (0, 7), (5, 3)]) = some (.clz 5 6) ∧
    decodeWord (word [(0, 2), (2, 6), (5, 7), (6, 7), (7, 7), (1, 3)]) = some (.div 5 6 7) ∧
    decodeWord (word [(0, 2), (3, 6), (9, 7), (8, 7), (0, 7), (2, 3)]) = some (.sxw 9 8) ∧
    decodeWord (word [(0, 2), (3, 6), (9, 7), (8, 7), (7, 7), (7, 3)]) = some (.bins 9 8 7) ∧
    decodeWord (word [(0, 2), (4, 6), (1, 7), (2, 7), (3, 7), (5, 3)]) = some (.lea 1 2 3 5) ∧
    decodeWord (word [(0, 2), (5, 6), (3, 3), (0, 4), (4, 7), (5, 7), (3, 3)]) = some (.cmp 3 .ge 4 5) ∧
    decodeWord (word [(0, 2), (6, 6), (2, 3), (6, 3), (0, 1), (9, 7), (1023, 10)]) = some (.cmpi 2 .tst 9 0x3FF) ∧
    decodeWord (word [(0, 2), (7, 6), (1, 7), (2, 7), (3, 7), (6, 3)]) = some (.sel 1 6 2 3) ∧
    decodeWord (word [(0, 2), (11, 6), (1, 7), (2, 7), (512, 10)]) = some (.xori 1 2 0x200) ∧
    decodeWord (word [(0, 2), (12, 6), (1, 7), (2, 7), (575, 10)]) = some (.shfi .sra 1 2 63) ∧
    decodeWord (word [(0, 2), (13, 6), (4, 7), (131071, 17)]) = some (.movi 4 0x1FFFF) ∧
    decodeWord (word [(0, 2), (15, 6), (1, 3), (2, 3), (3, 3), (0, 12), (3, 3)]) = some (.pandn 1 2 3) ∧
    decodeWord (word [(0, 2), (15, 6), (7, 3), (5, 3), (0, 3), (0, 12), (4, 3)]) = some (.pnot 7 5) := by
  decide +kernel

theorem test_decode_memory :
    decodeWord (word [(0, 2), (18, 6), (10, 7), (11, 7), (1023, 10)]) = some (.ldw 10 11 0x3FF) ∧
    decodeWord (word [(0, 2), (23, 6), (8, 7), (2, 7), (2, 10)]) = some (.ldq 8 2 2) ∧
    decodeWord (word [(0, 2), (27, 6), (10, 7), (11, 7), (1, 10)]) = some (.std 10 11 1) ∧
    decodeWord (word [(0, 2), (29, 6), (4, 7), (5, 7), (6, 7), (7, 3)]) = some (.ldx .q 4 5 6) ∧
    decodeWord (word [(0, 2), (30, 6), (3, 7), (4, 7), (5, 7), (2, 3)]) = some (.stx .w 3 4 5) ∧
    decodeWord (word [(0, 2), (31, 6), (1, 7), (2, 7), (3, 7), (7, 3)]) = some (.amoC .swp 1 2 3) ∧
    decodeWord (word [(0, 2), (32, 6), (1, 7), (2, 7), (3, 7), (0, 3)]) = some (.amoG .add 1 2 3) ∧
    decodeWord (word [(0, 2), (33, 6), (20, 7), (10, 7), (22, 7), (3, 3)]) = some (.cas true true 20 10 22) ∧
    decodeWord (word [(0, 2), (34, 6), (9, 7), (8, 7), (5, 7), (3, 3)]) = some (.faadd true true 9 8 5) ∧
    decodeWord (word [(0, 2), (35, 6), (3, 3), (2, 2), (1, 1), (0, 18)]) = some (.fence .package .rel true) := by
  decide +kernel

theorem test_decode_control :
    decodeWord (word [(0, 2), (36, 6), (2, 3), (1, 1), (25, 20)]) = some (.br 2 true 25) ∧
    decodeWord (word [(0, 2), (37, 6), (16777214, 24)]) = some (.call 0xFFFFFE) ∧
    decodeWord (word [(0, 2), (38, 6), (0, 7), (1, 7), (0, 7), (0, 3)]) = some (.jmpr 0 1) ∧
    decodeWord (word [(0, 2), (57, 6), (0, 7), (9, 7), (0, 7), (1, 3)]) = some (.trap 9) ∧
    decodeWord (word [(0, 2), (57, 6), (0, 7), (0, 7), (0, 7), (2, 3)]) = some (.eret) ∧
    decodeWord (word [(0, 2), (57, 6), (5, 7), (0, 7), (0, 7), (4, 3)]) = some (.time 5) ∧
    decodeWord (word [(0, 2), (55, 6), (5, 7), (0, 7), (20, 10)]) = some (.csrr 5 0x014) ∧
    decodeWord (word [(0, 2), (56, 6), (0, 7), (7, 7), (4, 10)]) = some (.csrw 7 0x004) := by
  decide +kernel

theorem test_decode_floating :
    decodeWord (word [(0, 2), (39, 6), (1, 7), (2, 7), (3, 7), (7, 3)]) = some (.fsgnD 1 2 3) ∧
    decodeWord (word [(0, 2), (40, 6), (1, 7), (2, 7), (0, 7), (6, 3)]) = some (.fsqrtS 1 2) ∧
    decodeWord (word [(0, 2), (41, 6), (1, 7), (2, 7), (3, 7), (3, 3)]) = some (.ffma true true 1 2 3) ∧
    decodeWord (word [(0, 2), (42, 6), (1, 7), (2, 7), (0, 7), (2, 3)]) = some (.fcvt .i64f64rtz 1 2) ∧
    decodeWord (word [(0, 2), (43, 6), (5, 3), (0, 4), (2, 7), (3, 7), (6, 3)]) = some (.fcmp 5 .le true 2 3) := by
  decide +kernel

theorem test_decode_groups :
    decodeWord (word [(0, 2), (44, 6), (6, 7), (12, 7), (0, 7), (1, 3)]) = some (.spawnQ 6 12) ∧
    decodeWord (word [(0, 2), (45, 6), (7, 7), (3, 7), (9, 7), (0, 3)]) = some (.rss 7 3 9) ∧
    decodeWord (word [(0, 2), (46, 6), (5, 4), (0, 3), (3, 7), (9, 7), (1, 3)]) = some (.rsvT 5 3 9) ∧
    decodeWord (word [(0, 2), (47, 6), (8, 7), (6, 7), (0, 7), (4, 3)]) = some (.join 8 6) ∧
    decodeWord (word [(0, 2), (48, 6), (3, 7), (20, 7), (0, 7), (2, 3)]) = some (.test 3 20) ∧
    decodeWord (word [(0, 2), (48, 6), (2, 7), (7, 7), (0, 7), (3, 3)]) = some (.vtake 2 7) ∧
    decodeWord (word [(0, 2), (49, 6), (3, 4), (1, 2), (0, 7), (13, 7), (1, 1), (2, 3)]) = some (.wldN 3 1 0 13 2) ∧
    decodeWord (word [(0, 2), (50, 6), (1, 4), (0, 2), (2, 7), (3, 7), (0, 1), (0, 3)]) = some (.wst 1 0 2 3) ∧
    decodeWord (word [(0, 2), (51, 6), (9, 7), (0, 7), (1, 2), (0, 5), (4, 3)]) = some (.wclock 9 1) ∧
    decodeWord (word [(0, 2), (52, 6), (4, 7), (10, 7), (11, 7), (0, 3)]) = some (.fork 4 10 11) ∧
    decodeWord (word [(0, 2), (53, 6), (7, 7), (255, 8), (0, 7), (1, 2)]) = some (.sadd 7 255) ∧
    decodeWord (word [(0, 2), (54, 6), (1, 3), (0, 4), (8, 7), (0, 10)]) = some (.enq 1 8) := by
  decide +kernel

theorem test_decode_vector :
    decodeWord (word [(1, 2), (0, 6), (1, 4), (2, 4), (3, 4), (4, 4), (10, 4), (14, 4)]) = some (.vcpsgn 1 2 3 4 .f32) ∧
    decodeWord (word [(1, 2), (1, 6), (1, 4), (2, 4), (77, 7), (3, 4), (1, 4), (1, 1)]) = some (.vsubS 1 2 77 .i64 true) ∧
    decodeWord (word [(1, 2), (2, 6), (1, 4), (2, 4), (3, 4), (0, 4), (8, 4), (2, 4)]) = some (.vfmaE 1 2 3 0 .f16) ∧
    decodeWord (word [(1, 2), (3, 6), (15, 4), (14, 4), (0, 4), (13, 4), (4, 4), (11, 4)]) = some (.vpopc 15 14 13 .u8) ∧
    decodeWord (word [(1, 2), (4, 6), (1, 4), (2, 4), (3, 4), (0, 4), (11, 4), (6, 4)]) = some (.vcmp .un 1 2 3 0 .f64) ∧
    decodeWord (word [(1, 2), (5, 6), (1, 4), (2, 4), (3, 4), (4, 4), (14, 4), (0, 4)]) = some (.vsel 1 2 3 4 .b1) ∧
    decodeWord (word [(1, 2), (6, 6), (1, 4), (2, 4), (2, 4), (0, 4), (10, 4), (4, 4)]) = some (.vcvt 1 2 .i32 0 .f32 .cround) ∧
    decodeWord (word [(1, 2), (7, 6), (4, 4), (0, 4), (0, 7), (2, 4), (1, 4), (0, 1)]) = some (.viota 4 .i32) ∧
    decodeWord (word [(1, 2), (8, 6), (0, 4), (3, 4), (9, 7), (6, 4), (7, 4), (0, 1)]) = some (.vred .first 9 3 .u32) ∧
    decodeWord (word [(1, 2), (9, 6), (0, 4), (3, 4), (9, 7), (5, 4), (3, 4), (0, 1)]) = some (.vextr 9 3 .u16) ∧
    decodeWord (word [(1, 2), (10, 6), (1, 4), (2, 4), (5, 7), (0, 4), (3, 4), (0, 1)]) = some (.vcat 1 2 5 .i8) := by
  decide +kernel

theorem test_decode_vector_memory :
    decodeWord (word [(1, 2), (11, 6), (1, 4), (20, 7), (21, 7), (3, 4), (1, 2)]) = some (.vldStr 1 20 21 .i64) ∧
    decodeWord (word [(1, 2), (11, 6), (1, 4), (20, 7), (21, 7), (10, 4), (3, 2)]) = some (.vldBank 1 20 21 .f32) ∧
    decodeWord (word [(1, 2), (12, 6), (6, 4), (20, 7), (0, 7), (11, 4), (0, 2)]) = some (.vstDense 6 20 .f64) ∧
    decodeWord (word [(1, 2), (13, 6), (1, 4), (20, 7), (9, 7), (2, 4), (1, 2)]) = some (.vgth 1 20 9 .i32 true) ∧
    decodeWord (word [(1, 2), (14, 6), (1, 4), (20, 7), (9, 7), (2, 4), (0, 2)]) = some (.vsct 1 20 9 .i32 false) := by
  decide +kernel

/-- Unassigned: a major, a function, a condition, a scope, and reserved fields that are not zero (R213). -/
theorem test_decode_unassigned :
    decodeWord (word [(0, 2), (0x3A, 6), (0, 24)]) = none ∧ decodeWord (word [(1, 2), (0x0F, 6), (0, 24)]) = none ∧
    decodeWord (word [(0, 2), (0x2C, 6), (0, 21), (2, 3)]) = none ∧ decodeWord (word [(0, 2), (0x23, 6), (6, 3), (0, 21)]) = none ∧
    decodeWord (word [(0, 2), (0x02, 6), (1, 7), (2, 7), (1, 7), (5, 3)]) = none ∧ decodeWord (word [(0, 2), (0x0F, 6), (0, 21), (7, 3)]) = none ∧
    decodeWord (word [(1, 2), (0x00, 6), (0, 16), (0, 4), (15, 4)]) = none ∧ decodeWord (word [(1, 2), (0x00, 6), (0, 16), (15, 4), (0, 4)]) = none ∧
    decodeWord (word [(0, 2), (0x39, 6), (1, 7), (0, 17)]) = none := by
  decide +kernel

/-- Words that the manual writes out (spec 08, 09, 11, Worked encodings). -/
theorem test_decode_worked :
    decodeWord 0x0E1C1FC0#32 = some (.lui 14 0x1FC0) ∧ decodeWord 0x212818B3#32 = some (.cas true true 20 6 22) ∧
    decodeWord 0x2212102B#32 = some (.faadd true true 9 4 5) ∧ decodeWord 0x23700000#32 = some (.fence .package .rel false) ∧
    decodeWord 0x26000400#32 = some (.jmpr 0 1) ∧ decodeWord 0x06241800#32 = some (.cmpi 1 .ne 6 0) ∧
    decodeWord 0x302A5000#32 = some (.take 21 20) ∧ decodeWord 0x36202000#32 = some (.enq 1 8) ∧ decodeWord 0x39000000#32 = some .nop ∧
    decodeWord 0x2C0C3001#32 = some (.spawnQ 6 12) ∧ decodeWord 0x47400042#32 = some (.viota 4 .i32) := by
  decide +kernel
/-! ## States for the witnesses -/

/-- Whether nothing stands against an instruction, as a function. -/
def clear (i : Instr) (s : State) : Bool :=
  let u := regUse i
  i.illFormed.isNone && (!privileged i || s.pre.monitor) && u.fields.all (fun r => decide (r < s.pre.regs.length))
    && u.vfields.all (fun r => decide (r < s.pre.vregs.length)) && u.reads.all (fun r => (s.pre.reg r).full)
    && u.vreads.all (fun r => (s.pre.vreg r).full) && (u.writes ++ u.hidden).all (fun r => (s.pre.reg r).full)
    && u.vwrites.all (fun r => (s.pre.vreg r).full) && u.empties.all (fun r => !(s.pre.reg r).mark) && u.vempties.all (fun r => !(s.pre.vreg r).mark)
    && s.pre.loads.isEmpty && u.reads.all (fun r => (s.pre.reg r).poison.isNone) && u.vreads.all (fun r => (s.pre.vreg r).poison.isNone)

theorem clear_sound {i : Instr} {s : State} (h : clear i s = true) : Clear i s := by
  simp only [clear, Bool.and_eq_true, List.all_eq_true, decide_eq_true_eq, Bool.or_eq_true, Option.isNone_iff_eq_none,
    Bool.not_eq_true', List.isEmpty_iff] at h
  obtain ⟨⟨⟨⟨⟨⟨⟨⟨⟨⟨⟨⟨a, b⟩, c⟩, d⟩, e⟩, f⟩, g⟩, k⟩, l⟩, m⟩, n⟩, o⟩, p⟩ := h
  exact ⟨a, fun q => by simpa [q] using b, c, d, e, f, g, k, l, m, .inl n, o, p⟩

/-- The machine in which thread 0 of group 1 is issuing on core 0, as `f` of a thread with every register full and zero. -/
def demo (f : Thread → Thread) : State :=
  let t := f placedThread
  { State.reset.placed [] with
    cur := t
    pre := t
    iss := { live := true, group := 1, pc := BitVec.ofNat 64 placeAddr } }

/-- A thread with values in its scalar registers. -/
def withRegs (rs : List (Nat × Nat)) (t : Thread) : Thread :=
  rs.foldl (fun t r => t.setReg r.1 { val := BitVec.ofNat 64 r.2 }) t

/-- A thread with runs in its run registers. -/
def withRuns (rs : List (Nat × RunReg)) (t : Thread) : Thread := rs.foldl (fun t r => t.setVReg r.1 { run := r.2 }) t

theorem clear_all {is : List Instr} {s : State} (h : is.all (fun i => clear i s) = true) : ∀ i ∈ is, Clear i s :=
  fun i m => clear_sound (List.all_eq_true.mp h i m)

/-- Memory at 0x2000 of die 0 as `n` bytes of one piece. -/
def here (n : Nat) : List Piece := [{ host := false, addr := 0x2000, key := 0, cc := 0, off := 0, len := n, va := 0x2000, pageSize := 65536 }]

/-- Whether a range is memory that the issuing thread may reach, as a function. -/
def reaches (s : State) (ty : AccessType) (va n : Nat) (ps : List Piece) : Bool :=
  !isWindow va && decide (s.planAll false s.iss.group s.me.branch s.iss.core ty (n == 16) 0 [(va, n)] = .ok ps) && !ps.isEmpty
    && ps.all (fun p => !p.pool && decide (p.stage = .pending)) && (s.lockedAt s.iss.group s.iss.core (ty.store || ty.atomic) [(va, n)]).isNone

theorem reaches_sound {s : State} {ty : AccessType} {va n : Nat} {ps : List Piece} (h : reaches s ty va n ps = true) : Reaches s ty va n ps := by
  simp only [reaches, Bool.and_eq_true, Bool.not_eq_true', decide_eq_true_eq, List.all_eq_true, Option.isNone_iff_eq_none] at h
  obtain ⟨⟨⟨⟨a, b⟩, c⟩, d⟩, e⟩ := h
  exact ⟨a, b, by simpa using c, d, e⟩

/-- The same for several ranges. -/
def reachesAll (s : State) (ty : AccessType) (rs : List (Nat × Nat)) (ps : List Piece) : Bool :=
  decide (s.planAll false s.iss.group s.me.branch s.iss.core ty false 0 (rs.filter fun r => r.2 != 0) = .ok ps) && !ps.isEmpty
    && ps.all (fun p => !p.pool && decide (p.stage = .pending))
    && (s.lockedAt s.iss.group s.iss.core (ty.store || ty.atomic) (rs.filter fun r => r.2 != 0)).isNone

theorem reachesAll_sound {s : State} {ty : AccessType} {rs : List (Nat × Nat)} {ps : List Piece} (h : reachesAll s ty rs ps = true) :
    ReachesAll s ty rs ps := by
  simp only [reachesAll, Bool.and_eq_true, Bool.not_eq_true', decide_eq_true_eq, List.all_eq_true, Option.isNone_iff_eq_none] at h
  obtain ⟨⟨⟨b, c⟩, d⟩, e⟩ := h
  exact ⟨b, by simpa using c, d, e⟩

/-! ## Witnesses: scalar instructions -/

theorem witness_IntegerAlu : ∀ i ∈ [Instr.add 1 2 3, .sub 127 127 127, .and 0 2 3, .or 1 1 1, .xor 1 2 3, .andn 1 2 3, .shl 1 2 3, .shr 1 2 3, .sra 1 2 3,
    .rot 1 2 3, .min 1 2 3, .max 1 2 3, .minu 1 2 3, .maxu 1 2 3, .mul 1 2 3, .mulh 1 2 3, .mulhu 1 2 3, .clz 1 2, .ctz 1 2, .popc 1 2, .sxb 1 2,
    .sxh 1 2, .sxw 1 2, .zxb 1 2, .zxh 1 2, .zxw 1 2], Clear i (demo id) := clear_all (by decide +kernel)

theorem witness_Division : ∀ i ∈ [Instr.div 1 2 3, .divu 1 2 3, .rem 1 2 3, .remu 1 2 3],
    Clear i (demo id) ∧ Clear i (demo (withRegs [(2, 2 ^ 63), (3, 2 ^ 64 - 1)])) :=
  fun i m => ⟨clear_all (by decide +kernel) i m, clear_all (by decide +kernel) i m⟩

theorem witness_FieldsLeaAndImmediates : ∀ i ∈ [Instr.bext 1 2 3, .bins 1 2 3, .lea 1 2 3 7, .addi 1 2 0x200, .andi 1 2 5, .ori 1 2 5, .xori 1 2 5,
    .shfi .shl 1 2 63, .shfi .shr 1 2 0, .shfi .sra 1 2 1, .shfi .rot 1 2 1, .movi 1 0x10000, .lui 1 1], Clear i (demo id) :=
  clear_all (by decide +kernel)

theorem witness_ComparesAndPredicates : ∀ i ∈ [Instr.cmp 1 .eq 2 3, .cmpi 0 .tstn 2 0x3FF, .pand 1 2 3, .por 1 2 3, .pxor 1 2 3, .pandn 1 2 3, .pnot 1 0,
    .pset 7, .pclr 0, .sel 1 7 2 3], Clear i (demo id) := clear_all (by decide +kernel)

theorem witness_LoadsAndStores :
    let s := demo (withRegs [(2, 0x2000)])
    (∀ i ∈ [Instr.ldb 1 2 0, .ldh 0 2 0, .ldw 1 2 0, .ldd 1 2 0, .ldbu 1 2 0, .ldhu 1 2 0, .ldwu 1 2 0, .ldq 126 2 0, .ldx .q 4 2 3, .stb 1 2 0, .sth 1 2 0,
      .stw 1 2 0, .std 1 2 0, .stq 4 2 0, .stx .q 4 2 3], Clear i s) ∧
    (∀ n ∈ [1, 2, 4, 8, 16], Reaches s { load := true, user := !s.pre.monitor } 0x2000 n (here n) ∧
      Reaches s { store := true, user := !s.pre.monitor } 0x2000 n (here n)) ∧
    (∀ n ∈ [1, 2, 4, 8, 16], ((0x2000 : Nat) : Int) = ((s.rd 2).toNat + (0#10).toInt * n) % 2 ^ 64) ∧ 0x2000 = ((s.rd 2).toNat + (s.rd 3).toNat) % 2 ^ 64 ∧
    (∀ p ∈ here 16, s.l1Hit p = false) ∧ (let h := s.onCluster 0 fun c => { c with l2 := [{ host := false, line := 64, key := 0, cores := [0] }] }
      h.past = [] ∧ h.dir = [] ∧ ∀ p ∈ here 16, h.l1Hit p = true ∧ h.physPoison p.host p.addr p.len = none) := by
  refine ⟨clear_all (by decide +kernel), fun n h => ?_, by decide +kernel, by decide +kernel, by decide +kernel, by decide +kernel⟩
  simp only [List.mem_cons, List.not_mem_nil, or_false] at h
  rcases h with rfl | rfl | rfl | rfl | rfl <;> exact ⟨reaches_sound (by decide +kernel), reaches_sound (by decide +kernel)⟩

/-- The last bytes of the scratchpad, and its first ones. -/
theorem witness_ScratchpadAccess :
    let s := demo (withRegs [(2, 0xFF00000000000000), (3, 0xFF000000000003F0)])
    Unhurried s ∧ (Tab.find s.iss.group s.groups).isSome ∧ Tab.canonical 0#8 s.me.scratch = true ∧
    (∀ i ∈ [Instr.ldb 1 2 0, .ldq 4 3 0, .stb 1 2 0, .stq 4 3 0, .ldx .d 1 2 5, .stx .d 1 3 5], Clear i s) ∧
    InScratch s false 0xFF00000000000000 1 ∧ InScratch s true 0xFF000000000003F0 16 ∧ s.winPoison s.iss.group 0x3F0 16 = none := by
  refine ⟨⟨?_, ?_, ?_, ?_, ?_, ?_⟩, by decide +kernel, by decide +kernel, clear_all (by decide +kernel), ⟨?_, ?_, ?_, ?_⟩, ⟨?_, ?_, ?_, ?_⟩, ?_⟩ <;> decide +kernel

/-- Scalar register 5, slot 1 of v2 and its header, the header of v2, semaphore 1; the first semaphore past the limit, and half a register. -/
theorem witness_ScratchpadAccess_window :
    let s := demo (withRegs [(2, 0xFF00000001000028), (3, 0xFF00000002000810), (4, 0xFF00000002000818), (5, 0xFF00000002800010), (6, 0xFF00000003000004),
      (7, 0xFF00000003000020), (8, 0xFF00000001000004)])
    (∀ i ∈ [Instr.ldd 1 2 0, .std 1 2 0, .ldd 1 3 0, .std 1 3 0, .ldq 10 3 0, .stq 10 3 0, .ldh 1 4 0, .ldhu 1 4 0, .sth 1 4 0, .ldd 1 5 0, .std 1 5 0, .ldw 1 6 0,
      .ldwu 1 6 0, .stw 1 6 0, .ldw 1 7 0, .ldw 1 8 0, .ldb 1 2 0, .std 1 7 0], Clear i s) ∧
    (∀ r ∈ [2, 3, 4, 5, 6, 7, 8], isWindow (s.rd r).toNat = true) ∧ Unhurried s ∧ s.me.semQ = [] ∧
    windowOff (s.rd 2).toNat = 0x1000000 + 65536 * 0 + 8 * 5 ∧ windowOff (s.rd 3).toNat = 0x2000000 + 65536 * 0 + 0x400 * 2 + 16 * 1 ∧
    windowOff (s.rd 4).toNat = 0x2000000 + 65536 * 0 + 0x400 * 2 + 16 * 1 + 8 ∧ windowOff (s.rd 5).toNat = 0x2800000 + 65536 * 0 + 8 * 2 ∧
    windowOff (s.rd 6).toNat = 0x3000000 + 4 * 1 ∧ windowOff (s.rd 7).toNat = 0x3000000 + 4 * s.me.task.sems ∧ windowOff (s.rd 8).toNat = 0x1000004 ∧
    0 < s.me.threads.length ∧ 5 < s.me.task.sregs ∧ 2 < s.me.task.vregs ∧ 1 < s.me.task.sems ∧ 1 < s.me.sems.length ∧ s.me.task.scratch = 1 ∧
    ((s.thread s.iss.group 0).reg 5).mark = false ∧ ((s.thread s.iss.group 0).vreg 2).mark = false ∧
    (((s.onThread 1 0 fun t => t.mark 5).thread 1 0).reg 5).mark = true := by
  refine ⟨clear_all ?_, ?_, ⟨?_, ?_, ?_, ?_, ?_, ?_⟩, ?_⟩ <;> decide +kernel

theorem witness_AtomicsAndAlignment :
    let s := demo (withRegs [(2, 0x2000), (5, 0x2004), (6, 0xFF00000000000000)])
    (∀ i ∈ [Instr.amoC .add 1 2 3, .amoG .swp 0 2 3, .cas false false 1 2 3, .cas true true 20 2 22, .faadd true false 0 2 3, .faadd false true 9 2 3,
      .ldq 4 5 0, .stq 4 5 0, .ldx .q 4 5 3, .stx .q 4 5 3, .amoC .add 1 5 3, .amoG .add 1 6 3, .cas true true 20 6 22, .faadd true true 9 5 3], Clear i s) ∧
    (∀ n ∈ [4, 8, 16], Reaches s { atomic := true, user := !s.pre.monitor } 0x2000 n (here n) ∧ ∀ p ∈ here n, ¬ (p.host = true ∧ p.cc = 3)) ∧
    (s.rd 5).toNat % 8 ≠ 0 ∧ (s.rd 5).toNat % 16 ≠ 0 ∧ isWindow (s.rd 6).toNat = true := by
  refine ⟨clear_all (by decide +kernel), fun n h => ⟨?_, ?_⟩, by decide +kernel, by decide +kernel, by decide +kernel⟩
  · simp only [List.mem_cons, List.not_mem_nil, or_false] at h
    rcases h with rfl | rfl | rfl <;> exact reaches_sound (by decide +kernel)
  · simp [here]

theorem witness_WritesReadBack : State.reset.MemOk ∧ (State.reset.placed [1#8, 0#8, 2#8]).MemOk := by
  refine ⟨⟨?_, ?_, ?_⟩, ⟨?_, ?_, ?_⟩⟩ <;> decide +kernel

theorem witness_ControlFlow :
    let s := demo (withRegs [(2, 0x2000), (3, 0x2002)])
    (∀ i ∈ [Instr.br 0 false 0x80000, .br 1 true 1, .call 0x800000, .jmpr 2 2, .jmpr 0 3], Clear i s) ∧ (s.rd 2).toNat % 4 = 0 ∧ (s.rd 3).toNat % 4 ≠ 0 :=
  ⟨clear_all (by decide +kernel), by decide +kernel, by decide +kernel⟩

theorem witness_SystemInstructions :
    let s := demo (fun t => withRegs [(2, 4096), (3, 4097)] { t with monitor := true, tcause := 0x8000#64, epc := 0x40#64 })
    let u := demo (fun t => { t with tcause := 0x8000#64, epc := 2#64, inCancel := true })
    (∀ i ∈ [Instr.nop, .trap 1, .brk, .halt, .time 0, .kidx 1, .vsetl 2, .vsetl 3, .fence .system .full true, .eret], Clear i s) ∧
    (s.rd 2).toNat ≤ 4096 ∧ 4096 < (s.rd 3).toNat ∧ s.pre.tcause.getLsbD 15 = true ∧ s.pre.inCancel = false ∧ s.pre.epc.toNat % 4 = 0 ∧
    Clear .eret u ∧ u.pre.inCancel = true ∧ u.pre.epc.toNat % 4 ≠ 0 ∧ Clear .eret (demo id) ∧ (demo id).pre.tcause.getLsbD 15 = false :=
  ⟨clear_all (by decide +kernel), by decide +kernel, by decide +kernel, by decide +kernel, by decide +kernel, by decide +kernel, clear_sound (by decide +kernel),
    by decide +kernel, by decide +kernel, clear_sound (by decide +kernel), by decide +kernel⟩

theorem witness_FloatingPoint : ∀ i ∈ [Instr.faddD 1 2 3, .fsubD 1 2 3, .fmulD 1 2 3, .fdivD 1 2 3, .fminD 1 2 3, .fmaxD 1 2 3, .fsqrtD 1 2, .faddS 1 2 3,
    .fsubS 1 2 3, .fmulS 1 2 3, .fdivS 1 2 3, .fminS 1 2 3, .fmaxS 1 2 3, .fsqrtS 1 2, .fsgnD 1 2 3, .fsgnS 1 2 3, .ffma true true 1 2 3,
    .fcvt .i64f64rtz 1 2, .fcmp 1 .un false 2 3], Clear i (demo id) := clear_all (by decide +kernel)

/-- Half way between two multiples, and below the smallest one; a normal operand, the smallest one, and a zero. -/
theorem witness_RoundingBrackets : (0 : Int) < 1 ∧ (-3 : Int) ≤ -3 ∧ 3 % 2 ^ ((1 : Int) - 0).toNat ≠ 0 ∧ 4 % 2 ^ ((1 : Int) - 0).toNat = 0 ∧
    FFmt.f64.decode 0xBFF8000000000000 = .fin true 0x18000000000000 (-52) ∧ FFmt.f32.decode 1 = .fin false 1 (-149) ∧ FFmt.f32.decode 0x80000000 = .fin true 0 (-149) := by decide +kernel

theorem witness_SemaphoresAndPresence :
    let s := demo (withRegs [(2, 1), (3, 0)])
    (∀ i ∈ [Instr.swait 2 7, .swait 3 0, .swait 3 8, .sadd 2 7, .sset 2 255, .sread 1 0, .take 1 2, .take 2 2, .hold 2, .hold 0, .test 1 2, .vtake 1 2,
      .vhold 3], Clear i s) ∧ s.me.task.sems = 8 ∧ s.sem s.iss.group 7 = 0 ∧ s.me.semView = [] ∧ (s.group s.iss.group).arr = [] :=
  ⟨clear_all (by decide +kernel), by decide +kernel, by decide +kernel, by decide +kernel, by decide +kernel⟩

theorem witness_RemoteStores :
    let s := demo (fun t => withRuns [(1, mkRun .i32 [.rep 7 3]), (2, { hdr := 0xFFFF#64 })] (withRegs [(2, 1), (3, 0x85), (4, 5)] t))
    (∀ i ∈ [Instr.rss 5 2 4, .rss 5 0 4, .rss 5 2 3, .rssT 5 2 4, .rsv 1 2 3, .rsvT 1 2 4, .rsvT 2 2 3], Clear i s) ∧
    (s.rdV 1).wf = true ∧ (s.rdV 2).wf = false ∧ s.rd 0 = 0#64 :=
  ⟨clear_all (by decide +kernel), by decide +kernel, by decide +kernel, by decide +kernel⟩

theorem witness_GroupInstructions :
    let s := { demo (withRegs [(2, 1), (3, 9), (4, 5)]) with roll :=
      [(1, { state := .resident, parent := 0, part := 0, launch := none }), (9, { state := .exited, parent := 0, part := 0, launch := none, status := 6#32 })] }
    let u := demo (fun t => { t with barPass := some (BitVec.ofNat 64 placeAddr) })
    let c := { s with roll := [(1, { state := .exited, parent := 0, part := 0, launch := none, cancellers := [1] }),
      (9, { state := .resident, parent := 1, part := 0, launch := none, marked := true })] }
    (∀ i ∈ [Instr.self 1, .parent 1, .lane 1, .yield, .exit 2, .cancel 2, .join 1 2, .join 1 3, .join 1 4, .barg], Clear i s) ∧ Clear .barg u ∧
    Clear (.join 1 2) c ∧ c.subtree 1 = [1, 9] ∧ s.pre.inCancel = false ∧ (s.rd 2).toNat / 2 ^ 52 = s.firm.record.modid.toNat ∧ s.cancels = [] ∧ Tab.find 5 s.roll = none ∧
    s.barrierReady s.iss.group (some s.iss.thread) = true ∧ u.pre.barPass = some u.iss.pc :=
  ⟨clear_all (by decide +kernel), clear_sound (by decide +kernel), clear_sound (by decide +kernel), by decide +kernel⟩

/-- A machine whose partition 0 maps the granule at 0x20000 through a table of four levels in die 0 (spec 04 R98, R99). -/
def tabled (s : State) : State :=
  let put (s : State) (a v : Nat) : State := s.writePhys false 0 a (toBytesLE 8 v)
  let s := s.onPart 0 fun p => { p with root := 0x100000#64 }
  put (put (put (put s 0x100000 0x110001) 0x110000 0x120001) 0x120000 0x130001) 0x130010 0x2003F

/-- A task record with VALID whose group enters at 0x1000 (R292). -/
def recordBytes : List Byte := toBytesLE 64 (0x1000 + 2 ^ 511)

theorem witness_BranchesAndSpawning :
    let s := tabled (demo (withRegs [(2, 0x20000), (3, 0x10000), (4, 0), (5, 3), (6, 0x2000), (7, 0x2001)]))
    let s := (s.writePhys false 0 0x2000 recordBytes).onPart 0 fun p => { p with branches := [(3, { parent := 0, forker := 1 })] }
    (∀ i ∈ [Instr.fork 1 2 3, .fork 1 4 5, .brset 4, .brset 5, .brset 2, .brdrop 4, .brdrop 5, .brdrop 2, .spawn 1 6, .spawnQ 1 6, .spawn 1 7], Clear i s) ∧
    s.forkCheck (0x20000 / 65536) (0x10000 / 65536) = none ∧ s.lockedAt s.iss.group s.iss.core true [(0x20000, 0x10000)] = none ∧
    (s.partn s.me.part).live 3 = true ∧ (s.partn s.me.part).live 0x20000 = false ∧
    s.planAll false s.iss.group s.me.branch s.iss.core { load := true, user := !s.pre.monitor } false 0 [(0x2000, 64)] = .ok (here 64) ∧
    s.lockedAt s.iss.group s.iss.core false [(0x2000, 64)] = none ∧ s.fencesAllow s.iss.group s.iss.thread s.cur.seq false = true ∧
    s.physPoison false 0x2000 64 = none ∧ s.taskOk s.me.part (s.descBytes (here 64)) = true ∧
    (taskOfBytes (s.descBytes (here 64))).doneSig = false := by
  refine ⟨clear_all ?_, ?_⟩ <;> decide +kernel

/-! ## Witnesses: world, tile-command and control-register instructions -/

/-- A binding of a region at 0x10000 whose writer is group 1. -/
def bound : Binding :=
  { base := 0x10000, keys := 4, fields := 0, nf := 2, depth := 2, faultPolicy := false, lambda := 10, omega := 20, writer := 1, timeout := 5 }

/-- A machine with the world page at 0x10000 in its TLB, and `bound` in slot 1 of its thread. -/
def worldly (f : Thread → Thread) : State :=
  (demo (fun t => f { t with wslots := [none, some bound, none, none] })).onCore 0 fun c => { c with
    tlb := c.tlb ++ [{ va := 0x10000, size := 65536, leaf := { placedPage.leaf with base := 0x10000, world := true } }] }

/-- The pieces of the page of `bound` and of the block of its key 3. -/
def keyPieces : List Piece := ([0x10000, 0x10040, 0x10380, 0x103C0].zipIdx.map fun p =>
  { host := false, addr := p.1, key := 0, cc := 0, off := 64 * (p.2 % 2), len := 64, va := p.1, page := 0x10000, pageSize := 65536 })

/-- The pieces of the descriptor of `bound`: two blocks. -/
def regionPieces : List Piece := (here 64 ++ here 64).zipIdx.map fun p => { p.1 with addr := 0x10000 + 64 * p.2, off := 64 * p.2, va := 0x10000 + 64 * p.2, page := 0x10000 }

/-- The bytes of a descriptor of `bound`, and of one whose DEPTH is 1 (spec 05 R128). -/
def descriptor (depth : Nat) : List Byte :=
  [0x10000, 4, 0, 2 * 2 ^ 16 + depth * 2 ^ 8, 10, 20, 1, 5].flatMap (toBytesLE 8) ++ List.replicate 64 0#8

/-- The pieces of 128 bytes at 0x2000. -/
def here128 : List Piece := (here 64 ++ here 64).zipIdx.map fun p => { p.1 with addr := 0x2000 + 64 * p.2, off := 64 * p.2, va := 0x2000 + 64 * p.2 }

theorem witness_WorldInstructions :
    let s := worldly (fun t => withRuns [(2, mkRun .f32 [.rep 0 2])] (withRegs [(2, 3), (3, 7), (4, 0)] t))
    let y := worldly (withRegs [(5, 0xFF00000000000000)])
    (∀ i ∈ [Instr.wld 1 1 2 3 2, .wldN 1 1 2 3 0, .wst 2 1 2 3, .wcommit 1 3, .whor 1 3, .wstat 1 1 2, .wclock 0 1, .wbind 1 4], Clear i s) ∧
    (Clear (.wbind 0 5) y ∧ isWindow (y.rd 5).toNat = true ∧ y.worldOn (dieOfCore y.iss.core) = true ∧ y.rd 5 ≠ 0#64) ∧
    Bound s 1 bound (some 3) keyPieces ∧ Bound s 1 bound none regionPieces ∧ (s.rd 2).toNat = 3 ∧ (s.rd 3).getLsbD 63 = false ∧
    s.me.name.toNat = bound.writer ∧ bound.writer ≠ 0 ∧ (s.rdV 2).type = ElemType.f32.code ∧ (s.rdV 2).len = bound.nf ∧ (s.rdV 2).wf = true ∧ s.rd 4 = 0#64 := by
  refine ⟨clear_all ?_, ⟨clear_sound (by decide +kernel), by decide +kernel⟩, ⟨?_, ?_, fun k h => ?_, ?_⟩, ⟨?_, ?_, fun k h => ?_, ?_⟩, ?_⟩
  · decide +kernel
  · decide +kernel
  · decide +kernel
  · cases h; decide
  · decide +kernel
  · decide +kernel
  · decide +kernel
  · cases h
  · decide +kernel
  · decide +kernel

theorem witness_WorldBinding : ∀ depth ∈ [2, 1],
    let s := (worldly (withRegs [(2, 0x2000)])).writePhys false 0 0x2000 (descriptor depth)
    Clear (.wbind 0 2) s ∧ s.worldOn (dieOfCore s.iss.core) = true ∧ s.rd 2 ≠ 0#64 ∧
    Reaches s { load := true, user := !s.pre.monitor } (s.rd 2).toNat 128 here128 ∧ s.fencesAllow s.iss.group s.iss.thread s.cur.seq false = true ∧
    descReserved (s.descBytes here128) = true ∧ (descBinding (s.descBytes here128)).ok = decide (depth = 2) ∧
    s.plan false s.iss.core s.me.part s.me.branch 0x10000 1 { world := true, user := !s.pre.monitor } false true =
      .ok [{ host := false, addr := 0x10000, key := 0, cc := 0, off := 0, len := 1, va := 0x10000, page := 0x10000, pageSize := 65536 }] := by
  intro d h
  simp only [List.mem_cons, List.not_mem_nil, or_false] at h
  rcases h with rfl | rfl <;>
    exact ⟨clear_sound (by decide +kernel), by decide +kernel, by decide +kernel, reaches_sound (by decide +kernel), by decide +kernel, by decide +kernel,
      by decide +kernel, by decide +kernel⟩

/-- A command of a thread of group 1. -/
def command (op w1 w2 w3 : Nat) : Cmd :=
  { id := 7, w0 := BitVec.ofNat 64 op, w1 := BitVec.ofNat 64 w1, w2 := BitVec.ofNat 64 w2, w3 := BitVec.ofNat 64 w3, group := 1, thread := 0, seq := 0, branch := 0
    lock := some { ord := 7, reads := [], writes := [] } }

/-- `MX.ZERO` in queue 0, a wait on semaphore 8 of a group with 8, and a full table. -/
theorem witness_Enqueue :
    let s := demo (withRegs [(8, 3), (12, 8 * 2 ^ 56 + 2 ^ 32)])
    let u := s.onCore 3 fun c => { c with queues := [[], List.replicate 64 (command 0 0 0 0), [], [], [], []] }
    Clear (.enq 0 8) s ∧ (s.newCmd 8).semFault s.me.task.sems = none ∧ s.matrixOn (clusterOf s.iss.core) = true ∧ (s.newCmd 8).op < 0x10 ∧
    ((s.newCmd 8).withBanks s.modid s.me).outside s.modid s.me = none ∧ s.locksUsed (clusterOf s.iss.core) < Config.locks ∧
    Clear (.enq 0 12) s ∧ (s.newCmd 12).semFault s.me.task.sems = some 8 ∧ Clear (.enq 0 8) u ∧ (u.newCmd 8).semFault u.me.task.sems = none ∧
    ((u.newCmd 8).withBanks u.modid u.me).outside u.modid u.me = none ∧ Config.locks ≤ u.locksUsed (clusterOf u.iss.core) := by
  refine ⟨clear_sound ?_, ?_, ?_, ?_, ?_, ?_, clear_sound ?_, ?_, clear_sound ?_, ?_, ?_, ?_⟩ <;> decide +kernel

theorem witness_ControlRegisters :
    let s := demo (withRegs [(2, 4096), (3, 4097), (4, 2 ^ 64 - 1)])
    let m := demo (fun t => withRegs [(4, 2 ^ 64 - 1)] { t with monitor := true })
    (∀ i ∈ [Instr.csrr 1 0x000, .csrr 1 0x010, .csrr 1 0x013, .csrr 1 0x040, .csrr 1 0x060, .csrr 1 0x00C, .csrr 1 0x014, .csrr 1 0x02F, .csrr 1 0x032, .csrr 1 0x043, .csrr 1 0x050, .csrr 1 0x054, .csrw 2 0x004,
      .csrw 3 0x004, .csrw 4 0x005, .csrw 4 0x00C, .csrw 4 0x000, .csrw 4 0x060, .csrw 4 0x014, .csrw 0 0x014, .csrw 4 0x050, .csrw 4 0x051, .csrw 4 0x053],
      Clear i s) ∧
    (∀ i ∈ [Instr.csrw 4 0x050, .csrw 4 0x051, .csrw 4 0x020, .csrw 4 0x02F, .csrw 4 0x030, .csrw 4 0x032, .csrw 4 0x054, .csrw 4 0x000], Clear i m) ∧
    s.pre.monitor = false ∧ m.pre.monitor = true ∧ (s.rd 4).getLsbD 0 = true ∧ (s.rd 4).getLsbD 14 = true ∧ (s.core s.iss.core).queues.length = 6 :=
  ⟨clear_all (by decide +kernel), clear_all (by decide +kernel), by decide +kernel⟩

/-! ## Witnesses: run-vector instructions -/

/-- Whether registers are sources of one length, as a function. -/
def sources (s : State) (n : Nat) (rs : List (VReg × ElemType)) : Bool :=
  rs.all fun r => (s.rdV r.1).wf && decide ((s.rdV r.1).type = r.2.code) && decide ((s.rdV r.1).len = n)

theorem sources_sound {s : State} {n : Nat} {rs : List (VReg × ElemType)} (h : sources s n rs = true) : Sources s n rs := fun r m => by
  have k := List.all_eq_true.mp h r m
  simp only [Bool.and_eq_true, decide_eq_true_eq] at k
  exact ⟨k.1.1, k.1.2, k.2⟩

/-- A long run, a register that is full in slots and elements, and none at all. -/
theorem witness_RunRegisters : ∀ rs ∈ [[Run.rep 5 1024], List.replicate 64 (.rep 255 64), [.lit [1, 2, 3], .rep 0 1], []],
    rs.length ≤ 64 ∧ runsLen rs ≤ 4096 ∧ ∀ r ∈ rs, 1 ≤ r.len ∧ (∀ v ∈ r.elems, v < 2 ^ widthOf .u8) ∧ (r.isRep = false → r.len ≤ perSlot .u8) := by
  decide +kernel

theorem witness_RunsArePointwise :
    let ins := [[Run.rep 1 4096], [.lit [2, 3], .rep 4 4094]]
    ins ≠ [] ∧ ∀ rs ∈ ins, runsLen rs = 4096 ∧ ∀ r ∈ rs, 1 ≤ r.len ∧ r.len ≤ 4096 := by decide +kernel

/-- Registers of three elements: i32 in v1 and v2, f32 in v3 to v5, a mask in v6, and one that is not well formed in v7. -/
def runned : State := demo (withRuns [(1, mkRun .i32 [.rep 7 3]), (2, mkRun .i32 [.lit [1, 2], .lit [3]]), (3, mkRun .f32 [.rep 0x3F800000 3]),
  (4, mkRun .f32 [.rep 0 3]), (5, mkRun .f32 [.rep 0 3]), (6, mkRun .b1 [.rep 1 2, .rep 0 1]), (7, { hdr := 0xFFFF#64 })])

theorem witness_Elementwise :
    (∀ i ∈ [Instr.vadd 1 1 2 6 .i32, .vshr 1 1 2 0 .i32, .vcpsgn 3 4 5 0 .f32, .vsubS 1 2 3 .i32 true, .vcpsgnS 3 4 3 .f32 false, .vfma 3 4 5 6 .f32,
      .vfmaN 3 4 5 0 .f32, .vfmaE 3 4 5 0 .f32, .vnot 1 2 0 .i32, .vexp2 3 4 0 .f32, .vpopc 1 2 6 .i32, .vcmp .un 6 3 4 0 .f32, .vsel 1 2 1 6 .i32,
      .vcvt 3 1 .i32 0 .f32 .cround, .vadd 1 7 2 0 .i32], Clear i runned) ∧
    Sources runned 3 [(1, .i32), (2, .i32), (6, .b1)] ∧ Sources runned 3 [(3, .f32), (4, .f32), (5, .f32)] ∧ (runned.rdV 7).wf = false := by
  refine ⟨clear_all ?_, sources_sound ?_, sources_sound ?_, ?_⟩ <;> decide +kernel

theorem witness_GeneratorsAndRestructuring :
    let s := { runned with pre := { withRegs [(2, 2), (3, 3), (4, 2 ^ 16 + 2), (5, 2 ^ 16 + 3)] runned.pre with vlen := 4096#13 } }
    (∀ i ∈ [Instr.vspl 1 2 .u8, .vclr 1 .b1, .vmask 1 2, .viota 1 .f64, .vred .add 1 2 .i32, .vlen 1 2 .i32, .vnrun 1 2 .i32, .vextr 2 2 .i32,
      .vextr 3 2 .i32, .vcoal 1 2 .i32, .vexpand 1 2 .i32, .vmov 1 2 .i32, .vrev 1 2 .i32, .vsldu 1 2 2 .i32, .vsldd 1 2 3 .i32, .vslice 1 2 4 .i32,
      .vslice 1 2 5 .i32, .vcat 1 1 2 .i32], Clear i s) ∧
    Sources s 3 [(2, .i32)] ∧ Sources s 3 [(1, .i32)] ∧ (s.rd 2).toNat < 3 ∧ 3 ≤ (s.rd 3).toNat ∧
    (s.rd 4).toNat % 2 ^ 13 + (s.rd 4).toNat / 2 ^ 16 % 2 ^ 13 ≤ 3 ∧ 3 < (s.rd 5).toNat % 2 ^ 13 + (s.rd 5).toNat / 2 ^ 16 % 2 ^ 13 := by
  refine ⟨clear_all ?_, sources_sound ?_, sources_sound ?_, ?_⟩ <;> decide +kernel

/-- Sources of three elements, in one register of 64 at most; a semaphore below the count, with its threshold reached; no arrival that waits. -/
theorem witness_FormsComplete :
    let f := runned
    let g := { runned with pre := { withRegs [(2, 2), (4, 2 ^ 16 + 2)] runned.pre with vlen := 3#13 } }
    let s := demo (withRegs [(2, 1), (3, 0)])
    (∀ i ∈ [Instr.faddD 1 2 3, .fsubD 1 2 3, .fmulD 1 2 3, .fdivD 1 2 3, .fminD 1 2 3, .fmaxD 1 2 3, .fsqrtD 1 2, .fsgnD 1 2 3, .faddS 1 2 3, .fsubS 1 2 3,
      .fmulS 1 2 3, .fdivS 1 2 3, .fminS 1 2 3, .fmaxS 1 2 3, .fsqrtS 1 2, .fsgnS 1 2 3, .ffma false true 1 2 3, .fcvt .f32f64 1 2, .fcmp 1 .lt true 2 3],
      Clear i (demo id)) ∧
    (∀ i ∈ [Instr.vadd 1 1 2 6 .i32, .vsub 1 1 2 0 .i32, .vmul 1 1 2 0 .i32, .vdiv 3 4 5 6 .f32, .vmin 1 1 2 0 .i32, .vmax 1 1 2 0 .i32, .vand 1 1 2 0 .i32,
      .vor 1 1 2 0 .i32, .vxor 1 1 2 0 .i32, .vandn 1 1 2 0 .i32, .vshl 1 1 2 0 .i32, .vshr 1 1 2 0 .i32, .vsra 1 1 2 0 .i32, .vabsd 1 1 2 0 .i32,
      .vcpsgn 3 4 5 0 .f32, .vaddS 1 2 3 .i32 false, .vsubS 1 2 3 .i32 true, .vmulS 1 2 3 .i32 false, .vdivS 3 4 3 .f32 true, .vminS 1 2 3 .i32 false,
      .vmaxS 1 2 3 .i32 false, .vandS 1 2 3 .i32 false, .vorS 1 2 3 .i32 false, .vxorS 1 2 3 .i32 false, .vandnS 1 2 3 .i32 false,
      .vshlS 1 2 3 .i32 true, .vshrS 1 2 3 .i32 false, .vsraS 1 2 3 .i32 false, .vabsdS 1 2 3 .i32 false, .vcpsgnS 3 4 3 .f32 false,
      .vfma 3 4 5 6 .f32, .vfmaN 3 4 5 0 .f32, .vfmaE 3 4 5 0 .f32, .vneg 1 2 0 .i32, .vabs 1 2 0 .i32, .vnot 1 2 0 .i32, .vsqrt 3 4 0 .f32,
      .vrsq 3 4 0 .f32, .vrcp 3 4 0 .f32, .vexp2 3 4 0 .f32, .vlog2 3 4 0 .f32, .vfloor 3 4 0 .f32, .vround 3 4 0 .f32, .vclz 1 2 0 .i32,
      .vpopc 1 2 6 .i32, .vcmp .un 6 3 4 0 .f32, .vsel 1 2 1 6 .i32, .vcvt 3 1 .i32 6 .f32 .cround], Clear i f) ∧
    Sources f 3 [(1, .i32), (2, .i32), (6, .b1)] ∧ Sources f 3 [(3, .f32), (4, .f32), (5, .f32), (6, .b1)] ∧
    (∀ i ∈ [Instr.vspl 1 2 .u8, .viota 1 .f64, .vclr 1 .b1, .vmask 1 2, .vcoal 1 2 .i32, .vexpand 1 2 .i32, .vmov 1 2 .i32, .vrev 1 2 .i32, .vsldu 1 2 2 .i32,
      .vsldd 1 2 2 .i32, .vslice 1 2 4 .i32, .vcat 1 1 2 .i32, .vred .add 1 2 .i32, .vlen 1 2 .i32, .vnrun 1 2 .i32, .vextr 2 2 .i32], Clear i g) ∧
    Sources g 3 [(1, .i32)] ∧ Sources g 3 [(2, .i32)] ∧ g.pre.vlen.toNat = 3 ∧ (g.rd 2).toNat < 3 ∧
    (g.rd 4).toNat % 2 ^ 13 + (g.rd 4).toNat / 2 ^ 16 % 2 ^ 13 ≤ 3 ∧
    (∀ i ∈ [Instr.swait 3 7, .sadd 2 7, .sset 2 7, .sread 1 7, .take 1 2, .take 2 2, .hold 2, .test 1 2, .vtake 1 2, .vhold 3], Clear i s) ∧
    (7#8).toNat < s.me.task.sems ∧ (s.rd 3).toNat % 2 ^ 32 ≤ s.sem s.iss.group 7 ∧ s.iss.live = true ∧ s.me.arr = [] := by
  refine ⟨clear_all ?_, clear_all ?_, sources_sound ?_, sources_sound ?_, clear_all ?_, sources_sound ?_, sources_sound ?_, ?_, ?_, ?_, clear_all ?_, ?_⟩ <;>
    decide +kernel

theorem witness_VectorMemory :
    let s := { runned with pre := { withRegs [(2, 0x2000), (3, 4), (4, 0x2008), (5, 0)] runned.pre with vlen := 2#13 } }
    let z := { s with pre := { s.pre with vlen := 0#13 } }
    let rd : AccessType := { load := true, user := !s.pre.monitor }
    let wr : AccessType := { store := true, user := !s.pre.monitor }
    (∀ i ∈ [Instr.vldDense 1 2 .i32, .vldStr 1 2 3 .i32, .vldRuns 1 2 .i32, .vldRuns 1 4 .i32, .vstDense 2 2 .i32, .vstStr 2 2 3 .i32, .vstRuns 1 2 .i32,
      .vstRuns 1 4 .i32, .vgth 1 2 2 .i32 true, .vsct 1 2 2 .i32 false], Clear i s) ∧ Clear (.vldDense 1 2 .i32) z ∧ Sources s 3 [(1, .i32)] ∧
    Sources s 3 [(2, .i32)] ∧ ReachesAll s rd [(0x2000, 8)] (here 8) ∧ ReachesAll s wr [(0x2000, 8)] (here 8) ∧ Reaches s rd 0x2000 16 (here 16) ∧
    ReachesAll s rd [(0x2000, 4), (0x2004, 4)] [{ host := false, addr := 0x2000, key := 0, cc := 0, off := 0, len := 4, va := 0x2000, pageSize := 65536 },
      { host := false, addr := 0x2004, key := 0, cc := 0, off := 4, len := 4, va := 0x2004, pageSize := 65536 }] ∧ (s.rd 4).toNat % 16 ≠ 0 ∧ (s.rd 2).toNat % 16 = 0 := by
  refine ⟨clear_all ?_, clear_sound ?_, sources_sound ?_, sources_sound ?_, reachesAll_sound ?_, reachesAll_sound ?_, reaches_sound ?_, reachesAll_sound ?_, ?_, ?_⟩ <;> decide +kernel

/-- Bank 0 of a scratchpad of 1 KiB: raw, and block-scaled `q8` with its scales in bank 1. -/
theorem witness_BankForms : ∀ x ∈ [(0, Instr.vldBank 3 2 5 .f32, Instr.vstBank 3 2 5 .f32, [(0xFF00000000000000, 12), (0xFF00000000000000, 0)]),
      (0x142, Instr.vldBank 3 2 5 .f32, .vstBank 3 2 5 .f32, [(0xFF00000000000000, 16), (0xFF00000000000040, 1)])],
    let s := { (demo (fun t => { withRegs [(2, 0xFF00000000000000)] t with vlen := 3#13, vregs := runned.pre.vregs })) with
      cores := [(0, { pool := { bankfmt := BitVec.ofNat 12 x.1 :: List.replicate 15 0#12 }, tlb := [placedPage] })] }
    let k : BankRef := { reg := x.1, start := 0, bytes := 64, off := 0 }
    Unhurried s ∧ (Tab.find s.iss.group s.groups).isSome ∧ s.bankOf (s.rd 2).toNat = some k ∧ k.first (k.fmt.width 32) = some 0 ∧
    Clear x.2.1 s ∧ Clear x.2.2.1 s ∧ Sources s 3 [(3, .f32)] ∧ (∀ r ∈ x.2.2.2, r.2 ≠ 0 → InScratch s false r.1 r.2 ∧ InScratch s true r.1 r.2) ∧
    (x.1 = 0 → k.fmt = .raw ∧ k.ranges (k.fmt.width 32) 0 3 = some x.2.2.2) ∧
    (x.1 ≠ 0 → k.fmt.isScaled = true ∧ k.ranges (k.fmt.width 0) 0 ((storeBlocks k.fmt k.blk 0 0 (s.sourceVals .f32 3)).length * k.blk) = some x.2.2.2) := by
  intro x h
  simp only [List.mem_cons, List.not_mem_nil, or_false] at h
  rcases h with rfl | rfl
  all_goals
    refine ⟨⟨?_, ?_, ?_, ?_, ?_, ?_⟩, ?_, ?_, ?_, clear_sound ?_, clear_sound ?_, sources_sound ?_, fun r m n => ?_, ?_, ?_⟩
    iterate 12 decide +kernel
    · simp only [List.mem_cons, List.not_mem_nil, or_false] at m
      rcases m with rfl | rfl
      · exact ⟨⟨by decide +kernel, by decide +kernel, by decide +kernel, by decide +kernel⟩, ⟨by decide +kernel, by decide +kernel, by decide +kernel, by decide +kernel⟩⟩
      · first | exact absurd rfl n | exact ⟨⟨by decide +kernel, by decide +kernel, by decide +kernel, by decide +kernel⟩, ⟨by decide +kernel, by decide +kernel, by decide +kernel, by decide +kernel⟩⟩
    iterate 2 decide +kernel

/-- Stores to an `f16` bank under scales of bank 1, a `q8` bank and an `f4` bank without scales. -/
theorem witness_BankForms_plain : ∀ x ∈ [(0x148, 6, 1), (2, 3, 0), (5, 2, 0)],
    let s := { (demo (fun t => { withRegs [(2, 0xFF00000000000000)] t with vlen := 3#13, vregs := runned.pre.vregs })) with
      cores := [(0, { pool := { bankfmt := BitVec.ofNat 12 x.1 :: List.replicate 15 0#12 }, tlb := [placedPage] })] }
    let k : BankRef := { reg := x.1, start := 0, bytes := 64, off := 0 }
    s.bankOf (s.rd 2).toNat = some k ∧ k.fmt ≠ .raw ∧ (k.fmt.isScaled = false ∨ k.blk = 0) ∧ Clear (.vstBank 3 2 5 .f32) s ∧ Sources s 3 [(3, .f32)] ∧
    s.me.bad = [] ∧ k.ranges (k.fmt.width 32) 0 3 = some [(0xFF00000000000000, x.2.1), (windowVa k.scales, x.2.2)] := by
  intro x h
  simp only [List.mem_cons, List.not_mem_nil, or_false] at h
  rcases h with rfl | rfl | rfl <;>
    exact ⟨by decide +kernel, by decide +kernel, by decide +kernel, clear_sound (by decide +kernel), sources_sound (by decide +kernel), by decide +kernel, by decide +kernel⟩

/-! ## Witnesses: encodings, turns, bundles and traps -/

theorem witness_DecodeEncode : encode (.vred .first 127 15 .u64) = some 0x480FFEEE#32 ∧ encode (.ldq 126 0 0x200) = some 0x17FC0200#32 := by decide +kernel

theorem witness_EncodeDecode : decodeWord 0x4E0FC000#32 = some (.vsct 0 126 0 .i8 false) ∧ decodeWord 0x3F000000#32 = none ∧ decodeWord 0x80000000#32 = some (.add 0 0 0) ∧
    decodeWord 0x7FFFFFFF#32 = none := by decide +kernel

theorem witness_SharedChecks :
    let s := demo (fun t => ((t.setReg 2 { val := 5#64, full := false }).setReg 3 { val := 5#64, mark := true }).setReg 4 { val := 5#64, poison := some 9 })
    let s := { s with pre := s.pre.setVReg 5 { full := false } }
    let short := demo (fun t => { t with regs := t.regs.take 8 })
    (∀ i ∈ [Instr.ldq 3 0 0, .halt, .add 1 2 3, .vspl 1 8 .i8, .vmov 1 5 .i8, .movi 3 0, .add 1 4 4], (encode i).isSome) ∧
    (Instr.ldq 3 0 0).illFormed.isSome ∧ Instr.halt.illFormed = none ∧ privileged .halt = true ∧ s.pre.monitor = false ∧
    (regUse (.vspl 1 8 .i8)).fields = [8] ∧ short.pre.regs.length ≤ 8 ∧
    (regUse (.add 1 2 3)).reads = [2, 3] ∧ (s.pre.reg 2).full = false ∧ (regUse (.vmov 1 5 .i8)).reads = [] ∧ (regUse (.vmov 1 5 .i8)).vreads = [5] ∧
    (s.pre.vreg 5).full = false ∧ (regUse (.movi 3 0)).reads = [] ∧ (regUse (.movi 3 0)).vreads = [] ∧ (regUse (.movi 3 0)).writes = [3] ∧
    (s.pre.reg 3).mark = true ∧ regWait (regUse (.add 1 4 4)) s = none ∧ (regUse (.add 1 4 4)).reads = [4, 4] ∧ (s.pre.reg 4).poison = some 9 ∧
    s.iss.live = true ∧ s.pre.inHandler = false ∧ s.pre.inCancel = false ∧ { s.pre with tcause := 0x8000#64 }.inHandler = true := by
  decide +kernel

/-- The next turn of a machine whose only thread stands at `bs` on core 0. -/
def atWords (ws : List Nat) : State := State.reset.placed (ws.flatMap (toBytesLE 4))

/-- That machine as its thread begins its turn. -/
def begun (s : State) : State :=
  let r : State := { ({ s with agenda := s.agenda.tail } : State).settle 0 with turnPtr := 1 }
  { r with cur := { (r.thread 1 0).unwait with yielded := false }, pre := { (r.thread 1 0).unwait with yielded := false }
           iss := { live := true, core := 0, group := 1, thread := 0, pc := (r.thread 1 0).pc } }

theorem begun_issues (ws : List Nat) (h : ((atWords ws).agenda = [] ∨ (atWords ws).agenda.head? = some .turn) ∧ (atWords ws).nextCore (atWords ws).turnPtr = some 0 ∧
    (({ ({ atWords ws with agenda := (atWords ws).agenda.tail } : State).settle 0 with turnPtr := 1 } : State).pick 0 = some (1, 0)) ∧
    (({ ({ atWords ws with agenda := (atWords ws).agenda.tail } : State).settle 0 with turnPtr := 1 } : State).hasThread 1 0 = true) ∧
    (begun (atWords ws)).cur.trapPending = false) : StepIssues (atWords ws) (begun (atWords ws)) :=
  ⟨0, 1, 0, h.1, h.2.1, h.2.2.1, h.2.2.2.1, rfl, h.2.2.2.2⟩

/-- `ADDI s12, s0, 4` (spec 08, Worked encodings), and a word that no encoding assigns. -/
theorem witness_StepRunsBundle : ∀ w ∈ [0x88180004#32, 0x3F000000#32],
    let s := atWords [(w &&& 0x7FFFFFFF#32).toNat]
    StepIssues s (begun s) ∧ (begun s).fetch (begun s).iss.pc.toNat = .word (w &&& 0x7FFFFFFF#32) ∧ (w &&& 0x7FFFFFFF#32).getLsbD 31 = false := by
  intro w h
  simp only [List.mem_cons, List.not_mem_nil, or_false] at h
  rcases h with rfl | rfl <;> exact ⟨begun_issues _ (by decide +kernel), by decide +kernel, by decide +kernel⟩

/-- Whether a state follows and its turn has not ended, or has. -/
def goesOn (o : Out) (ended : Bool) : Bool :=
  match o with
  | .next u => u.iss.ended == ended
  | _ => false

/-- The state with both words of a bundle in hand. -/
def holding (b : State) (w v : Code) (inV : Bool) : State :=
  { b with cur := { b.cur with pc := b.iss.pc + 8#64 }, iss := { b.iss with words := 2, sWord := w, vWord := v, inV := inV } }

/-- A V-word first; an S-word second; a word that is no instruction first or second; `MOVI s9, 1` with `VLEN s9, v1`, which clash, and with
`VCLR v1`, which do not; `BRDROP s0`, which traps, with `VCLR v1`. -/
theorem witness_TwoWordBundles :
    (∀ p ∈ [(0xC7000084#32, 0x47000084#32), (0x80000000#32, 0x00000000#32), (0xBF000000#32, 0x47000084#32), (0x80000000#32, 0x7F000000#32),
        (0x8D120001#32, 0x49001242#32), (0x8D120001#32, 0x47100044#32), (0xB4000002#32, 0x47100044#32), (0xB9000002#32, 0x47100044#32)],
      let s := atWords [p.1.toNat, p.2.toNat]
      StepIssues s (begun s) ∧ (begun s).fetch (begun s).iss.pc.toNat = .word p.1 ∧ p.1.getLsbD 31 = true ∧
        (begun s).fetch ((begun s).iss.pc.toNat + 4) = .word p.2) ∧
    decodeWord 0xBF000000#32 = none ∧ decodeWord 0x7F000000#32 = none ∧
    (decodeWord 0xB9000002#32 = some .eret ∧ (begun (atWords [0xB9000002, 0x47100044])).pre.tcause.getLsbD 15 = false) ∧ decodeWord 0x8D120001#32 = some (.movi 9 1) ∧
    decodeWord 0x49001242#32 = some (.vlen 9 0 .i32) ∧ decodeWord 0x47100044#32 = some (.vclr 1 .i32) ∧ decodeWord 0xB4000002#32 = some (.brdrop 0) ∧
    clash (regUse (.movi 9 1)) (regUse (.vlen 9 0 .i32)) = true ∧ clash (regUse (.movi 9 1)) (regUse (.vclr 1 .i32)) = false ∧
    (let b := begun (atWords [0x8D120001, 0x47100044])
     let l := holding b 0x8D120001 0x47100044
     Clear (.movi 9 1) (l false) ∧ Clear (.vclr 1 .i32) (l true) ∧ goesOn (exec (.movi 9 1) (l false)) false = true ∧
       goesOn (exec (.vclr 1 .i32) (l true)) false = true ∧
       (match exec (.movi 9 1) (l false) with
         | .next s1 => goesOn (exec (.vclr 1 .i32) { s1 with iss := { s1.iss with inV := true } }) false
         | _ => false) = true) ∧
    (let b := begun (atWords [0xB4000002, 0x47100044])
     let l := holding b 0xB4000002 0x47100044
     Clear (.brdrop 0) (l false) ∧ Clear (.vclr 1 .i32) (l true) ∧ goesOn (exec (.brdrop 0) (l false)) true = true) := by
  refine ⟨fun p h => ?_, by decide +kernel, by decide +kernel, by decide +kernel, by decide +kernel, by decide +kernel, by decide +kernel, by decide +kernel, by decide +kernel,
    by decide +kernel, ⟨clear_sound (by decide +kernel), clear_sound (by decide +kernel), by decide +kernel, by decide +kernel, by decide +kernel⟩,
    clear_sound (by decide +kernel), clear_sound (by decide +kernel), by decide +kernel⟩
  simp only [List.mem_cons, List.not_mem_nil, or_false] at h
  rcases h with rfl | rfl | rfl | rfl | rfl | rfl | rfl | rfl <;>
    exact ⟨begun_issues _ (by decide +kernel), by decide +kernel, by decide +kernel, by decide +kernel⟩

/-- A picked thread in throughput and in deterministic mode; a machine without groups; a thread that issued too lately; an event. -/
theorem witness_Turns :
    let s := atWords [0]
    let d := s.onCore 0 fun c => { c with pool := { c.pool with det := true } }
    let late := { s.onCore 0 fun c => { c with turns := [(0, 3)] } with cycle := 10 }
    s.pick 0 = some (1, 0) ∧ d.pick 0 = some (1, 0) ∧ State.reset.nextCore 0 = none ∧ late.nextCore late.turnPtr = some 0 ∧ (late.settle 0).pick 0 = none ∧
    ({ s with agenda := [.event .hbmRefresh] } : State).agenda = [.event .hbmRefresh] ∧ isEvent .hbmRefresh = true := by decide +kernel

theorem witness_TurnEnds :
    let s := demo id
    let e := { s with iss := { s.iss with leave := some (some 5#64) } }
    let a := { s with iss := { s.iss with after := some (0x16, 5#64) } }
    let c := demo (fun t => { t with inCancel := true, cancelBundles := 4094 })
    let z := demo (fun t => { t with inCancel := true, cancelBundles := 4095 })
    s.iss.live = true ∧ s.iss.leave = none ∧ s.iss.after = none ∧ s.pre.inCancel = false ∧ a.iss.leave = none ∧ a.cur.exited = false ∧ e.iss.thread = 0 ∧
    Tab.find e.iss.group e.groups = some placedGroup ∧ s.iss.thread < placedGroup.threads.length ∧ c.pre.inCancel = true ∧ c.cur.cancelBundles + 1 < 4096 ∧
    4096 ≤ z.cur.cancelBundles + 1 := by decide +kernel

theorem witness_TrapEntry :
    let s := demo (fun t => { t with tvec := 0x801#64 })
    let m := (demo id).onPart 0 fun p => { p with mvec := 0x900#64 }
    s.iss.live = true ∧ s.pre.inHandler = false ∧ s.pre.tvec &&& ~~~3#64 = 0x800#64 ∧ s.pre.tvec.getLsbD 0 = true ∧ m.pre.inHandler = false ∧
    m.pre.tvec &&& ~~~3#64 = 0#64 ∧ (m.partn m.me.part).mvec &&& ~~~3#64 = 0x900#64 := by decide +kernel

theorem witness_FatalTraps :
    let s := demo id
    let h := demo (fun t => { t with tvec := 0x800#64, tcause := 0x8000#64 })
    let e : RollEntry := { state := .resident, parent := 0, part := 0, launch := none }
    s.iss.live = true ∧ s.pre.tvec &&& ~~~3#64 = 0#64 ∧ (s.partn s.me.part).mvec &&& ~~~3#64 = 0#64 ∧ h.pre.inHandler = true ∧
    Tab.find s.iss.group s.roll = some e ∧ Tab.find h.iss.group h.roll = some e ∧ e.marked = false ∧ Cause.prot < 2 ^ 8 := by decide +kernel

theorem witness_RegisterWrites : (127#7 : SReg).toNat < (demo id).cur.regs.length ∧ (127#7 : SReg) ≠ 0#7 ∧ (7#3 : PReg) ≠ 0#3 := by decide +kernel

/-! ## Witnesses: accesses, walks, copies, the directory -/

/-- The machine between turns with the accesses `as` under way. -/
def flying (as : List Access) : State := { State.reset.placed [] with acc := as, nextId := 9 }

/-- An access of thread 0 of group 1 that reaches `ps`. -/
def anAccess (kind : AccKind) (dest : Dest) (ps : List Piece) : Access :=
  { id := 7, kind := kind, group := 1, thread := 0, core := 0, seq := 0, va := 0x2000, pieces := ps, dest := dest }

/-- A piece of 8 bytes at 0x2000 of module memory, or in host memory without its copy. -/
def aPiece (stage : Stage) (data : List Byte) : Piece := { host := false, addr := 0x2000, key := 0, cc := 0, off := 0, len := 8, stage := stage, data := data }
def hostPiece (data : List Byte) : Piece := { aPiece .pending data with host := true, cc := 3 }

/-- A line whose home serves the request at once. -/
theorem granted {s : State} {a : Access} {p : Piece} {r : Reach} (h : (!p.pool && !p.host &&
    ((s.request (p.addr / 128) (clusterOf a.core) a.id (if p.cc = 2 then .home else r)).map (·.2) == some true)) = true) : ∃ t, Grants s a p r t := by
  simp only [Bool.and_eq_true, Bool.not_eq_true', beq_iff_eq, Option.map_eq_some_iff] at h
  obtain ⟨⟨h1, h2⟩, ⟨t, b⟩, h3, h4⟩ := h
  cases (show b = true from h4)
  exact ⟨_, .slice t h1 h2 h3⟩

theorem witness_DataReturns :
    let one := anAccess .load (.scalar 126 true) [aPiece .pending []]
    let s := flying [one]
    (s.access 7 = some one ∧ s.mayReturn (s.group 1).core = true ∧ s.hasThread 1 0 = true ∧ (126#7 : SReg).toNat + 1 < (s.thread 1 0).regs.length ∧
      s.mayPerform one (aPiece .pending []) = true) ∧
    (s.pastOf (aPiece .pending []) = [] ∧ ∀ x ∈ [(0, some (threadKey 1 0)), (1, none), (64, none)],
      let q : Past := { host := false, addr := 0x2004, bytes := [0#8], key := 0, by_ := { id := 3, core := x.1, thread := x.2 }, ord := 4, vis := 4 }
      let v : View := { ids := [3] }
      let s := ({ s with past := [q] } : State).onThread 1 0 fun t => { t with knows := [(0, v)], floor := [0, 4, 4, 4] }
      s.pastOf (aPiece .pending []) = [q] ∧ ((s.thread 1 0).knownAt one.seq).covers q.by_ = true) ∧
    (∃ t, Grants s one (aPiece .pending []) .shared t) ∧
    (∀ x ∈ [(AccKind.load, Dest.scalar 5 false), (.load, .run 15 .i32 [(false, 2)]), (.value 6#64, .scalar 5 false), (.wstat 0 bound 1, .scalar 5 false),
        (.wclock 0, .scalar 5 false), (.amo .add 1#64 true, .scalar 5 false)],
      let a := anAccess x.1 x.2 [aPiece .performed (List.replicate 8 1#8)]
      (flying [a]).access 7 = some a ∧ (flying [a]).fencesAllow 1 0 0 true = true ∧ (15#4 : VReg).toNat < ((flying [a]).thread 1 0).vregs.length) := by
  refine ⟨?_, ?_, granted ?_, ?_⟩ <;> decide +kernel

theorem witness_StoresAndAtomics :
    let st := anAccess .store .none [aPiece .pending (List.replicate 8 1#8)]
    let am := anAccess (.amo .add 1#64 true) (.scalar 5 false) [aPiece .pending []]
    let cs := anAccess (.cas 0 5 false) .none [aPiece .pending []]
    let ho := anAccess (.amo .add 1#64 true) .none [hostPiece []]
    ((flying [st]).access 7 = some st ∧ (flying [st]).mayPerform st (aPiece .pending (List.replicate 8 1#8)) = true ∧
      (flying [st]).seenFirst st (aPiece .pending (List.replicate 8 1#8)) = false) ∧
    (∀ a ∈ [am, cs], (flying [a]).access 7 = some a ∧ (flying [a]).mayPerform a (aPiece .pending []) = true ∧ (flying [a]).seenFirst a (aPiece .pending []) = false) ∧
    ((flying [ho]).access 7 = some ho ∧ (flying [ho]).mayPerform ho (hostPiece []) = true ∧
      (flying [ho]).seenFirst ho (hostPiece []) = false ∧ (flying [ho]).mayReturn ((flying [ho]).group 1).core = true ∧ overPcie ho.kind = true ∧ (flying [ho]).hasThread 1 0 = true ∧
      ((flying [ho]).thread 1 0).exited = false ∧ ((flying [ho]).thread 1 0).inCancel = false ∧ ho.sent = none) ∧
    (let a := { ho with sent := some 0 }
     let s := { flying [a] with cycle := 120000 }
     s.access 7 = some a ∧ s.mayReturn (s.group 1).core = true ∧ 0 + timeoutCycles s.port.timeout.toNat ≤ s.cycle) ∧
    (∃ t, Grants (flying [st]) st (aPiece .pending (List.replicate 8 1#8)) .own t) ∧ (∃ t, Grants (flying [am]) am (aPiece .pending []) .home t) ∧
    ∃ t, Grants (flying [cs]) cs (aPiece .pending []) .own t := by
  refine ⟨?_, ?_, ?_, ?_, granted ?_, granted ?_, granted ?_⟩ <;> decide +kernel

/-- Unordered, the first and last number of a sequence, a later number, and a line with 64 unordered ones queued. -/
theorem witness_AdditionsAtHome :
    (∀ num ∈ [none, some (0, true), some (1, false), some (5, false)],
      let a := anAccess (.faadd true 0x3FF0000000000000#64 num 0 0#64) .none [aPiece .pending []]
      ((flying [a]).access 7 = some a ∧ (flying [a]).mayPerform a (aPiece .pending []) = true ∧ (flying [a]).seenFirst a (aPiece .pending []) = false ∧
        (flying [a]).hasRoom 0x2000 num = true ∧ (flying [a]).seqAt 0x2000 = none) ∧ ∃ t, Grants (flying [a]) a (aPiece .pending []) .home t) ∧
    (let a := anAccess (.faadd true 0#64 none 0 0#64) .none [aPiece .pending []]
     let s := { flying [a] with seqs := [{ addr := 0x2000, next := 0, pending := [(1, 30)], queued := (List.range 64).map (100 + ·) }] }
     s.access 7 = some a ∧ s.hasRoom 0x2000 none = false) := by
  refine ⟨fun num h => ?_, by decide +kernel⟩
  simp only [List.mem_cons, List.not_mem_nil, or_false] at h
  rcases h with rfl | rfl | rfl | rfl <;> exact ⟨by decide +kernel, granted (by decide +kernel)⟩

theorem witness_WalksCopiesDirectory :
    let w (id va : Nat) : Walk := { id := id, group := 1, thread := 0, core := 0, va := va, type := { load := true } }
    let c : CowCopy := { id := 5, part := 0, branch := 2, granule := 2, core := 0, leaf := { placedPage.leaf with cow := true, base := 0x20000 } }
    let s := { tabled (State.reset.placed []) with
      walks := [w 3 0x20000, w 4 0x50000]
      cows := [c]
      dir := [(9, { sharers := [1, 2], owner := some 1 }), (10, { queue := [(6, 2, 30), (6, 1, 31), (7, 0, 32)] })]
      cycle := 4096 + 3840 }
    let s := s.onDie 0 fun d => { d with lkBase := 0x400000#64, lkSize := 65536 }
    let s := { s with port := { s.port with halves := [(77, true)] } }
    (∀ x ∈ [w 3 0x20000, w 4 0x50000], s.walks.find? (fun y => y.id == x.id) = some x ∧ s.hasWalker x = true ∧ s.hasThread x.group x.thread = true ∧
      ((s.onThread 1 0 fun t => { t with wait := some (.walk x.id) }).thread x.group x.thread).wait = some (.walk x.id) ∧
      (walkTable s (s.group x.group).part x.va).isSome = decide (x.id = 3)) ∧
    (s.cows.find? (fun y => y.id == 5) = some c ∧ c.leaf.host = false ∧ s.lockerHas (dieOf c.leaf.base) 65536 = true) ∧
    ((Tab.get {} 10 s.dir).busy = none ∧ (Tab.get {} 10 s.dir).queue ≠ []) ∧
    (3840 ≤ s.cycle % 4096 ∧ s.cycle / 4096 % 4 = 1 ∧ (Tab.get {} 9 s.dir).sharers.contains 1 = true ∧ (Tab.get {} 9 s.dir).sharers.contains 2 = true ∧ (s.cluster 2).l2 = [] ∧
      ((s.onCluster 1 fun c => { c with l2 := [{ host := false, line := 9, key := 0 }] }).cluster 1).l2.any (fun l => !l.host && l.line == 9) = true) ∧
    Tab.find 77 s.port.halves = some true ∧ s.shownAt true (77 * 64) 64 = false ∧ (halfHeld (Tab.drop 77 s.port.halves)).length ≤ 4096 := by
  decide +kernel

/-! ## Witnesses: remote stores, the instant units, ends of groups, tasks -/

/-- A remote scalar store, or run store, to register 5 of thread 0 of `target`. -/
def aStore (target : Nat) (run : Bool) (sel : Nat) : RStore :=
  { id := 7, sender := 1, sthread := 0, seq := 0, target := target, selector := BitVec.ofNat 64 sel, run := if run then some (mkRun .i8 []) else none, val := 4#64
    trap := true, kind := run }

/-- The machine with a remote store on its way, thread 0 of its group as `f`, and its roll entry in a state. -/
def storing (r : RStore) (st : RollState) (held : Nat) (f : Thread → Thread) : State :=
  let s := State.reset.placed []
  let s := s.onThread 1 0 f
  { s with
    rstores := [r]
    roll := [(1, { state := st, parent := 0, part := 0, launch := none, held := List.replicate held (aStore 1 false 5) })]
    nextId := 9 }

theorem witness_RemoteStoresArrive :
    let sc := aStore 1 false 5
    let empty (t : Thread) : Thread := { (t.setReg 5 { full := false }) with vregs := t.vregs.set 5 { full := false } }
    (∀ x ∈ [(sc, storing sc .resident 0 empty), (aStore 1 true 0x85, storing (aStore 1 true 0x85) .resident 0 empty), (sc, storing sc .resident 0 id),
        (sc, storing sc (.migrating true) 63 id), (sc, storing sc (.migrating true) 64 id), (sc, storing sc .exited 0 id), (aStore 1 false 0x3F05, storing (aStore 1 false 0x3F05) .resident 0 id),
        (sc, storing sc .resident 0 fun t => { t with exited := true }), (aStore 9 false 5, storing (aStore 9 false 5) .resident 0 id),
        (aStore (2 ^ 52) false 5, storing (aStore (2 ^ 52) false 5) .resident 0 id)],
      x.2.rstores.find? (fun y => y.id == 7) = some x.1 ∧ x.2.pairReady x.1 = true ∧ x.2.memDone 1 0 0 .pod = true ∧ x.2.fencesAllow 1 0 0 true = true) ∧
    (let s := storing sc .resident 0 empty
     moduleOf (2 ^ 52) ≠ s.modid ∧ moduleOf 1 = s.modid ∧ s.hasThread 1 0 = true ∧ selectorFits (s.group 1) sc = true ∧
       selectorFits (s.group 1) (aStore 1 false 0x3F05) = false ∧ heldBack (s.group 1).arr sc = false ∧ ((s.thread 1 0).regAt (s.endCycle 0) 5).full = false ∧
       ((s.thread 1 0).vregAt (s.endCycle 0) 5).full = false ∧ 5 < (s.thread 1 0).regs.length ∧ Tab.find 9 s.roll = none) ∧
    (let s := storing sc .resident 0 id
     (s.thread 1 0).accepts (s.endCycle 0) sc = false ∧ (s.group 1).task.det = false ∧ s.buffered 1 0 < 64 ∧ ((s.thread 1 0).regAt (s.endCycle 0) 5).full = true ∧
       64 ≤ (s.onGroup 1 fun g => { g with arr := List.replicate 64 (aStore 1 false 6) }).buffered 1 0) ∧
    (let s := { storing sc .resident 0 id with rstores := [], bounces := [{ id := 8, store := sc, reason := 3 }] }
     let s := (tabled s).onPart 0 fun p => { p with bbase := 0x20000#64, ben := true, bsize := 6 }
     (s.bounces.find? fun x => x.id == 8) = some { id := 8, store := sc, reason := 3 } ∧ moduleOf sc.sender = s.modid ∧ s.pairReady sc = true ∧ s.away.any (·.before sc) = false ∧ s.hasThread 1 0 = true ∧ State.deviceWaits 2 s 0 (s.partn 0).ringNext 32 = false ∧
       ((s.onPart 0 fun p => { p with ben := false }).partn 0).ringShut = true ∧ (s.partn 0).ringNext = 0x20000 ∧
       ((s.partn 0).bhead - (s.partn 0).btail).toNat < 2 ^ (s.partn 0).bsize ∧
       (State.deviceWrite 2 s 0 0x20000 (bounceRecord sc 3 1)).isSome) := by
  decide +kernel

/-- Every port is up, so there is a route to every module. -/
theorem witness_Routes : ∀ m, (storing (aStore (2 ^ 52) false 5) .resident 0 id).routed m = true :=
  fun _ => rfl

/-- A world operation of thread 0 of group 1 on the region at 0, under `bound`. -/
def aWorldOp (kind : WorldKind) (inst : Nat) : WorldOp :=
  { id := 7, kind := kind, group := 1, thread := 0, core := 0, kidx := 0#64, seq := 0, region := 0, bind := bound, key := 1, inst := inst, issued := 0 }

/-- Committed entries of a key at stamps 100 and 110. -/
def someRing : List RingEntry := [100, 110].map fun n => { stamp := n, committed := true, lay := bound.layout, vals := [0#64, 0#64], group := 1 }

/-- The machine with a world operation, and a region committed to 110. -/
def worlded (w : WorldOp) (r : Region) : State :=
  { State.reset.placed [] with worldOps := [w], regions := [(0, r)], cycle := 100, nextId := 9 }

theorem witness_InstantUnits :
    let r : Region := { committed := some 110, keys := [(128, someRing)], horizons := [(1, 100)] }
    let ld (n : Bool) (i : Nat) := aWorldOp (.wld n 5 2) i
    (∀ x ∈ [(false, 131), (false, 121), (true, 130), (false, 99), (false, 100), (false, 110), (false, 120)],
      let w := ld x.1 x.2
      let s := worlded w r
      s.worldOp 7 = some w ∧ w.result = none ∧ w.blocked = false ∧ s.loadBehind w = false ∧ s.fencesAllow 1 0 0 false = true ∧
        (s.regionOf w).clock = 110 ∧ (s.regionOf w).entries 0 bound 1 = someRing ∧ (s.regionOf w).entries 0 bound 0 = []) ∧
    ({ ld false 121 with blocked := true, closed := true } : WorldOp).blocked = true ∧ bound.timeout ≠ 0 ∧
    (let w := { ld false 121 with blocked := true }
     (worlded w r).worldOp 7 = some w ∧ w.issued + w.bind.timeout ≤ (worlded w r).cycle) ∧
    (∀ x ∈ [WldResult.done 1 [0#64, 0#64], .done 4 [], .fault Cause.wgone],
      let w := { ld false 110 with result := some x }
      let s := (worlded w r).onThread 1 0 fun t => { t with loads := [7] }
      s.worldOp 7 = some w ∧ (s.thread 1 0).loads.head? = some 7 ∧ s.migrating 1 = false ∧ s.mayReturn (s.group 1).core = true ∧
        s.hasThread 1 0 = true ∧ (5#4 : VReg).toNat < (s.thread 1 0).vregs.length) ∧
    (let w := aWorldOp (.wst [0#64, 0#64]) 111
     let s := worlded w r
     s.worldOp 7 = some w ∧ s.fencesAllow 1 0 0 true = true ∧ w.ringWait = false ∧ s.recordBehind w = false ∧
       ((s.regionOf w).ring 0 bound 1).any (fun x => decide (111 ≤ x.stamp)) = false ∧ bound.depth ≤ ((s.regionOf w).ring 0 bound 1).length ∧
       ((s.regionOf w).floor.all fun f => decide (110 ≤ f)) = false ∧ ((s.regionOf w).floor.all fun f => decide (100 ≤ f)) = true ∧
       ((s.regionOf w).ring 0 bound 1).any (fun x => decide (110 ≤ x.stamp)) = true ∧ ((s.regionOf w).ring 0 bound 2).length < bound.depth) ∧
    (∀ i ∈ [109, 110, 111],
      let w := aWorldOp .wcommit i
      (worlded w r).worldOp 7 = some w ∧ (worlded w r).fencesAllow 1 0 0 true = true ∧ (worlded w r).earlierDone 1 0 0 .package = true ∧
        ((worlded w r).regionOf w).committed = some 110) ∧
    (∀ h ∈ [[(1, 100)], [], (List.range 30).map fun i => (i + 2, 0)],
      let w := aWorldOp .whor 100
      let s := worlded w { r with horizons := h }
      s.worldOp 7 = some w ∧ s.fencesAllow 1 0 0 true = true ∧ (Tab.find 1 (s.regionOf w).horizons = some 100 ∨ (s.regionOf w).horizons.length < 30 ∨
        30 ≤ (s.regionOf w).horizons.length)) := by
  decide +kernel

theorem witness_GroupEndsAndPostedTraps :
    let e : RollEntry := { state := .resident, parent := 2, part := 0, launch := none }
    let s := (State.reset.placed []).onGroup 1 fun g => { g with parent := 2#64, task := { g.task with doneSig := true, dsem := 7 }, arr := [aStore 1 false 6]
                                                                 threads := g.threads.map fun t => { t with exited := true } }
    let s := { s with roll := [(1, e), (2, { e with parent := 0 })], groups := s.groups ++ [(2, { placedGroup with name := 2#64 })] }
    let m := { s with roll := [(1, { e with marked := true }), (2, { e with parent := 0 })]
                      cancels := [{ id := 8, group := 2, thread := 0, target := 1 }, { id := 9, group := 2, thread := 0, target := 5 }] }
    (Tab.find 1 s.roll = some e ∧ s.quiet 1 = true ∧ (s.group 1).threads.all (·.exited) = true ∧ s.noWork 1 = true ∧ (s.group 1).parent.toNat = 2 ∧
      (Tab.find 2 s.groups).isSome ∧ (s.group 2).semQ = [] ∧ (s.group 1).task.dsem < (s.group 2).task.sems) ∧
    (Tab.find 1 m.roll = some { e with marked := true } ∧ m.quiet 1 = true ∧ RollEntry.ended { e with marked := true } = false) ∧
    s.sawDone 1 = true ∧ m.sawDone 1 = true ∧
    ((m.cancels.find? fun x => x.id == 8).isSome ∧ m.partOfGroup 2 = 0 ∧ (m.cancels.find? fun x => x.id == 9).isSome ∧ Tab.find 5 m.roll = none) ∧
    (∀ f ∈ [fun t : Thread => { t with cancelDue := true }, fun t => { t with cancelDue := true, tvec := 0x801#64 },
        fun t => { t with posted := [{ cause := 6, tval := 0#64 }, { cause := 5, tval := 1#64 }], tvec := 0x801#64 },
        fun t => { t with posted := [{ cause := 6, tval := 0#64 }] }, fun t => { t with inCancel := true, cancelBundles := 4096 }],
      let s := (State.reset.placed []).onThread 1 0 f
      s.hasThread 1 0 = true ∧ (s.thread 1 0).exited = false ∧ (s.thread 1 0).place = .inSlot ∧ (s.thread 1 0).inHandler = false ∧
        (s.partn (s.partOf (s.group 1).core)).stop = false) := by
  decide +kernel

/-- A task of one thread named `n`. -/
def aTask (n : Nat) (branch : Nat) (saved : Bool) (pool : PoolCfg) : Task :=
  { name := n, level := 3, since := 0, task := { entry := 0x1000#64, branch := branch }, launch := none, pref := none, pool := pool, saved := saved }

/-- Whether every entry of a task queue's ring reads, or none does. -/
theorem queueReads_of {s : State} {part : Nat} {b : Bool} (h : ∀ k < 2 ^ (s.partn part).tqSize,
    (match s.plan true 0 part 0 ((s.partn part).tqBase.toNat + 128 * k) 128 { load := true, user := false } false true with | .ok _ => true | _ => false) = b) :
    s.queueReads part = b := h _ (Nat.mod_lt _ (Nat.two_pow_pos _))

/-- Partition 0 with a task queue whose ring reads, of two entries. -/
def queued (ts ps : List Task) : State :=
  { (tabled (State.reset.placed [])).onPart 0 fun p => { p with tqBase := 0x20000#64, tqEn := true, tqSize := 1, tasks := ts, pushes := ps } with
    cycle := 2000
    roll := [(1, { state := .resident, parent := 0, part := 0, launch := none }), (8, { state := .saved, parent := 0, part := 0, launch := none })] }

theorem witness_TaskEvents :
    ({ State.reset with firm := { State.reset.firm with nextSerial := 2 ^ 24 } } : State).newName = none ∧
    (let s := queued [] [aTask 9 0 false {}]
     (s.partn 0).pushes = [aTask 9 0 false {}] ∧ (s.partn 0).tqEn = true ∧ (s.partn 0).tasks.length < 2 ^ (s.partn 0).tqSize) ∧
    (∀ x ∈ [(0, false), (4, false), (0, true)],
      let t := aTask (if x.2 then 8 else 9) x.1 x.2 {}
      let s := queued [t] []
      let s := { s with groups := s.groups ++ [(8, { placedGroup with core := 3, threads := [{ placedThread with place := .inImage }] })] }
      s.queueReads (s.cluster 0).part = true ∧ (s.pickTask 0).map (·.1) = some t ∧ (s.branchOk 0 0 = true ∧ s.branchOk 0 4 = false) ∧
        (Tab.find 8 s.groups).isSome ∧ (Tab.find 8 s.roll).isSome ∧ (s.partn 0).tasks.find? (fun y => y.name == t.name) = some t ∧ t.level < 7 ∧
        t.since + 1048576 ≤ ({ s with cycle := 2000000 } : State).cycle) ∧
    (let s := (queued [aTask 9 0 false {}] []).onPart 0 fun p => { p with tqBase := 0x50000#64 }
     s.queueReads (s.cluster 0).part = false ∧ (s.pickTask 0).isSome) := by
  refine ⟨by decide +kernel, by decide +kernel, fun x h => ⟨?_, ?_⟩, queueReads_of (by decide +kernel), by decide +kernel⟩
  all_goals
    simp only [List.mem_cons, List.not_mem_nil, or_false] at h
    rcases h with rfl | rfl | rfl
  iterate 3 exact queueReads_of (by decide +kernel)
  iterate 3 decide +kernel

/-- Partition 5 of cluster 0, of which cores 0 to `n` - 1 hold a group of one thread whose 128 scalar registers fill the pool, and a task of
the pool values `p` in its queue; die 0 has a locker. -/
def crowded (n : Nat) (p : PoolCfg) : State :=
  let s := (State.reset.onPart 5 fun x => { x with tqEn := true, tqSize := 10, tasks := [aTask 40 0 false p] }).onDie 0 fun d =>
    { d with lkBase := 0x400000#64, lkSize := 0x80000 }
  { s with
    clus := [(0, { part := 5 })]
    cores := (List.range 16).map fun i => (i, { pool := { run := 1024 } })
    groups := (List.range n).map fun i => (i + 1, { core := i, part := 5, task := { scratch := 1, sregs := 128 }, sbase := [0], threads := [{}] })
    roll := (List.range n).map fun i => (i + 1, { state := .resident, parent := 0, part := 5, launch := none }) }

/-- A task that no core of its cluster fits, until a thread is swapped; one that another core fits, beside a thread that has yielded; a thread
that stands swapped; a group that waits for a unit, and one that makes room for a task of other pool values. -/
theorem witness_SwapAndEviction :
    let found (s : State) : Option Victim := (s.starved (s.partOf 0)).findSome? fun t => (s.victim (s.partOf 0) t).bind fun v =>
      if v.core = 0 ∧ v.slot = 0 then some v else none
    (let s := crowded 16 { run := 1024 }
     (∃ v, found s = some v ∧ s.hasThread v.group v.thread = true) ∧ s.lockerHas 0 32768 = true ∧ (s.partn (s.partOf 0)).stop = false) ∧
    (let s := (crowded 1 { run := 1024 }).onThread 1 0 fun t => { t with yielded := true }
     found s = none ∧ s.offered 0 0 = some (1, 0) ∧ s.hasThread 1 0 = true ∧ (s.thread 1 0).inHandler = false ∧ (s.thread 1 0).inCancel = false ∧
       s.lockerHas 0 32768 = true ∧ (s.partn (s.partOf 0)).stop = false) ∧
    (let s := (crowded 1 {}).onThread 1 0 fun t => { t with place := .swapped }
     s.hasThread 1 0 = true ∧ (s.thread 1 0).place = .swapped ∧ (s.thread 1 0).exited = false ∧ (s.swapSpot 1).isSome ∧
       Tab.find 1 s.roll = some { state := .resident, parent := 0, part := 5, launch := none }) ∧
    (let s := (crowded 1 {}).onThread 1 0 fun t => { t with wait := some (.unavail true) }
     s.lacksUnit 1 = true ∧ (Tab.find 1 s.groups).isSome ∧ (s.partn (s.partOf (s.group 1).core)).stop = false ∧ (s.die 0).lkSize ≠ 0 ∧ s.lockerHas 0 (s.evictBytes 1) = true) ∧
    (crowded 16 {}).makesRoom 1 = true := by
  refine ⟨⟨⟨⟨0, 0, 0, 0, 1, 0⟩, ?_⟩, ?_⟩, ?_, ?_, ?_, ?_⟩ <;> decide +kernel

theorem witness_FaultQueue :
    let r (tg : FaultTarget) (k : Nat) : FaultRec := { id := 3, kind := k, cause := Cause.page, type := {}, addr := 0x50000, name := 1, part := 0, core := 0, slot := 0
                                                       thread := 0, queue := 0, pc := 0, detail := 0, target := tg }
    let waits (x : FaultRec) (w : Wait) : State := ((State.reset.placed []).onDie 0 fun d =>
      { d with fqBase := 0x200000#64, fqEn := true, fqSize := 6, fqWait := [x] }).onThread 1 0 fun t => { t with wait := some w, tvec := 0x800#64 }
    let done (x : FaultRec) : State := (waits x (.fault 3)).onDie 0 fun d => { d with answered := [(0, x)] }
    (∀ x ∈ [(r (.thread 1 0) 1, Wait.fault 3), (r (.trap 1 0 Cause.poison 5#64 none) 4, .post 3), (r (.trap 1 0 Cause.residue 0#64 none) 4, .fault 9)],
      let s := waits x.1 x.2
      (s.die 0).fqWait = [x.1] ∧ (s.die 0).fqEn = true ∧ s.fqFree 0 ((s.die 0).fqHead.toNat % 2 ^ (s.die 0).fqSize) = true ∧ s.hasThread 1 0 = true ∧
        (s.thread 1 0).exited = false ∧ s.markedName 1 = false ∧ (s.thread 1 0).wait = some x.2 ∧ (s.thread 1 0).inHandler = false ∧
        (s.thread 1 0).inCancel = false ∧ trapVector (s.thread 1 0) (s.partn (s.group 1).part).mvec = some (0x800#64, false)) ∧
    (∀ out ∈ [0, 1, 2, 3], let x := { r (.thread 1 0) 1 with answer := some out }
      let s := done x
      (s.die 0).answered.find? (fun y => y.1 == 0) = some (0, x) ∧ x.answer.getD 0 = out ∧ s.markedName x.name = false ∧ s.hasThread 1 0 = true ∧
        (s.thread 1 0).wait = some (.fault x.id)) ∧
    (∀ out ∈ [0, 1, 3], let x := { r (.command 0 2) 2 with answer := some out }
      let s := (done x).onCore 0 fun c => { c with queues := [[], [], [{ command 0x10 0 0 0 with stopped := some 3 }], [], [], []] }
      (s.die 0).answered.find? (fun y => y.1 == 0) = some (0, x) ∧ s.stoppedAt x.id = some (0, 2) ∧ (s.headCmd 0 2).isSome) ∧
    (let s := { waits (r (.thread 1 0) 1) (.fault 3) with roll := [(1, { state := .resident, parent := 0, part := 0, launch := none, marked := true })] }
     s.markedName 1 = true) := by
  decide +kernel

/-! ## Witnesses: commands -/

/-- Queue `q` of core 0 with a command at its head; group 1 owns 16 KiB of scratchpad. -/
def queueing (q : Nat) (m : Cmd) : State :=
  let s := (State.reset.placed []).onGroup 1 fun g => { g with task := { g.task with scratch := 16 } }
  { s.onCore 0 fun c => { c with queues := modifyNth q (fun _ => [m]) c.queues } with nextId := 9, cycle := 5000 }

theorem running {s : State} {q op : Nat} {m : Cmd} (h : (decide (s.headCmd 0 q = some m) && decide (m.op = op) && m.started && !m.done &&
    decide (m.stopped = none) && decide (m.haltCause = none)) = true) : Running s 0 q op m := by
  simp only [Bool.and_eq_true, decide_eq_true_eq, Bool.not_eq_true'] at h
  obtain ⟨⟨⟨⟨⟨a, b⟩, c⟩, d⟩, e⟩, f⟩ := h
  exact ⟨a, b, c, d, e, f⟩

/-- A command that its engine has started. -/
def begunCmd (op w1 w2 w3 : Nat) : Cmd := { command op w1 w2 w3 with started := true }

theorem witness_CommandLife :
    (∀ x ∈ [(0x30, 1), (0x20, 1), (0x200, 1), (3, 0), (0x17, 4), (0x10, 4)],
      let m := command x.1 0 0 0
      let s := queueing x.2 m
      s.headCmd 0 x.2 = some m ∧ m.started = false ∧ m.haltCause = none ∧ m.stopped = none ∧ m.lock.isSome = true ∧ s.mayStart 0 x.2 = true ∧
        s.engineFree 0 x.2 = true ∧ s.matrixOn 0 = true ∧ m.pass = .none ∧ (s.group 1).imgMatrix = none ∧ s.holdsLease 0 1 = false) ∧
    (let m := command (3 + 2 ^ 32) 0 0 0
     let s := (queueing 0 m).onGroup 1 fun g => { g with imgMatrix := some { acc := [], kc := 5, left := 2 }, sems := [1], semView := [(0, { ids := [3] })] }
     m.wthr ≠ 0 ∧ m.waitMet = false ∧ s.mayStart 0 0 = true ∧ (s.cluster 0).lease = none) ∧
    (opKnown 0x30 = false ∧ opAccepted 1 0x20 = false ∧ (command 0x200 0 0 0).reserved ≠ 0 ∧ opArray 3 = true ∧ (command 0x17 0 0 0).heavy = false) ∧
    (let m := command 3 0 0 0
     let s := (queueing 0 m).onCluster 0 fun c => { c with lease := some ⟨1, 0, 3⟩ }
     s.holdsLease 0 1 = true ∧ m.heavy = true ∧ s.mayStart 0 0 = true) ∧
    (let m := { command 3 0 0 0 with pass := .waiting 10 }
     let s := (queueing 0 m).onDie 0 fun d => { d with passQueue := [(0, 0)] }
     s.headCmd 0 0 = some m ∧ s.estimate 0 + m.charge ≤ 2 * (s.die 0).cap ∧ (s.die 0).inhibit = false ∧ 10 + 4800 ≤ s.cycle ∧
       (s.die (dieOfCore 0)).passQueue.head? = some (0, 0) ∧ ({ s with cycle := 4810 } : State).cycle ≤ 10 + 4800) ∧
    (let s := queueing 0 (command 3 0 0 0)
     ({ s with firm := { s.firm with record := { s.firm.record with noMatrix := [0] } } } : State).matrixOn (clusterOf 0) = false) ∧
    (let m := { command (0x17 + 7 * 2 ^ 24 + 2 * 2 ^ 16) 0 0 0 with done := true }
     let s := queueing 4 m
     s.headCmd 0 4 = some m ∧ m.done = true ∧ 4 ≤ (s.core 0).heads.length ∧ m.sinc ≠ 0 ∧ (s.group 1).semQ = [] ∧ m.ssem < (s.group 1).sems.length) ∧
    (let m := { command 0x10 0 0 0 with haltCause := some 8 }
     let s := (queueing 2 m).onCore 0 fun c => { c with qerr := qerrOf 0x10 2 8 }
     s.headCmd 0 2 = some m ∧ (s.core 0).qerr.getLsbD 0 = true ∧ bitsOf 7 5 (s.core 0).qerr.toNat = 2) := by
  decide +kernel

theorem witness_RunningSignals : Running (queueing 1 (begunCmd 0 0 0 0)) 0 1 0x00 (begunCmd 0 0 0 0) ∧
    Running (queueing 1 (begunCmd 0x17 0 0 0)) 0 1 0x17 (begunCmd 0x17 0 0 0) ∧ Running (queueing 1 (begunCmd 0x17 0 1 0)) 0 1 0x17 (begunCmd 0x17 0 1 0) :=
  ⟨running (by decide +kernel), running (by decide +kernel), running (by decide +kernel)⟩

/-- The largest sum, and the smallest. -/
theorem witness_ExactProducts : ∀ x ∈ [(2 ^ 56 - 2 ^ 18 - 1 : Int), -(2 ^ 56 - 2 ^ 18)],
    let sum := (([x].zip [1]).map fun y => y.1 * y.2).sum
    sum < 2 ^ 56 - 2 ^ 18 ∧ -(2 ^ 56 - 2 ^ 18) ≤ sum := by decide

theorem cellValues_zero : ∀ cs : List MatCell, (∀ c ∈ cs, c = {}) → cellValues cs = some (cs.map fun _ => 0)
  | [], _ => rfl
  | c :: cs, h => by
    have a : c.value = some 0 := by rw [h c (by simp)]; decide
    have b := cellValues_zero cs fun x m => h x (by simp [m])
    simp only [cellValues] at b
    simp [cellValues, List.mapM_cons, a, b]

theorem cellRun_zero : ∀ row col : List Int, (∀ x ∈ row, x = 0) → (∀ y ∈ col, y = 0) → cellRun {} row col = {}
  | [], _, _, _ => rfl
  | _ :: _, [], _, _ => rfl
  | x :: row, y :: col, h, k => by
    have e : MatCell.mac {} x y = {} := by rw [h x (by simp), k y (by simp)]; decide
    have r := cellRun_zero row col (fun z m => h z (by simp [m])) fun z m => k z (by simp [m])
    simpa [cellRun, e] using r

theorem blockRun_zero {cs : List MatCell} {a b : List Int} (hc : ∀ c ∈ cs, c = {}) (ha : ∀ x ∈ a, x = 0) (hb : ∀ x ∈ b, x = 0) :
    ∀ c ∈ blockRun cs a b, c = {} := by
  intro c m
  simp only [blockRun, List.mem_map] at m
  obtain ⟨x, hx, rfl⟩ := m
  rw [hc x.2 (List.of_mem_zip hx).2]
  refine cellRun_zero _ _ (fun z hz => ha z (List.mem_of_mem_drop (List.mem_of_mem_take hz))) fun z hz => ?_
  simp only [colOf, List.mem_map] at hz
  obtain ⟨k, -, rfl⟩ := hz
  rcases lt_or_ge (128 * k + x.1 % 128) b.length with h | h
  · rw [List.getD_eq_getElem _ _ h]; exact hb _ (List.getElem_mem h)
  · exact List.getD_eq_default _ _ h

theorem unpack_zero (w : Nat) : ∀ n, ∀ x ∈ unpack w n 0, x = 0
  | 0, x, h => by simp [unpack] at h
  | n + 1, x, h => by
    simp only [unpack, Nat.zero_mod, Nat.zero_div, List.mem_cons] at h
    exact h.elim id (unpack_zero w n x)

theorem memBytes_zero : ∀ n a, ofBytesLE (memBytes [] a n) = 0
  | 0, _ => rfl
  | n + 1, a => by
    have h : memByte [] a = 0#8 := rfl
    simp [memBytes, ofBytesLE, h, memBytes_zero n (a + 1)]

theorem window_zero {s : State} (h : (s.group 1).scratch = []) (k : (s.group 1).task.scratch = 16) : s.winBytes 1 0 8192 = memBytes [] 0 8192 := by
  simp [State.winBytes, winRef, h, k]

/-- A block of f4 elements in an unwritten scratchpad is zero. -/
theorem matBlock_zero {s : State} {m : Cmd} (h : (s.group 1).scratch = []) (h' : (s.group 1).bad = []) (k : (s.group 1).task.scratch = 16) (g : m.group = 1) :
    s.matBlock 0 m 5 ⟨true, 0⟩ 0 = .ok ((unpack 4 cellCount 0).map (matValue 5)) := by
  have e : s.engPlan 0 m false (Place0.plus ⟨true, 0⟩ 0) 8192 = .ok [{ host := false, pool := true, addr := 0, key := 0, cc := 0, off := 0, len := 8192 }] := by
    simp [State.engPlan, Place0.plus, g, k]
  have r : s.engRead 0 m (Place0.plus ⟨true, 0⟩ 0) 8192 = .ok (memBytes [] 0 8192) := by
    simp only [State.engRead, e, g]
    simp [window_zero h k, State.storeFirst, State.piecePoison, State.winPoison, winRef, h', k]
  have b : matBits 5 = 4 := by decide
  have c : blockBytes 5 = 8192 := rfl
  simp only [State.matBlock, State.matRead, c, Nat.zero_mul, Nat.cast_zero, e, r]
  simp [Eng.bind, memBytes_zero, b]

theorem cells_zero {k : Cluster} (e : k.acc = []) : ∀ c ∈ k.cells, c = {} := by
  intro c m
  simp only [Cluster.cells, List.mem_map, e] at m
  obtain ⟨i, -, rfl⟩ := m
  rfl

theorem values_zero : ∀ x ∈ (unpack 4 cellCount 0).map (matValue 5), x = 0 := by
  intro x m
  simp only [List.mem_map] at m
  obtain ⟨y, hy, rfl⟩ := m
  rw [unpack_zero 4 _ y hy]; decide

theorem operands_zero {s : State} {m : Cmd} (h : (s.group 1).scratch = []) (h' : (s.group 1).bad = []) (k : (s.group 1).task.scratch = 16) (e : (s.cluster 0).acc = []) (g : m.group = 1)
    (fa : m.fa = 5) (fb : m.fb = 5) (a : m.src = ⟨true, 0⟩) (b : m.dst = ⟨true, 0⟩) (n : m.blocks = 1) :
    ∃ bs, engAll (s.matBlocks 0 m) (List.range m.blocks) = .ok bs ∧
      (∃ vs, bs.mapM (fun x => cellValues (blockRun (List.replicate 16384 {}) x.1 x.2)) = some vs) ∧
      cellValues (bs.foldl (fun cs x => blockRun cs x.1 x.2) (s.cluster 0).cells) ≠ none ∧ ∃ vs, cellValues (s.cluster 0).cells = some vs := by
  refine ⟨[((unpack 4 cellCount 0).map (matValue 5), (unpack 4 cellCount 0).map (matValue 5))], ?_, ?_, ?_, ?_⟩
  · simp only [n, List.range_one, engAll, State.matBlocks, fa, fb, a, b, matBlock_zero h h' k g, Eng.bind]
  · have z := cellValues_zero _ (blockRun_zero (cs := List.replicate 16384 {}) (fun c m => (List.mem_replicate.mp m).2) values_zero values_zero)
    exact ⟨[_], by simp only [List.mapM_cons, List.mapM_nil, z]; rfl⟩
  · have z := cellValues_zero _ (blockRun_zero (cells_zero e) values_zero values_zero)
    simp only [List.foldl_cons, List.foldl_nil, z]
    exact fun h => by cases h
  · exact ⟨_, cellValues_zero _ (cells_zero e)⟩

/-- The blocks of two operands of f4 elements in an unwritten scratchpad, and a malformed format. -/
theorem witness_MatrixCommands :
    (∀ x ∈ [(1, 1, 0), (1, 64, 0), (1, 0, 0), (1, 65, 0), (1, 1, 1), (2, 0, 0), (2, 0, 1), (3, 0, 0), (3, 1, 0), (4, 0, 0), (5, 0, 0), (6, 0, 0), (6, 0, 1), (7, 0, 0),
      (7, 2 ^ 57, 0)], Running (queueing 0 (begunCmd x.1 x.2.1 x.2.2 0)) 0 0 x.1 (begunCmd x.1 x.2.1 x.2.2 0)) ∧
    (let s := queueing 0 (begunCmd 1 1 0 0)
     let l := s.onCluster 0 fun c => { c with lease := some ⟨1, 0, 3⟩ }
     l.holdsLease 0 1 = true ∧ (l.core 0).pool.det = false ∧ (s.cluster 0).lease = none ∧ s.leaseTurn 0 = some 0 ∧ s.holdsLease 0 1 = false) ∧
    ((begunCmd 4 0 0 0).matBad = true ∧ (begunCmd 6 0 1 0).emitBad = true ∧ (begunCmd 7 (2 ^ 57) 0 0).emitBad = true ∧ (begunCmd 6 0 0 0).emitBad = false ∧
      (begunCmd 7 0 0 0).emitBad = false) ∧
    (let w := 5 * 2 ^ 61 + 2 ^ 56
     ∀ op ∈ [4, 5], let m := begunCmd op w w 0
      let s := queueing 0 m
      Running s 0 0 op m ∧ m.matBad = false ∧ (s.cluster 0).kc + 128 * m.blocks ≤ 65536 ∧ ∃ bs, engAll (s.matBlocks 0 m) (List.range m.blocks) = .ok bs ∧
        (∃ vs, bs.mapM (fun x => cellValues (blockRun (List.replicate 16384 {}) x.1 x.2)) = some vs) ∧
        cellValues (bs.foldl (fun cs x => blockRun cs x.1 x.2) (s.cluster 0).cells) ≠ none ∧ (∃ vs, cellValues (s.cluster 0).cells = some vs)) ∧
    (let m := begunCmd 5 (5 * 2 ^ 61 + 2 ^ 56) (5 * 2 ^ 61 + 2 ^ 56) 0
     65536 < (((queueing 0 m).onCluster 0 fun c => { c with kc := 65536 }).cluster 0).kc + 128 * m.blocks) := by
  refine ⟨fun x h => ?_, by decide +kernel, by decide +kernel, fun op h => ?_, by decide +kernel⟩
  · simp only [List.mem_cons, List.not_mem_nil, or_false] at h
    rcases h with rfl | rfl | rfl | rfl | rfl | rfl | rfl | rfl | rfl | rfl | rfl | rfl | rfl | rfl | rfl <;> exact running (by decide +kernel)
  · simp only [List.mem_cons, List.not_mem_nil, or_false] at h
    rcases h with rfl | rfl
    all_goals
      exact ⟨running (by decide +kernel), by decide +kernel, by decide +kernel, operands_zero (by decide +kernel) (by decide +kernel) (by decide +kernel) (by decide +kernel) rfl
        (by decide) (by decide) (by decide) (by decide) (by decide)⟩

/-- Whether an engine's access gives a result. -/
def isOk {α : Type} : Eng α → Bool
  | .ok _ => true
  | _ => false

/-- A shape of one line of `n` elements, with an index array at byte 256 of the scratchpad and a limit. -/
def aShape (n lim : Nat) : Shape := { pad0 := 0, blk := 16, exts := [n], sstr := [], dstr := [], saux := if lim = 0 then 0 else 2 ^ 56 + 256, daux := 0, idxlim := lim }

/-- A started copy from byte 0 to byte 512 of the scratchpad. -/
def aCopy (op sf df : Nat) (h : Shape) : Cmd :=
  { command op (sf * 2 ^ 60 + 2 ^ 56) (df * 2 ^ 60 + 2 ^ 56 + 512) 0 with started := true, shape := some h }

/-- The scratchpad of group 1 with bytes from `o` on. -/
def filled (s : State) (o : Nat) (bs : List Byte) : State := s.onGroup 1 fun g => { g with scratch := memPuts g.scratch o bs }

/-- A started copy of a line of four elements from bank 0 to bank 1 of a scratchpad, in the banks' formats: `q8` with scales in bank 3,
and `f32`. -/
def bankCopy : State × Cmd :=
  let m := { aCopy 0x10 0 0 (aShape 4 0) with w2 := BitVec.ofNat 64 (2 ^ 56 + 1024) }
  ((queueing 2 m).onGroup 1 fun g => { g with pool := { g.pool with bankfmt := [0x342#12, 9#12] } }, m)

/-- Each copy, at its first chunk; one of no elements, and one of formats that differ. -/
theorem witness_CopyCommands :
    (∀ x ∈ [(0x10, 0, 0, aShape 4 0), (0x11, 9, 8, aShape 4 0), (0x12, 0, 12, aShape 4 0), (0x13, 2, 0, aShape 4 0), (0x14, 0, 2, aShape 4 0),
        (0x15, 12, 12, aShape 4 1), (0x16, 12, 12, aShape 4 1), (0x10, 0, 0, aShape 0 0), (0x10, 0, 1, aShape 4 0)],
      let m := aCopy x.1 x.2.1 x.2.2.1 x.2.2.2
      let h := x.2.2.2
      let s := queueing 2 m
      let c := h.chunk (lineRoom (m.dstElem h m.units) m.dstBits) m.units
      Running s 0 2 x.1 m ∧ m.wordsBad s.modid = false ∧ m.remote s.modid = 0 ∧ m.bankPair s.modid (s.group m.group) = none ∧
        (h.empty = false → m.units < h.elems ∧ m.units < 1040 * h.lines ∧ ¬ (m.units + (c.hi - c.lo) < h.elems)) ∧
        isOk (s.engRead 0 m (m.srcAt h c.line c.lo) (bytesFor m.srcBits (c.real - c.lo))) = true ∧ isOk (s.engPut 0 m (m.dstAt h c.line c.lo) [0#8]) = true) ∧
    ((aCopy 0x11 9 8 (aShape 4 0)).srcScaled (aShape 4 0) = false ∧ (aCopy 0x11 9 8 (aShape 4 0)).dstScaled (aShape 4 0) = false ∧
      ElemType.ofCode 2 = some .i32 ∧ (aCopy 0x15 12 12 (aShape 4 1)).indexedBad = false ∧ (aShape 0 0).empty = true ∧ (aCopy 0x10 0 1 (aShape 4 0)).sfmt ≠ 1) ∧
    (let s := bankCopy.1
     let m := bankCopy.2
     let a := (s.group 1).bankAt 0
     let b := (s.group 1).bankAt 1024
     Running s 0 2 0x10 m ∧ m.bankPair s.modid (s.group m.group) = some (a, b) ∧ a.fmt ≠ .raw ∧ b.fmt ≠ .raw ∧ m.units < (aShape 4 0).lines * b.rowBytes (aShape 4 0) ∧
       a.moved ((aShape 4 0).srcLine 0) = some a ∧ b.moved ((aShape 4 0).dstLine 0) = some b ∧
       (match s.bankVals 0 m a 4 with
         | .ok vs => (match s.bankImage 0 m b ((aShape 4 0).padded) vs with
           | .ok im => let part := im.1.take (lineRoom (b.start + b.off : Nat) 8)
             decide (part.length = b.rowBytes (aShape 4 0)) && isOk (s.engPuts 0 m [(⟨true, (b.start + b.off : Nat)⟩, part), (⟨true, b.scales⟩, (b.scalesIn im.2 0 part.length).2)])
           | _ => false)
         | _ => false) = true) ∧
    (∀ op ∈ [0x15, 0x16], ∀ ix ∈ [0, 1], let m := aCopy op 12 12 (aShape 4 1)
      let s := filled (queueing 2 m) 256 (toBytesLE 4 ix)
      (match s.engRead 0 m ((packed (aShape 4 1).saux).plus 0) 16 with | .ok bs => (unpack 32 4 (ofBytesLE bs)).all (· < 1) == (ix == 0) | _ => false) = true ∧
        isOk (s.engPuts 0 m [(m.dst.plus 0, List.replicate 4 0#8)]) = true) ∧
    (∀ x ∈ [(mkRun .i32 [.rep 7 4], false, true), ({ hdr := 100#64 <<< 40 }, true, false), (mkRun .i32 [.rep 7 3], false, false)],
      let m := aCopy 0x14 0 2 (aShape 4 0)
      let s := filled (queueing 2 m) 0 (toBytesLE 16 x.1.hdr.toNat ++
        toBytesLE 16 ((x.1.slots.getD 0 {}).payload.toNat + (x.1.slots.getD 0 {}).hdr.toNat * 2 ^ 64))
      (match s.engRead 0 m m.src 16, s.engRead 0 m (m.src.plus 16) 16 with
        | .ok hd, .ok sl => let r := runFromStream (hd ++ sl)
          (decide (64 < bitsOf 46 40 (ofBytesLE (hd.take 8))) == x.2.1) && (x.2.1 || (r.wf && decide (r.type = 2) && decide (r.len = 4)) == x.2.2)
        | _, _ => false) = true) ∧
    (∀ n ∈ [128, 130], let m := aCopy 0x13 2 0 (aShape n 0)
      let s := filled (queueing 2 m) 0 ((List.range n).flatMap (toBytesLE 4))
      (match s.engRead 0 m (m.srcAt (aShape n 0) 0 0) (4 * n) with
        | .ok bs => decide ((packRuns .i32 (unpack 32 n (ofBytesLE bs))).length ≤ 64) == (n == 128) | _ => false) = true) := by
  refine ⟨fun x h => ?_, by decide +kernel, ⟨running (by decide +kernel), by decide +kernel⟩, by decide +kernel, by decide +kernel, by decide +kernel⟩
  simp only [List.mem_cons, List.not_mem_nil, or_false] at h
  rcases h with rfl | rfl | rfl | rfl | rfl | rfl | rfl | rfl | rfl <;> exact ⟨running (by decide +kernel), by decide +kernel⟩

/-- A copy to another module while no port is up, and while all are. -/
theorem witness_CopyRoutes :
    let m := { aCopy 0x10 0 0 (aShape 4 0) with w2 := 0x2000#64, w3 := BitVec.ofNat 64 (5 * 2 ^ 52 + 2 * 2 ^ 50) }
    let s := { queueing 2 m with ports := (List.range 32).map fun p => (p, { up := false }) }
    s.headCmd 0 2 = some m ∧ m.remote s.modid = 2 ∧ m.wordsBad s.modid = false ∧ m.bankPair s.modid (s.group m.group) = none ∧
    s.copyRouted 5 = false ∧ (queueing 2 m).copyRouted 5 = true := by
  have h : ∀ p : Fin 32, (({ queueing 2 (command 0 0 0 0) with ports := (List.range 32).map fun p => (p, { up := false }) } : State).portn p).up = false := by
    decide +kernel
  exact ⟨by decide +kernel, by decide +kernel, by decide +kernel, by decide +kernel, h _, rfl⟩

/-- A started bulk command on keys 1 to `n` under `bound`, with its buffer at byte 0 of the scratchpad, on a region committed to 110. -/
def bulking (op n inst w3 : Nat) (f : Cmd → Cmd) : State × Cmd :=
  let m := f { command op (n * 2 ^ 32 + 1) inst (2 ^ 56 + w3) with started := true, bind := some bound }
  let s := (tabled (queueing 5 m)).writePhys false 0 0x130008 (toBytesLE 8 0x100BF)
  ({ s with regions := [(2 * 0x10000, { committed := some 110, keys := [(128, someRing)], horizons := [(1, 100)] })] }, m)

/-- Beyond omega, beyond lambda, a key without entries, below the oldest entry, past the newest, and on it; an instant that is read already;
a commit that the command's wait follows; a poisoned block; a wait that has ended. Then records that are staged and refused, and commits of a
later, the same and an earlier instant, behind a `WST` of the thread and not. -/
theorem witness_BulkCommands :
    let base := 2 * 0x10000
    (∀ x ∈ [(1, 131), (1, 121), (2, 110), (1, 99), (1, 120), (1, 110)],
      let p := bulking 0x20 x.1 x.2 0 id
      let r := p.1.region base
      p.1.bulkRegion 0 p.2 bound = some (base, 0) ∧ p.2.bulkBad = false ∧ p.1.headCmd 0 5 = some p.2 ∧ p.2.op = 0x20 ∧ p.2.bind = some bound ∧
        p.2.ended = none ∧ p.2.instant = none ∧ p.2.edge = none ∧ p.2.closed = false ∧ p.1.awaits p.2 = false ∧ r.clock = 110 ∧
        (p.1.bulkView 0 p.2 bound base 0 1).entries base bound 1 = someRing ∧ (p.1.bulkView 0 p.2 bound base 0 2).entries base bound 2 = [] ∧
        (match p.1.bulkPlan 0 p.2 (bound.keyAddr 1) bound.block with
          | .ok ps => ps.all fun q => (p.1.physPoison q.host q.addr q.len).isNone | _ => false) = true ∧
        isOk (p.1.sampleKey 0 p.2 bound base 0 110) = decide (x.2 ≠ 99) ∧ isOk (p.1.engPut 0 p.2 (p.2.statusAt bound) [0#8]) = true) ∧
    (let p := bulking 0x20 1 110 0 fun m => { m with knows := { upTo := [(threadKey 1 0, 1)] } }
     ∃ w ∈ ({ p.1 with worldOps := [aWorldOp .wcommit 110] } : State).worldOps, p.2.knows.covers w.writer = true ∧ w.kind = .wcommit) ∧
    (let p := bulking 0x20 1 110 0 fun m => { m with instant := some 110 }
     p.2.ended = none ∧ p.2.instant = some 110 ∧ isOk (p.1.sampleKey 0 p.2 bound base 0 110) = true) ∧
    (let p := bulking 0x20 1 110 0 id
     let s := { p.1 with poison := [(0x10280 / 128, 5)] }
     (match s.bulkPlan 0 p.2 (bound.keyAddr 1) bound.block with | .ok ps => ps.any fun q => (s.physPoison q.host q.addr q.len).isSome | _ => false) = true) ∧
    (let p := bulking 0x20 1 120 0 fun m => { m with ended := some 4 }
     p.1.headCmd 0 5 = some p.2 ∧ isOk (p.1.engPut 0 p.2 (p.2.statusAt bound) [4#8]) = true) ∧
    (∀ x ∈ [(0, 111), (0, 110), (1, 109), (1, 110), (1, 111)],
      let p := bulking 0x21 1 x.2 (2 ^ 61) fun m => { m with units := x.1 }
      p.1.headCmd 0 5 = some p.2 ∧ p.2.op = 0x21 ∧ p.2.cmt = true ∧ p.2.bulkBad = false ∧ p.1.snapBehind p.2 = false ∧
        (let w := { aWorldOp (.wst []) 111 with seq := 0 }
         ({ p.1 with worldOps := [w] } : State).snapBehind { p.2 with seq := 1 } = true) ∧
        isOk (p.1.bulkPlan 0 p.2 (bound.keyAddr (p.2.key0 + p.2.units)) bound.block) = true ∧
        isOk (p.1.engRead 0 p.2 (p.2.buf.plus (p.2.units * bound.recordBytes : Nat)) bound.recordBytes) = true ∧
        (match (p.1.bulkView 0 p.2 bound base 0 2).stage base bound 2 111 with | .stage _ => true | _ => false) = true ∧
        (match (p.1.bulkView 0 p.2 bound base 0 1).stage base bound 1 110 with | .refuse _ => true | _ => false) = true ∧
        (p.1.region base).committed = some 110) ∧
    (bulking 0x21 1 111 0 fun m => { m with units := 1 }).2.cmt = false := by
  decide +kernel

/-! ## Witnesses: the host, management, links -/

theorem witness_HostRegisters :
    let s := State.reset
    let v := BitVec.ofNat 64 (2 ^ 31 + 16 * 2 ^ 16 + 7)
    s.serving = true ∧ v.getLsbD 31 = true ∧ (s.lq 63).en = false ∧ bitsOf 20 16 v.toNat = 16 ∧ bitsOf 8 0 v.toNat = 7 ∧
    (s.onCluster 3 fun c => { c with part := 7 }).clustersOf 7 ≠ [] ∧ (0x100#64).toNat % 256 = 0 ∧ (s.partn 287).tqEn = false ∧
    bitsOf 4 0 (BitVec.ofNat 64 (2 ^ 31 + 20)).toNat = 20 ∧ s.livesIn 287 = false ∧ homeOk 0x100000 (2 ^ 20) = true ∧ homeOk 0x1000 4096 = true ∧
    bitsOf 31 16 (BitVec.ofNat 64 (645 * 2 ^ 16)).toNat = 645 ∧ bitsOf 31 16 (BitVec.ofNat 64 (300 * 2 ^ 16)).toNat = 300 := by
  decide +kernel

/-- A launch record with VALID whose task record lies at 0x20040 and whose completion word at 0x20018 (R346). -/
def launchBytes (valid : Nat) : List Byte :=
  [0x20040, 0x20018, 0x4000, 0x14000, 0x24000].flatMap (toBytesLE 8) ++ List.replicate 208 0#8 ++ toBytesLE 8 (valid * 2 ^ 63)

/-- Launch queue 0 of partition 0 with one record; its task record and the page table are in memory. -/
def launching (bs : List Byte) (base : Nat) : State :=
  let s := ((tabled State.reset).writePhys false 0 0x20100 bs).writePhys false 0 0x20040 recordBytes
  { s.onLq 0 fun q => { q with base := BitVec.ofNat 64 base, en := true, size := 4, tail := 1#32 } with nextId := 9 }

/-- A launch of that queue whose record has been read. -/
def aLaunch (f : LaunchRec → LaunchRec) : Launch :=
  { id := 5, queue := 0, part := 0, addr := 0x20100, record := f (launchOfBytes (launchBytes 1)) }

theorem witness_Launches :
    (∀ v ∈ [0, 1], let s := launching (launchBytes v) 0x20100
      (s.lq 0).en = true ∧ (s.lq 0).head ≠ (s.lq 0).tail ∧ (s.pending.filter (fun l => l.part == (s.lq 0).part)).length < 1024 ∧
        s.deviceRead 0 0x20100 256 = some (launchBytes v) ∧ s.launchOk 0 (launchBytes v) = decide (v = 1) ∧ s.readMap 0 0 = some []) ∧
    (launching (launchBytes 1) 0x50000).deviceRead 0 0x50000 256 = none ∧
    (launching (launchBytes 1) 0x20100).readMap 0 0x50000 = none ∧
    (∀ x ∈ [((0x50000#64, 1#32), DepState.faults), ((0x20020#64, 1#32), .waits), ((0x20020#64, 0#32), .met false), ((0x20028#64, 0#32), .met true)],
      let l := aLaunch fun r => { r with deps := [x.1], casc := true }
      let s := { (launching [] 0x20100).writePhys false 0 0x20028 (toBytesLE 8 (2 ^ 62)) with pending := [l] }
      s.pending.find? (fun y => y.id == 5) = some l ∧ s.depState l = x.2 ∧ s.pending.takeWhile (fun y => y.id != 5) = []) ∧
    (let l := aLaunch id
     let s := { launching [] 0x20100 with pending := [l] }
     s.depState l = .met false ∧ (s.startRoot l 0x20040).isSome ∧ l.record.task.toNat = 0x20040) ∧
    (let l := { aLaunch id with ending := some (true, false, 0#30) }
     let s := { launching [] 0x20100 with running := [l] }
     s.running.find? (fun y => y.id == 5) = some l ∧ s.launchEnd l = some (true, false, 0#30) ∧ l.record.done ≠ 0#64 ∧ s.doneOk 0 l.record.done = true ∧
       s.atomicRead 0 0x20018 = some 0 ∧ (State.deviceWrite 2 s 0 0x20018 (List.replicate 8 1#8)).isSome) := by
  decide +kernel

/-- Partition 0 stopped, with a record of core 17 to come at 0x20440, in memory of canonical form. -/
def stopping : State := tabled (State.reset.onPart 0 fun p => { p with dbg := 0x20000#64, stop := true, snaps := [(17, List.replicate 64 5#8)] })

theorem witness_Partitions : stopping.MemOk ∧ (
    let s := State.reset.onPart 3 fun p => { p with shoot := some (0x20000, 65536), stop := true }
    s.serving = true ∧ (s.partn 287).shoot = none ∧ bitsOf 3 0 (2#64).toNat < 3 ∧ bitsOf 3 0 (15#64).toNat = 15 ∧
    bitsOf 3 0 (3#64).toNat = 3 ∧ bitsOf 3 0 (14#64).toNat = 14 ∧
    ((s.coresIn 3).foldl (fun o c => o.bind fun x => x.writeStop 3 c) (some s)).isSome ∧
    s.stillUses 3 (0x20000, 65536) = false ∧ (s.partn 3).stop = true ∧ (s.partn 3).stopped = false ∧
    (let s := (State.reset.placed []).onThread 1 0 fun t => { t with halted := true }
     (s.slotsOf 0).find? (fun x => x.1 == 0) = some (0, 1, 0) ∧ s.partOf 0 = 0 ∧ s.hasThread 1 0 = true) ∧
    (let s := State.reset.onCluster 5 fun c => { c with moving := some 7 }
     (s.cluster 5).moving = some 7 ∧ s.commandsOf 5 = [] ∧ (∀ i < 16, s.slotsOf (16 * 5 + i) = [])) ∧
    (let s := (State.reset.onPart 0 fun p => { p with stop := true })
     s.partOf 0 = 0 ∧ (s.partn 0).stop = true) ∧
    (let s := stopping
     (s.partn 0).dump = false ∧ ((Tab.find 17 (s.partn 0).snaps).getD (s.coreRecord 17)).length = 64 ∧
       s.plan true 0 0 0 ((s.partn 0).dbg.toNat + 64 * 17) 64 { store := true, user := false } false true =
         .ok [{ host := false, addr := 0x20440, key := 0, cc := 0, off := 0, len := 64, va := 0x20440, page := 0x20000, pageSize := 65536 }]) ∧ (s.partn 3).shoot = some (0x20000, 65536)) := by
  refine ⟨⟨?_, ?_, ?_⟩, ?_⟩ <;> decide +kernel

/-- A management command with a buffer of `len` bytes at 0x3000 of host memory, in the slot at 0x1000 (spec 20 R395). -/
def managed (op : Nat) (taken : Option Nat) (len arg : Nat) : State :=
  let s := { State.reset with firm := { State.reset.firm with mbBase := 0x1000#64, taken := taken } }
  s.writePhys true 0 0x1000 ([2 ^ 63 + op, 0, 0x3000, len, 0, 0, 0, 0, arg].flatMap (toBytesLE 8))

/-- Whether an image verifies is a question that the machine's keys decide; both answers are allowed for. -/
theorem witness_Management :
    State.reset.commandThere = false ∧
    (∀ op, op = 1 ∨ op = 6 → let s := managed op none 4096 5
      s.firm.taken = none ∧ s.commandThere = true ∧ s.slotOpcode = op ∧ s.firm.accepts op = true ∧
        (Firmware.accepts { s.firm with recordValid := false } 6 = false)) ∧
    (∀ op ∈ [1, 2, 3, 4, 5, 6], (managed op (some op) 4096 5).firm.taken = some op ∧ (managed op (some op) 4096 5).slotWord 24 = 4096 ∧
      (managed op (some op) 8 5).slotWord 24 = 8 ∧ (managed op (some op) 4096 5).slotWord 64 % 256 = 5 ∧ (managed op (some op) 4096 0).slotWord 64 % 256 = 0 ∧
      (managed op (some op) 4096 5).dirtyKey 5 = false ∧ (managed op (some op) 4096 5).midKey 5 = false) ∧
    identityBytes.length ≤ 4096 := by
  refine ⟨by decide +kernel, fun op h => ?_, by decide +kernel, by simp [identityBytes]⟩
  rcases h with rfl | rfl <;> decide +kernel

theorem witness_HostAccess :
    let s := State.reset
    let w := { s with firm := { s.firm with shutdown := true } }
    let p := { (tabled s).writePhys false 0 (0x8000 + 8 * 4095) (toBytesLE 8 (7 * 2 ^ 61)) with port := { s.port with podBase := 0x8000#64, podEn := true } }
    (s.serving = true ∧ 0 + 8 ≤ 2304 * 2 ^ 30 ∧ s.linesBusy (linesOf 0 8) = false ∧ s.shownAt false 0 8 = false ∧ s.shownAt true 0 8 = false ∧
      s.meetsWorld 0 8 = false) ∧ w.serving = false ∧ s.port.trained = false ∧
    (p.serving = true ∧ p.podAllows 4094 true = false ∧ p.podAllows 4095 false = true ∧ p.podAllows 4095 true = true ∧ p.podWaits 0 0x20000 8 true = false ∧ p.podWaits 0 0x20000 8 false = false ∧
      (State.podWrite 3 p 0 0x20000 (toBytesLE 8 5)).isSome) := by
  decide +kernel

/-- A flit that follows, and one that does not; a NAK, a lapse, eight resends, training; each period of the housekeeping; a line that is poisoned
already; temperatures at the bounds. -/
theorem witness_LinksAndHousekeeping :
    let s := State.reset.onPort 31 fun p => { p with unacked := [1, 2], resends := 8 }
    let s := { s with cycle := 3840 + 9000 * 4096 }
    let flit := flitOf 0#12 4095#12 4095#12 false 3#3 0#32 [.literal 5#256, .index 0]
    (flitOk flit = true ∧ flitSeq flit = (s.portn 31).rxLast + 1#12) ∧ flitOk 0 = false ∧ portNamed 31 = true ∧ portNamed 69 = true ∧
    (s.portn 31).up = true ∧ (s.portn 31).outQ = [] ∧ (s.portn 31).unacked ≠ [] ∧ (s.portn 31).ackAt + 4800 ≤ s.cycle ∧ 8 ≤ (s.portn 31).resends ∧
    ((s.onPort 31 fun p => { p with up := false }).portn 31).up = false ∧ (s.portn 69).ackAt + 4800 ≤ s.cycle ∧ s.firm.shutdown = false ∧ (1759#16).toNat < 1760 ∧
    ({ s with firm := { s.firm with shutdown := true } } : State).firm.shutdown = true ∧ s.firm.recordValid = true ∧ s.firm.imageValid = true ∧
    (∀ k ∈ [0, 1, 2, 3], 3840 ≤ (3840 + (k + 4) * 4096) % 4096 ∧ (3840 + (k + 4) * 4096) / 4096 % 4 = k) ∧ 15 < 16 ∧ 23 < 24 ∧
    Tab.get 0 15 (s.die 23).scrubAt ≤ s.cycle / 4096 ∧ s.scrubs 0 0 3 0 = true ∧ 3 ≠ 0 ∧ Tab.find 0 s.poison = none ∧
    Tab.find 0 ({ s with poison := [(0, 5)] } : State).poison ≠ none ∧
    1600 ≤ (1600#16).toNat ∧ (1519#16).toNat < 1520 ∧ 1760 ≤ (1760#16).toNat := by
  refine ⟨flitOf_accepted _ _ _ _ _ _ _ (by simp) (by decide) (by decide +kernel), by decide, ?_⟩
  decide +kernel

theorem witness_StepKeepsMemOk : State.reset.MemOk ∧ goesOn (Machine.step State.reset) false = true := by
  refine ⟨⟨?_, ?_, ?_⟩, ?_⟩ <;> decide +kernel

theorem witness_InstrFrame :
    let s := demo id
    isEvent (.add 1 2 3) = false ∧ goesOn (exec (.add 1 2 3) s) false = true ∧ s.iss.live = true ∧ s.ThreadOk ∧
    ∀ th, (th = s.cur ∨ th = s.pre) → th.monitor = false ∧ th.tvec.getLsbD 0 = false ∧ th.tcause.getLsbD 14 = false := by
  refine ⟨by decide +kernel, by decide +kernel, by decide +kernel, ⟨?_, ?_, ?_⟩, fun th h => ?_⟩
  · decide +kernel
  · decide +kernel
  · decide +kernel
  · rcases h with rfl | rfl <;> decide +kernel

/-! ## Results that the manual works out -/

/-- The state that follows, or the first one. -/
def after (o : Out) (s : State) : State :=
  match o with
  | .next u => u
  | _ => s

/-- The table of R229 (spec 09), without its reading of -2^63 as unsigned. -/
theorem test_division :
    let run (a b : Int) (i : Instr) : State := let s := demo (withRegs [(2, codeOf 64 a), (3, codeOf 64 b)]); after (exec i s) s
    let v (a b : Int) (i : Instr) : Int := ((run a b i).cur.reg 1).val.toInt
    (v 7 (-2) (.div 1 2 3) = -3 ∧ v 7 (-2) (.rem 1 2 3) = 1 ∧ v 7 (-2) (.divu 1 2 3) = 0 ∧ v 7 (-2) (.remu 1 2 3) = 7) ∧
    (v (-7) 2 (.div 1 2 3) = -3 ∧ v (-7) 2 (.rem 1 2 3) = -1 ∧ v (-7) 2 (.divu 1 2 3) = 2 ^ 63 - 4 ∧ v (-7) 2 (.remu 1 2 3) = 1) ∧
    (v (-2 ^ 63) (-1) (.div 1 2 3) = -2 ^ 63 ∧ v (-2 ^ 63) (-1) (.rem 1 2 3) = 0 ∧ v (-2 ^ 63) (-1) (.divu 1 2 3) = 0) ∧
    (v 5 0 (.div 1 2 3) = 0 ∧ v 5 0 (.rem 1 2 3) = 5 ∧ (run 5 0 (.div 1 2 3)).cur.flags = dz ∧ (run 7 (-2) (.div 1 2 3)).cur.flags = 0#5) := by
  decide +kernel

/-- NaNs of cores 5 and 2, and their sum in both orders (spec 07 R193). -/
theorem test_nan_payload :
    let inf : Nat := 0x7F800000
    (fSub .f32 .rne ⟨5, 3⟩ inf inf).bits = 0x7FC00A03 ∧ (fSub .f32 .rne ⟨2, 400⟩ inf inf).bits = 0x7FC00590 ∧
    (fAdd .f32 .rne ⟨0, 0⟩ 0x7FC00A03 0x7FC00590).bits = 0x7FC00590 ∧ (fAdd .f32 .rne ⟨0, 0⟩ 0x7FC00590 0x7FC00A03).bits = 0x7FC00590 := by
  decide +kernel

/-- Six elements converted to f4 with a block of 16 (spec 07 R190): 13, 10, -3, 2.6, 0.5, -0.3, the last but two and the last to ten bits. -/
theorem test_f4_block :
    let vals := [FVal.fin false 13 0, .fin false 10 0, .fin true 3 0, .fin false 2662 (-10), .fin false 1 (-1), .fin true 307 (-10)]
    BankFmt.scaleOf .f4 vals = 128 ∧ vals.map (BankFmt.quantise .f4 128) = [7, 6, 0xB, 3, 0, 0] ∧
    denseBytes 4 (vals.map (BankFmt.quantise .f4 128)) = [0x67#8, 0x3B#8, 0#8] := by
  decide +kernel

/-- The boundary row of R198. -/
def boundary : RunReg := mkRun .f32 [.lit [0x3F800000, 0x3F000000], .rep 0 4092, .lit [0x3F000000, 0x3F800000]]

theorem test_boundary_image : boundary.hdr = 0x8005030000000000#64 ∧
    boundary.slots.take 3 = [⟨0x3F0000003F800000#64, 0x8001#16⟩, ⟨0#64, 0x4FFB#16⟩, ⟨0x3F8000003F000000#64, 0x8001#16⟩] ∧ boundary.wf = true := by
  decide +kernel

/-- The worked walk of spec 10, instruction by instruction. -/
theorem test_worked_walk :
    let s0 := demo (fun t => withRuns [(1, boundary)] (withRegs [(5, 3)] { t with vlen := 4096#13 }))
    let next (s : State) : State := { s with pre := s.cur }
    let s1 := next (after (exec (.vmask 2 5) s0) s0)
    let s2 := next (after (exec (.vcvt 3 2 .b1 0 .f32 .cround) s1) s1)
    let s3 := next (after (exec (.vmul 4 1 3 0 .f32) s2) s2)
    let s4 := next (after (exec (.vcoal 4 4 .f32) s3) s3)
    let s5 := after (exec (.vred .add 6 4 .f32) s4) s4
    (s1.cur.vreg 2).run = mkRun .b1 [.rep 1 3, .rep 0 4093] ∧ (s2.cur.vreg 3).run = mkRun .f32 [.rep 0x3F800000 3, .rep 0 4093] ∧
    (s3.cur.vreg 4).run.slots.take 4 = [⟨0x3F0000003F800000#64, 0x8001#16⟩, ⟨0#64, 0x4000#16⟩, ⟨0#64, 0x4FFA#16⟩, ⟨0#64, 0x8001#16⟩] ∧
    (s4.cur.vreg 4).run.hdr = 0x8005020000000000#64 ∧ ((s4.cur.vreg 4).run.slots.getD 1 {}).hdr = 0x4FFD#16 ∧ (s5.cur.reg 6).val = 0x3FC00000#64 ∧
    s5.cur.flags = 0#5 := by
  decide +kernel

/-- A cell that has taken -128 * 2 (spec 07 R203). -/
theorem test_matrix_cell : MatCell.mac {} (-128) 2 = ⟨524031, 524032, 524033, 23⟩ ∧ (MatCell.mac {} (-128) 2).value = some (-256) ∧
    toBytesLE 8 (codeOf 64 (-256)) = toBytesLE 8 0xFFFFFFFFFFFFFF00 := by decide +kernel

/-- The region of spec 05 with a LINEAR and a NEAREST field. -/
theorem test_interpolation :
    let b : Binding := { bound with fields := 0x12, nf := 2 }
    let e (n x y : Nat) : RingEntry := { stamp := n, committed := true, lay := b.layout, vals := [BitVec.ofNat 64 x, BitVec.ofNat 64 y], group := 1 }
    let es := [e 0 0x3F800000 0, e 4 0x40400000 0x3F800000, e 8 0x40000000 0x40000000]
    let r (t : Nat) := recordAt 0 0 b ⟨0, 0⟩ es t
    r 2 = [0x40000000#64, 0#64] ∧ r 6 = [0x40200000#64, 0x3F800000#64] ∧ r 7 = [0x40100000#64, 0x40000000#64] ∧ r 8 = [0x40000000#64, 0x40000000#64] ∧
    r 10 = [0x3FC00000#64, 0x40000000#64] ∧ r 11 = [0x3FA00000#64, 0x40000000#64] := by
  decide +kernel

/-- The four values of the program of spec 13. -/
theorem test_two_solvers :
    let b : Binding := { bound with fields := 0x2, nf := 1, depth := 4 }
    let e (n x : Nat) : RingEntry := { stamp := n, committed := true, lay := b.layout, vals := [BitVec.ofNat 64 x], group := 1 }
    let es := [e 0 0, e 10 0x41200000, e 20 0x42200000]
    recordAt 0 1 b ⟨0, 0⟩ (es.take 2) 5 = [0x40A00000#64] ∧ recordAt 0 1 b ⟨0, 0⟩ es 14 = [0x41B00000#64] ∧
    recordAt 0 1 b ⟨0, 0⟩ es 21 = [0x422C0000#64] ∧ recordAt 0 1 b ⟨0, 0⟩ (es ++ [e 30 0x42B40000]) 23 = [0x425C0000#64] := by
  decide +kernel

/-- Where the window reaches registers (spec 04 R102). -/
theorem test_window :
    let g : Group := { placedGroup with threads := List.replicate 4 placedThread }
    winRef g (windowOff 0xFF000000010300A0) 8 = .ok (.sreg 3 20) ∧ winRef g (windowOff 0xFF00000002001420) 8 = .ok (.slot 0 5 2 0) ∧
    winRef g (windowOff 0xFF00000002800028) 8 = .ok (.vhdr 0 5) := by decide +kernel

/-- One step of a machine with a word where it fetches: its instruction runs, and the program counter moves on. -/
theorem test_step_of_a_word : ∀ w ∈ [0x08180004, 0x47000084],
    let s := State.reset.withFetchWord 32 w
    let u := after (Machine.step s) s
    (u.thread 1 0).pc = BitVec.ofNat 64 (placeAddr + 4) ∧ (w = 0x08180004 → ((u.thread 1 0).reg 12).val = 4#64) := by decide +kernel

end Sys2Proof.Tests
end

section
/-! PROOFS. The scalar and predicate registers of the issuing thread: what a write leaves of `s0` and `p0`, what it sets and what it leaves
unchanged (spec 01 R26; 03 R74; 08 R207). -/

namespace Sys2Proof.Machine

/-! ## The registers of a thread -/

@[simp] theorem Thread.reg_zero (t : Thread) : t.reg 0 = {} := rfl
@[simp] theorem Thread.pred_zero (t : Thread) : t.pred 0 = true := rfl
@[simp] theorem Thread.write_zero (t : Thread) (now : Nat) (v : Word) : t.write now 0 v = t := rfl
@[simp] theorem Thread.setPred_zero (t : Thread) (b : Bool) : t.setPred 0 b = t := rfl

/-- A write of a register other than `s0` sets that register and keeps what it held before. -/
theorem Thread.write_of_ne_zero (t : Thread) (now : Nat) {r : Nat} (v : Word) (h : r ≠ 0) :
    t.write now r v = { t with
      regs := modifyNth r (fun _ => { val := v }) t.regs
      oldRegs := if t.oldRegs.any (fun o => o.1 == r && o.2.1 == now + 7) then t.oldRegs else (r, now + 7, t.reg r) :: t.oldRegs } := by
  simp only [Thread.write, Thread.setReg, if_neg h]

/-- A write of a predicate other than `p0` sets or clears the bit of that predicate. -/
theorem Thread.setPred_of_ne_zero (t : Thread) {p : Nat} (b : Bool) (h : p ≠ 0) :
    t.setPred p b = { t with preds := if b then t.preds ||| (1#8 <<< p) else t.preds &&& ~~~(1#8 <<< p) } := by
  simp only [Thread.setPred, if_neg h]

theorem Thread.pred_of_ne_zero (t : Thread) {p : Nat} (h : p ≠ 0) : t.pred p = t.preds.getLsbD p := by
  simp [Thread.pred, h]

/-- What a write of a predicate leaves in each predicate that a field can name. -/
theorem Thread.pred_setPred (t : Thread) {p q : Nat} (b : Bool) (hp : p ≠ 0) (hq : q < 8) :
    (t.setPred p b).pred q = if q = p then b else t.pred q := by
  by_cases hq0 : q = 0
  · simp [hq0, hp.symm]
  · rw [Thread.pred_of_ne_zero _ hq0, Thread.pred_of_ne_zero _ hq0, Thread.setPred_of_ne_zero t b hp]
    have hbit : (1#8 <<< p).getLsbD q = decide (q = p) := by
      simp only [BitVec.getLsbD_shiftLeft, BitVec.getLsbD_one]
      grind
    cases b with
    | true =>
      rw [if_pos rfl, BitVec.getLsbD_or, hbit]
      by_cases hqp : q = p <;> simp [hqp]
    | false =>
      rw [if_neg Bool.false_ne_true, BitVec.getLsbD_and, BitVec.getLsbD_not, hbit]
      by_cases hqp : q = p <;> simp [hqp, hq]

/-! ## What the issuing thread writes -/

@[simp] theorem State.wr_zero (s : State) (v : Word) : s.wr 0#7 v = s := rfl
@[simp] theorem State.wrP_zero (s : State) (b : Bool) : s.wrP 0#3 b = s := rfl

theorem State.wr_reg_same (s : State) {d : SReg} (v : Word) (hd : d ≠ 0#7) (hlen : d.toNat < s.cur.regs.length) :
    (s.wr d v).cur.reg d.toNat = { val := v } :=
  Thread.reg_write_same s.cur s.cycle d.toNat v hlen (BitVec.toNat_ne_iff_ne.mpr hd)

theorem State.wr_reg_other (s : State) (d : SReg) (v : Word) {r : Nat} (h : r ≠ d.toNat) : (s.wr d v).cur.reg r = s.cur.reg r :=
  Thread.reg_write_other s.cur s.cycle d.toNat r v h

/-- The frame of a scalar register write: outside the thread's scalar registers the machine is as it was. -/
theorem State.wr_frame (s : State) (d : SReg) (v : Word) :
    ∃ regs old, s.wr d v = { s with cur := { s.cur with regs := regs, oldRegs := old } } := by
  by_cases h : d.toNat = 0
  · exact ⟨s.cur.regs, s.cur.oldRegs, by simp only [State.wr_eq, h, Thread.write_zero]; rfl⟩
  · exact ⟨_, _, by rw [State.wr_eq, State.onCur, Thread.write_of_ne_zero _ _ _ h]⟩

theorem State.wrP_pred (s : State) {p : PReg} (b : Bool) {q : Nat} (hp : p ≠ 0#3) (hq : q < 8) :
    (s.wrP p b).cur.pred q = if q = p.toNat then b else s.cur.pred q :=
  Thread.pred_setPred s.cur b (BitVec.toNat_ne_iff_ne.mpr hp) hq

theorem State.wrP_regs (s : State) {p : PReg} (b : Bool) (hp : p ≠ 0#3) : (s.wrP p b).cur.regs = s.cur.regs := by
  rw [State.wrP_eq, State.onCur_cur, Thread.setPred_of_ne_zero _ _ (BitVec.toNat_ne_iff_ne.mpr hp)]

/-- Settles O36: `s0` and `p0` by their definitions, the register named by the rules for a write, all else by its frame. -/
theorem registerWrites : Obligations.RegisterWrites := by
  intro s d v p b hlen
  refine ⟨⟨State.wr_zero s v, by simp, by simp⟩, fun hd => ?_, ⟨State.wrP_zero s b, Thread.pred_zero _⟩, fun hp => ?_⟩
  · refine ⟨State.wr_reg_same s v hd hlen, fun r hr => State.wr_reg_other s d v hr, ?_⟩
    obtain ⟨regs, old, hframe⟩ := State.wr_frame s d v
    simp [hframe]
  · refine ⟨?_, fun q hq hqp => ?_, State.wrP_regs s b hp⟩
    · simpa using State.wrP_pred s b hp p.isLt
    · simpa [hqp] using State.wrP_pred s b hp hq

end Sys2Proof.Machine
end

section
/-! PROOFS. The rules of the operations that the device's own steps share: what a change of a thread, of a region or of a world operation
leaves in that object and in the others; and that the records of a thread's order change nothing but themselves (spec 03 R74; 05 R131-R148;
06 R154-R161). -/

namespace Sys2Proof.Machine

/-! ## A thread changed -/

theorem modifyNth_getD_of_le {α : Type} {n : Nat} (f : α → α) {l : List α} (d : α) (h : l.length ≤ n) :
    (modifyNth n f l).getD n d = l.getD n d := by
  rw [List.getD_eq_default _ _ h, List.getD_eq_default _ _ (by rwa [modifyNth_length])]

theorem modifyNth_getD_cases {α : Type} (n : Nat) (f : α → α) (l : List α) (d : α) (m : Nat) :
    (modifyNth n f l).getD m d = l.getD m d ∨ (modifyNth n f l).getD m d = f (l.getD m d) := by
  by_cases hm : m = n
  · subst hm
    rcases Nat.lt_or_ge m l.length with h | h
    · exact .inr (modifyNth_getD_same _ _ _ _ h)
    · exact .inl (modifyNth_getD_of_le _ _ h)
  · exact .inl (modifyNth_getD_other _ _ _ hm)

theorem State.group_onGroup_same {s : State} {g : Nat} {gr : Group} (f : Group → Group) (h : Tab.find g s.groups = some gr) :
    (s.onGroup g f).group g = f (s.group g) := by
  simp [State.onGroup, State.group, Tab.get, h]

theorem State.group_onGroup_other (s : State) {g g' : Nat} (f : Group → Group) (h : g' ≠ g) : (s.onGroup g f).group g' = s.group g' := by
  unfold State.onGroup
  split
  · rfl
  · exact Tab.get_put_other h _ _ _

theorem State.group_onGroup_cases (s : State) (g : Nat) (f : Group → Group) (g' : Nat) :
    (s.onGroup g f).group g' = s.group g' ∨ (s.onGroup g f).group g' = f (s.group g') := by
  by_cases hg : g' = g
  · subst hg
    cases h : Tab.find g' s.groups with
    | none => exact .inl (by simp only [State.onGroup, h])
    | some gr => exact .inr (State.group_onGroup_same f h)
  · exact .inl (State.group_onGroup_other s f hg)

/-- A thread that is there takes the change made to it. -/
theorem State.thread_onThread_same {s : State} {g t : Nat} (f : Thread → Thread) (h : s.hasThread g t = true) :
    (s.onThread g t f).thread g t = f (s.thread g t) := by
  unfold State.onThread
  split
  · next hlive => simp [State.thread, hlive]
  · next hlive =>
    unfold State.hasThread at h
    split at h
    · exact absurd h Bool.false_ne_true
    · next gr hgr =>
      have hlen : t < (s.group g).threads.length := by simpa [State.group, Tab.get, hgr] using h
      simp only [State.thread, State.onGroup_iss, if_neg hlive, State.group_onGroup_same _ hgr]
      exact modifyNth_getD_same _ _ _ _ hlen

theorem State.thread_of_live {s : State} {g t : Nat} (h : s.iss.live = true ∧ s.iss.group = g ∧ s.iss.thread = t) : s.thread g t = s.cur :=
  if_pos h

theorem State.thread_of_not_live {s : State} {g t : Nat} (h : ¬(s.iss.live = true ∧ s.iss.group = g ∧ s.iss.thread = t)) :
    s.thread g t = (s.group g).threads.getD t {} := if_neg h

/-- Whichever thread is changed, every thread is as it was or has taken the change. -/
theorem State.thread_onThread_cases (s : State) (g t : Nat) (f : Thread → Thread) (g' t' : Nat) :
    (s.onThread g t f).thread g' t' = s.thread g' t' ∨ (s.onThread g t f).thread g' t' = f (s.thread g' t') := by
  have hiss : (s.onThread g t f).iss = s.iss := State.onThread_iss s g t f
  by_cases hlive : s.iss.live = true ∧ s.iss.group = g' ∧ s.iss.thread = t'
  · rw [State.thread_of_live hlive, State.thread_of_live (hiss ▸ hlive)]
    unfold State.onThread
    split
    · exact .inr rfl
    · exact .inl (State.onGroup_cur s g _)
  · rw [State.thread_of_not_live hlive, State.thread_of_not_live (hiss ▸ hlive)]
    unfold State.onThread
    split
    · exact .inl rfl
    · rcases State.group_onGroup_cases s g (fun gr => { gr with threads := modifyNth t f gr.threads }) g' with h | h <;> rw [h]
      · exact .inl rfl
      · exact modifyNth_getD_cases t f _ _ t'

@[simp] theorem State.hasThread_onThread (s : State) (g t : Nat) (f : Thread → Thread) (g' t' : Nat) :
    (s.onThread g t f).hasThread g' t' = s.hasThread g' t' := by
  unfold State.onThread
  split
  · rfl
  · cases hgr : Tab.find g s.groups with
    | none => simp only [State.onGroup, hgr]
    | some gr =>
      by_cases hg : g' = g
      · subst hg; simp [State.hasThread, State.onGroup, hgr, modifyNth_length]
      · simp [State.hasThread, State.onGroup, hgr, Tab.find_put_other hg]

/-- What a change of a thread leaves outside the threads: everything. -/
theorem State.onThread_frame (s : State) (g t : Nat) (f : Thread → Thread) :
    ∃ cur groups, s.onThread g t f = { s with cur := cur, groups := groups } := by
  unfold State.onThread
  split
  · exact ⟨f s.cur, s.groups, rfl⟩
  · unfold State.onGroup
    split
    · exact ⟨s.cur, s.groups, rfl⟩
    · exact ⟨s.cur, _, rfl⟩

@[simp] theorem State.postTrap_worldOps (s : State) (g t k : Nat) (x : Word) : (s.postTrap g t k x).worldOps = s.worldOps :=
  State.onThread_worldOps s g t _
@[simp] theorem State.postTrap_regions (s : State) (g t k : Nat) (x : Word) : (s.postTrap g t k x).regions = s.regions :=
  State.onThread_regions s g t _

/-- A posted trap joins those of a thread that has not exited and takes no `CANCEL` (R135, R364); of the thread it changes nothing else. -/
theorem State.thread_postTrap {s : State} {g t : Nat} (k : Nat) (x : Word) (hthere : s.hasThread g t = true) :
    (s.postTrap g t k x).thread g t = if (s.thread g t).exited || (s.thread g t).inCancel then s.thread g t
      else { s.thread g t with posted := (s.thread g t).posted ++ [{ cause := k, tval := x }] } :=
  State.thread_onThread_same _ hthere

theorem State.posted_postTrap {s : State} {g t : Nat} (k : Nat) (x : Word) (hthere : s.hasThread g t = true)
    (hexited : (s.thread g t).exited = false) (hcancel : (s.thread g t).inCancel = false) :
    ((s.postTrap g t k x).thread g t).posted = (s.thread g t).posted ++ [{ cause := k, tval := x }] := by
  simp [State.thread_postTrap k x hthere, hexited, hcancel]

/-! ## The records of a thread's order (spec 06 R154-R161) -/

/-- `u` differs from `s` in its threads alone, and in them neither in the traps posted nor in what decides whether a trap is posted. -/
structure OrderOnly (s u : State) : Prop where
  frame : ∃ cur groups, u = { s with cur := cur, groups := groups }
  hasThread : ∀ g t, u.hasThread g t = s.hasThread g t
  posted : ∀ g t, (u.thread g t).posted = (s.thread g t).posted
  exited : ∀ g t, (u.thread g t).exited = (s.thread g t).exited
  inCancel : ∀ g t, (u.thread g t).inCancel = (s.thread g t).inCancel

namespace OrderOnly

variable {s u v : State}

theorem refl (s : State) : OrderOnly s s :=
  ⟨⟨s.cur, s.groups, rfl⟩, fun _ _ => rfl, fun _ _ => rfl, fun _ _ => rfl, fun _ _ => rfl⟩

theorem trans (h : OrderOnly s u) (k : OrderOnly u v) : OrderOnly s v := by
  refine ⟨?_, fun g t => (k.hasThread g t).trans (h.hasThread g t), fun g t => (k.posted g t).trans (h.posted g t),
    fun g t => (k.exited g t).trans (h.exited g t), fun g t => (k.inCancel g t).trans (h.inCancel g t)⟩
  obtain ⟨_, _, rfl⟩ := h.frame
  obtain ⟨_, _, rfl⟩ := k.frame
  exact ⟨_, _, rfl⟩

/-- A change of one thread that leaves alone what the relation keeps. -/
theorem onThread (s : State) (g t : Nat) {f : Thread → Thread} (hposted : ∀ th, (f th).posted = th.posted)
    (hexited : ∀ th, (f th).exited = th.exited) (hcancel : ∀ th, (f th).inCancel = th.inCancel) : OrderOnly s (s.onThread g t f) := by
  refine ⟨State.onThread_frame s g t f, State.hasThread_onThread s g t f, ?_, ?_, ?_⟩ <;>
    (intro g' t'; rcases State.thread_onThread_cases s g t f g' t' with h | h <;> simp only [h, hposted, hexited, hcancel])

theorem learn (s : State) (g t n : Nat) (v : View) : OrderOnly s (s.learn g t n v) := by
  unfold State.learn
  split
  · exact refl s
  · exact onThread s g t (fun _ => rfl) (fun _ => rfl) (fun _ => rfl)

theorem mustSee (s : State) (g t : Nat) (fl : List Nat) : OrderOnly s (s.mustSee g t fl) :=
  onThread s g t (fun _ => rfl) (fun _ => rfl) (fun _ => rfl)

theorem noteReads (s : State) (g t seq : Nat) (ids : List Nat) : OrderOnly s (s.noteReads g t seq ids) := by
  unfold State.noteReads
  split
  · exact refl s
  · refine trans ?_ (learn _ g t _ _)
    exact onThread s g t (fun _ => rfl) (fun _ => rfl) (fun _ => rfl)

theorem settleFence (s : State) (g t : Nat) (f : FenceRec) : OrderOnly s (s.settleFence g t f) := by
  unfold State.settleFence
  refine trans ?_ (onThread _ g t (fun _ => rfl) (fun _ => rfl) (fun _ => rfl))
  split
  · exact refl s
  · exact ((learn s g t _ _).trans (mustSee _ g t _)).trans (onThread _ g t (fun _ => rfl) (fun _ => rfl) (fun _ => rfl))

theorem foldl {α : Type} (f : State → α → State) (hf : ∀ s x, OrderOnly s (f s x)) (xs : List α) (s : State) :
    OrderOnly s (xs.foldl f s) := by
  induction xs generalizing s with
  | nil => exact refl s
  | cons x xs ih => exact (hf s x).trans (ih (f s x))

theorem settleFences (s : State) (g t : Nat) : OrderOnly s (s.settleFences g t) := by
  refine foldl _ (fun s f => ?_) _ s
  split
  · exact settleFence s g t f
  · exact refl s

theorem observe (s : State) (w : WorldOp) (r : Region) : OrderOnly s (s.observe w r) :=
  (learn s w.group w.thread _ _).trans (noteReads _ w.group w.thread _ _)

theorem regions (h : OrderOnly s u) : u.regions = s.regions := by obtain ⟨_, _, rfl⟩ := h.frame; rfl
theorem worldOps (h : OrderOnly s u) : u.worldOps = s.worldOps := by obtain ⟨_, _, rfl⟩ := h.frame; rfl
theorem edges (h : OrderOnly s u) : u.edges = s.edges := by obtain ⟨_, _, rfl⟩ := h.frame; rfl
theorem hbm (h : OrderOnly s u) : u.hbm = s.hbm := by obtain ⟨_, _, rfl⟩ := h.frame; rfl
theorem keyAt (h : OrderOnly s u) (ps : List Piece) (va : Nat) : u.keyAt ps va = s.keyAt ps va := by
  obtain ⟨_, _, rfl⟩ := h.frame; rfl

end OrderOnly

/-- Recording what comes before a write changes the order of its thread and that record (R157). -/
theorem State.noteWrite_frame (s : State) (a : Access) (p : Piece) :
    ∃ wrote, s.noteWrite a p = { s.settleFences a.group a.thread with wrote := wrote } :=
  iteInduction (motive := fun u : State => ∃ wrote, u = { s.settleFences a.group a.thread with wrote := wrote })
    (fun _ => ⟨_, rfl⟩) (fun _ => ⟨_, rfl⟩)

@[simp] theorem State.noteWrite_regions (s : State) (a : Access) (p : Piece) : (s.noteWrite a p).regions = s.regions := by
  obtain ⟨wrote, hframe⟩ := State.noteWrite_frame s a p
  rw [hframe]
  exact (OrderOnly.settleFences s a.group a.thread).regions
@[simp] theorem State.noteWrite_worldOps (s : State) (a : Access) (p : Piece) : (s.noteWrite a p).worldOps = s.worldOps := by
  obtain ⟨wrote, hframe⟩ := State.noteWrite_frame s a p
  rw [hframe]
  exact (OrderOnly.settleFences s a.group a.thread).worldOps
@[simp] theorem State.noteWrite_hbm (s : State) (a : Access) (p : Piece) : (s.noteWrite a p).hbm = s.hbm := by
  obtain ⟨wrote, hframe⟩ := State.noteWrite_frame s a p
  rw [hframe]
  exact (OrderOnly.settleFences s a.group a.thread).hbm

/-! ## A region changed (spec 05 R131) -/

@[simp] theorem State.region_onRegion_same (s : State) (r : Nat) (f : Region → Region) : (s.onRegion r f).region r = f (s.region r) :=
  Tab.get_alter_same _ r f s.regions

@[simp] theorem State.onRegion_worldOps (s : State) (r : Nat) (f : Region → Region) : (s.onRegion r f).worldOps = s.worldOps := rfl
@[simp] theorem State.onRegion_hbm (s : State) (r : Nat) (f : Region → Region) : (s.onRegion r f).hbm = s.hbm := rfl

theorem State.region_congr {s u : State} (h : u.regions = s.regions) (r : Nat) : u.region r = s.region r := by simp only [State.region, h]

@[simp] theorem Region.put_committed (r : Region) (off : Nat) (drop : List RingEntry) (e : RingEntry) :
    (r.put off drop e).committed = r.committed := rfl
@[simp] theorem Region.block_put_same (r : Region) (off : Nat) (drop : List RingEntry) (e : RingEntry) :
    (r.put off drop e).block off = drop.foldl List.erase (r.block off) ++ [e] := Tab.get_put_same _ off _ r.keys
theorem Region.block_put_other (r : Region) {off o : Nat} (drop : List RingEntry) (e : RingEntry) (h : o ≠ off) :
    (r.put off drop e).block o = r.block o := Tab.get_put_other h _ _ r.keys

/-! ## A world operation changed or dropped -/

theorem State.id_of_worldOp {s : State} {id : Nat} {w : WorldOp} (h : s.worldOp id = some w) : w.id = id := by
  simpa using List.find?_some h

theorem State.worldOp_congr {s u : State} (h : u.worldOps = s.worldOps) (id : Nat) : u.worldOp id = s.worldOp id := by
  simp only [State.worldOp, h]

theorem State.worldOp_onWorld_same {s : State} {id : Nat} {w : WorldOp} {f : WorldOp → WorldOp} (hop : s.worldOp id = some w)
    (hid : ∀ x, (f x).id = x.id) : (s.onWorld id f).worldOp id = some (f w) := by
  have hsame : ((fun x : WorldOp => x.id == id) ∘ fun x => if x.id = id then f x else x) = fun x => x.id == id := by
    funext x
    by_cases hx : x.id = id <;> simp [hx, hid]
  have hfind : s.worldOps.find? (fun x => x.id == id) = some w := hop
  simp only [State.worldOp, State.onWorld, List.find?_map, hsame, hfind, Option.map_some, if_pos (State.id_of_worldOp hop)]

@[simp] theorem State.dropWorldOp_worldOps (s : State) (id : Nat) : (s.dropWorldOp id).worldOps = s.worldOps.filter fun x => x.id != id := rfl
@[simp] theorem State.dropWorldOp_regions (s : State) (id : Nat) : (s.dropWorldOp id).regions = s.regions := rfl
@[simp] theorem State.dropWorldOp_hbm (s : State) (id : Nat) : (s.dropWorldOp id).hbm = s.hbm := rfl

theorem State.worldOp_eq_none {s u : State} {id : Nat} (h : u.worldOps = s.worldOps.filter fun x => x.id != id) : u.worldOp id = none := by
  simp [State.worldOp, h]

end Sys2Proof.Machine
end

section
/-! PROOFS. The instant units: the zone of a load, the fate of a record, what a commit and a horizon change, and what each of these steps
leaves as it was (spec 05 R133-R148). -/

namespace Sys2Proof.Machine

/-! ## The zone of an instant (R137) -/

section
variable {r : Region} {base : Nat} {b : Binding} {key t : Nat}

theorem Region.zone_far (h : r.clock + b.omega < t) : r.zone base b key t = .far := if_pos h

theorem Region.zone_blocked (hfar : t ≤ r.clock + b.omega) (h : r.entries base b key = [] ∨ r.clock + b.lambda < t) :
    r.zone base b key t = .blocked := by
  have hblocked : ((r.entries base b key).isEmpty || decide (r.clock + b.lambda < t)) = true := by simpa using h
  rw [Region.zone, zoneOf, if_neg (Nat.not_lt.mpr hfar), if_pos hblocked]

/-- Within λ of the committed instant the entries decide. -/
theorem Region.zone_of_entries {e₀ eₙ : RingEntry} (hfirst : (r.entries base b key).head? = some e₀)
    (hlast : (r.entries base b key).getLast? = some eₙ) (hfar : t ≤ r.clock + b.omega) (hnear : t ≤ r.clock + b.lambda) :
    r.zone base b key t = if t < e₀.stamp then .gone else .data (if t ≤ eₙ.stamp then 0 else 1) := by
  have hsome : (r.entries base b key).isEmpty = false := by
    cases hes : r.entries base b key with
    | nil => simp [hes] at hfirst
    | cons e es => rfl
  have hopen : ¬(((r.entries base b key).isEmpty || decide (r.clock + b.lambda < t)) = true) := by simp [hsome, hnear]
  rw [Region.zone, zoneOf, if_neg (Nat.not_lt.mpr hfar), if_neg hopen, hfirst, hlast]
  rfl

end

/-! ## Classifying a load (R137, R146, R147) -/

/-- Nothing stands against classifying world load `id`, which is `w`. -/
structure Classifiable (s : State) (id : Nat) (w : WorldOp) (noWait : Bool) : Prop where
  op : s.worldOp id = some w
  kind : ∃ vd pd, w.kind = .wld noWait vd pd
  result : w.result = none
  blocked : w.blocked = false
  behind : s.loadBehind w = false
  fences : s.fencesAllow w.group w.thread w.seq false = true

/-- What the classification of load `w` makes of its zone. -/
def State.classified (s : State) (w : WorldOp) (noWait : Bool) : Zone → State
  | .far => s.endLoad w.id (.fault Cause.wfar)
  | .gone => s.endLoad w.id (.fault Cause.wgone)
  | .blocked => if noWait then s.endLoad w.id (.done 2 []) else s.block w
  | .data st => (s.observe w (s.regionOf w)).endLoad w.id (.done st
      (recordAt w.region w.key w.bind ⟨w.core, w.kidx.toNat⟩ ((s.regionOf w).entries w.region w.bind w.key) w.inst))

/-- Step `i` ends world load `w`, named `id`, with result `x`: its edge leaves the graph, and no region changes (R147). -/
def State.LoadEnds (s : State) (id : Nat) (w : WorldOp) (i : Instr) (x : WldResult) : Prop :=
  ∃ u, exec i s = .next u ∧ u.edges = s.edges.filter (fun e => e.id != id) ∧ u.regions = s.regions ∧
    u.worldOp id = some { w with blocked := false, closed := false, result := some x }

section
variable {s v : State} {id : Nat} {w : WorldOp} {noWait : Bool}

theorem exec_wldClassify (h : Classifiable s id w noWait) :
    exec (.wldClassify id) s = .next (s.classified w noWait ((s.regionOf w).zone w.region w.bind w.key w.inst)) := by
  obtain ⟨vd, pd, hkind⟩ := h.kind
  have hready : ¬(w.result.isSome = true ∨ w.blocked = true ∨ s.loadBehind w = true ∨ (!s.fencesAllow w.group w.thread w.seq false) = true) := by
    simp [h.result, h.blocked, h.behind, h.fences]
  show execWldClassify id s = _
  simp only [execWldClassify, h.op, hkind, if_neg hready]
  cases (s.regionOf w).zone w.region w.bind w.key w.inst <;> simp only [State.classified, State.id_of_worldOp h.op]

/-- A result given to a load ends it, whatever records of its thread's order change on the way. -/
theorem State.loadEnds_of_exec {i : Instr} {x : WldResult} (hop : s.worldOp id = some w) (hv : OrderOnly s v)
    (hexec : exec i s = .next (v.endLoad id x)) : s.LoadEnds id w i x := by
  refine ⟨_, hexec, ?_, hv.regions, ?_⟩
  · exact congrArg (List.filter _) hv.edges
  · exact State.worldOp_onWorld_same ((State.worldOp_congr hv.worldOps id).trans hop) (fun _ => rfl)

theorem State.classify_far (h : Classifiable s id w noWait) (hfar : (s.regionOf w).clock + w.bind.omega < w.inst) :
    s.LoadEnds id w (.wldClassify id) (.fault Cause.wfar) := by
  refine State.loadEnds_of_exec h.op (OrderOnly.refl s) ?_
  rw [exec_wldClassify h, Region.zone_far hfar, ← State.id_of_worldOp h.op]
  rfl

section
variable (hfar : w.inst ≤ (s.regionOf w).clock + w.bind.omega)
include hfar

theorem State.classify_noWait (h : Classifiable s id w true)
    (hwait : (s.regionOf w).entries w.region w.bind w.key = [] ∨ (s.regionOf w).clock + w.bind.lambda < w.inst) :
    s.LoadEnds id w (.wldClassify id) (.done 2 []) := by
  refine State.loadEnds_of_exec h.op (OrderOnly.refl s) ?_
  rw [exec_wldClassify h, Region.zone_blocked hfar hwait, ← State.id_of_worldOp h.op]
  rfl

theorem State.classify_waits (h : Classifiable s id w false)
    (hwait : (s.regionOf w).entries w.region w.bind w.key = [] ∨ (s.regionOf w).clock + w.bind.lambda < w.inst) :
    ∃ u, exec (.wldClassify id) s = .next u ∧ u.regions = s.regions ∧
      u.edges = s.edges ++ [{ id := w.id, src := w.group, dst := w.bind.writer }] ∧
      u.worldOp id = some { w with blocked := true, closed := s.closes w.group w.bind.writer } := by
  refine ⟨s.block w, ?_, rfl, rfl, ?_⟩
  · rw [exec_wldClassify h, Region.zone_blocked hfar hwait]
    rfl
  · obtain rfl := State.id_of_worldOp h.op
    refine State.worldOp_onWorld_same ?_ fun _ => ?_
    · exact h.op
    · rfl

variable {e₀ eₙ : RingEntry} (hfirst : ((s.regionOf w).entries w.region w.bind w.key).head? = some e₀)
  (hlast : ((s.regionOf w).entries w.region w.bind w.key).getLast? = some eₙ) (hnear : w.inst ≤ (s.regionOf w).clock + w.bind.lambda)
include hfirst hlast hnear

theorem State.classify_gone (h : Classifiable s id w noWait) (hgone : w.inst < e₀.stamp) :
    s.LoadEnds id w (.wldClassify id) (.fault Cause.wgone) := by
  refine State.loadEnds_of_exec h.op (OrderOnly.refl s) ?_
  rw [exec_wldClassify h, Region.zone_of_entries hfirst hlast hfar hnear, if_pos hgone, ← State.id_of_worldOp h.op]
  rfl

theorem State.classify_data (h : Classifiable s id w noWait) (hthere : e₀.stamp ≤ w.inst) :
    s.LoadEnds id w (.wldClassify id) (.done (if w.inst ≤ eₙ.stamp then 0 else 1)
      (recordAt w.region w.key w.bind ⟨w.core, w.kidx.toNat⟩ ((s.regionOf w).entries w.region w.bind w.key) w.inst)) := by
  refine State.loadEnds_of_exec h.op (OrderOnly.observe s w (s.regionOf w)) ?_
  rw [exec_wldClassify h, Region.zone_of_entries hfirst hlast hfar hnear, if_neg (Nat.not_lt.mpr hthere), ← State.id_of_worldOp h.op]
  rfl

end

theorem State.cycle_ends (hop : s.worldOp id = some w) (hblocked : w.blocked = true) (hclosed : w.closed = true) :
    s.LoadEnds id w (.wldCycle id) (.done 3 []) := by
  refine State.loadEnds_of_exec hop (OrderOnly.refl s) ?_
  show execWldCycle id s = _
  simp [execWldCycle, hop, whenOk, hblocked, hclosed]

theorem State.timeout_ends (hop : s.worldOp id = some w) (hblocked : w.blocked = true) (hset : w.bind.timeout ≠ 0)
    (hlate : w.issued + w.bind.timeout ≤ s.cycle) : s.LoadEnds id w (.wldTimeout id) (.done 4 []) := by
  refine State.loadEnds_of_exec hop (OrderOnly.refl s) ?_
  show execWldTimeout id s = _
  simp [execWldTimeout, hop, whenOk, hblocked, State.timedOut, hset, hlate]

end

/-! ## A result reaches its thread (R139, R141) -/

@[simp] theorem Thread.setPred_regs (th : Thread) (p : Nat) (b : Bool) : (th.setPred p b).regs = th.regs := by unfold Thread.setPred; split <;> rfl
@[simp] theorem Thread.setPred_vregs (th : Thread) (p : Nat) (b : Bool) : (th.setPred p b).vregs = th.vregs := by unfold Thread.setPred; split <;> rfl
@[simp] theorem Thread.setPred_loads (th : Thread) (p : Nat) (b : Bool) : (th.setPred p b).loads = th.loads := by unfold Thread.setPred; split <;> rfl

/-- A run register that no record fills: full again as it was (R139). -/
def VCell.refilled (c : VCell) : VCell := { c with full := true, mark := false }

theorem Thread.vreg_endWorldLoad (th : Thread) (id : Nat) (vd : VReg) (x : Option VCell) (h : vd.toNat < th.vregs.length) :
    (th.endWorldLoad id vd x).vreg vd.toNat = x.getD (th.vreg vd.toNat).refilled := by
  cases x <;> exact modifyNth_getD_same _ _ _ _ h

section
variable {s : State} {id : Nat} {w : WorldOp} {noWait : Bool} {vd : VReg} {pd : PReg}

theorem exec_wldComplete {x : WldResult} (hop : s.worldOp id = some w) (hkind : w.kind = .wld noWait vd pd) (hresult : w.result = some x)
    (hfirst : (s.thread w.group w.thread).loads.head? = some id) (hplaced : s.migrating w.group = false)
    (hreturn : s.mayReturn (s.group w.group).core = true) : exec (.wldComplete id) s = .next (s.deliverLoad w vd pd x) := by
  show execWldComplete id s = _
  simp [execWldComplete, hop, hkind, hresult, hfirst, hplaced, hreturn]

/-- What fills vd as a load ends with a status: its record, or for status 2 and above nothing (R139). -/
def State.recordCell (s : State) (w : WorldOp) (st : Nat) (vals : List Word) : Option VCell :=
  if st < 2 then some { run := recordRun w.bind vals, poison := w.spots.findSome? fun p => s.physPoison p.host p.addr p.len } else none

variable (hthere : s.hasThread w.group w.thread = true)
include hthere

theorem State.thread_deliverLoad_done (st : Nat) (vals : List Word) :
    (s.deliverLoad w vd pd (.done st vals)).thread w.group w.thread =
      { ((s.thread w.group w.thread).endWorldLoad w.id vd (s.recordCell w st vals)).setPred pd.toNat (decide (st < 2)) with
        wstat := BitVec.ofNat 3 st } :=
  State.thread_onThread_same (s := { s with worldOps := s.worldOps.filter (·.id != w.id) }) _ hthere

theorem State.thread_deliverLoad_fault (c : Nat) :
    let th := (s.thread w.group w.thread).endWorldLoad w.id vd none
    (s.deliverLoad w vd pd (.fault c)).thread w.group w.thread = if th.exited || th.inCancel then th
      else { th with posted := th.posted ++ [{ cause := c, tval := BitVec.ofNat 64 w.inst }] } := by
  have hload := State.thread_onThread_same (s := { s with worldOps := s.worldOps.filter (·.id != w.id) })
    (fun th => th.endWorldLoad w.id vd none) hthere
  simp only [State.deliverLoad]
  rw [State.thread_postTrap _ _ (by rw [State.hasThread_onThread]; exact hthere), hload]
  rfl

variable (hvd : vd.toNat < (s.thread w.group w.thread).vregs.length)
include hvd

/-- A load that ends with a status: vd, pd, `c.wstat` and the list of loads take the result, and no scalar register changes. -/
theorem State.deliverLoad_done (st : Nat) (vals : List Word) :
    let th := s.thread w.group w.thread
    let u := (s.deliverLoad w vd pd (.done st vals)).thread w.group w.thread
    u.vreg vd.toNat = (s.recordCell w st vals).getD (th.vreg vd.toNat).refilled ∧ u.regs = th.regs ∧
      u.loads = th.loads.filter (fun x => x != w.id) ∧ u.wstat = BitVec.ofNat 3 st ∧ (pd ≠ 0#3 → u.pred pd.toNat = decide (st < 2)) := by
  intro th u
  set ended := th.endWorldLoad w.id vd (s.recordCell w st vals) with hended
  have hu : u = { ended.setPred pd.toNat (decide (st < 2)) with wstat := BitVec.ofNat 3 st } := State.thread_deliverLoad_done hthere st vals
  refine ⟨?_, ?_, ?_, ?_, fun hpd => ?_⟩
  · rw [← Thread.vreg_endWorldLoad th w.id vd _ hvd, hu]
    simp only [Thread.vreg, Thread.setPred_vregs, hended]
  · rw [hu]
    exact Thread.setPred_regs _ _ _
  · rw [hu]
    exact Thread.setPred_loads _ _ _
  · rw [hu]
  · rw [hu]
    refine (Thread.pred_setPred ended _ (BitVec.toNat_ne_iff_ne.mpr hpd) pd.isLt).trans ?_
    rw [if_pos rfl]

/-- A load that ends with a fault: vd is full again as it was, the trap is posted, and predicates, `c.wstat` and the scalar registers stay. -/
theorem State.deliverLoad_fault (c : Nat) :
    let th := s.thread w.group w.thread
    let u := (s.deliverLoad w vd pd (.fault c)).thread w.group w.thread
    (u.vreg vd.toNat = (th.vreg vd.toNat).refilled ∧ u.regs = th.regs ∧ u.loads = th.loads.filter (fun x => x != w.id)) ∧
      u.preds = th.preds ∧ u.wstat = th.wstat ∧ (th.exited = false → th.inCancel = false →
        u.posted = th.posted ++ [{ cause := c, tval := BitVec.ofNat 64 w.inst }]) := by
  intro th u
  have hvreg := Thread.vreg_endWorldLoad th w.id vd none hvd
  have hu := State.thread_deliverLoad_fault (vd := vd) (pd := pd) hthere c
  by_cases hgone : (th.exited || th.inCancel) = true
  · rw [show u = _ from hu.trans (if_pos hgone)]
    exact ⟨⟨hvreg, rfl, rfl⟩, rfl, rfl, fun hexited hcancel => by simp [hexited, hcancel] at hgone⟩
  · rw [show u = _ from hu.trans (if_neg hgone)]
    exact ⟨⟨hvreg, rfl, rfl⟩, rfl, rfl, fun _ _ => rfl⟩

end

@[simp] theorem State.deliverLoad_regions (s : State) (w : WorldOp) (vd : VReg) (pd : PReg) (x : WldResult) :
    (s.deliverLoad w vd pd x).regions = s.regions := by
  cases x <;> simp [State.deliverLoad]

/-! ## Refusing a posted operation (R135) -/

/-- Step `i` refuses world operation `w`, named `id`, with cause `c` and value `x`. -/
def State.Refuses (s : State) (id : Nat) (w : WorldOp) (i : Instr) (c x : Nat) : Prop :=
  ∃ u, exec i s = .next u ∧ u.worldOps = s.worldOps.filter (fun x => x.id != id) ∧ u.regions = s.regions ∧
    (s.hasThread w.group w.thread = true → (s.thread w.group w.thread).exited = false → (s.thread w.group w.thread).inCancel = false →
      (u.thread w.group w.thread).posted = (s.thread w.group w.thread).posted ++ [{ cause := c, tval := BitVec.ofNat 64 x }])

theorem State.refuses_of_exec {s v : State} {id : Nat} {w : WorldOp} {i : Instr} {c x : Nat} (hop : s.worldOp id = some w)
    (hv : OrderOnly s v) (hexec : exec i s = .next (v.refuseWorld w c x)) : s.Refuses id w i c x := by
  refine ⟨_, hexec, ?_, ?_, fun hthere hexited hcancel => ?_⟩
  · simp [State.refuseWorld, State.dropWorldOp, hv.worldOps, State.id_of_worldOp hop]
  · exact (State.postTrap_regions _ _ _ _ _).trans hv.regions
  · refine (State.posted_postTrap (s := v.dropWorldOp w.id) c _ ?_ ?_ ?_).trans (congrArg (· ++ _) (hv.posted w.group w.thread))
    · exact (hv.hasThread _ _).trans hthere
    · exact (hv.exited _ _).trans hexited
    · exact (hv.inCancel _ _).trans hcancel

/-! ## The fate of a record (R133, R145) -/

/-- The record for instant `t` comes too late: an entry of its ring or the committed instant stands at or above it (R133). -/
def Region.late (r : Region) (base : Nat) (b : Binding) (key t : Nat) : Bool :=
  (r.ring base b key).any (fun x => decide (t ≤ x.stamp)) || r.committed.any fun c => decide (t ≤ c)

/-- No horizon needs the oldest entry of a key's ring (R145). -/
def Region.oldestFree (r : Region) (base : Nat) (b : Binding) (key : Nat) : Bool :=
  r.floor.all fun f => decide ((((r.ring base b key)[1]?).map (·.stamp)).getD 0 ≤ f)

section
variable {r : Region} {base : Nat} {b : Binding} {key t : Nat}

theorem Region.stage_eq : r.stage base b key t =
    if r.late base b key t then .refuse Cause.worder
    else if (r.ring base b key).length < b.depth then .stage []
    else if r.oldestFree base b key then .stage ((r.ring base b key).take 1)
    else if b.faultPolicy then .refuse Cause.wretain else .wait := rfl

theorem Region.stage_late (h : r.late base b key t = true) : r.stage base b key t = .refuse Cause.worder := by
  rw [Region.stage_eq, if_pos h]

theorem Region.stage_room (h : r.late base b key t = false) (hroom : (r.ring base b key).length < b.depth) :
    r.stage base b key t = .stage [] := by
  rw [Region.stage_eq, if_neg (by simp [h]), if_pos hroom]

variable (h : r.late base b key t = false) (hfull : b.depth ≤ (r.ring base b key).length)
include h hfull

theorem Region.stage_full : r.stage base b key t =
    if r.oldestFree base b key then .stage ((r.ring base b key).take 1) else if b.faultPolicy then .refuse Cause.wretain else .wait := by
  rw [Region.stage_eq, if_neg (by simp [h]), if_neg (Nat.not_lt.mpr hfull)]

theorem Region.stage_oldest (hfree : r.oldestFree base b key = true) : r.stage base b key t = .stage ((r.ring base b key).take 1) := by
  rw [Region.stage_full h hfull, if_pos hfree]

theorem Region.stage_retain (hkept : r.oldestFree base b key = false) (hpolicy : b.faultPolicy = true) :
    r.stage base b key t = .refuse Cause.wretain := by
  rw [Region.stage_full h hfull, if_neg (by simp [hkept]), if_pos hpolicy]

theorem Region.stage_wait (hkept : r.oldestFree base b key = false) (hpolicy : b.faultPolicy = false) : r.stage base b key t = .wait := by
  rw [Region.stage_full h hfull, if_neg (by simp [hkept]), if_neg (by simp [hpolicy])]

end

section
variable {s : State} {id : Nat} {w : WorldOp} {vals : List Word}

theorem exec_wstStage (hop : s.worldOp id = some w) (hkind : w.kind = .wst vals) (hfences : s.fencesAllow w.group w.thread w.seq true = true)
    (hwait : w.ringWait = false) (hbehind : s.recordBehind w = false) : exec (.wstStage id) s = .next (s.stageNow w vals) := by
  show execWstStage id s = _
  simp [execWstStage, hop, hkind, hfences, hwait, hbehind]

theorem exec_wstRingWaitEnd (hop : s.worldOp id = some w) (hkind : w.kind = .wst vals) (hwait : w.ringWait = true)
    (hover : (s.regionOf w).stage w.region w.bind w.key w.inst ≠ .wait) : exec (.wstRingWaitEnd id) s = .next (s.stageNow w vals) := by
  show execWstRingWaitEnd id s = _
  simp [execWstRingWaitEnd, hop, hkind, hwait, hover]

/-- Step `i` decides over the record of `w`, and nothing stands against it but the wait for the read floor (R145). -/
def State.Decides (s : State) (id : Nat) (w : WorldOp) (i : Instr) : Prop :=
  i = .wstStage id ∧ w.ringWait = false ∧ s.recordBehind w = false ∨ i = .wstRingWaitEnd id ∧ w.ringWait = true

theorem exec_of_decides {i : Instr} (hop : s.worldOp id = some w) (hkind : w.kind = .wst vals)
    (hfences : s.fencesAllow w.group w.thread w.seq true = true) (hi : s.Decides id w i)
    (hover : (s.regionOf w).stage w.region w.bind w.key w.inst ≠ .wait) : exec i s = .next (s.stageNow w vals) := by
  rcases hi with ⟨rfl, hwait, hbehind⟩ | ⟨rfl, hwait⟩
  · exact exec_wstStage hop hkind hfences hwait hbehind
  · exact exec_wstRingWaitEnd hop hkind hwait hover

/-- The machine once the record of `w` is staged without the entries `drop`. -/
def State.staged (s : State) (w : WorldOp) (vals : List Word) (drop : List RingEntry) : State :=
  (((s.noteWrite w.access w.asPiece).onRegion w.region fun r => r.put (w.bind.keyOff w.key) drop (s.entryOf w vals)).fresh).dropWorldOp w.id

theorem State.stageNow_of_stage {drop : List RingEntry} (h : (s.regionOf w).stage w.region w.bind w.key w.inst = .stage drop) :
    s.stageNow w vals = s.staged w vals drop := by
  simp only [State.stageNow, h, State.staged]

theorem State.staged_worldOps (drop : List RingEntry) :
    (s.staged w vals drop).worldOps = s.worldOps.filter fun x => x.id != w.id := by
  simp [State.staged]

theorem State.staged_hbm (drop : List RingEntry) : (s.staged w vals drop).hbm = s.hbm := by
  simp [State.staged]

theorem State.region_staged (drop : List RingEntry) :
    (s.staged w vals drop).region w.region = (s.region w.region).put (w.bind.keyOff w.key) drop (s.entryOf w vals) := by
  rw [← State.region_congr (State.noteWrite_regions s w.access w.asPiece), State.staged, State.region_congr (State.dropWorldOp_regions _ _),
    State.region_congr (State.fresh_regions _), State.region_onRegion_same]

/-- Step `i` stages the record of `w`, named `id`, without the entries `drop`; every other block and the committed instant stay. -/
def State.Stages (s : State) (id : Nat) (w : WorldOp) (vals : List Word) (i : Instr) (drop : List RingEntry) : Prop :=
  ∃ u, exec i s = .next u ∧ u.worldOps = s.worldOps.filter (fun x => x.id != id) ∧ u.hbm = s.hbm ∧
    (u.region w.region).block (w.bind.keyOff w.key) =
      drop.foldl List.erase ((s.region w.region).block (w.bind.keyOff w.key)) ++ [s.entryOf w vals] ∧
    (u.region w.region).committed = (s.region w.region).committed ∧
    (∀ o, o ≠ w.bind.keyOff w.key → (u.region w.region).block o = (s.region w.region).block o)

section
variable (hop : s.worldOp id = some w) (hkind : w.kind = .wst vals) (hfences : s.fencesAllow w.group w.thread w.seq true = true)
include hop hkind hfences

theorem State.stages_of_stage {i : Instr} {drop : List RingEntry} (hi : s.Decides id w i)
    (hstage : (s.regionOf w).stage w.region w.bind w.key w.inst = .stage drop) : s.Stages id w vals i drop := by
  refine ⟨s.staged w vals drop, ?_, ?_, State.staged_hbm drop, ?_, ?_, fun o ho => ?_⟩
  · rw [exec_of_decides hop hkind hfences hi (by simp [hstage]), State.stageNow_of_stage hstage]
  · rw [State.staged_worldOps, State.id_of_worldOp hop]
  · rw [State.region_staged, Region.block_put_same]
  · rw [State.region_staged, Region.put_committed]
  · rw [State.region_staged, Region.block_put_other _ _ _ ho]

theorem State.refuses_of_stage {i : Instr} {c : Nat} (hi : s.Decides id w i)
    (hstage : (s.regionOf w).stage w.region w.bind w.key w.inst = .refuse c) : s.Refuses id w i c w.key := by
  refine State.refuses_of_exec hop (OrderOnly.refl s) ?_
  rw [exec_of_decides hop hkind hfences hi (by simp [hstage])]
  simp only [State.stageNow, hstage]

theorem State.waits_of_stage (hwait : w.ringWait = false) (hbehind : s.recordBehind w = false)
    (hstage : (s.regionOf w).stage w.region w.bind w.key w.inst = .wait) :
    exec (.wstStage id) s = .next (s.onWorld id fun x => { x with ringWait := true }) := by
  rw [exec_wstStage hop hkind hfences hwait hbehind]
  simp only [State.stageNow, hstage, State.id_of_worldOp hop]

end
end

/-! ## Commits (R134, R148) -/

@[simp] theorem State.releaseLoads_regions (s : State) (region : Nat) : (s.releaseLoads region).regions = s.regions := rfl

@[simp] theorem State.releaseLoads_worldOps_length (s : State) (region : Nat) : (s.releaseLoads region).worldOps.length = s.worldOps.length :=
  List.length_map _

section
variable {s : State} {region t key : Nat} {rels : List Rel}

theorem State.commitRegion_below {c : Nat} (h : ((s.region region).under region key key).committed = some c) (hlt : t < c) :
    s.commitRegion region t key rels = (s, false) := by
  simp only [State.commitRegion, h, if_pos hlt]

theorem State.commitRegion_same (h : ((s.region region).under region key key).committed = some t) :
    s.commitRegion region t key rels = (s, true) := by
  simp only [State.commitRegion, h, if_neg (Nat.lt_irrefl t), if_true]

theorem State.commitRegion_above (h : ∀ c, ((s.region region).under region key key).committed = some c → c < t) :
    s.commitRegion region t key rels = ((s.onRegion region fun r => r.commit t key rels).releaseLoads region, true) := by
  unfold State.commitRegion
  split
  · next c hc =>
    have hlt := h c hc
    rw [if_neg (by omega), if_neg (by omega)]
  · rfl

end

/-- Settling the fences of the thread of `w` leaves what a commit reads of its region. -/
theorem State.committed_settled (s : State) (w : WorldOp) :
    let v := s.settleFences w.group w.thread
    let k := v.keyAt w.spots w.bind.base
    ((v.region w.region).under w.region k k).committed = (s.regionOf w).committed := by
  obtain ⟨cur, groups, hframe⟩ := (OrderOnly.settleFences s w.group w.thread).frame
  simp only [hframe]
  rfl

section
variable {s : State} {id : Nat} {w : WorldOp} (hop : s.worldOp id = some w) (hkind : w.kind = .wcommit)
  (hfences : s.fencesAllow w.group w.thread w.seq true = true) (hearlier : s.earlierDone w.group w.thread w.seq .package = true)
include hop hkind hfences hearlier

theorem exec_wcommitPerform :
    let v := s.settleFences w.group w.thread
    let r := v.commitRegion w.region w.inst (v.keyAt w.spots w.bind.base) (v.commitRels w)
    exec (.wcommitPerform id) s = .next (if r.2 then r.1.dropWorldOp id else v.refuseWorld w Cause.worder w.inst) := by
  show execWcommitPerform id s = _
  simp [execWcommitPerform, hop, hkind, hfences, hearlier]

theorem State.commit_refused (hbelow : ∃ c, (s.regionOf w).committed = some c ∧ w.inst < c) :
    s.Refuses id w (.wcommitPerform id) Cause.worder w.inst := by
  obtain ⟨c, hc, hlt⟩ := hbelow
  refine State.refuses_of_exec hop (OrderOnly.settleFences s w.group w.thread) ?_
  rw [exec_wcommitPerform hop hkind hfences hearlier, State.commitRegion_below ((State.committed_settled s w).trans hc) hlt]
  rfl

theorem State.commit_again (hsame : (s.regionOf w).committed = some w.inst) :
    ∃ u, exec (.wcommitPerform id) s = .next u ∧ u.worldOps = s.worldOps.filter (fun x => x.id != id) ∧ u.regions = s.regions := by
  have hv := OrderOnly.settleFences s w.group w.thread
  refine ⟨(s.settleFences w.group w.thread).dropWorldOp id, ?_, ?_, hv.regions⟩
  · rw [exec_wcommitPerform hop hkind hfences hearlier, State.commitRegion_same ((State.committed_settled s w).trans hsame)]
    rfl
  · exact congrArg (List.filter _) hv.worldOps

/-- A commit above the committed instant sets it, publishes the entries at or below it, and is done. -/
theorem State.commit_performed (habove : ∀ c, (s.regionOf w).committed = some c → c < w.inst) :
    ∃ u rels, exec (.wcommitPerform id) s = .next u ∧
      u.region w.region = (s.region w.region).commit w.inst (s.keyAt w.spots w.bind.base) rels ∧
      u.worldOps.length ≤ s.worldOps.length ∧ u.worldOp id = none := by
  have hv := OrderOnly.settleFences s w.group w.thread
  have hexec := exec_wcommitPerform hop hkind hfences hearlier
  simp only [State.commitRegion_above fun c hc => habove c ((State.committed_settled s w).symm.trans hc), if_true] at hexec
  refine ⟨_, (s.settleFences w.group w.thread).commitRels w, hexec, ?_, ?_, State.worldOp_eq_none (State.dropWorldOp_worldOps _ id)⟩
  · rw [State.region_congr (State.dropWorldOp_regions _ _), State.region_congr (State.releaseLoads_regions _ _), State.region_onRegion_same,
      State.region_congr hv.regions, hv.keyAt]
  · refine (List.length_filter_le _ _).trans ?_
    rw [State.releaseLoads_worldOps_length, State.onRegion_worldOps, hv.worldOps]

end

/-! ## Horizons (R144) -/

/-- A region whose table holds horizon `t` for group `g`. -/
def Region.withHorizon (r : Region) (g t : Nat) : Region := { r with horizons := Tab.put g t r.horizons }

section
variable {s : State} {id : Nat} {w : WorldOp} (hop : s.worldOp id = some w) (hkind : w.kind = .whor)
  (hfences : s.fencesAllow w.group w.thread w.seq true = true)
include hop hkind hfences

theorem exec_whorPerform_new (hnew : Tab.find w.group (s.region w.region).horizons = none) :
    exec (.whorPerform id) s = if 30 ≤ (s.region w.region).horizons.length then .next (s.refuseWorld w Cause.wretain w.inst)
      else .next ((s.onRegion w.region fun r => r.withHorizon w.group w.inst).dropWorldOp id) := by
  show execWhorPerform id s = _
  simp [execWhorPerform, hop, hkind, hfences, hnew, Region.withHorizon]

theorem exec_whorPerform_held {h : Nat} (hheld : Tab.find w.group (s.region w.region).horizons = some h) :
    exec (.whorPerform id) s = .next ((s.onRegion w.region fun r => r.withHorizon w.group (max h w.inst)).dropWorldOp id) := by
  show execWhorPerform id s = _
  simp [execWhorPerform, hop, hkind, hfences, hheld, Region.withHorizon]

theorem State.horizon_refused (hnew : Tab.find w.group (s.region w.region).horizons = none)
    (hfull : 30 ≤ (s.region w.region).horizons.length) : s.Refuses id w (.whorPerform id) Cause.wretain w.inst := by
  refine State.refuses_of_exec hop (OrderOnly.refl s) ?_
  rw [exec_whorPerform_new hop hkind hfences hnew, if_pos hfull]

/-- The horizon of `w` takes effect as `t`: that of its group's entry or, where the table has room, that of a new one. -/
theorem State.horizon_set {t : Nat}
    (ht : Tab.find w.group (s.region w.region).horizons = none ∧ (s.region w.region).horizons.length < 30 ∧ t = w.inst ∨
      ∃ h, Tab.find w.group (s.region w.region).horizons = some h ∧ t = max h w.inst) :
    ∃ u, exec (.whorPerform id) s = .next u ∧ u.worldOps = s.worldOps.filter (fun x => x.id != id) ∧
      u.region w.region = (s.region w.region).withHorizon w.group t := by
  refine ⟨(s.onRegion w.region fun r => r.withHorizon w.group t).dropWorldOp id, ?_, rfl, ?_⟩
  · rcases ht with ⟨hnew, hroom, rfl⟩ | ⟨h, hheld, rfl⟩
    · rw [exec_whorPerform_new hop hkind hfences hnew, if_neg (Nat.not_le.mpr hroom)]
    · rw [exec_whorPerform_held hop hkind hfences hheld]
  · rw [State.region_congr (State.dropWorldOp_regions _ _), State.region_onRegion_same]

end

/-! ## The obligation -/

/-- Settles O42: a load by the zone of its instant and by the rules of the change that its result makes to its thread; a record by its fate;
commits and horizons by what each makes of the region. -/
theorem instantUnits : Obligations.InstantUnits := by
  refine ⟨?_, ?_⟩
  · intro s id w nw vd pd hop hkind
    refine ⟨fun hresult hblocked hbehind hfences => ?_, ?_, ?_, ?_⟩
    · have hready (n : Bool) (hn : nw = n) : Classifiable s id w n := ⟨hop, ⟨vd, pd, hn ▸ hkind⟩, hresult, hblocked, hbehind, hfences⟩
      refine ⟨State.classify_far (hready nw rfl), fun hfar hwait => ⟨?_, ?_⟩, fun e₀ eₙ hfirst hlast hfar hnear => ⟨?_, ?_⟩⟩
      · exact fun hn => State.classify_noWait hfar (hready true hn) hwait
      · exact fun hn => State.classify_waits hfar (hready false hn) hwait
      · exact State.classify_gone hfar hfirst hlast hnear (hready nw rfl)
      · exact State.classify_data hfar hfirst hlast hnear (hready nw rfl)
    · exact State.cycle_ends hop
    · exact State.timeout_ends hop
    · intro hfirst hplaced hreturn hthere hvd
      refine ⟨fun st vals hres => ?_, fun c hres => ?_⟩
      · obtain ⟨hvreg, hregs, hloads, hwstat, hpred⟩ := State.deliverLoad_done (pd := pd) hthere hvd st vals
        refine ⟨_, exec_wldComplete hop hkind hres hfirst hplaced hreturn,
          ⟨hvreg.trans ?_, State.deliverLoad_regions _ _ _ _ _, hregs, State.id_of_worldOp hop ▸ hloads⟩, hwstat, hpred⟩
        exact apply_ite (Option.getD · _) (st < 2) _ none
      · obtain ⟨⟨hvreg, hregs, hloads⟩, hfault⟩ := State.deliverLoad_fault (pd := pd) hthere hvd c
        exact ⟨_, exec_wldComplete hop hkind hres hfirst hplaced hreturn,
          ⟨hvreg, State.deliverLoad_regions _ _ _ _ _, hregs, State.id_of_worldOp hop ▸ hloads⟩, hfault⟩
  · intro s id w hop hfences
    refine ⟨fun vals i hkind hi => ?_, fun hkind hearlier => ?_, fun hkind => ?_⟩
    · intro ring off e staged late free
      refine ⟨fun hlate => ?_, fun hlate hroom => ?_, fun hlate hfull hfree => ?_, fun hlate hfull hkept hpolicy => ?_,
        fun hlate hfull hkept hpolicy hwait => ?_⟩
      · exact State.refuses_of_stage hop hkind hfences hi (Region.stage_late hlate)
      · exact State.stages_of_stage hop hkind hfences hi (Region.stage_room hlate hroom)
      · exact State.stages_of_stage hop hkind hfences hi (Region.stage_oldest hlate hfull hfree)
      · exact State.refuses_of_stage hop hkind hfences hi (Region.stage_retain hlate hfull hkept hpolicy)
      · rcases hi with ⟨-, -, hbehind⟩ | ⟨-, hwaits⟩
        · exact State.waits_of_stage hop hkind hfences hwait hbehind (Region.stage_wait hlate hfull hkept hpolicy)
        · exact absurd (hwait.symm.trans hwaits) Bool.false_ne_true
    · exact ⟨fun c hc hlt => State.commit_refused hop hkind hfences hearlier ⟨c, hc, hlt⟩,
        State.commit_again hop hkind hfences hearlier, State.commit_performed hop hkind hfences hearlier⟩
    · refine ⟨State.horizon_refused hop hkind hfences, fun hnew hroom => ?_, fun h hheld => ?_⟩
      · exact State.horizon_set hop hkind hfences (.inl ⟨hnew, hroom, rfl⟩)
      · exact State.horizon_set hop hkind hfences (.inr ⟨h, hheld, rfl⟩)

end Sys2Proof.Machine
end

section
/-! PROOFS. A word that the decoder accepts is, but for P, the word that the encoder gives to what it decodes to (spec 08 R204, R207-R213).
For every format of R208 and R211, and for every set of operands that a function of that format uses, one lemma says that the fields read
from bits [23:0] of a word add up to those bits when its reserved fields are zero. -/

namespace Sys2Proof

/-! ## Codes: a code that names something is its code -/

theorem Cond.eq_code_ofCode {n : Nat} (h : n < 8) : n = (Cond.ofCode n).code := by interval_cases n <;> rfl
theorem ShiftKind.eq_code_ofCode {n : Nat} (h : n < 4) : n = (ShiftKind.ofCode n).code := by interval_cases n <;> rfl
theorem LoadWidth.eq_code_ofCode {n : Nat} (h : n < 8) : n = (LoadWidth.ofCode n).code := by interval_cases n <;> rfl
theorem AmoOp.eq_code_ofCode {n : Nat} (h : n < 8) : n = (AmoOp.ofCode n).code := by interval_cases n <;> rfl
theorem FConv.eq_code_ofCode {n : Nat} (h : n < 8) : n = (FConv.ofCode n).code := by interval_cases n <;> rfl
theorem FCond.eq_code_ofCode {n : Nat} (h : n < 4) : n = (FCond.ofCode n).code := by interval_cases n <;> rfl

theorem StoreWidth.code_eq_of_ofCode {n : Nat} {x : StoreWidth} (h : ofCode n = some x) : n = x.code := by
  unfold ofCode at h; split at h <;> cases h <;> rfl
theorem FenceScope.code_eq_of_ofCode {n : Nat} {x : FenceScope} (h : ofCode n = some x) : n = x.code := by
  unfold ofCode at h; split at h <;> cases h <;> rfl
theorem FenceKind.code_eq_of_ofCode {n : Nat} {x : FenceKind} (h : ofCode n = some x) : n = x.code := by
  unfold ofCode at h; split at h <;> cases h <;> rfl
theorem ElemType.code_eq_of_ofCode {n : Nat} {x : ElemType} (h : ofCode n = some x) : n = x.code := by
  unfold ofCode at h; split at h <;> cases h <;> rfl
theorem VCond.code_eq_of_ofCode {n : Nat} {x : VCond} (h : ofCode n = some x) : n = x.code := by
  unfold ofCode at h; split at h <;> cases h <;> rfl
theorem RedOp.code_eq_of_ofCode {n : Nat} {x : RedOp} (h : ofCode n = some x) : n = x.code := by
  unfold ofCode at h; split at h <;> cases h <;> rfl
theorem RoundSel.code_eq_of_ofCode {n : Nat} {x : RoundSel} (h : ofCode n = some x) : n = x.code := by
  unfold ofCode at h; split at h <;> cases h <;> rfl

/-! ## Fields: what is read at a place and put back there is the word's bits there -/

theorem e17_f7 (o : Nat) : e17 (f7 17 o) = bitsOf 23 17 o * 2 ^ 17 := rfl
theorem e13_f7 (o : Nat) : e13 (f7 13 o) = bitsOf 19 13 o * 2 ^ 13 := rfl
theorem e11_f7 (o : Nat) : e11 (f7 11 o) = bitsOf 17 11 o * 2 ^ 11 := rfl
theorem e10_f7 (o : Nat) : e10 (f7 10 o) = bitsOf 16 10 o * 2 ^ 10 := rfl
theorem e9s_f7 (o : Nat) : e9s (f7 9 o) = bitsOf 15 9 o * 2 ^ 9 := rfl
theorem e6_f7 (o : Nat) : e6 (f7 6 o) = bitsOf 12 6 o * 2 ^ 6 := rfl
theorem e4_f7 (o : Nat) : e4 (f7 4 o) = bitsOf 10 4 o * 2 ^ 4 := rfl
theorem e3_f7 (o : Nat) : e3 (f7 3 o) = bitsOf 9 3 o * 2 ^ 3 := rfl
theorem e9_f8 (o : Nat) : e9 (f8 9 o) = bitsOf 16 9 o * 2 ^ 9 := rfl
theorem e21_f3 (o : Nat) : e21 (f3 21 o) = bitsOf 23 21 o * 2 ^ 21 := rfl
theorem e18_f3 (o : Nat) : e18 (f3 18 o) = bitsOf 20 18 o * 2 ^ 18 := rfl
theorem e17p_f3 (o : Nat) : e17p (f3 17 o) = bitsOf 19 17 o * 2 ^ 17 := rfl
theorem e15_f3 (o : Nat) : e15 (f3 15 o) = bitsOf 17 15 o * 2 ^ 15 := rfl
theorem e18w_f2 (o : Nat) : e18w (f2 18 o) = bitsOf 19 18 o * 2 ^ 18 := rfl
theorem e8_f2 (o : Nat) : e8 (f2 8 o) = bitsOf 9 8 o * 2 ^ 8 := rfl
theorem e20_f4 (o : Nat) : e20 (f4 20 o) = bitsOf 23 20 o * 2 ^ 20 := rfl
theorem e17v_f4 (o : Nat) : e17v (f4 17 o) = bitsOf 20 17 o * 2 ^ 17 := rfl
theorem e16_f4 (o : Nat) : e16 (f4 16 o) = bitsOf 19 16 o * 2 ^ 16 := rfl
theorem e12_f4 (o : Nat) : e12 (f4 12 o) = bitsOf 15 12 o * 2 ^ 12 := rfl
theorem e10v_f4 (o : Nat) : e10v (f4 10 o) = bitsOf 13 10 o * 2 ^ 10 := rfl
theorem e9v_f4 (o : Nat) : e9v (f4 9 o) = bitsOf 12 9 o * 2 ^ 9 := rfl
theorem e8v_f4 (o : Nat) : e8v (f4 8 o) = bitsOf 11 8 o * 2 ^ 8 := rfl
theorem e6v_f4 (o : Nat) : e6v (f4 6 o) = bitsOf 9 6 o * 2 ^ 6 := rfl

theorem bitsOf_lt (hi lo o : Nat) : bitsOf hi lo o < 2 ^ (hi + 1 - lo) := Nat.mod_lt _ (Nat.two_pow_pos _)

theorem bitsOf_low (hi o : Nat) : bitsOf hi 0 o = (BitVec.ofNat (hi + 1) o).toNat := by simp [bitsOf]

theorem bitNat_bitOf (i o : Nat) : bitNat (bitOf i o) = o / 2 ^ i % 2 := by
  unfold bitNat bitOf
  split <;> rename_i h <;> simp only [beq_iff_eq] at h <;> omega

/-! ## Decoders: every instruction that a decoder gives has the word -/

/-- Every instruction that the decoder's answer `d` can be has the word `x`. -/
def Encodes (x : Option Nat) (d : Option Instr) : Prop := ∀ i, d = some i → encodeNat i = x

/-! In the rules for a single instruction, `word` makes a word of bits [23:0], and `a` is the sum that the encoder writes there. -/

namespace Encodes
variable {word : Nat → Option Nat} {x : Option Nat} {o r n : Nat} {α : Type}

theorem none : Encodes x none := fun _ h => nomatch h

theorem some {i : Instr} {a : Nat} (h : a = o) (hi : encodeNat i = word a := by exact rfl) : Encodes (word o) (some i) :=
  fun _ hj => Option.some.inj hj ▸ h ▸ hi

/-- R213: an instruction with reserved fields needs to have the word only where they are zero. -/
theorem zero {i : Instr} {a : Nat} (h : r = 0 → a = o) (hi : encodeNat i = word a := by exact rfl) : Encodes (word o) (zero r i) := by
  unfold Sys2Proof.zero
  split
  · exact some (h ‹_›) hi
  · exact none

theorem bind {c : Option α} {f : α → Option Instr} (h : ∀ t, c = Option.some t → Encodes x (f t)) : Encodes x (c.bind f) := by
  cases c with
  | none => exact none
  | some t => exact h t rfl

theorem map {c : Option α} {f : α → Instr} {a : α → Nat} (h : ∀ t, c = Option.some t → a t = o)
    (hi : ∀ t, encodeNat (f t) = word (a t) := by exact fun _ => rfl) : Encodes (word o) (c.map f) := by
  cases c with
  | none => exact none
  | some t => exact some (h t rfl) (hi t)

/-- A V-word with a type field and no reserved field. -/
theorem typed {f : ElemType → Instr} {a : ElemType → Nat} (h : ∀ t, n = t.code → a t = o)
    (hi : ∀ t, encodeNat (f t) = word (a t) := by exact fun _ => rfl) : Encodes (word o) ((ElemType.ofCode n).map f) :=
  map (fun t ht => h t (ElemType.code_eq_of_ofCode ht)) hi

/-- A V-word with a type field and reserved fields. -/
theorem typedZero {f : ElemType → Instr} {a : ElemType → Nat} (h : ∀ t, n = t.code → r = 0 → a t = o)
    (hi : ∀ t, encodeNat (f t) = word (a t) := by exact fun _ => rfl) :
    Encodes (word o) ((ElemType.ofCode n).bind fun t => Sys2Proof.zero r (f t)) :=
  bind fun t ht => zero (h t (ElemType.code_eq_of_ofCode ht)) (hi t)

end Encodes

/-! ## Majors: each gives only instructions whose word it is

`o` stands for bits [23:0] of the word, `k` and `c` for the codes of its function, condition, operation, scope, kind or source type, `t`
for that of its element type. A layout's name is its format and the operands that the function uses; `hz` says that the reserved fields
are zero. -/

section
variable {o k c t : Nat} (ho : o < 2 ^ 24)
include ho

/-! ### The S-class formats (R208) -/

theorem sr_dab (hk : bitsOf 2 0 o = k) : e17 (f7 17 o) + e10 (f7 10 o) + e3 (f7 3 o) + k = o := by
  simp only [e17_f7, e10_f7, e3_f7, bitsOf] at *; omega

theorem sr_dab_flags (hz : bitsOf 2 2 o = 0) :
    e17 (f7 17 o) + e10 (f7 10 o) + e3 (f7 3 o) + bitNat (bitOf 1 o) * 2 + bitNat (bitOf 0 o) = o := by
  simp only [e17_f7, e10_f7, e3_f7, bitNat_bitOf, bitsOf] at *; omega

theorem sr_da (hk : bitsOf 2 0 o = k) (hz : bitsOf 9 3 o = 0) : e17 (f7 17 o) + e10 (f7 10 o) + k = o := by
  simp only [e17_f7, e10_f7, bitsOf] at *; omega

theorem sr_da_noFunction (hz : bitsOf 9 0 o = 0) : e17 (f7 17 o) + e10 (f7 10 o) = o := by
  simp only [e17_f7, e10_f7, bitsOf] at *; omega

theorem sr_d (hk : bitsOf 2 0 o = k) (hz : bitsOf 16 3 o = 0) : e17 (f7 17 o) + k = o := by
  simp only [e17_f7, bitsOf] at *; omega

theorem sr_a (hk : bitsOf 2 0 o = k) (hz : bitsOf 23 17 o + bitsOf 9 3 o = 0) : e10 (f7 10 o) + k = o := by
  simp only [e10_f7, bitsOf, Nat.add_eq_zero_iff] at *; omega

theorem sr_noOperand (hk : bitsOf 2 0 o = k) (hz : bitsOf 23 3 o = 0) : k = o := by
  simp only [bitsOf] at *; omega

theorem sr_test (hk : bitsOf 2 0 o = k) (hz : bitsOf 23 20 o + bitsOf 9 3 o = 0) : e17p (f3 17 o) + e10 (f7 10 o) + k = o := by
  simp only [e17p_f3, e10_f7, bitsOf, Nat.add_eq_zero_iff] at *; omega

theorem sr_vtake (hk : bitsOf 2 0 o = k) (hz : bitsOf 23 21 o + bitsOf 16 14 o + bitsOf 9 3 o = 0) :
    e17v (f4 17 o) + e10v (f4 10 o) + k = o := by
  simp only [e17v_f4, e10v_f4, bitsOf, Nat.add_eq_zero_iff] at *; omega

theorem sr_vhold (hk : bitsOf 2 0 o = k) (hz : bitsOf 23 14 o + bitsOf 9 3 o = 0) : e10v (f4 10 o) + k = o := by
  simp only [e10v_f4, bitsOf, Nat.add_eq_zero_iff] at *; omega

theorem si_da : e17 (f7 17 o) + e10 (f7 10 o) + (BitVec.ofNat 10 o).toNat = o := by
  simp only [e17_f7, e10_f7, BitVec.toNat_ofNat, bitsOf] at *; omega

theorem si_shift (hk : bitsOf 9 8 o = k) (hz : bitsOf 7 6 o = 0) :
    e17 (f7 17 o) + e10 (f7 10 o) + k * 2 ^ 8 + (BitVec.ofNat 6 o).toNat = o := by
  simp only [e17_f7, e10_f7, BitVec.toNat_ofNat, bitsOf] at *; omega

theorem sl_d : e17 (f7 17 o) + (BitVec.ofNat 17 o).toNat = o := by
  simp only [e17_f7, BitVec.toNat_ofNat, bitsOf] at *; omega

theorem sb_p : e21 (f3 21 o) + bitNat (bitOf 20 o) * 2 ^ 20 + (BitVec.ofNat 20 o).toNat = o := by
  simp only [e21_f3, bitNat_bitOf, BitVec.toNat_ofNat, bitsOf] at *; omega

theorem sj_disp : (BitVec.ofNat 24 o).toNat = o := by
  simp only [BitVec.toNat_ofNat] at *; omega

theorem sc_ab (hk : bitsOf 2 0 o = k) (hz : bitsOf 20 17 o = 0) : e21 (f3 21 o) + e10 (f7 10 o) + e3 (f7 3 o) + k = o := by
  simp only [e21_f3, e10_f7, e3_f7, bitsOf] at *; omega

theorem sc_ab_precision (hk : bitsOf 1 0 o = k) (hz : bitsOf 20 17 o = 0) :
    e21 (f3 21 o) + e10 (f7 10 o) + e3 (f7 3 o) + bitNat (bitOf 2 o) * 4 + k = o := by
  simp only [e21_f3, e10_f7, e3_f7, bitNat_bitOf, bitsOf] at *; omega

theorem sci_a (hk : bitsOf 20 18 o = k) (hz : bitsOf 17 17 o = 0) :
    e21 (f3 21 o) + k * 2 ^ 18 + e10 (f7 10 o) + (BitVec.ofNat 10 o).toNat = o := by
  simp only [e21_f3, e10_f7, BitVec.toNat_ofNat, bitsOf] at *; omega

theorem sp_dab (hk : bitsOf 2 0 o = k) (hz : bitsOf 14 3 o = 0) : e21 (f3 21 o) + e18 (f3 18 o) + e15 (f3 15 o) + k = o := by
  simp only [e21_f3, e18_f3, e15_f3, bitsOf] at *; omega

theorem sp_da (hk : bitsOf 2 0 o = k) (hz : bitsOf 17 3 o = 0) : e21 (f3 21 o) + e18 (f3 18 o) + k = o := by
  simp only [e21_f3, e18_f3, bitsOf] at *; omega

theorem sp_d (hk : bitsOf 2 0 o = k) (hz : bitsOf 20 3 o = 0) : e21 (f3 21 o) + k = o := by
  simp only [e21_f3, bitsOf] at *; omega

theorem sf_scope (hc : bitsOf 23 21 o = c) (hk : bitsOf 20 19 o = k) (hz : bitsOf 17 0 o = 0) :
    c * 2 ^ 21 + k * 2 ^ 19 + bitNat (bitOf 18 o) * 2 ^ 18 = o := by
  simp only [bitNat_bitOf, bitsOf] at *; omega

theorem sq_a (hz : bitsOf 20 17 o + bitsOf 9 0 o = 0) : e21 (f3 21 o) + e10 (f7 10 o) = o := by
  simp only [e21_f3, e10_f7, bitsOf, Nat.add_eq_zero_iff] at *; omega

theorem ss_s (hk : bitsOf 1 0 o = k) (hz : bitsOf 8 2 o = 0) : e17 (f7 17 o) + e9 (f8 9 o) + k = o := by
  simp only [e17_f7, e9_f8, bitsOf] at *; omega

theorem sx_d (hz : bitsOf 16 10 o = 0) : e17 (f7 17 o) + (BitVec.ofNat 10 o).toNat = o := by
  simp only [e17_f7, BitVec.toNat_ofNat, bitsOf] at *; omega

theorem sx_a (hz : bitsOf 23 17 o = 0) : e10 (f7 10 o) + (BitVec.ofNat 10 o).toNat = o := by
  simp only [e10_f7, BitVec.toNat_ofNat, bitsOf] at *; omega

theorem swl_vd (hk : bitsOf 3 3 o = k) :
    e20 (f4 20 o) + e18w (f2 18 o) + e11 (f7 11 o) + e4 (f7 4 o) + k * 8 + (BitVec.ofNat 3 o).toNat = o := by
  simp only [e20_f4, e18w_f2, e11_f7, e4_f7, BitVec.toNat_ofNat, bitsOf] at *; omega

theorem sws_vs (hz : bitsOf 3 0 o = 0) : e20 (f4 20 o) + e18w (f2 18 o) + e11 (f7 11 o) + e4 (f7 4 o) = o := by
  simp only [e20_f4, e18w_f2, e11_f7, e4_f7, bitsOf] at *; omega

theorem swc_a (hk : bitsOf 2 0 o = k) (hz : bitsOf 23 17 o + bitsOf 7 3 o = 0) : e10 (f7 10 o) + e8 (f2 8 o) + k = o := by
  simp only [e10_f7, e8_f2, bitsOf, Nat.add_eq_zero_iff] at *; omega

theorem swc_da (hk : bitsOf 2 0 o = k) (hz : bitsOf 7 3 o = 0) : e17 (f7 17 o) + e10 (f7 10 o) + e8 (f2 8 o) + k = o := by
  simp only [e17_f7, e10_f7, e8_f2, bitsOf] at *; omega

theorem swc_d (hk : bitsOf 2 0 o = k) (hz : bitsOf 16 10 o + bitsOf 7 3 o = 0) : e17 (f7 17 o) + e8 (f2 8 o) + k = o := by
  simp only [e17_f7, e8_f2, bitsOf, Nat.add_eq_zero_iff] at *; omega

theorem sv_ab (hk : bitsOf 2 0 o = k) (hz : bitsOf 19 17 o = 0) : e20 (f4 20 o) + e10 (f7 10 o) + e3 (f7 3 o) + k = o := by
  simp only [e20_f4, e10_f7, e3_f7, bitsOf] at *; omega

/-! ### The V-class formats (R211) -/

theorem vr_dabm (ht : bitsOf 7 4 o = t) (hk : bitsOf 3 0 o = k) :
    e20 (f4 20 o) + e16 (f4 16 o) + e12 (f4 12 o) + e8v (f4 8 o) + t * 16 + k = o := by
  simp only [e20_f4, e16_f4, e12_f4, e8v_f4, bitsOf] at *; omega

theorem vr_dam (ht : bitsOf 7 4 o = t) (hk : bitsOf 3 0 o = k) (hz : bitsOf 15 12 o = 0) :
    e20 (f4 20 o) + e16 (f4 16 o) + e8v (f4 8 o) + t * 16 + k = o := by
  simp only [e20_f4, e16_f4, e8v_f4, bitsOf] at *; omega

theorem vr_dam_source (ht : bitsOf 7 4 o = t) (hc : bitsOf 15 12 o = c) (hk : bitsOf 3 0 o = k) :
    e20 (f4 20 o) + e16 (f4 16 o) + c * 2 ^ 12 + e8v (f4 8 o) + t * 16 + k = o := by
  simp only [e20_f4, e16_f4, e8v_f4, bitsOf] at *; omega

theorem vs_das_order (ht : bitsOf 8 5 o = t) (hk : bitsOf 4 1 o = k) :
    e20 (f4 20 o) + e16 (f4 16 o) + e9s (f7 9 o) + t * 32 + k * 2 + bitNat (bitOf 0 o) = o := by
  simp only [e20_f4, e16_f4, e9s_f7, bitNat_bitOf, bitsOf] at *; omega

theorem vs_das (ht : bitsOf 8 5 o = t) (hk : bitsOf 4 1 o = k) (hz : bitsOf 0 0 o = 0) :
    e20 (f4 20 o) + e16 (f4 16 o) + e9s (f7 9 o) + t * 32 + k * 2 = o := by
  simp only [e20_f4, e16_f4, e9s_f7, bitsOf] at *; omega

theorem vs_dab (ht : bitsOf 8 5 o = t) (hk : bitsOf 4 1 o = k) (hz : bitsOf 15 13 o + bitsOf 0 0 o = 0) :
    e20 (f4 20 o) + e16 (f4 16 o) + e9v (f4 9 o) + t * 32 + k * 2 = o := by
  simp only [e20_f4, e16_f4, e9v_f4, bitsOf, Nat.add_eq_zero_iff] at *; omega

theorem vs_da (ht : bitsOf 8 5 o = t) (hk : bitsOf 4 1 o = k) (hz : bitsOf 15 9 o + bitsOf 0 0 o = 0) :
    e20 (f4 20 o) + e16 (f4 16 o) + t * 32 + k * 2 = o := by
  simp only [e20_f4, e16_f4, bitsOf, Nat.add_eq_zero_iff] at *; omega

theorem vs_ds (ht : bitsOf 8 5 o = t) (hk : bitsOf 4 1 o = k) (hz : bitsOf 19 16 o + bitsOf 0 0 o = 0) :
    e20 (f4 20 o) + e9s (f7 9 o) + t * 32 + k * 2 = o := by
  simp only [e20_f4, e9s_f7, bitsOf, Nat.add_eq_zero_iff] at *; omega

theorem vs_d (ht : bitsOf 8 5 o = t) (hk : bitsOf 4 1 o = k) (hz : bitsOf 19 16 o + bitsOf 15 9 o + bitsOf 0 0 o = 0) :
    e20 (f4 20 o) + t * 32 + k * 2 = o := by
  simp only [e20_f4, bitsOf, Nat.add_eq_zero_iff] at *; omega

theorem vs_as (ht : bitsOf 8 5 o = t) (hk : bitsOf 4 1 o = k) (hz : bitsOf 23 20 o + bitsOf 0 0 o = 0) :
    e16 (f4 16 o) + e9s (f7 9 o) + t * 32 + k * 2 = o := by
  simp only [e16_f4, e9s_f7, bitsOf, Nat.add_eq_zero_iff] at *; omega

theorem vs_sa (ht : bitsOf 8 5 o = t) (hk : bitsOf 4 1 o = k) (hz : bitsOf 23 20 o + bitsOf 0 0 o = 0) :
    e9s (f7 9 o) + e16 (f4 16 o) + t * 32 + k * 2 = o := by
  simp only [e9s_f7, e16_f4, bitsOf, Nat.add_eq_zero_iff] at *; omega

theorem vm_db (ht : bitsOf 5 2 o = t) (hk : bitsOf 1 0 o = k) (hz : bitsOf 12 6 o = 0) : e20 (f4 20 o) + e13 (f7 13 o) + t * 4 + k = o := by
  simp only [e20_f4, e13_f7, bitsOf] at *; omega

theorem vm_dbs (ht : bitsOf 5 2 o = t) (hk : bitsOf 1 0 o = k) : e20 (f4 20 o) + e13 (f7 13 o) + e6 (f7 6 o) + t * 4 + k = o := by
  simp only [e20_f4, e13_f7, e6_f7, bitsOf] at *; omega

theorem vm_dbi (ht : bitsOf 5 2 o = t) (hz : bitsOf 12 10 o + bitsOf 1 1 o = 0) :
    e20 (f4 20 o) + e13 (f7 13 o) + e6v (f4 6 o) + t * 4 + bitNat (bitOf 0 o) = o := by
  simp only [e20_f4, e13_f7, e6v_f4, bitNat_bitOf, bitsOf, Nat.add_eq_zero_iff] at *; omega

/-! ### The S-class majors with a function field (R209) -/

theorem decS00_encodes : Encodes (sWord 0x00 o) (decS00 o) := by
  unfold decS00
  split
  case h_9 => exact .none
  all_goals exact .some (sr_dab ho ‹_›)

theorem decS01_encodes : Encodes (sWord 0x01 o) (decS01 o) := by
  unfold decS01
  split
  case h_9 => exact .none
  all_goals exact .some (sr_dab ho ‹_›)

theorem decS02_encodes : Encodes (sWord 0x02 o) (decS02 o) := by
  unfold decS02
  split
  case h_9 => exact .none
  case h_6 | h_7 | h_8 => exact .zero (sr_da ho ‹_›)
  all_goals exact .some (sr_dab ho ‹_›)

theorem decS03_encodes : Encodes (sWord 0x03 o) (decS03 o) := by
  unfold decS03
  split
  case h_9 => exact .none
  case h_7 | h_8 => exact .some (sr_dab ho ‹_›)
  all_goals exact .zero (sr_da ho ‹_›)

theorem decS15_encodes : Encodes (sWord 0x0F o) (decS15 o) := by
  unfold decS15
  split
  case h_8 => exact .none
  case h_5 => exact .zero (sp_da ho ‹_›)
  case h_6 | h_7 => exact .zero (sp_d ho ‹_›)
  all_goals exact .zero (sp_dab ho ‹_›)

theorem decS39_encodes : Encodes (sWord 0x27 o) (decS39 o) := by
  unfold decS39
  split
  case h_9 => exact .none
  case h_7 => exact .zero (sr_da ho ‹_›)
  all_goals exact .some (sr_dab ho ‹_›)

theorem decS40_encodes : Encodes (sWord 0x28 o) (decS40 o) := by
  unfold decS40
  split
  case h_9 => exact .none
  case h_7 => exact .zero (sr_da ho ‹_›)
  all_goals exact .some (sr_dab ho ‹_›)

theorem decS44_encodes : Encodes (sWord 0x2C o) (decS44 o) := by
  unfold decS44
  split
  case h_3 => exact .none
  all_goals exact .zero (sr_da ho ‹_›)

theorem decS45_encodes : Encodes (sWord 0x2D o) (decS45 o) := by
  unfold decS45
  split
  case h_3 => exact .none
  all_goals exact .some (sr_dab ho ‹_›)

theorem decS46_encodes : Encodes (sWord 0x2E o) (decS46 o) := by
  unfold decS46
  split
  case h_3 => exact .none
  all_goals exact .zero (sv_ab ho ‹_›)

theorem decS47_encodes : Encodes (sWord 0x2F o) (decS47 o) := by
  unfold decS47
  split
  case h_9 => exact .none
  case h_1 | h_2 | h_3 => exact .zero (sr_d ho ‹_›)
  case h_4 | h_6 => exact .zero (sr_a ho ‹_›)
  case h_5 => exact .zero (sr_da ho ‹_›)
  case h_7 | h_8 => exact .zero (sr_noOperand ho ‹_›)

theorem decS48_encodes : Encodes (sWord 0x30 o) (decS48 o) := by
  unfold decS48
  split
  case h_6 => exact .none
  case h_1 => exact .zero (sr_da ho ‹_›)
  case h_2 => exact .zero (sr_a ho ‹_›)
  case h_3 => exact .zero (sr_test ho ‹_›)
  case h_4 => exact .zero (sr_vtake ho ‹_›)
  case h_5 => exact .zero (sr_vhold ho ‹_›)

theorem decS49_encodes : Encodes (sWord 0x31 o) (decS49 o) := by
  unfold decS49
  split
  case h_3 => exact .none
  case h_1 | h_2 => exact .some (swl_vd ho ‹_›)

theorem decS51_encodes : Encodes (sWord 0x33 o) (decS51 o) := by
  unfold decS51
  split
  case h_6 => exact .none
  case h_4 => exact .zero (swc_da ho ‹_›)
  case h_5 => exact .zero (swc_d ho ‹_›)
  all_goals exact .zero (swc_a ho ‹_›)

theorem decS52_encodes : Encodes (sWord 0x34 o) (decS52 o) := by
  unfold decS52
  split
  case h_4 => exact .none
  case h_1 => exact .some (sr_dab ho ‹_›)
  all_goals exact .zero (sr_a ho ‹_›)

theorem decS53_encodes : Encodes (sWord 0x35 o) (decS53 o) := by
  unfold decS53
  split
  case h_5 => exact .none
  all_goals exact .zero (ss_s ho ‹_›)

theorem decS57_encodes : Encodes (sWord 0x39 o) (decS57 o) := by
  unfold decS57
  split
  case h_9 => exact .none
  case h_2 | h_7 | h_8 => exact .zero (sr_a ho ‹_›)
  case h_5 => exact .zero (sr_d ho ‹_›)
  all_goals exact .zero (sr_noOperand ho ‹_›)

/-! ### The V-class majors with a function field (R212) -/

theorem decV00_encodes : Encodes (vWord 0x00 o) (decV00 o) := by
  unfold decV00
  split
  case h_16 => exact .none
  all_goals exact .typed fun _ ht => vr_dabm ho ht ‹_›

theorem decV01_encodes : Encodes (vWord 0x01 o) (decV01 o) := by
  unfold decV01
  split
  case h_16 => exact .none
  all_goals exact .typed fun _ ht => vs_das_order ho ht ‹_›

theorem decV02_encodes : Encodes (vWord 0x02 o) (decV02 o) := by
  unfold decV02
  split
  case h_4 => exact .none
  all_goals exact .typed fun _ ht => vr_dabm ho ht ‹_›

theorem decV03_encodes : Encodes (vWord 0x03 o) (decV03 o) := by
  unfold decV03
  split
  case h_13 => exact .none
  all_goals exact .typedZero fun _ ht hz => vr_dam ho ht ‹_› hz

theorem decV05_encodes : Encodes (vWord 0x05 o) (decV05 o) := by
  unfold decV05
  split
  case h_2 => exact .none
  all_goals exact .typed fun _ ht => vr_dabm ho ht ‹_›

theorem decV07_encodes : Encodes (vWord 0x07 o) (decV07 o) := by
  unfold decV07
  split
  case h_5 => exact .none
  case h_1 => exact .typedZero fun _ ht hz => vs_ds ho ht ‹_› hz
  case h_4 =>
    split
    case isTrue ht => exact .zero (vs_ds ho ht ‹_›)
    case isFalse => exact .none
  all_goals exact .typedZero fun _ ht hz => vs_d ho ht ‹_› hz

theorem decV09_encodes : Encodes (vWord 0x09 o) (decV09 o) := by
  unfold decV09
  split
  case h_6 => exact .none
  case h_1 | h_5 => exact .typedZero fun _ ht hz => vs_da ho ht ‹_› hz
  all_goals exact .typedZero fun _ ht hz => vs_sa ho ht ‹_› hz

theorem decV10_encodes : Encodes (vWord 0x0A o) (decV10 o) := by
  unfold decV10
  split
  case h_7 => exact .none
  case h_4 => exact .typedZero fun _ ht hz => vs_dab ho ht ‹_› hz
  case h_5 | h_6 => exact .typedZero fun _ ht hz => vs_da ho ht ‹_› hz
  all_goals exact .typedZero fun _ ht hz => vs_das ho ht ‹_› hz

theorem decV11_encodes : Encodes (vWord 0x0B o) (decV11 o) := by
  unfold decV11
  split
  case h_5 => exact .none
  case h_1 | h_3 => exact .typedZero fun _ ht hz => vm_db ho ht ‹_› hz
  case h_2 | h_4 => exact .typed fun _ ht => vm_dbs ho ht ‹_›

theorem decV12_encodes : Encodes (vWord 0x0C o) (decV12 o) := by
  unfold decV12
  split
  case h_5 => exact .none
  case h_1 | h_3 => exact .typedZero fun _ ht hz => vm_db ho ht ‹_› hz
  case h_2 | h_4 => exact .typed fun _ ht => vm_dbs ho ht ‹_›

/-! ### The opcode maps (R209, R212); case `h_n` is major n - 1 -/

theorem decodeS_encodes (m : Nat) : Encodes (sWord m o) (decodeS m o) := by
  unfold decodeS
  split
  case h_1 => exact decS00_encodes ho
  case h_2 => exact decS01_encodes ho
  case h_3 => exact decS02_encodes ho
  case h_4 => exact decS03_encodes ho
  case h_16 => exact decS15_encodes ho
  case h_40 => exact decS39_encodes ho
  case h_41 => exact decS40_encodes ho
  case h_45 => exact decS44_encodes ho
  case h_46 => exact decS45_encodes ho
  case h_47 => exact decS46_encodes ho
  case h_48 => exact decS47_encodes ho
  case h_49 => exact decS48_encodes ho
  case h_50 => exact decS49_encodes ho
  case h_52 => exact decS51_encodes ho
  case h_53 => exact decS52_encodes ho
  case h_54 => exact decS53_encodes ho
  case h_58 => exact decS57_encodes ho
  case h_5 | h_8 => exact .some (sr_dab ho (bitsOf_low 2 o))
  case h_6 => exact .zero (sc_ab ho (Cond.eq_code_ofCode (bitsOf_lt 2 0 o)))
  case h_7 => exact .zero (sci_a ho (Cond.eq_code_ofCode (bitsOf_lt 20 18 o)))
  case h_13 => exact .zero (si_shift ho (ShiftKind.eq_code_ofCode (bitsOf_lt 9 8 o)))
  case h_14 | h_15 => exact .some (sl_d ho)
  case h_30 => exact .some (sr_dab ho (LoadWidth.eq_code_ofCode (bitsOf_lt 2 0 o)))
  case h_31 => exact .map fun _ hw => sr_dab ho (StoreWidth.code_eq_of_ofCode hw)
  case h_32 | h_33 => exact .some (sr_dab ho (AmoOp.eq_code_ofCode (bitsOf_lt 2 0 o)))
  case h_34 | h_35 | h_42 => exact .zero (sr_dab_flags ho)
  case h_36 =>
    refine .bind fun scope hs => .bind fun kind hk => .zero fun hz => ?_
    exact sf_scope ho (FenceScope.code_eq_of_ofCode hs) (FenceKind.code_eq_of_ofCode hk) hz
  case h_37 => exact .some (sb_p ho)
  case h_38 => exact .some (sj_disp ho)
  case h_39 => exact .zero (sr_da_noFunction ho)
  case h_43 => exact .zero (sr_da ho (FConv.eq_code_ofCode (bitsOf_lt 2 0 o)))
  case h_44 => exact .zero (sc_ab_precision ho (FCond.eq_code_ofCode (bitsOf_lt 1 0 o)))
  case h_51 => exact .zero (sws_vs ho)
  case h_55 => exact .zero (sq_a ho)
  case h_56 => exact .zero (sx_d ho)
  case h_57 => exact .zero (sx_a ho)
  case h_59 => exact .none
  all_goals exact .some (si_da ho)

theorem decodeV_encodes (m : Nat) : Encodes (vWord m o) (decodeV m o) := by
  unfold decodeV
  split
  case h_1 => exact decV00_encodes ho
  case h_2 => exact decV01_encodes ho
  case h_3 => exact decV02_encodes ho
  case h_4 => exact decV03_encodes ho
  case h_6 => exact decV05_encodes ho
  case h_8 => exact decV07_encodes ho
  case h_10 => exact decV09_encodes ho
  case h_11 => exact decV10_encodes ho
  case h_12 => exact decV11_encodes ho
  case h_13 => exact decV12_encodes ho
  case h_5 =>
    refine .bind fun t ht => .map fun c hc => ?_
    exact vr_dabm ho (ElemType.code_eq_of_ofCode ht) (VCond.code_eq_of_ofCode hc)
  case h_7 =>
    refine .bind fun t ht => .bind fun src hs => .map fun r hr => ?_
    exact vr_dam_source ho (ElemType.code_eq_of_ofCode ht) (ElemType.code_eq_of_ofCode hs) (RoundSel.code_eq_of_ofCode hr)
  case h_9 =>
    refine .bind fun t ht => .bind fun op hop => .zero fun hz => ?_
    exact vs_as ho (ElemType.code_eq_of_ofCode ht) (RedOp.code_eq_of_ofCode hop) hz
  case h_14 | h_15 => exact .typedZero fun _ ht hz => vm_dbi ho ht hz
  case h_16 => exact .none

end

/-! ## Words -/

/-- A number that decodes encodes back to its low 31 bits: a V-class word has bit [31] clear, and that of an S-class word is P. -/
theorem decodeNat_encodes (n : Nat) : Encodes (some (n % 2 ^ 31)) (decodeNat n) := by
  have ho : bitsOf 23 0 n < 2 ^ 24 := bitsOf_lt 23 0 n
  unfold decodeNat
  split
  case isTrue h30 =>
    split
    case isTrue => exact .none
    case isFalse h31 =>
      have hword : vWord (bitsOf 29 24 n) (bitsOf 23 0 n) = some (n % 2 ^ 31) := by
        simp only [vWord, bitsOf, bitOf, beq_iff_eq] at *; congr 1; omega
      exact hword ▸ decodeV_encodes ho _
  case isFalse h30 =>
    have hword : sWord (bitsOf 29 24 n) (bitsOf 23 0 n) = some (n % 2 ^ 31) := by
      simp only [sWord, bitsOf, bitOf, beq_iff_eq] at *; congr 1; omega
    exact hword ▸ decodeS_encodes ho _

theorem ofNat_low31_eq_and (w : Code) : BitVec.ofNat 32 (w.toNat % 2 ^ 31) = w &&& 0x7FFFFFFF#32 := by
  apply BitVec.eq_of_toNat_eq
  rw [BitVec.toNat_and, BitVec.toNat_ofNat, ← Nat.and_two_pow_sub_one_eq_mod w.toNat 31]
  exact Nat.mod_eq_of_lt (Nat.and_lt_two_pow _ (by decide))

/-- R213: the trap of a word that is not assigned. -/
theorem exec_unassignedEncoding (w : Code) (s : Machine.State) :
    Machine.exec (.unassignedEncoding w) s = .next (s.takeTrap Machine.Cause.illegal (w.setWidth 64)) := rfl

/-- Settles O27: the fields of an accepted word add up to the word without P, format by format; a word that is not accepted stands for
the unassigned encoding, whose effect is the trap. -/
theorem encodeDecode : Obligations.EncodeDecode := by
  refine ⟨fun w i hi => ?_, fun w s hw => ?_⟩
  · rw [encode, decodeNat_encodes w.toNat i hi, Option.map_some, ofNat_low31_eq_and]
  · have hinstr : Machine.instrOf w = .unassignedEncoding w := by rw [Machine.instrOf, hw, Option.getD_none]
    exact ⟨hinstr, hinstr ▸ exec_unassignedEncoding w s⟩

end Sys2Proof
end

section
/-! PROOFS. Division: the value that each of the four forms writes, with its zero divisor and its one overflowing case, and the effect of
each (spec 09 R229). -/

namespace Sys2Proof.Machine

/-! ## The signed quotient and remainder as integers -/

theorem toInt_eq_neg_two_pow_63_iff {x : Word} : x.toInt = -2 ^ 63 ↔ x = BitVec.intMin 64 :=
  BitVec.toInt_inj (y := BitVec.intMin 64)

theorem toInt_eq_neg_one_iff {x : Word} : x.toInt = -1 ↔ x = -1#64 :=
  BitVec.toInt_inj (y := -1#64)

/-- The signed quotient, over a zero divisor, in the one overflowing case and in every other. -/
theorem toInt_sdiv_cases (x y : Word) : (x.sdiv y).toInt =
    if y = 0#64 then 0 else if x.toInt = -2 ^ 63 ∧ y.toInt = -1 then -2 ^ 63 else x.toInt.tdiv y.toInt := by
  split
  case isTrue hzero => rw [hzero, BitVec.sdiv_zero, BitVec.toInt_zero]
  case isFalse =>
    simp only [toInt_eq_neg_two_pow_63_iff, toInt_eq_neg_one_iff]
    split
    case isTrue hover => rw [hover.1, hover.2, BitVec.intMin_sdiv_neg_one]; exact toInt_eq_neg_two_pow_63_iff.mpr rfl
    case isFalse hover => exact BitVec.toInt_sdiv_of_ne_or_ne x y (not_and_or.mp hover)

/-- The signed remainder is what the quotient leaves; in the one overflowing case that is 0, with no case of its own. -/
theorem toInt_srem_cases (x y : Word) : (x.srem y).toInt =
    if y = 0#64 then x.toInt else x.toInt - y.toInt * x.toInt.tdiv y.toInt := by
  split
  case isTrue hzero => rw [hzero, BitVec.srem_zero]
  case isFalse => rw [BitVec.toInt_srem, Int.tmod_def]

/-! ## The four forms -/

/-- What a division does when nothing stops it, for each form whose meaning writes the value of `f` and sets the flag of its divisor. -/
theorem exec_division {i : Instr} {d a b : SReg} {s : State} (f : Word → Word → Word) (h : Clear i s)
    (hexec : exec i s = effect i s fun s => (s.wr d (f (s.rd a) (s.rd b))).orFlags (divFlags (s.rd b))) :
    exec i s = .next ((s.wr d (f (s.rd a) (s.rd b))).orFlags (if s.rd b = 0#64 then dz else 0#5)) :=
  hexec.trans (effect_clear h _)

/-- Settles O2: each form by its effect and by the integer that its quotient or remainder stands for; the unsigned forms have the zero
divisor in the division of naturals, where x / 0 = 0 and x % 0 = x. -/
theorem division : Obligations.Division := by
  intro d a b s
  refine ⟨fun h => ?div, fun h => ?divu, fun h => ?rem, fun h => ?remu⟩
  case div => exact ⟨_, exec_division BitVec.sdiv h rfl, toInt_sdiv_cases _ _⟩
  case divu => exact ⟨_, exec_division BitVec.udiv h rfl, BitVec.toNat_udiv⟩
  case rem => exact ⟨_, exec_division BitVec.srem h rfl, toInt_srem_cases _ _⟩
  case remu => exact ⟨_, exec_division BitVec.umod h rfl, BitVec.toNat_umod⟩

end Sys2Proof.Machine
end

section
/-! PROOFS. The head of a command queue: what a change of it, its halt and its end do to it and to the rest of the machine (spec 04 R126;
08 R218, R219; 12 R319; 19 R379). -/

namespace Sys2Proof.Machine

/-! ## Cores, clusters and dies changed -/

@[simp] theorem State.core_onCore_same (s : State) (c : Nat) (f : Core → Core) : (s.onCore c f).core c = f (s.core c) :=
  Tab.get_alter_same _ c f s.cores
@[simp] theorem State.cluster_onCluster_same (s : State) (k : Nat) (f : Cluster → Cluster) : (s.onCluster k f).cluster k = f (s.cluster k) :=
  Tab.get_alter_same _ k f s.clus
@[simp] theorem State.die_onDie_same (s : State) (d : Nat) (f : Die → Die) : (s.onDie d f).die d = f (s.die d) :=
  Tab.get_alter_same _ d f s.dies

theorem State.core_congr {s u : State} (h : u.cores = s.cores) (c : Nat) : u.core c = s.core c := by simp only [State.core, h]
theorem State.die_congr {s u : State} (h : u.dies = s.dies) (d : Nat) : u.die d = s.die d := by simp only [State.die, h]

/-! ## The head of a queue -/

theorem State.queue_onQueue_same (s : State) (core q : Nat) {f : List Cmd → List Cmd} (hnil : f [] = []) :
    (s.onQueue core q f).queue core q = f (s.queue core q) := by
  simp only [State.queue, State.onQueue, State.core_onCore_same]
  rcases Nat.lt_or_ge q (s.core core).queues.length with h | h
  · exact modifyNth_getD_same _ _ _ _ h
  · rw [modifyNth_getD_of_le _ _ h, List.getD_eq_default _ _ h, hnil]

@[simp] theorem State.headCmd_onHead_same (s : State) (core q : Nat) (f : Cmd → Cmd) :
    (s.onHead core q f).headCmd core q = (s.headCmd core q).map f := by
  rw [State.headCmd, State.onHead, State.queue_onQueue_same _ _ _ rfl, State.headCmd]
  cases s.queue core q <;> rfl

theorem State.headCmd_congr {s u : State} {core : Nat} (h : (u.core core).queues = (s.core core).queues) (q : Nat) :
    u.headCmd core q = s.headCmd core q := by
  simp only [State.headCmd, State.queue, h]

@[simp] theorem State.qerr_onHead (s : State) (core q : Nat) (f : Cmd → Cmd) : ((s.onHead core q f).core core).qerr = (s.core core).qerr := by
  rw [State.onHead, State.onQueue, State.core_onCore_same]

/-! ## A running head -/

variable {s : State} {core q op : Nat} {m : Cmd} {i : Instr}

theorem withStarted_running (h : Running s core q op m) (k : Cmd → Out) : withStarted s core q op k = k m := by
  simp [withStarted, h.head, h.op, h.started, h.going, h.free, h.sound]

theorem State.headCmd_doneHead {t : State} (h : t.headCmd core q = some m) :
    (t.doneHead core q).headCmd core q = some { m with done := true } := by
  simp [State.doneHead, h]

/-! ## The halt (R218, R219) -/

@[simp] theorem State.headCmd_dropPass (s : State) (core q : Nat) :
    (s.dropPass core q).headCmd core q = (s.headCmd core q).map fun m => { m with pass := .none } :=
  State.headCmd_onHead_same s core q _

@[simp] theorem State.qerr_dropPass (s : State) (core q : Nat) : ((s.dropPass core q).core core).qerr = (s.core core).qerr :=
  State.qerr_onHead s core q _

@[simp] theorem State.fqWait_dropPass (s : State) (core q : Nat) :
    ((s.dropPass core q).die (dieOfCore core)).fqWait = (s.die (dieOfCore core)).fqWait := by
  rw [State.dropPass, State.die_onDie_same]
  rfl

/-- The machine with the halt of head `m` marked in the command, its edge and its pass, before `c.qerr` takes the record. -/
def State.haltHead (s : State) (core q cause : Nat) (m : Cmd) : State :=
  { s.dropPass core q with edges := s.edges.filter (·.id != m.id) }.onHead core q fun m =>
    { m with haltCause := some cause, started := false, edge := none, closed := false }

/-- The machine with the halt in `c.qerr` too, unless that holds a record, before anything is posted. -/
def State.recordHalt (s : State) (core q cause : Nat) (m : Cmd) : State :=
  if (s.core core).qerr.getLsbD 0 then s.haltHead core q cause m
  else (s.haltHead core q cause m).onCore core fun c => { c with qerr := qerrOf m.op q cause }

theorem State.headCmd_haltHead (cause : Nat) (h : s.headCmd core q = some m) : (s.haltHead core q cause m).headCmd core q =
    some { m with haltCause := some cause, started := false, pass := .none, edge := none, closed := false } := by
  have hpass : (s.dropPass core q).headCmd core q = some { m with pass := .none } := by simp [h]
  exact (State.headCmd_onHead_same _ core q _).trans (congrArg (Option.map _) ((State.headCmd_congr rfl q).trans hpass))

theorem State.qerr_haltHead (s : State) (core q cause : Nat) (m : Cmd) :
    ((s.haltHead core q cause m).core core).qerr = (s.core core).qerr :=
  (State.qerr_onHead _ core q _).trans (State.qerr_dropPass s core q)

/-- Outside cores, dies and edges the marks of a halt leave the machine as it was. -/
theorem State.recordHalt_frame (s : State) (core q cause : Nat) (m : Cmd) : ∃ cores dies,
    s.recordHalt core q cause m = { s with cores := cores, dies := dies, edges := s.edges.filter (·.id != m.id) } := by
  unfold State.recordHalt
  split <;> exact ⟨_, _, rfl⟩

theorem State.headCmd_recordHalt (cause : Nat) (h : s.headCmd core q = some m) : (s.recordHalt core q cause m).headCmd core q =
    some { m with haltCause := some cause, started := false, pass := .none, edge := none, closed := false } := by
  rw [← State.headCmd_haltHead cause h, State.recordHalt]
  split
  · rfl
  · exact State.headCmd_congr (by rw [State.core_onCore_same]) q

theorem State.qerr_recordHalt (s : State) (core q cause : Nat) (m : Cmd) : ((s.recordHalt core q cause m).core core).qerr =
    if (s.core core).qerr.getLsbD 0 then (s.core core).qerr else qerrOf m.op q cause := by
  rw [State.recordHalt]
  split
  · exact State.qerr_haltHead s core q cause m
  · rw [State.core_onCore_same]

theorem State.fqWait_recordHalt (s : State) (core q cause : Nat) (m : Cmd) :
    ((s.recordHalt core q cause m).die (dieOfCore core)).fqWait = (s.die (dieOfCore core)).fqWait := by
  rw [← State.fqWait_dropPass s core q, State.recordHalt]
  split <;> rfl

theorem State.fqWait_queueFault (s : State) (die : Nat) (r : FaultRec) :
    ((s.queueFault die r).die die).fqWait = (s.die die).fqWait ++ [{ r with id := s.nextId }] := by
  rw [State.queueFault, State.die_congr (State.fresh_dies _), State.die_onDie_same]

/-- What a halt posts: `ENGINE` in the command's thread. -/
theorem State.haltQueue_of_head {cause : Nat} (h : s.headCmd core q = some m) (hcause : cause ≠ 6) :
    s.haltQueue core q cause = (s.recordHalt core q cause m).postTrap m.group m.thread Cause.engine 0#64 := by
  rw [State.haltQueue, h]
  simp only [if_neg hcause]
  rw [State.recordHalt, ← State.qerr_haltHead s core q cause m]
  rfl

/-- What a halt with cause 6 posts: a machine check about the command's thread, whose posting raises `RESIDUE` there (R379). -/
theorem State.haltQueue_residue (h : s.headCmd core q = some m) : ∃ r count,
    s.haltQueue core q 6 = { s.recordHalt core q 6 m with freeCount := count }.queueFault (dieOfCore core) r ∧
    r.kind = 4 ∧ r.cause = Cause.residue ∧ r.target = .trap m.group m.thread Cause.residue 0#64 none := by
  rw [State.haltQueue, h]
  simp only [if_true]
  rw [State.recordHalt, ← State.qerr_haltHead s core q 6 m]
  exact ⟨_, _, rfl, rfl, rfl, rfl⟩

/-- A step of a running head that halts its queue, with a cause other than 6, does what `Halts` says. -/
theorem halts_of_exec {cause : Nat} (hrun : Running s core q op m) (hcause : cause ≠ 6)
    (hexec : exec i s = .next (s.haltQueue core q cause)) : Halts i s core q m cause := by
  obtain ⟨cores, dies, hframe⟩ := State.recordHalt_frame s core q cause m
  have hhead := State.headCmd_recordHalt cause hrun.head
  have hqerr := State.qerr_recordHalt s core q cause m
  have hcores : ∀ t : State, (t.postTrap m.group m.thread Cause.engine 0#64).cores = t.cores := fun t => State.onThread_cores t _ _ _
  refine ⟨_, hexec, ?_⟩
  rw [State.haltQueue_of_head hrun.head hcause]
  refine ⟨?head, ?qerr, ?edges, ?hbm, ?hostMem, fun hthere hexited hcancel _ => ?posted, fun h => absurd h hcause⟩
  case head => rw [State.headCmd_congr (congrArg Core.queues (State.core_congr (hcores _) core)), hhead]
  case qerr => rw [State.core_congr (hcores _), hqerr]
  case edges => exact (State.onThread_edges _ _ _ _).trans (by rw [hframe])
  case hbm => exact (State.onThread_hbm _ _ _ _).trans (by rw [hframe])
  case hostMem => exact (State.onThread_hostMem _ _ _ _).trans (by rw [hframe])
  case posted => rw [hframe]; exact State.posted_postTrap Cause.engine 0#64 hthere hexited hcancel

/-- A step of a running head that halts its queue for malformed words (R319) does what `Halts` says. -/
theorem haltsMalformed_of_exec (hrun : Running s core q op m) (hexec : exec i s = .next (s.haltQueue core q 7)) :
    Halts i s core q m 7 := halts_of_exec hrun (by decide) hexec

/-- A step of a running head that halts its queue with cause 6 does what `Halts` says. -/
theorem haltsResidue_of_exec (hrun : Running s core q op m) (hexec : exec i s = .next (s.haltQueue core q 6)) : Halts i s core q m 6 := by
  obtain ⟨cores, dies, hframe⟩ := State.recordHalt_frame s core q 6 m
  obtain ⟨r, count, hhalt, hkind, hcause, htarget⟩ := State.haltQueue_residue hrun.head
  refine ⟨_, hexec, ?_⟩
  rw [hhalt]
  refine ⟨State.headCmd_recordHalt 6 hrun.head, State.qerr_recordHalt s core q 6 m, ?edges, ?hbm, ?hostMem, fun _ _ _ hne => absurd rfl hne,
    fun _ => ⟨{ r with id := (s.recordHalt core q 6 m).nextId }, ?posted, hkind, hcause, htarget⟩⟩
  case edges => rw [hframe]; rfl
  case hbm => rw [hframe]; rfl
  case hostMem => rw [hframe]; rfl
  case posted =>
    rw [← State.fqWait_recordHalt s core q 6 m]
    exact State.fqWait_queueFault _ _ _

/-! ## Ends of a command (R126) -/

@[simp] theorem Eng.bind_ok {α β : Type} (x : α) (f : α → Eng β) : (Eng.ok x).bind f = f x := rfl

/-- A command that ends by a change of its cluster: the change, the mark on its head, and no other effect on memory or groups. -/
theorem next_onCluster_doneHead (hrun : Running s core q op m) {k : Nat} {f : Cluster → Cluster}
    (hexec : exec i s = .next ((s.onCluster k f).doneHead core q)) : ∃ u, exec i s = .next u ∧ u.cluster k = f (s.cluster k) ∧
      u.headCmd core q = some { m with done := true } ∧ u.hbm = s.hbm ∧ u.groups = s.groups :=
  ⟨_, hexec, State.cluster_onCluster_same s k f, State.headCmd_doneHead hrun.head, rfl, rfl⟩

/-- A command whose one write succeeds ends with what was written. -/
theorem ends_of_put {r : Eng State} (hexec : exec i s = unitOut s core q m (r.bind fun t => .ok (t.doneHead core q))) {t : State}
    (hput : r = .ok t) : Ends i s core q t := by
  rw [Ends, hexec, hput]
  rfl

end Sys2Proof.Machine
end

section
/-! PROOFS. The matrix commands, case by case, and the lease of the array (spec 07 R199-R203; 12 R320-R324). -/

namespace Sys2Proof.Machine

section
variable {s : State} {core q : Nat} {m : Cmd}

theorem Cmd.onlyW1_eq_true_iff {m : Cmd} {n : Nat} : m.onlyW1 n = true ↔ m.w1.toNat = n ∧ m.w2 = 0#64 ∧ m.w3 = 0#64 := by
  simp [Cmd.onlyW1, and_assoc]

/-- Words 2 and 3, or word 1, are not what a command with word 1 alone has there. -/
theorem Cmd.onlyW1_eq_false {m : Cmd} {n : Nat} (h : ¬(m.w2 = 0#64 ∧ m.w3 = 0#64) ∨ m.w1.toNat ≠ n) : m.onlyW1 n = false := by
  rw [← Bool.not_eq_true, Cmd.onlyW1_eq_true_iff]
  exact fun ⟨hw1, hrest⟩ => h.elim (· hrest) (· hw1)

/-! ## The lease (R320) -/

theorem exec_mxLease_malformed (hrun : Running s core q 1 m)
    (hbad : ¬(m.w2 = 0#64 ∧ m.w3 = 0#64) ∨ m.w1.toNat = 0 ∨ 64 < m.w1.toNat) :
    exec (.mxLease core q) s = .next (s.haltQueue core q 7) := by
  refine (withStarted_running hrun _).trans (if_pos ?_)
  rcases hbad with hrest | hzero | hmany
  · exact .inl (by rw [Cmd.onlyW1_eq_false (.inl hrest)]; rfl)
  · exact .inr (.inl (by omega))
  · exact .inr (.inr hmany)

/-- A well-formed lease command passes the check of its words. -/
theorem Cmd.lease_wellFormed {m : Cmd} (hw : m.w2 = 0#64 ∧ m.w3 = 0#64) (hone : 1 ≤ m.w1.toNat) (hmany : m.w1.toNat ≤ 64) :
    ¬((!m.onlyW1 m.w1.toNat) = true ∨ m.w1.toNat < 1 ∨ 64 < m.w1.toNat) := by
  rw [Cmd.onlyW1_eq_true_iff.mpr ⟨rfl, hw⟩]
  simp only [Bool.not_true, Bool.false_eq_true, false_or, not_or]
  omega

theorem exec_mxLease_renew (hrun : Running s core q 1 m) (hw : m.w2 = 0#64 ∧ m.w3 = 0#64) (hone : 1 ≤ m.w1.toNat)
    (hmany : m.w1.toNat ≤ 64) (hholds : s.holdsLease core m.group = true) :
    exec (.mxLease core q) s = .next ((s.onCluster (clusterOf core) fun c =>
      { c with lease := some ⟨m.group, core, m.w1.toNat⟩ }).doneHead core q) :=
  (withStarted_running hrun _).trans <| (if_neg (Cmd.lease_wellFormed hw hone hmany)).trans (if_pos hholds)

/-- A lease that nobody holds is not a group's. -/
theorem State.holdsLease_of_free (hfree : (s.cluster (clusterOf core)).lease = none) (g : Nat) : s.holdsLease core g = false := by
  rw [State.holdsLease, hfree]

theorem exec_mxLease_grant (hrun : Running s core q 1 m) (hw : m.w2 = 0#64 ∧ m.w3 = 0#64) (hone : 1 ≤ m.w1.toNat)
    (hmany : m.w1.toNat ≤ 64) (hfree : (s.cluster (clusterOf core)).lease = none) (hturn : s.leaseTurn (clusterOf core) = some core) :
    exec (.mxLease core q) s = .next ((s.onCluster (clusterOf core) fun c =>
      { c with lease := some ⟨m.group, core, m.w1.toNat⟩, lastLease := core % 16 }).doneHead core q) := by
  refine (withStarted_running hrun _).trans <| (if_neg (Cmd.lease_wellFormed hw hone hmany)).trans ?_
  rw [if_neg (by simp [State.holdsLease_of_free hfree]), if_neg (by simp [hfree, hturn])]
  rfl

theorem exec_mxFree_malformed (hrun : Running s core q 2 m) (hbad : m.onlyW1 0 = false) :
    exec (.mxFree core q) s = .next (s.haltQueue core q 7) :=
  (withStarted_running hrun _).trans (if_pos (by rw [hbad]; rfl))

theorem exec_mxFree_holder (hrun : Running s core q 2 m) (hw : m.onlyW1 0 = true) (hholds : s.holdsLease core m.group = true)
    (hdet : (s.core core).pool.det = false) :
    exec (.mxFree core q) s = .next ((s.onCluster (clusterOf core) fun c => { c with lease := none }).doneHead core q) :=
  (withStarted_running hrun _).trans <| (if_neg (by simp [hw])).trans (if_pos (by simp [hholds, hdet]))

theorem exec_mxFree_nothing (hrun : Running s core q 2 m) (hw : m.onlyW1 0 = true)
    (hkeep : s.holdsLease core m.group = false ∨ (s.core core).pool.det = true) :
    exec (.mxFree core q) s = .next (s.doneHead core q) :=
  (withStarted_running hrun _).trans <| (if_neg (by simp [hw])).trans (if_neg (by rcases hkeep with h | h <;> simp [h]))

/-! ## Clearing the accumulators (R321) -/

theorem exec_mxZero_malformed (hrun : Running s core q 3 m) (hbad : m.onlyW1 0 = false) :
    exec (.mxZero core q) s = .next (s.haltQueue core q 7) :=
  (withStarted_running hrun _).trans (if_pos (by rw [hbad]; rfl))

theorem exec_mxZero_clear (hrun : Running s core q 3 m) (hw : m.onlyW1 0 = true) :
    exec (.mxZero core q) s = .next ((s.onCluster (clusterOf core) fun c => { c with acc := [], kc := 0 }).doneHead core q) :=
  (withStarted_running hrun _).trans (if_neg (by simp [hw]))

/-! ## Products (R322, R323) -/

/-- What `MX.MUL` writes: the values of each block's products, at its destination. -/
theorem State.mulBlocks_of_values {bs : List (List Int × List Int)} {vs : List (List Int)}
    (hblocks : engAll (s.matBlocks core m) (List.range m.blocks) = .ok bs)
    (hvalues : bs.mapM (fun x => cellValues (blockRun (List.replicate cellCount {}) x.1 x.2)) = some vs) :
    s.mulBlocks core m = s.matPut core m (packed m.w3.toNat) (vs.flatMap intBytes) := by
  rw [State.mulBlocks, hblocks, Eng.bind_ok, hvalues]

theorem exec_mxMul_malformed (hrun : Running s core q 4 m) (hbad : m.matBad = true) :
    exec (.mxMul core q) s = .next (s.haltQueue core q 7) :=
  (withStarted_running hrun _).trans (if_pos hbad)

theorem exec_mxMul (hrun : Running s core q 4 m) (hok : m.matBad = false) :
    exec (.mxMul core q) s = unitOut s core q m ((s.mulBlocks core m).bind fun t => .ok (t.doneHead core q)) :=
  (withStarted_running hrun _).trans (if_neg (by simp [hok]))

/-- The cells of the array after the products of the blocks `bs`. -/
def State.accAfter (s : State) (core : Nat) (bs : List (List Int × List Int)) : List MatCell :=
  bs.foldl (fun cs x => blockRun cs x.1 x.2) (s.cluster (clusterOf core)).cells

theorem State.accBlocks_of_blocks {bs : List (List Int × List Int)} (hblocks : engAll (s.matBlocks core m) (List.range m.blocks) = .ok bs) :
    s.accBlocks core m = if (cellValues (s.accAfter core bs)).isNone then .halt 6 else .ok (s.accAfter core bs) := by
  rw [State.accBlocks, hblocks]
  rfl

theorem exec_mxAcc_malformed (hrun : Running s core q 5 m) (hbad : m.matBad = true) :
    exec (.mxAcc core q) s = .next (s.haltQueue core q 7) :=
  (withStarted_running hrun _).trans (if_pos hbad)

theorem exec_mxAcc_tooMany (hrun : Running s core q 5 m) (hok : m.matBad = false)
    (hmany : 65536 < (s.cluster (clusterOf core)).kc + 128 * m.blocks) : exec (.mxAcc core q) s = .next (s.haltQueue core q 5) :=
  (withStarted_running hrun _).trans <| (if_neg (by simp [hok])).trans (if_pos hmany)

theorem exec_mxAcc (hrun : Running s core q 5 m) (hok : m.matBad = false)
    (hfew : (s.cluster (clusterOf core)).kc + 128 * m.blocks ≤ 65536) :
    exec (.mxAcc core q) s = unitOut s core q m ((s.accBlocks core m).bind fun cs => .ok ((s.onCluster (clusterOf core) fun c =>
      { c with acc := tabOf cs, kc := c.kc + 128 * m.blocks }).doneHead core q)) :=
  (withStarted_running hrun _).trans <| (if_neg (by simp [hok])).trans (if_neg (Nat.not_lt.mpr hfew))

theorem exec_mxAcc_commit {bs : List (List Int × List Int)} (hrun : Running s core q 5 m) (hok : m.matBad = false)
    (hfew : (s.cluster (clusterOf core)).kc + 128 * m.blocks ≤ 65536)
    (hblocks : engAll (s.matBlocks core m) (List.range m.blocks) = .ok bs) (hvalues : cellValues (s.accAfter core bs) ≠ none) :
    exec (.mxAcc core q) s = .next ((s.onCluster (clusterOf core) fun c =>
      { c with acc := tabOf (s.accAfter core bs), kc := c.kc + 128 * m.blocks }).doneHead core q) := by
  rw [exec_mxAcc hrun hok hfew, State.accBlocks_of_blocks hblocks, if_neg (by simpa using hvalues)]
  rfl

theorem exec_mxAcc_residue {bs : List (List Int × List Int)} (hrun : Running s core q 5 m) (hok : m.matBad = false)
    (hfew : (s.cluster (clusterOf core)).kc + 128 * m.blocks ≤ 65536)
    (hblocks : engAll (s.matBlocks core m) (List.range m.blocks) = .ok bs) (hvalues : cellValues (s.accAfter core bs) = none) :
    exec (.mxAcc core q) s = .next (s.haltQueue core q 6) := by
  rw [exec_mxAcc hrun hok hfew, State.accBlocks_of_blocks hblocks, if_pos (by rw [hvalues]; rfl)]
  rfl

/-! ## Storing the accumulators (R324) -/

theorem exec_mxStore_malformed (hrun : Running s core q 6 m) (hbad : m.emitBad = true) :
    exec (.mxStore core q) s = .next (s.haltQueue core q 7) :=
  (withStarted_running hrun _).trans (if_pos hbad)

theorem exec_mxStore_residue (hrun : Running s core q 6 m) (hok : m.emitBad = false)
    (hvalues : cellValues (s.cluster (clusterOf core)).cells = none) : exec (.mxStore core q) s = .next (s.haltQueue core q 6) := by
  refine (withStarted_running hrun _).trans <| (if_neg (by simp [hok])).trans ?_
  rw [hvalues]

/-- The bytes that `MX.STORE` writes for the values of the array. -/
def Cmd.storeBytes (m : Cmd) (vs : List Int) : List Byte :=
  if bitOf 57 m.w1.toNat then vs.flatMap fun v => toBytesLE 4 (storeF32 (signedOf 16 m.w2.toNat) v) else intBytes vs

theorem exec_mxStore {vs : List Int} (hrun : Running s core q 6 m) (hok : m.emitBad = false)
    (hvalues : cellValues (s.cluster (clusterOf core)).cells = some vs) : exec (.mxStore core q) s =
      unitOut s core q m ((s.matPut core m m.src (m.storeBytes vs)).bind fun t => .ok (t.doneHead core q)) := by
  refine (withStarted_running hrun _).trans <| (if_neg (by simp [hok])).trans ?_
  rw [hvalues]
  rfl

theorem exec_mxRes_malformed (hrun : Running s core q 7 m) (hbad : m.emitBad = true) :
    exec (.mxRes core q) s = .next (s.haltQueue core q 7) :=
  (withStarted_running hrun _).trans (if_pos hbad)

theorem exec_mxRes (hrun : Running s core q 7 m) (hok : m.emitBad = false) : exec (.mxRes core q) s =
      unitOut s core q m ((s.matPut core m m.src ((s.cluster (clusterOf core)).cells.flatMap fun c => toBytesLE 8 c.word)).bind fun t =>
        .ok (t.doneHead core q)) :=
  (withStarted_running hrun _).trans (if_neg (by simp [hok]))

end

/-- Settles O48: each clause by the equation of its case; a halt does what every halt of a running head does, and a change of the array
leaves memory and groups alone. -/
theorem matrixCommands : Obligations.MatrixCommands := by
  intro s core q m k cells onlyW1 keeps stored
  have hbare (hw : onlyW1) (hzero : m.w1 = 0#64) : m.onlyW1 0 = true := Cmd.onlyW1_eq_true_iff.mpr ⟨by rw [hzero]; rfl, hw⟩
  have hnotBare (hbad : ¬ onlyW1 ∨ m.w1 ≠ 0#64) : m.onlyW1 0 = false := Cmd.onlyW1_eq_false (hbad.imp_right BitVec.toNat_ne_iff_ne.mpr)
  refine ⟨fun h => ?lease, fun h => ?free, fun h => ?zero, fun h => ?mul, fun h => ?acc, fun h => ?store, fun h => ?res⟩
  case lease =>
    exact ⟨fun hw hone hmany hholds => next_onCluster_doneHead h (exec_mxLease_renew h hw hone hmany hholds),
      fun hw hone hmany hfree hturn => next_onCluster_doneHead h (exec_mxLease_grant h hw hone hmany hfree hturn),
      fun hbad => haltsMalformed_of_exec h (exec_mxLease_malformed h hbad)⟩
  case free =>
    exact ⟨fun hw hzero hholds hdet => next_onCluster_doneHead h (exec_mxFree_holder h (hbare hw hzero) hholds hdet),
      fun hw hzero hkeep => exec_mxFree_nothing h (hbare hw hzero) hkeep,
      fun hbad => haltsMalformed_of_exec h (exec_mxFree_malformed h (hnotBare hbad))⟩
  case zero =>
    exact ⟨fun hw hzero => next_onCluster_doneHead h (exec_mxZero_clear h (hbare hw hzero)),
      fun hbad => haltsMalformed_of_exec h (exec_mxZero_malformed h (hnotBare hbad))⟩
  case mul =>
    exact ⟨fun hbad => haltsMalformed_of_exec h (exec_mxMul_malformed h hbad),
      fun bs hok hblocks vs hvs t hput => ends_of_put (exec_mxMul h hok) ((State.mulBlocks_of_values hblocks hvs).trans hput)⟩
  case acc =>
    exact ⟨fun hbad => haltsMalformed_of_exec h (exec_mxAcc_malformed h hbad),
      fun hok hmany => halts_of_exec h (by decide) (exec_mxAcc_tooMany h hok hmany),
      fun bs hok hfew hblocks => ⟨fun hvs => next_onCluster_doneHead h (exec_mxAcc_commit h hok hfew hblocks hvs),
        fun hvs => haltsResidue_of_exec h (exec_mxAcc_residue h hok hfew hblocks hvs)⟩⟩
  case store =>
    exact ⟨fun hbad => haltsMalformed_of_exec h (exec_mxStore_malformed h hbad),
      fun hok hvs => haltsResidue_of_exec h (exec_mxStore_residue h hok hvs),
      fun vs hok hvs => ⟨fun hint t hput => ends_of_put (exec_mxStore h hok hvs) (by rwa [Cmd.storeBytes, hint]),
        fun hf32 t hput => ends_of_put (exec_mxStore h hok hvs) (by rwa [Cmd.storeBytes, hf32])⟩⟩
  case res =>
    exact ⟨fun hbad => haltsMalformed_of_exec h (exec_mxRes_malformed h hbad), fun hok t hput => ends_of_put (exec_mxRes h hok) hput⟩

end Sys2Proof.Machine
end
